-- ==== Sys2Proof/Word.lean ====
section
/-!
DEFINITION. Word widths and the plainest word arithmetic (02 R39, R47: instructions and headers are little-endian
64-bit words; 01 R18: scalar registers hold 64 bits, lane registers 32; 01 R13: a lane mask has 96 bits).
-/

namespace Sys2Proof

abbrev Word := BitVec 64
abbrev Lane32 := BitVec 32
abbrev Byte := BitVec 8
/-- One bit for each of the 96 lanes of a gang; bit n is lane n (01 R14). -/
abbrev Mask := BitVec 96

/-- `bits(y, hi, lo)` of 00 "Pseudocode": the field hi:lo, zero-extended, here as a number. -/
def bitsN (y hi lo : Nat) : Nat := y / 2 ^ lo % 2 ^ (hi + 1 - lo)

/-- Field hi:lo of a word, as a number. -/
def Word.field (w : Word) (hi lo : Nat) : Nat := bitsN w.toNat hi lo

/-- The word with field hi:lo replaced by the low bits of `v`. -/
def Word.put (w : Word) (hi lo : Nat) (v : Nat) : Word :=
  let k := hi + 1 - lo
  BitVec.ofNat 64 (w.toNat - bitsN w.toNat hi lo * 2 ^ lo + v % 2 ^ k * 2 ^ lo)

/-- The low `8 * n` bits of `v` as `n` bytes, least significant first (00: `mem[a, n]` is little-endian). -/
def bytesOf (n v : Nat) : List Byte :=
  (List.range n).map fun i => BitVec.ofNat 8 (v / 2 ^ (8 * i))

/-- The number whose little-endian bytes are given. -/
def ofBytes : List Byte → Nat
  | [] => 0
  | b :: bs => b.toNat + 256 * ofBytes bs

end Sys2Proof
end

