-- ==== Sys2Proof/Syntax.lean ====
section
/-!
DEFINITION. The syntax: operand forms, the seven instruction formats of 02 R48, the data that events carry, and `Instr`,
the one inductive of everything that can be a step: one constructor for each row of spec/opcode_table.json.
An instruction carries the fields of its format; an event (a row that no instruction word encodes) carries who it befalls.
-/

namespace Sys2Proof

/-- The element types of 02 R49, in code order 0 to 17; codes 18 to 31 are reserved and name none. -/
inductive ETy
  | t4 | t6 | t8 | t16 | t32 | bf16 | fp16 | fp32 | i8 | i16 | i32 | i64 | n8 | n16 | n32 | n64 | b32 | b64
  deriving DecidableEq, Repr

/-- The special sources of 02 R53, codes 0xC0 to 0xE6. -/
inductive Special
  | zero | lane | lslice | beatlane | split | gang | teamx | teamy | teamz | thread | core | quarter
  | int (n : BitVec 4)
  | one | m1 | two | half | max | min | nar
  deriving DecidableEq, Repr

/-- What an 8-bit operand field names (02 R53). -/
inductive Operand
  | v (n : BitVec 7)
  | s (n : BitVec 6)
  | x (c : Special)
  deriving DecidableEq, Repr

/-- The common upper fields of every instruction word below the opcode (02 R47). -/
structure Ctl where
  la : BitVec 4
  ge : Bool
  gp : BitVec 3
  gn : Bool
  deriving DecidableEq, Repr

structure Tri where
  ctl : Ctl
  ty : ETy
  dst : Operand
  a : Operand
  b : Operand
  c : Operand
  mod : BitVec 8
  deriving DecidableEq, Repr

structure Imm where
  ctl : Ctl
  ty : ETy
  dst : Operand
  a : Operand
  mod : BitVec 8
  imm : BitVec 16
  deriving DecidableEq, Repr

structure Mem where
  ctl : Ctl
  ty : ETy
  data : Operand
  base : Operand
  space : BitVec 3
  scope : BitVec 3
  kind : BitVec 2
  offs : BitVec 16
  deriving DecidableEq, Repr

structure Br where
  ctl : Ctl
  cond : Operand
  sub : BitVec 5
  disp : BitVec 32
  deriving DecidableEq, Repr

structure Mat where
  ctl : Ctl
  tile : BitVec 6
  a : Operand
  b : Operand
  ta : ETy
  tb : ETy
  sprs : BitVec 3
  scl : BitVec 2
  mod : BitVec 8
  deriving DecidableEq, Repr

structure Cpy where
  ctl : Ctl
  layout : Operand
  dst : Operand
  a : Operand
  point : BitVec 5
  ring : BitVec 4
  mod : BitVec 12
  deriving DecidableEq, Repr

structure Sys where
  ctl : Ctl
  dst : Operand
  a : Operand
  sub : BitVec 8
  imm : BitVec 21
  deriving DecidableEq, Repr

/-- A completer's answer to a lane's AtomicOp (07 R173; 14 R253 codes 1 and 2). -/
inductive HostAnswer
  | accept | unsupported | abort
  deriving DecidableEq, Repr

/-- The response to a network send (22 R358). -/
inductive NetAnswer
  | accept | refuseFull | refuseDenied
  deriving DecidableEq, Repr

/-- Where one gang sits: core within the cluster, quarter, gang slot (16 R265). -/
structure Seat where
  core : Nat
  quarter : Nat
  slot : Nat
  deriving DecidableEq, Repr

/-- A placement the device chose: logical cluster, one seat a gang in gang order, Mortar colour and first line (17 R280). -/
structure Place where
  cluster : Nat
  seats : List Seat
  colour : Nat
  line : Nat
  deriving DecidableEq, Repr

/-- The tag of a brick (17 R268). -/
structure BrickTag where
  func : Nat
  tid : Nat
  brow : Nat
  bcol : Nat
  deriving DecidableEq, Repr

/-- A soft error (20 R327): the unit's code, the memory key of the sector or the function hit, and whether it was corrected. -/
structure EccError where
  unit : Nat
  key : Nat
  func : Nat
  corrected : Bool
  deriving DecidableEq, Repr

/-- What an agent outside the compute dies does to memory (22 R340, R349, R357). -/
inductive AgentOp
  | load | store | amoadd | amoswap | cas (expected : BitVec 64)
  deriving DecidableEq, Repr

structure AgentAccess where
  op : AgentOp
  addr : BitVec 48
  size : Nat
  data : BitVec 64
  deriving DecidableEq, Repr

/-- The link mode a host port negotiated (00 R6). -/
inductive PortMode
  | absent | pcie | cxl
  deriving DecidableEq, Repr

/-- A host snoop of a line (22 R348). -/
inductive SnoopKind
  | drop | downgrade
  deriving DecidableEq, Repr

/-- A Umermash packet: the header of 22 R355 and its payload words. -/
structure Packet where
  dpkg : BitVec 8
  spkg : BitVec 8
  kind : BitVec 4
  sfunc : BitVec 7
  dfunc : BitVec 7
  len : BitVec 6
  tag : BitVec 24
  mbox : BitVec 16
  addr : BitVec 48
  payload : List (BitVec 64)
  deriving DecidableEq, Repr

/-- A firmware image (24 R373): which of stages 0 to 5 it is for, its security version, whether its signature verifies, its digest. -/
structure FwImage where
  stage : Nat
  version : BitVec 16
  digest : BitVec 384
  /-- The public key it is to be verified with: x, then y. -/
  key : BitVec 768
  r : BitVec 384
  s : BitVec 384
  deriving DecidableEq, Repr

/-- One constructor for each row of spec/opcode_table.json, in the table's order. -/
inductive Instr
  /-- R42. The device fetches a clause header and all its words, raising fetch faults or ILLCLAUSE before any instruction issues. -/
  | clauseFetch (g sp : Nat)
  /-- R43. A split's clause-header counter and rendezvous waits become satisfied, and its first instruction may issue. -/
  | headerWaitSatisfied (g sp : Nat)
  /-- R261. When its previous clause ends or stalls, a quarter selects the resident gang with a ready split that has gone longest unselected. -/
  | issueOpportunity (q : Nat)
  /-- R84. A ready split passed over for 1024 consecutive issue opportunities takes the next one ahead of lower indices. -/
  | splitStarvationBound (g sp : Nat)
  /-- R22. An instruction stalled on a counter at 63 issues once completions bring the counter to 62 or below. -/
  | counterStallRelease (g sp : Nat)
  /-- R163. A load's data returns and is written to its destination, releasing dependent instructions. -/
  | loadDataReturn (g sp : Nat) (lanes : BitVec 96)
  /-- R56. An unassigned opcode raises ILLOP when its turn to issue comes. -/
  | unassignedOpcode (w : BitVec 64)
  /-- R86. Unconditional branch of the whole split. -/
  | br (f : Br)
  /-- R86. Branch of the whole split when a scalar source is nonzero. -/
  | brs (f : Br)
  /-- R86. Branch of the whole split when a scalar source is zero. -/
  | brz (f : Br)
  /-- R86. Branch of the whole split when the predicate holds in every active lane. -/
  | bra (f : Br)
  /-- R86. Branch of the whole split when the predicate holds in some active lane. -/
  | brl (f : Br)
  /-- R87. Divergent branch dividing the split by per-lane predicate, spawning minority groups. -/
  | brd (f : Br)
  /-- R90. Spawn branch handing predicated active lanes to Chafer as spawn records. -/
  | brsp (f : Br)
  /-- R86. Indirect branch of the whole split to a scalar target. -/
  | brx (f : Br)
  /-- R87. Divergent indirect branch dividing the split by per-lane target. -/
  | brxd (f : Br)
  /-- R86. Call writing the fall-through address to a link register and branching. -/
  | call (f : Br)
  /-- R86. Indirect call writing the link after reading the scalar target. -/
  | callx (f : Br)
  /-- R86. Return of the split to a scalar target address. -/
  | ret (f : Br)
  /-- R89. Meet at a clause start, holding the split until siblings merge or are held. -/
  | meet (f : Sys)
  /-- R89. A split held at a meet is released when no other entry remains unmerged or all others are held or parked. -/
  | meetHoldEnd (g sp : Nat)
  /-- R96. Included lanes stop being live and leave MEMBER, ACTIVE and the live-lane mask. -/
  | endLanes (f : Sys)
  /-- R96. No operation. -/
  | nop (f : Sys)
  /-- R386. The split yields at the end of its clause until the other ready splits have issued. -/
  | yield (f : Sys)
  /-- R99. Returns the number of live lanes of the gang. -/
  | gwidth (f : Sys)
  /-- R99. Returns the VALID bits of the split table and the current INDEX. -/
  | gsplits (f : Sys)
  /-- R99. Returns 32 MEMBER bits of a named split entry. -/
  | gmember (f : Sys)
  /-- R99. Returns 32 bits of the gang's live-lane mask. -/
  | gactive (f : Sys)
  /-- R99. Writes each included lane's count of included lanes below it. -/
  | lrank (f : Sys)
  /-- R99. Returns the lowest lane number in ACTIVE. -/
  | lfirst (f : Sys)
  /-- R100. Per-lane predicate AND. -/
  | pand (f : Tri)
  /-- R100. Per-lane predicate OR. -/
  | por (f : Tri)
  /-- R100. Per-lane predicate XOR. -/
  | pxor (f : Tri)
  /-- R100. Per-lane predicate AND NOT. -/
  | pandn (f : Tri)
  /-- R100. Per-lane predicate copy. -/
  | pmov (f : Tri)
  /-- R100. Sets a predicate from bits of three scalar sources. -/
  | pfroms (f : Tri)
  /-- R101. Writes 32 lanes of a predicate into a scalar register. -/
  | ptos (f : Tri)
  /-- R100. Sets a predicate if the source holds in any included lane. -/
  | vany (f : Tri)
  /-- R100. Sets a predicate if the source holds in every included lane. -/
  | vall (f : Tri)
  /-- R101. Writes a scalar mask of included lanes whose vector value is nonzero. -/
  | ballot (f : Tri)
  /-- R101. Counts included lanes where a predicate holds. -/
  | pcount (f : Tri)
  /-- R101. Returns the lowest included lane where a predicate holds. -/
  | pfind (f : Tri)
  /-- R112. Scalar add. -/
  | sadd (f : Tri)
  /-- R112. Scalar subtract. -/
  | ssub (f : Tri)
  /-- R112. Scalar multiply, low bits. -/
  | smul (f : Tri)
  /-- R112. Scalar multiply, high bits. -/
  | smulh (f : Tri)
  /-- R113. Scalar division truncating toward zero, never faulting. -/
  | sdiv (f : Tri)
  /-- R113. Scalar remainder, never faulting. -/
  | srem (f : Tri)
  /-- R112. Scalar AND. -/
  | sand (f : Tri)
  /-- R112. Scalar OR. -/
  | sor (f : Tri)
  /-- R112. Scalar XOR. -/
  | sxor (f : Tri)
  /-- R112. Scalar AND NOT. -/
  | sandn (f : Tri)
  /-- R113. Scalar shift left. -/
  | sshl (f : Tri)
  /-- R113. Scalar logical shift right. -/
  | sshr (f : Tri)
  /-- R113. Scalar arithmetic shift right. -/
  | ssra (f : Tri)
  /-- R112. Scalar minimum. -/
  | smin (f : Tri)
  /-- R112. Scalar maximum. -/
  | smax (f : Tri)
  /-- R112. Scalar compare writing 1 or 0. -/
  | scmp (f : Tri)
  /-- R112. Scalar select. -/
  | ssel (f : Tri)
  /-- R112. Scalar multiply-add, low bits. -/
  | smad (f : Tri)
  /-- R112. Scalar count of leading zeros. -/
  | sclz (f : Tri)
  /-- R112. Scalar population count. -/
  | spopc (f : Tri)
  /-- R114. Scalar bit-field extract. -/
  | sbfx (f : Tri)
  /-- R114. Scalar bit-field insert. -/
  | sbfi (f : Tri)
  /-- R115. Scalar add immediate. -/
  | saddi (f : Imm)
  /-- R115. Scalar AND immediate. -/
  | sandi (f : Imm)
  /-- R115. Scalar OR immediate. -/
  | sori (f : Imm)
  /-- R115. Scalar XOR immediate. -/
  | sxori (f : Imm)
  /-- R115. Scalar move immediate. -/
  | smovi (f : Imm)
  /-- R115. Replaces a 16-bit part of a 64-bit scalar with the immediate. -/
  | smovhi (f : Imm)
  /-- R115. Writes the instruction address plus a scaled immediate. -/
  | saddpc (f : Imm)
  /-- R115. Scalar compare against an immediate. -/
  | scmpi (f : Imm)
  /-- R116. Vector integer add. -/
  | vadd (f : Tri)
  /-- R116. Vector integer subtract. -/
  | vsub (f : Tri)
  /-- R116. Vector integer multiply, low bits. -/
  | vmul (f : Tri)
  /-- R116. Vector integer multiply, high bits. -/
  | vmulh (f : Tri)
  /-- R116. Vector integer multiply-add. -/
  | vmad (f : Tri)
  /-- R116. Vector saturating add. -/
  | vaddsat (f : Tri)
  /-- R116. Vector saturating subtract. -/
  | vsubsat (f : Tri)
  /-- R116. Vector AND. -/
  | vand (f : Tri)
  /-- R116. Vector OR. -/
  | vor (f : Tri)
  /-- R116. Vector XOR. -/
  | vxor (f : Tri)
  /-- R116. Vector AND NOT. -/
  | vandn (f : Tri)
  /-- R116. Vector shift left. -/
  | vshl (f : Tri)
  /-- R116. Vector logical shift right. -/
  | vshr (f : Tri)
  /-- R116. Vector arithmetic shift right. -/
  | vsra (f : Tri)
  /-- R116. Vector integer minimum. -/
  | vmin (f : Tri)
  /-- R116. Vector integer maximum. -/
  | vmax (f : Tri)
  /-- R116. Vector integer absolute value, wrapping. -/
  | vabs (f : Tri)
  /-- R116. Vector integer negate. -/
  | vneg (f : Tri)
  /-- R116. Vector integer compare writing a predicate. -/
  | vcmp (f : Tri)
  /-- R116. Vector select by predicate. -/
  | vsel (f : Tri)
  /-- R116. Vector count of leading zeros. -/
  | vclz (f : Tri)
  /-- R116. Vector population count. -/
  | vpopc (f : Tri)
  /-- R114. Vector bit-field extract. -/
  | vbfx (f : Tri)
  /-- R114. Vector bit-field insert. -/
  | vbfi (f : Tri)
  /-- R117. Vector conversion between integer types with optional saturation and part placement. -/
  | vcvti (f : Tri)
  /-- R118. Vector move immediate. -/
  | vmovi (f : Imm)
  /-- R118. Vector add immediate. -/
  | vaddi (f : Imm)
  /-- R118. Vector AND immediate. -/
  | vandi (f : Imm)
  /-- R118. Vector OR immediate. -/
  | vori (f : Imm)
  /-- R120. Float add rounded once. -/
  | fadd (f : Tri)
  /-- R120. Float subtract rounded once. -/
  | fsub (f : Tri)
  /-- R120. Float multiply rounded once. -/
  | fmul (f : Tri)
  /-- R120. Fused multiply-add rounded once. -/
  | fma (f : Tri)
  /-- R120. Fused multiply-subtract rounded once. -/
  | fms (f : Tri)
  /-- R120. Fused negated multiply-add rounded once. -/
  | fnma (f : Tri)
  /-- R120. Fused negated multiply-subtract rounded once. -/
  | fnms (f : Tri)
  /-- R121. Float minimum. -/
  | fmin (f : Tri)
  /-- R121. Float maximum. -/
  | fmax (f : Tri)
  /-- R120. Float absolute value. -/
  | fabs (f : Tri)
  /-- R120. Float negation. -/
  | fneg (f : Tri)
  /-- R122. Float compare writing a predicate. -/
  | fcmp (f : Tri)
  /-- R122. Float select by predicate. -/
  | fsel (f : Tri)
  /-- R122. Sets a predicate by the class of elements. -/
  | fclass (f : Tri)
  /-- R123. Conversion between float types rounded once. -/
  | fcvt (f : Tri)
  /-- R123. Conversion from float to integer. -/
  | fcvti (f : Tri)
  /-- R123. Conversion from integer to float. -/
  | icvtf (f : Tri)
  /-- R125. Multiplies by a power of two and rounds. -/
  | fscale (f : Tri)
  /-- R125. Rounds to an integer under a chosen mode. -/
  | frnd (f : Tri)
  /-- R126. Two-term exact dot product into fp32 or t32. -/
  | fdot2 (f : Tri)
  /-- R126. Four-term exact dot product into fp32 or t32. -/
  | fdot4 (f : Tri)
  /-- R124. Packs two registers into one narrower-type register. -/
  | fpack (f : Tri)
  /-- R124. Unpacks one register into a wider-type register pair. -/
  | funpack (f : Tri)
  /-- R127. Writes each tapered element's scale or fraction-bit count. -/
  | fregime (f : Tri)
  /-- R128. Applies twin scales to one element per lane. -/
  | ftwin (f : Tri)
  /-- R129. Float add immediate. -/
  | faddi (f : Imm)
  /-- R129. Float multiply immediate. -/
  | fmuli (f : Imm)
  /-- R129. Fused multiply by immediate and add the old destination. -/
  | fmai (f : Imm)
  /-- R129. Float compare against an immediate. -/
  | fcmpi (f : Imm)
  /-- R129. Float minimum with an immediate. -/
  | fmini (f : Imm)
  /-- R129. Float maximum with an immediate. -/
  | fmaxi (f : Imm)
  /-- R130. Reciprocal special function. -/
  | frcp (f : Tri)
  /-- R130. Reciprocal square root special function. -/
  | frsq (f : Tri)
  /-- R130. Square root special function. -/
  | fsqrt (f : Tri)
  /-- R130. Base-2 exponential special function. -/
  | fexp2 (f : Tri)
  /-- R130. Base-2 logarithm special function. -/
  | flog2 (f : Tri)
  /-- R130. Sine special function. -/
  | fsin (f : Tri)
  /-- R130. Cosine special function. -/
  | fcos (f : Tri)
  /-- R130. Hyperbolic tangent special function. -/
  | ftanh (f : Tri)
  /-- R130. Logistic sigmoid special function. -/
  | fsigm (f : Tri)
  /-- R130. Error function special function. -/
  | ferf (f : Tri)
  /-- R103. Cross-lane shuffle by per-lane source index with validity predicate. -/
  | xshfl (f : Tri)
  /-- R103. Cross-lane broadcast from one lane. -/
  | xbcast (f : Tri)
  /-- R103. Cross-lane shift from lower lanes. -/
  | xup (f : Tri)
  /-- R103. Cross-lane shift from higher lanes. -/
  | xdown (f : Tri)
  /-- R103. Cross-lane exchange by XOR of lane number. -/
  | xxor (f : Tri)
  /-- R104. Inclusive prefix scan across included lanes. -/
  | xscan (f : Tri)
  /-- R104. Exclusive prefix scan across included lanes. -/
  | xscanx (f : Tri)
  /-- R104. Reduction across included lanes in the fixed tree. -/
  | xred (f : Tri)
  /-- R142. Matrix multiply-accumulate into a tile, checked and accepted into the pair queue on k1. -/
  | mma (f : Mat)
  /-- R142. Matrix multiply into a zeroed tile, setting its tag. -/
  | mmaz (f : Mat)
  /-- R146. Zeroes a range of tiles and sets their tag via the engine queue. -/
  | azero (f : Mat)
  /-- R147. Loads a whole tile from memory via the engine queue. -/
  | aload (f : Mem)
  /-- R147. Stores a whole tile to memory via the engine queue. -/
  | astore (f : Mem)
  /-- R148. Reads tile elements into a vector register per lane. -/
  | aread (f : Mat)
  /-- R148. Writes tile elements from a vector register per lane. -/
  | awrite (f : Mat)
  /-- R149. Converts a tile between fp32 and t32. -/
  | acvt (f : Mat)
  /-- R149. Adds one tile into another, rounded once. -/
  | aadd (f : Mat)
  /-- R150. Returns pair number, leader flag, tile count or queue occupancy. -/
  | pairq (f : Sys)
  /-- R143. A matrix instruction stalled on a full pair engine queue is accepted once room frees. -/
  | matrixQueueRoom (g sp : Nat)
  /-- R144. A queued pair engine operation starts once earlier operations on its tiles have retired and its bricks are pinned. -/
  | matrixOpStart (id : Nat)
  /-- R144. A pair engine operation writes its results and lowers its gang's k1. -/
  | matrixOpRetire (id : Nat)
  /-- R163. Load of S bytes per included lane or once for a scalar form. -/
  | ld (f : Mem)
  /-- R163. Store of S bytes per included lane or once for a scalar form. -/
  | st (f : Mem)
  /-- R164. Load through the read-only path. -/
  | ldro (f : Mem)
  /-- R165. Gather load through the cluster gather engine, counted on k2. -/
  | ldg (f : Mem)
  /-- R165. Scatter store through the gather engine, counted on k2. -/
  | stg (f : Mem)
  /-- R165. An ldg or stg completes and lowers k2. -/
  | gatherComplete (id : Nat)
  /-- R167. Expand-load of consecutive memory into included lanes. -/
  | ldx (f : Mem)
  /-- R167. Compress-store of included lanes, element by element, resumable at element c. -/
  | stc (f : Mem)
  /-- R168. Atomic add returning the old value. -/
  | atadd (f : Mem)
  /-- R168. Atomic minimum. -/
  | atmin (f : Mem)
  /-- R168. Atomic maximum. -/
  | atmax (f : Mem)
  /-- R168. Atomic AND. -/
  | atand (f : Mem)
  /-- R168. Atomic OR. -/
  | ator (f : Mem)
  /-- R168. Atomic XOR. -/
  | atxor (f : Mem)
  /-- R168. Atomic swap. -/
  | atswp (f : Mem)
  /-- R169. Atomic compare-and-swap. -/
  | atcas (f : Mem)
  /-- R173. A host AtomicOp completion arrives; Unsupported Request or Completer Abort raises ATOMNS once all lanes complete. -/
  | atomicopCompletion (id lane : Nat) (ans : HostAnswer)
  /-- R174. Elementwise update applied at the Mortar bank. -/
  | mwupd (f : Mem)
  /-- R175. Sends per-lane values to the Hod of the homing stack, counted on k3. -/
  | hsend (f : Mem)
  /-- R282. The Hod recalls the brick, applies an update in HBM, clears the busy mark and lowers k3 when all lanes are applied. -/
  | hodUpdateApply (id lane : Nat)
  /-- R177. Prefetch hint into L2 or LLC. -/
  | pref (f : Mem)
  /-- R177. LLC residency hint for a range. -/
  | resid (f : Mem)
  /-- R179. Scoped fence ordering earlier accesses of a kind before later ones. -/
  | fence (f : Mem)
  /-- R182. Full fence that also ends the read-only-path allowance. -/
  | fencero (f : Mem)
  /-- R183. Binds an address range to a synchronisation object. -/
  | bind (f : Mem)
  /-- R183. Removes bound bytes of a range from an object. -/
  | unbind (f : Mem)
  /-- R178. Acquire of an object reading its word. -/
  | acq (f : Mem)
  /-- R178. Release of an object writing its word. -/
  | rel (f : Mem)
  /-- R193. Box copy g2m, m2g, g2l or g2g, checked and queued on k0. -/
  | cpy (f : Cpy)
  /-- R195. Gather copy from global memory into Mortar by an index list. -/
  | cpyg (f : Cpy)
  /-- R195. Scatter copy from Mortar into global memory by an index list. -/
  | cpys (f : Cpy)
  /-- R196. Fills bricks into the L2 slices of a mask of clusters. -/
  | cpyc (f : Cpy)
  /-- R197. Copy combining elements into the destination by add, min or max. -/
  | cpyred (f : Cpy)
  /-- R199. A copy stalled on a full cluster copy queue enters it once room frees. -/
  | copyQueueRoom (g sp : Nat)
  /-- R199. A copy has moved every byte, lowers its counter and makes its engine arrival. -/
  | copyComplete (id : Nat)
  /-- R213. Configures the team's Weevil loop nest. -/
  | lpinit (f : Cpy)
  /-- R213. Starts Weevil pushing iteration records. -/
  | lpstart (f : Cpy)
  /-- R215. Returns the held or next iteration record, or the end record, waiting if none is queued. -/
  | lpnext (f : Cpy)
  /-- R215. A waiting lpnext takes the oldest record once its role's queue holds one. -/
  | lpnextRecordTaken (g sp : Nat)
  /-- R215. Reports the held iteration done for the gang's role. -/
  | lpdone (f : Cpy)
  /-- R213. Discards queued and held records and makes the nest idle. -/
  | lpstop (f : Cpy)
  /-- R215. Returns a Weevil nest status item. -/
  | lpq (f : Cpy)
  /-- R214. Weevil pushes the next iteration record to every role queue when permits and queue room allow. -/
  | weevilPush (team : Nat)
  /-- R203. Initialises a rendezvous point's EXPECT and PENDING. -/
  | jinit (f : Sys)
  /-- R203. Arrives n members at a rendezvous point. -/
  | jarrive (f : Sys)
  /-- R204. Waits for a rendezvous point's phase. -/
  | jwait (f : Sys)
  /-- R212. Arrives at a point, then waits with WONLY set. -/
  | jarwait (f : Sys)
  /-- R204. A waiting jwait or jarwait is satisfied by a phase change and acquires the phase's releases. -/
  | rendezvousWaitSatisfied (g sp : Nat)
  /-- R207. Configures a stage ring's depth and clears its state. -/
  | ringinit (f : Sys)
  /-- R208. Puts into a stage ring, checking sequence and phase. -/
  | ringput (f : Sys)
  /-- R208. Takes from a stage ring, checking sequence and phase. -/
  | ringtake (f : Sys)
  /-- R208. A ringput waiting on a full ring proceeds once a take frees an entry. -/
  | ringputProceeds (g sp : Nat)
  /-- R208. A ringtake waiting on an empty ring proceeds once a put fills an entry. -/
  | ringtakeProceeds (g sp : Nat)
  /-- R210. Threshold wait on an outstanding-operation counter. -/
  | kwait (f : Sys)
  /-- R210. A counter wait is satisfied once enough operations of its class have completed. -/
  | kwaitSatisfied (g sp : Nat)
  /-- R216. Region marker entering a code region after descriptor checks. -/
  | region (f : Sys)
  /-- R226. Ends an exit routine, writing coverage and raising SAVESHORT if a live-in slot is uncovered. -/
  | xret (f : Sys)
  /-- R228. Ends an entry routine, restoring ACTIVE and re-running the region marker. -/
  | eret (f : Sys)
  /-- R232. Raises TRAP with a code. -/
  | trap (f : Sys)
  /-- R232. Raises BRK when debug is enabled, else counts. -/
  | brk (f : Sys)
  /-- R233. Service call writing one request entry per active lane and parking the split. -/
  | scall (f : Sys)
  /-- R255. A split waiting for request-ring room issues its scall once room for its lanes exists. -/
  | scallRingRoom (g sp : Nat)
  /-- R238. Pops the oldest continuation record, waiting or returning the empty or closed word. -/
  | cpop (f : Sys)
  /-- R238. A waiting cpop takes a record once one arrives or the queue closes. -/
  | cpopRecordTaken (g sp : Nat)
  /-- R238. Appends a continuation record, waiting if the queue is full. -/
  | cpush (f : Sys)
  /-- R238. A waiting cpush appends its record once the queue has room. -/
  | cpushQueueRoom (g sp : Nat)
  /-- R239. Sets a join bit, counts DONE and fires a continuation record at TARGET. -/
  | cjoin (f : Sys)
  /-- R239. A cjoin waiting on a full queue repeats its whole step once the queue has room. -/
  | cjoinRetry (g sp : Nat)
  /-- R242. Sends a message to a mailbox, raising MBXFULL or waiting when full. -/
  | mbsend (f : Sys)
  /-- R242. A waiting mbsend writes its message once the mailbox has room. -/
  | mbsendRoom (g sp : Nat)
  /-- R243. Receives the message at HEAD, waiting or returning the empty word. -/
  | mbrecv (f : Sys)
  /-- R243. A waiting mbrecv takes a message once one is delivered. -/
  | mbrecvMessageTaken (g sp : Nat)
  /-- R245. Returns an agent-context quota item. -/
  | quotaq (f : Sys)
  /-- R246. Returns a cycle or issue-opportunity counter. -/
  | cycq (f : Sys)
  /-- R247. Returns a capability register, function, save address, launch id or graph parameter. -/
  | capq (f : Sys)
  /-- R358. Sends a network message to a mailbox of a package, counted on k3. -/
  | netsend (f : Sys)
  /-- R358. A netsend response arrives: accept lowers k3, refuse-full resends or faults MBXFULL, refuse-denied faults PROT. -/
  | netsendResponse (id : Nat) (ans : NetAnswer)
  /-- R90. Spawn memory accepts a branch's records and SPAWNP clears. -/
  | spawnRecordAccept (g sp : Nat)
  /-- R93. Chafer forms a gang from a record group at 96 records, occupancy threshold or launch end, once a save block number is free. -/
  | chaferFormGang (grp : Nat) (place : Place)
  /-- R93. A group with no new record for 65,536 scheduler-core cycles becomes a gang. -/
  | chaferIdleTimeout (grp : Nat)
  /-- R98. A gang with no live lane waits for counters and spawns, closes a checkpoint and clears its split table. -/
  | gangEnd (g : Nat)
  /-- R294. Once every gang of a launch has ended the completion record is written and DONE increments. -/
  | launchCompletion (l : Nat)
  /-- R221. A pre-emption request reaching a split at a clause boundary vectors it into its exit routine or saves it without one. -/
  | preemptVectorExit (g sp : Nat)
  /-- R225. The exit-routine cycle count exceeds the gang's bound and XOVR is raised at once. -/
  | exitBoundOverrun (g : Nat)
  /-- R305. The home scheduler stops issue, drains results and cpyred, appends a mark and performs waiting irrevocable operations. -/
  | checkpointClose (f : Nat)
  /-- R305. CKPERIOD cycles since the last close elapse and a periodic close is started. -/
  | ckperiodExpiry (f : Nat)
  /-- R313. Pre-empts the partition cooperatively or by rollback according to PMODE. -/
  | preq (f : Nat)
  /-- R313. Restores a saved partition and lets front ends resume. -/
  | presume (f : Nat) (places : List Place)
  /-- R315. In host rollback mode, the host reports the line undo done and the device continues the rollback. -/
  | rolldone (f : Nat)
  /-- R290. A notify write sets a queue's TAIL, taking the mapped, write-back or doorbell-miss path. -/
  | notify (f q : Nat) (v : BitVec 64)
  /-- R291. The scheduler writes TAIL from doorbell-miss entries or NPEND queues and maps them. -/
  | doorbellMissService (die : Nat)
  /-- R292. A front end takes a nop command entry. -/
  | cmdNop (f q : Nat)
  /-- R294. A front end takes and checks a launch entry, refusing it or turning it into teams. -/
  | cmdLaunch (f q : Nat)
  /-- R295. A front end takes a feed entry and writes graph parameters. -/
  | cmdFeed (f q : Nat)
  /-- R298. A front end takes a dependence record attached to its launch. -/
  | cmdDependence (f q : Nat)
  /-- R295. A front end takes a push entry and appends a continuation record. -/
  | cmdPush (f q : Nat)
  /-- R300. The scheduler places a team on a cluster under priority, weight and dependence bits. -/
  | teamPlacement (l team : Nat) (place : Place)
  /-- R300. A scheduler quantum elapses: aging, plug-in calls, bitmap re-reads and unmaps are applied. -/
  | schedulerQuantum (die : Nat)
  /-- R301. A scheduler with no placeable team sends a steal request over the die mailbox ring. -/
  | stealRequest (die : Nat)
  /-- R301. A victim receiving a steal request hands over a queue or passes the request on. -/
  | stealHandover (die : Nat)
  /-- R296. Ends every gang of a launch without saving. -/
  | labort (f : Nat) (lid : BitVec 64)
  /-- R296. Drains launches of a queue carrying a given tag. -/
  | drain (f : Nat) (v : BitVec 64)
  /-- R296. Clears a queue's STOPPED and STOPCODE. -/
  | qrestart (f q : Nat)
  /-- R297. Closes a continuation queue. -/
  | queueClose (f q : Nat)
  /-- R297. Reopens a closed continuation queue. -/
  | queueReopen (f q : Nat)
  /-- R303. Under host queue scheduling, the host maps a named queue. -/
  | mapq (f q : Nat)
  /-- R336. A time-slice holder's turn ends and the group switches to the next member. -/
  | timesliceTurnEnd (grp : Nat)
  /-- R271. Writes back and drops every brick of a TID of the function. -/
  | tflush (f tid : Nat)
  /-- R271. A tensor flush finishes and BUSY clears. -/
  | tflushComplete (f : Nat)
  /-- R273. Checks and installs a format window setting, stalling, writing back and dropping affected bricks. -/
  | windowCommit (n : Nat)
  /-- R273. Commits a window with EN = 0, removing it without checks. -/
  | windowRemove (n : Nat)
  /-- R273. A window commit installs the setting, releases stalled accesses and clears BUSY. -/
  | windowCommitComplete
  /-- R278. Enables an LLC pinned region, refused on overlap or excess. -/
  | pinRegionEnable (n : Nat)
  /-- R278. Clears a pinned region, writing back its bricks. -/
  | pinRegionDisable (n : Nat)
  /-- R275. The LLC fills a brick from HBM, applying its format window. -/
  | brickFill (tag : BrickTag)
  /-- R276. A modified brick is written back through its window on eviction or recall. -/
  | brickEvict (tag : BrickTag)
  /-- R342. A contested range idle for RTIDLE cycles becomes eligible for range tracking again. -/
  | rangeIdleReturn (n : Nat)
  /-- R331. Commits a partition record, refusing it with a PERR code on defects. -/
  | pcommit (f : Nat)
  /-- R332. A write to a front-end block, refused under overlap and range rules. -/
  | frontEndWrite (fe : Nat) (v : BitVec 64)
  /-- R339. A virtual function is disabled: its work ends, traffic quiesces and ABORTED_BY_PF completions are written. -/
  | functionDisable (f : Nat)
  /-- R339. A PCIe Function Level Reset disables and resets one function. -/
  | functionLevelReset (f : Nat)
  /-- R339. Clearing VF Enable disables every virtual function. -/
  | vfEnableClear
  /-- R322. A FRESUME write with ACTION 0 resumes the parked split named by its token. -/
  | fresumeResume (f : Nat) (token : BitVec 32)
  /-- R322. A FRESUME write with ACTION 1 ends the split's launch with FAULTED. -/
  | fresumeEndLaunch (f : Nat) (token : BitVec 32)
  /-- R322. A fault record waiting on a full or unwritable fault queue is written at a later FQCI write or quantum. -/
  | faultQueueRetry (f : Nat)
  /-- R323. A service core takes a pool page, zeroes it, writes the leaf and resumes the split. -/
  | demandZeroService (f : Nat) (token : BitVec 32)
  /-- R324. The service core completes a failing host atomic through CXL.cache ownership and resumes the split. -/
  | atomnsDeviceCompletion (f : Nat) (token : BitVec 32)
  /-- R323. The scheduler core resumes a SPAWNFULL or MBXFULL split once space has freed. -/
  | spaceFreedResume (f : Nat) (token : BitVec 32)
  /-- R320. Starts invalidation of one page's translations. -/
  | invalidatePage (f : Nat) (va : BitVec 64) (size : BitVec 2)
  /-- R320. Starts invalidation of every translation of the function. -/
  | invalidateAll (f : Nat)
  /-- R320. An invalidation completes once accesses using old translations have performed, and BUSY clears. -/
  | invalidateComplete (f : Nat)
  /-- R325. Releases pages charged to an agent context. -/
  | qrel (f : Nat) (n : BitVec 32) (agent : BitVec 16)
  /-- R256. A completer's SCQPI write makes the device consume completion records in order. -/
  | scqpiWrite (f : Nat) (v : BitVec 32)
  /-- R256. An unreadable completion slot is read again at a later SCQPI write or once per quantum. -/
  | scqSlotRetry (f : Nat)
  /-- R327. An uncorrectable error poisons a sector or triggers rollback according to the unit. -/
  | eccError (e : EccError)
  /-- R345. A host link goes down, failing outstanding requests and ending affected launches. -/
  | hostLinkDown (port : Nat)
  /-- R367. A host port finishes training; when both are done REGV is set and the regime fixed. -/
  | hostPortTrained (port : Nat) (mode : PortMode)
  /-- R349. A host CXL.mem access to a device-bias page forces a flip to host bias before the answer. -/
  | hostCxlMemAccess (a : AgentAccess)
  /-- R350. Starts a flip of an HDM page to the target bias. -/
  | biasFlip (page : BitVec 36) (dev : Bool)
  /-- R350. After draining the losing side the bias bit is written, held accesses released and vector 5 raised. -/
  | biasFlipComplete (page : Nat)
  /-- R354. A Umermash port comes up. -/
  | umermashLinkUp (port : Nat) (peer : BitVec 8)
  /-- R354. A Umermash port goes down and its flows move to another port with end-to-end retry. -/
  | umermashLinkDown (port : Nat)
  /-- R358. A received network message is accepted into a mailbox or refused. -/
  | umMessage (p : Packet)
  /-- R357. A remote read request is checked against export windows and performed or refused. -/
  | umRead (p : Packet)
  /-- R357. A remote write request is checked and performed or refused. -/
  | umWrite (p : Packet)
  /-- R357. A remote atomic request is checked and performed or refused. -/
  | umAtomic (p : Packet)
  /-- R356. Read data for a remote load or atomic returns to the requester. -/
  | umReadData (p : Packet)
  /-- R356. A remote write is acknowledged to the requester. -/
  | umWriteDone (p : Packet)
  /-- R356. A refusal of a remote access writes 0 and raises imprecise PROT. -/
  | umRefuseDenied (p : Packet)
  /-- R355. A packet with a never-sent KIND or LEN above 16 is dropped and counted. -/
  | umInvalidPacket (port : Nat) (p : Packet)
  /-- R365. Cold reset re-initialises every block including HBM training and measurements. -/
  | coldReset (hostpkgs : BitVec 3) (splithost : Bool)
  /-- R365. Warm reset re-initialises every block except HBM training results. -/
  | warmReset (hostpkgs : BitVec 3) (splithost : Bool)
  /-- R366. A unit finishes bring-up and sets its ready bit, releasing waiting requests. -/
  | unitReady (bit : Nat)
  /-- R370. At the end of a power averaging window the clock is lowered or raised by 25 MHz. -/
  | powerWindowEnd (watts : BitVec 14)
  /-- R370. Core-rail current above ILIM halves issue opportunities until it falls. -/
  | currentLimitExceeded (amps : BitVec 15)
  /-- R369. A PLIM write stores at most min(PLIMCAP, 10,000). -/
  | plimWrite (v : BitVec 64)
  /-- R369. An ILIM write stores at most 20,000. -/
  | ilimWrite (v : BitVec 64)
  /-- R372. A die at or above 105 °C runs at the 300 MHz floor until it cools to 100 °C. -/
  | dieOvertemp (u : Nat) (t : BitVec 16)
  /-- R372. An HBM stack at or above 85 °C doubles its refresh rate. -/
  | hbmOvertemp (u : Nat) (t : BitVec 16)
  /-- R372. A unit at or above 115 °C trips the package and power is removed. -/
  | thermalTrip (u : Nat) (t : BitVec 16)
  /-- R371. A unit at or above TWARN raises the management controller's warning. -/
  | twarnCrossed (u : Nat) (t : BitVec 16)
  /-- R374. A MEXT write extends measurement register M6 or M7. -/
  | measurementExtend (i : Nat) (d : BitVec 384)
  /-- R375. Starts an attestation report, or raises vector 6 under host attestation. -/
  | attestGo (f : Nat)
  /-- R375. The signed report is written and DONE set, or the request ends with an error status. -/
  | attestDone (f : Nat)
  /-- R9. A write to a register with no behaviour of its own stores its RW fields. -/
  | registerWrite (f : Nat) (pf : Bool) (off : Nat) (v : BitVec 64)
  /-- R352. A completion timeout on an AtomicOp is treated as Unsupported Request, and the lane takes the host-assisted path once the host confirms the request was not performed. -/
  | atomicopCompletionTimeout (id lane : Nat)
  /-- R353. A received Umermash flit fails its CRC; it is retried at link level without reordering, and ERRCNT counts it. -/
  | flitCrcFailure (port : Nat)
  /-- R340. A Jormuzia application core loads, stores or performs an AMO on package memory, coherently with the device caches through the shared directory. -/
  | chipletCoreAccess (a : AgentAccess)
  /-- R348. The host sends an H2D snoop for host memory cached in L2 or the LLC, and the device answers it and drops or downgrades its copy. -/
  | cxlCacheSnoop (a : BitVec 48) (port : Nat) (kind : SnoopKind)
  /-- R369. The management controller writes the PLIMCAP ceiling, which bounds the effective power limit. -/
  | plimcapWrite (v : BitVec 14)
  /-- R373. A new firmware image is staged through the management controller and takes effect at the next cold or warm reset. -/
  | firmwareStaging (img : FwImage)
  /-- R372. A compute or hub die held at the 300 MHz floor cools to 100 °C and leaves the floor. -/
  | dieTemperatureRecovered (u : Nat) (t : BitVec 16)
  /-- R370. Core-rail current falls below ILIM and the quarters stop halving their issue opportunities. -/
  | currentBelowIlim (amps : BitVec 15)
  /-- R366. A unit's training fails or meets an uncorrectable error during bring-up, leaving its ready bit at 0 and recording EUNIT and ECODE. -/
  | unitBringupFailure (unit : BitVec 8) (code : BitVec 8)
  deriving DecidableEq, Repr

end Sys2Proof
end

