-- ==== Sys2Proof/WellFormed.lean ====
section
/-!
DEFINITION. Which instruction words are well formed: the checks of 02 R49, R50, R52, R53 and of each instruction's own
entry that need nothing but the word. An assigned opcode whose word fails its check raises ILLOP when it issues.
Checks that need the machine's state (a register at or above V, an unallocated tile, a role) stand with the meanings.
-/

namespace Sys2Proof

namespace ETy

/-- The type code of 02 R49. -/
def code : ETy → Nat
  | .t4 => 0 | .t6 => 1 | .t8 => 2 | .t16 => 3 | .t32 => 4 | .bf16 => 5 | .fp16 => 6 | .fp32 => 7 | .i8 => 8 | .i16 => 9
  | .i32 => 10 | .i64 => 11 | .n8 => 12 | .n16 => 13 | .n32 => 14 | .n64 => 15 | .b32 => 16 | .b64 => 17

/-- The type of a code; none for the reserved codes 18 to 31. -/
def ofCode? : Nat → Option ETy
  | 0 => some .t4 | 1 => some .t6 | 2 => some .t8 | 3 => some .t16 | 4 => some .t32 | 5 => some .bf16 | 6 => some .fp16
  | 7 => some .fp32 | 8 => some .i8 | 9 => some .i16 | 10 => some .i32 | 11 => some .i64 | 12 => some .n8 | 13 => some .n16
  | 14 => some .n32 | 15 => some .n64 | 16 => some .b32 | 17 => some .b64
  | _ => none

/-- Bits an element's value takes (02 R49; a t6 code has 6 bits in an 8-bit container). -/
def width : ETy → Nat
  | .t4 => 4 | .t6 => 6 | .t8 | .i8 | .n8 => 8 | .t16 | .bf16 | .fp16 | .i16 | .n16 => 16
  | .t32 | .fp32 | .i32 | .n32 | .b32 => 32 | .i64 | .n64 | .b64 => 64

/-- Bits an element occupies in a register (02 R49): the container's 8 for t6. -/
def stride : ETy → Nat
  | .t6 => 8
  | t => t.width

/-- Elements per operand: per lane register, or 1 for a 64-bit type's pair (02 R49, 05 R117). -/
def count : ETy → Nat
  | .t4 => 8 | .t6 | .t8 | .i8 | .n8 => 4 | .t16 | .bf16 | .fp16 | .i16 | .n16 => 2
  | .t32 | .fp32 | .i32 | .n32 | .b32 | .i64 | .n64 | .b64 => 1

def isTapered : ETy → Bool
  | .t4 | .t6 | .t8 | .t16 | .t32 => true
  | _ => false

def isIeee : ETy → Bool
  | .bf16 | .fp16 | .fp32 => true
  | _ => false

def isFloat (t : ETy) : Bool := t.isTapered || t.isIeee

def isSigned : ETy → Bool
  | .i8 | .i16 | .i32 | .i64 => true
  | _ => false

def isUnsigned : ETy → Bool
  | .n8 | .n16 | .n32 | .n64 => true
  | _ => false

def isInt (t : ETy) : Bool := t.isSigned || t.isUnsigned

def isBits : ETy → Bool
  | .b32 | .b64 => true
  | _ => false

/-- Integer or .b, the types of the vector integer forms (05 R116). -/
def isIntB (t : ETy) : Bool := t.isInt || t.isBits

/-- A type held in an even-odd register pair (02 R50). -/
def is64 : ETy → Bool
  | .i64 | .n64 | .b64 => true
  | _ => false

/-- The types of the scalar forms (05 R109). -/
def isScalar (t : ETy) : Bool := t.isIntB && (t.width == 32 || t.width == 64)

/-- Access size in bytes of the access types (07 R157). -/
def size (t : ETy) : Nat := t.stride / 8

end ETy

/-- 0xC1 to 0xC3 and 0xC9 vary by lane (02 R53). -/
def Special.variesByLane : Special → Bool
  | .lane | .lslice | .beatlane | .thread => true
  | _ => false

/-- The sources 0xC1 to 0xCB, which give a machine value rather than a constant of the type (02 R53). -/
def Special.isMachine : Special → Bool
  | .lane | .lslice | .beatlane | .split | .gang | .teamx | .teamy | .teamz | .thread | .core | .quarter => true
  | _ => false

/-- A special source accepted in an instruction whose element type is `ty`, in an operand read in type `t` (02 R53). -/
def Special.okIn (c : Special) (ty t : ETy) : Bool :=
  if c.isMachine then ty.isIntB else if c = .half then t.isFloat else true

namespace Operand

/-- An operand field that the entry does not use is zero. -/
def isZero (o : Operand) : Bool := o == .v 0

def isV : Operand → Bool
  | .v _ => true
  | _ => false

def isS : Operand → Bool
  | .s _ => true
  | _ => false

/-- A scalar register sN with lo ≤ N ≤ hi. -/
def isSIn (o : Operand) (lo hi : Nat) : Bool :=
  match o with
  | .s n => lo ≤ n.toNat && n.toNat ≤ hi
  | _ => false

/-- A predicate field: bits 2:0 name p0 to p7, bits 7:3 are zero (04 R81). -/
def isPred : Operand → Bool
  | .v n => n.toNat < 8
  | _ => false

/-- A tile or small number in bits 5:0 with bits 7:6 zero (06 R147, R149). -/
def isTile : Operand → Bool
  | .v n => n.toNat < 64
  | _ => false

/-- A vector register fit for type `t`: even for a pair (02 R50). -/
def isVFor (o : Operand) (t : ETy) : Bool :=
  match o with
  | .v n => !t.is64 || n.toNat % 2 == 0
  | _ => false

/-- A source of a vector form of element type `ty`, read in type `t` (02 R50, R53). -/
def isVSrcAs (o : Operand) (ty t : ETy) : Bool :=
  match o with
  | .v n => !t.is64 || n.toNat % 2 == 0
  | .s _ => true
  | .x c => c.okIn ty t

/-- A source of a vector form read in its element type. -/
def isVSrc (o : Operand) (t : ETy) : Bool := o.isVSrcAs t t

/-- A source of a scalar form read in type `t` (02 R53): no vector register, nothing that varies by lane. -/
def isSSrc (o : Operand) (t : ETy) : Bool :=
  match o with
  | .v _ => false
  | .s _ => true
  | .x c => c.okIn t t && !c.variesByLane

/-- A source lane of the shuffles, read as .n64: no vector register (04 R103). -/
def isLaneSrc (o : Operand) : Bool :=
  match o with
  | .v _ => false
  | .s _ => true
  | .x c => c.okIn .n64 .n64

end Operand

/-- GE = 0 leaves GP and GN zero (02 R49); GE = 1 only on a form that takes a guard (02 R52). -/
def Ctl.ok (c : Ctl) (guardable : Bool) : Bool :=
  if c.ge then guardable else c.gp == 0 && !c.gn

/-- Condition codes of 05 R111 for type `t`: 6 and 7 are IEEE only, 2 to 5 are S forms. -/
def condOk (code : Nat) (t : ETy) : Bool :=
  code < 2 || (code < 6 && !t.isBits) || (code < 8 && t.isIeee)

/-- The 6-bit container rule for a .t6 immediate (02 R54). -/
def immOk (t : ETy) (imm : BitVec 16) : Bool :=
  t != .t6 || imm.toNat &&& 0xC0C0 == 0

/-- The part rule of 05 R117: part `p` is below the ratio of the element counts. -/
def partOk (dst src : ETy) (p : Nat) : Bool :=
  if dst.count ≤ src.count then p < src.count / dst.count else p < dst.count / src.count

/-! ### Formats -/

def Br.uniform (f : Br) : Bool := f.ctl.ok false && f.cond.isZero && f.sub == 0
def Br.onScalar (f : Br) : Bool := f.ctl.ok false && f.cond.isSSrc .n64 && f.sub == 0
def Br.onPred (f : Br) : Bool := f.ctl.ok false && f.cond.isPred && f.sub.toNat < 2

def Sys.bare (f : Sys) (guardable : Bool) : Bool :=
  f.ctl.ok guardable && f.dst.isZero && f.a.isZero && f.sub == 0 && f.imm == 0

/-- A query: a scalar result, no source, an item below a limit (04 R99, 09 R245). -/
def Sys.query (f : Sys) (item : Nat → Bool) : Bool :=
  f.ctl.ok false && f.dst.isS && f.a.isZero && f.sub == 0 && item f.imm.toNat

/-- Predicate-group forms (04 R100, R101): TYPE is zero and all accept a guard. -/
def Tri.pform (f : Tri) (dst : Bool) (srcs : Bool) (modOk : Bool) : Bool :=
  f.ctl.ok true && f.ty == .t4 && dst && srcs && modOk

def Tri.p2 (f : Tri) : Bool := f.pform f.dst.isPred (f.a.isPred && f.b.isPred && f.c.isZero) (f.mod == 0)
def Tri.p1 (f : Tri) : Bool := f.pform f.dst.isPred (f.a.isPred && f.b.isZero && f.c.isZero) (f.mod == 0)
def Tri.ptoS (f : Tri) (mods : Nat) : Bool :=
  f.pform f.dst.isS (f.a.isPred && f.b.isZero && f.c.isZero) (f.mod.toNat < mods)

/-- Scalar TRI forms (05 R109, R112) with the sources used; `sOnly`: an S form, which refuses .b types. -/
def Tri.sform (f : Tri) (n : Nat) (sOnly : Bool) (modOk : Bool) : Bool :=
  f.ctl.ok false && f.ty.isScalar && (!sOnly || f.ty.isInt) && f.dst.isS && f.a.isSSrc f.ty
    && (if n ≥ 2 then f.b.isSSrc f.ty else f.b.isZero) && (if n ≥ 3 then f.c.isSSrc f.ty else f.c.isZero) && modOk

/-- Vector forms: destination and sources in type `ty` (05 R108, R116, R120). -/
def Tri.vform (f : Tri) (tyOk : Bool) (n : Nat) (modOk : Bool) : Bool :=
  f.ctl.ok true && tyOk && f.dst.isVFor f.ty && f.a.isVSrc f.ty
    && (if n ≥ 2 then f.b.isVSrc f.ty else f.b.isZero) && (if n ≥ 3 then f.c.isVSrc f.ty else f.c.isZero) && modOk

/-- Vector compares and classes write a predicate (05 R111, R122). -/
def Tri.vpred (f : Tri) (tyOk : Bool) (n : Nat) (modOk : Bool) : Bool :=
  f.ctl.ok true && tyOk && f.dst.isPred && f.a.isVSrc f.ty
    && (if n ≥ 2 then f.b.isVSrc f.ty else f.b.isZero) && f.c.isZero && modOk

/-- Conversions (05 R117, R123): `src?` is the source type named in MOD bits 4:0. -/
def Tri.conv (f : Tri) (dstOk : ETy → Bool) (srcOk : ETy → Bool) (bit5 : Bool) : Bool :=
  f.ctl.ok true && dstOk f.ty && f.dst.isVFor f.ty && f.b.isZero && f.c.isZero
    && (bit5 || bitsN f.mod.toNat 5 5 == 0)
    && match ETy.ofCode? (bitsN f.mod.toNat 4 0) with
       | some src => srcOk src && f.a.isVSrcAs f.ty src && partOk f.ty src (bitsN f.mod.toNat 7 6)
       | none => false

/-- fpack and funpack name the source type in MOD bits 4:0, bits 7:5 zero (05 R124). -/
def Tri.packs (f : Tri) (ok : ETy → Bool) : Bool :=
  f.ctl.ok true && f.ty.isFloat && f.c.isZero && f.mod.toNat < 32
    && match ETy.ofCode? f.mod.toNat with
       | some src => src.isFloat && ok src
       | none => false

/-- fdot2 and fdot4: MOD bit 0 selects the result format, in which vC is read (05 R126). -/
def Tri.dot (f : Tri) (tyOk : Bool) : Bool :=
  f.ctl.ok true && tyOk && f.dst.isV && f.a.isVSrc f.ty && f.b.isVSrc f.ty && f.mod.toNat < 2
    && f.c.isVSrc (if f.mod == 0 then .fp32 else .t32)

def Tri.shuffle (f : Tri) (bOk : Bool) : Bool :=
  f.ctl.ok true && f.ty.isBits && f.dst.isVFor f.ty && f.a.isVSrc f.ty && bOk && f.c.isZero && f.mod.toNat < 8

def Tri.scan (f : Tri) : Bool :=
  f.ctl.ok true && (f.ty.isFloat || f.ty.isInt) && f.dst.isVFor f.ty && f.a.isVSrc f.ty && f.b.isZero && f.c.isZero
    && f.mod.toNat < 3

def Imm.sform (f : Imm) (tyOk : Bool) (usesA : Bool) (modOk : Bool) : Bool :=
  f.ctl.ok false && tyOk && f.dst.isS && (if usesA then f.a.isSSrc f.ty else f.a.isZero) && modOk

def Imm.vform (f : Imm) (tyOk : Bool) (usesA : Bool) : Bool :=
  f.ctl.ok true && tyOk && f.dst.isVFor f.ty && (if usesA then f.a.isVSrc f.ty else f.a.isZero) && f.mod == 0
    && immOk f.ty f.imm

/-- The type pairs, sparsity and scales of mma and mmaz (06 R141). -/
def Mat.mmaOk (f : Mat) (modOk : Bool) : Bool :=
  f.ctl.ok false && f.a.isS && f.b.isS && modOk &&
    match f.ta, f.tb with
    | .t4, .t4 => f.sprs.toNat < 4
    | .t8, .t6 | .t8, .t8 => f.sprs.toNat < 4
    | .t6, .t6 | .t6, .t8 => f.sprs == 0
    | .t16, .t16 => f.sprs == 0 && f.scl == 0
    | _, _ => false

/-- Accumulator forms in the MAT format: TYPEA, TYPEB, SPRS and SCL are zero (06 R146, R148, R149). -/
def Mat.plain (f : Mat) (aOk bOk modOk : Bool) : Bool :=
  f.ctl.ok false && f.ta == .t4 && f.tb == .t4 && f.sprs == 0 && f.scl == 0 && aOk && bOk && modOk

/-- Register kinds and KIND of ld, st and ldro (07 R158); `dataV`: DATA counts as a vector register. -/
def Mem.modeOk (f : Mem) (dataV dataS : Bool) : Bool :=
  match f.base with
  | .s _ => (dataS && f.kind == 0) || (dataV && f.kind.toNat < 2)
  | .v n => dataV && (f.kind == 0 || (f.kind == 2 && n.toNat % 2 == 0))
  | .x _ => false

def Mem.access (t : ETy) : Bool := t.isIntB

def Mem.load (f : Mem) (spaces : Nat) : Bool :=
  f.ctl.ok true && Mem.access f.ty && (f.data.isS || f.data.isVFor f.ty) && f.modeOk f.data.isV f.data.isS
    && f.space.toNat < spaces && f.scope == 0

/-- st: a special source in DATA counts as a vector or a scalar register (07 R159). -/
def Mem.store (f : Mem) : Bool :=
  let asS := match f.data with
    | .s _ => true
    | .x c => !c.variesByLane
    | .v _ => false
  let asV := match f.data with
    | .s _ => false
    | _ => true
  f.ctl.ok true && Mem.access f.ty && f.data.isVSrc f.ty && f.modeOk asV asS && f.space.toNat < 3 && f.scope == 0

def Mem.gather (f : Mem) : Bool :=
  f.ctl.ok true && Mem.access f.ty && f.ty.size ≥ 4 && f.data.isVFor f.ty && f.base.isS && f.space.toNat < 3
    && f.scope == 0 && f.kind.toNat < 2 && bitsN f.offs.toNat 15 10 == 0 && bitsN f.offs.toNat 7 0 < 128

def Mem.packed (f : Mem) : Bool :=
  f.ctl.ok true && Mem.access f.ty && f.data.isVFor f.ty && f.base.isS && f.space.toNat < 3 && f.scope == 0 && f.kind == 0

/-- Atomics follow rows 1, 2 and 4 of R158 with KIND read as the ordering (07 R158, R168, R171). -/
def Mem.atomic (f : Mem) (tyOk : Bool) : Bool :=
  f.ctl.ok true && tyOk && f.space.toNat < 3 && f.scope.toNat < 6
    && (f.data.isVFor f.ty && (f.base.isS || f.base.isV) || f.data.isS && f.base.isS)

def Mem.cas (f : Mem) : Bool :=
  f.atomic (f.ty.isIntB && f.ty.size ≥ 4) &&
    match f.data with
    | .v n => n.toNat % (if f.ty.is64 then 4 else 2) == 0
    | .s n => 1 ≤ n.toNat && n.toNat ≤ 59
    | .x _ => false

def Mem.wide (t : ETy) : Bool := t.isIntB && t.size ≥ 4

/-- The types mwupd accepts, which cpyred accepts too (07 R174, 08 R197). -/
def mwTypeOk : ETy → Bool
  | .t8 | .t16 | .t32 | .bf16 | .fp16 | .fp32 | .i8 | .i16 | .i32 | .n8 | .n16 | .n32 => true
  | _ => false

def hodTypeOk : ETy → Bool
  | .fp32 | .bf16 | .t16 | .t32 | .i32 | .n32 | .i64 | .n64 => true
  | _ => false

def Mem.fenceOk (f : Mem) (kinds : Nat) : Bool :=
  f.ctl.ok false && f.ty == .t4 && f.data.isZero && f.base.isZero && f.space == 0 && f.scope.toNat < 6
    && f.kind.toNat < kinds && f.offs == 0

def Mem.bindOk (f : Mem) : Bool :=
  f.ctl.ok false && f.ty == .t4 && f.data.isSIn 1 59 && f.base.isS && f.space == 0 && f.scope == 0 && f.kind == 0

def Mem.syncOk (f : Mem) : Bool :=
  f.ctl.ok false && f.ty == .b64 && f.data.isS && f.base.isS && f.space == 0 && f.scope.toNat < 6 && f.kind == 0

/-- Register fields of the copies (08 R190): layout s1 to s57, a box of two or three registers. -/
def Cpy.copyOk (f : Cpy) (boxHi : Nat) (dstOk slot : Bool) (modOk : Bool) : Bool :=
  f.ctl.ok false && f.layout.isSIn 1 57 && f.a.isSIn 1 boxHi && dstOk && modOk
    && (f.point.toNat < 24 || f.point == 31) && (slot || f.ring == 0)

def Cpy.slot (f : Cpy) : Bool := bitsN f.mod.toNat 4 4 == 1

def Cpy.loop (f : Cpy) (dst a modOk : Bool) : Bool :=
  f.ctl.ok false && f.layout.isZero && dst && a && f.point == 31 && f.ring == 0 && modOk

/-- jarrive and jarwait: n in bits 16:5 of IMM21, or from sA (08 R203). -/
def Sys.arriveOk (f : Sys) : Bool :=
  f.ctl.ok false && f.dst.isZero && bitsN f.imm.toNat 4 0 < 24 && bitsN f.imm.toNat 20 17 == 0 &&
    ((f.sub == 0 && f.a.isZero) || (f.sub == 1 && f.a.isSSrc .n64 && bitsN f.imm.toNat 16 5 == 0))

def Sys.jinitOk (f : Sys) : Bool :=
  f.arriveOk && (f.sub == 1 || bitsN f.imm.toNat 16 5 != 0)

def Sys.jwaitOk (f : Sys) : Bool :=
  f.ctl.ok false && f.dst.isZero && f.a.isZero && bitsN f.imm.toNat 4 0 < 24 &&
    ((f.sub == 0 && f.imm.toNat < 32) || (f.sub == 1 && f.imm.toNat < 64))

def Sys.ringOk (f : Sys) : Bool :=
  f.ctl.ok false && f.dst.isS && f.sub == 0 && f.imm.toNat < 64 &&
    (if bitsN f.imm.toNat 4 4 == 1 then f.a.isZero else f.a.isSSrc .n64)

/-- scall's fields (09 R233); the register ranges against V are checked when it issues. -/
def Sys.scallOk (f : Sys) : Bool :=
  f.ctl.ok false && f.a.isV && f.sub.toNat < 8 && bitsN f.imm.toNat 20 18 == 0 && bitsN f.imm.toNat 17 15 < 5 &&
    (if bitsN f.imm.toNat 17 15 == 0 then f.dst.isZero else f.dst.isV)

def Sys.regs (f : Sys) (dst a : Bool) (subs : Nat) : Bool :=
  f.ctl.ok false && dst && a && f.sub.toNat < subs && f.imm == 0

/-- The callx target sT, an operand field in bits 7:0 of DISP (04 R85): not a vector register, a scalar register or a
special source that a scalar form admits. -/
def callxTargetOk (disp : BitVec 32) : Bool :=
  disp.toNat < 256 && 0x80 ≤ disp.toNat &&
    (disp.toNat < 0xC0 || disp.toNat == 0xC0 || (0xC4 ≤ disp.toNat && disp.toNat ≤ 0xCB && disp.toNat != 0xC9)
      || (0xD0 ≤ disp.toNat && disp.toNat ≤ 0xE6 && disp.toNat != 0xE3))

/-- The conditions under which an instruction's word is well formed. Events have no word; a word whose opcode is
unassigned (02 R56) is well formed as such and raises ILLOP when it issues. -/
def Instr.wf : Instr → Bool
  | .br f => f.uniform
  | .brs f | .brz f => f.onScalar
  | .bra f | .brl f | .brd f | .brsp f => f.onPred
  | .brx f | .ret f => f.onScalar && f.disp == 0
  | .brxd f => f.ctl.ok false && f.cond.isV && f.sub == 0 && f.disp == 0
  | .call f => f.ctl.ok false && f.cond.isSIn 1 63 && f.sub == 0
  | .callx f => f.ctl.ok false && f.cond.isSIn 1 63 && f.sub == 0 && callxTargetOk f.disp
  | .meet f | .nop f | .yield f => f.bare false
  | .endLanes f => f.bare true
  | .gwidth f | .gsplits f | .lfirst f => f.query (· == 0)
  | .gactive f => f.query (· < 3)
  | .gmember f => f.ctl.ok false && f.dst.isS && f.a.isSSrc .n64 && f.sub == 0 && f.imm.toNat < 3
  | .lrank f => f.ctl.ok true && f.dst.isV && f.a.isZero && f.sub == 0 && f.imm == 0
  | .pand f | .por f | .pxor f | .pandn f => f.p2
  | .pmov f | .vany f | .vall f => f.p1
  | .pfroms f => f.pform f.dst.isPred (f.a.isSSrc .n64 && f.b.isSSrc .n64 && f.c.isSSrc .n64) (f.mod == 0)
  | .ptos f => f.ptoS 3
  | .pcount f | .pfind f => f.ptoS 1
  | .ballot f => f.pform f.dst.isS (f.a.isV && f.b.isZero && f.c.isZero) (f.mod.toNat < 3)
  | .sadd f | .ssub f | .smul f | .sand f | .sor f | .sxor f | .sandn f | .sshl f | .sshr f | .ssra f =>
    f.sform 2 false (f.mod == 0)
  | .smulh f | .sdiv f | .srem f | .smin f | .smax f => f.sform 2 true (f.mod == 0)
  | .scmp f => f.sform 2 false (f.mod.toNat < 8 && condOk f.mod.toNat f.ty)
  | .ssel f | .smad f | .sbfx f | .sbfi f => f.sform 3 false (f.mod == 0)
  | .sclz f | .spopc f => f.sform 1 false (f.mod == 0)
  | .saddi f | .sandi f | .sori f | .sxori f => f.sform f.ty.isScalar true (f.mod == 0)
  | .smovi f => f.sform f.ty.isScalar false (f.mod == 0)
  | .smovhi f => f.sform (f.ty == .b64) true (f.mod.toNat < 4)
  | .saddpc f => f.sform (f.ty == .b64) false (f.mod == 0)
  | .scmpi f => f.sform f.ty.isScalar true (f.mod.toNat < 8 && condOk f.mod.toNat f.ty)
  | .vadd f | .vsub f | .vmul f | .vand f | .vor f | .vxor f | .vandn f | .vshl f | .vshr f | .vsra f =>
    f.vform f.ty.isIntB 2 (f.mod == 0)
  | .vmulh f | .vaddsat f | .vsubsat f | .vmin f | .vmax f => f.vform f.ty.isInt 2 (f.mod == 0)
  | .vmad f | .vbfx f | .vbfi f => f.vform f.ty.isIntB 3 (f.mod == 0)
  | .vabs f => f.vform f.ty.isSigned 1 (f.mod == 0)
  | .vneg f => f.vform f.ty.isInt 1 (f.mod == 0)
  | .vcmp f => f.vpred f.ty.isIntB 2 (f.mod.toNat < 16 && condOk (bitsN f.mod.toNat 2 0) f.ty)
  | .vsel f => f.vform f.ty.isIntB 2 (f.mod.toNat < 8)
  | .vclz f | .vpopc f => f.vform f.ty.isIntB 1 (f.mod == 0)
  | .vcvti f => f.conv ETy.isIntB ETy.isInt true
  | .vmovi f => f.vform true false
  | .vaddi f | .vandi f | .vori f => f.vform f.ty.isIntB true
  | .fadd f | .fsub f | .fmul f | .fmin f | .fmax f => f.vform f.ty.isFloat 2 (f.mod == 0)
  | .fma f | .fms f | .fnma f | .fnms f => f.vform f.ty.isFloat 3 (f.mod == 0)
  | .fabs f | .fneg f => f.vform f.ty.isFloat 1 (f.mod == 0)
  | .fcmp f => f.vpred f.ty.isFloat 2 (f.mod.toNat < 16 && condOk (bitsN f.mod.toNat 2 0) f.ty)
  | .fsel f => f.vform f.ty.isFloat 2 (f.mod.toNat < 8)
  | .fclass f => f.vpred f.ty.isFloat 1 true
  | .fcvt f => f.conv ETy.isFloat ETy.isFloat false
  | .fcvti f => f.conv ETy.isInt ETy.isFloat true
  | .icvtf f => f.conv ETy.isFloat ETy.isInt false
  | .fscale f =>
    f.ctl.ok true && f.ty.isFloat && f.dst.isV && f.a.isVSrc f.ty && f.b.isVSrcAs f.ty .i32 && f.c.isZero && f.mod == 0
  | .frnd f => f.vform f.ty.isFloat 1 (f.mod.toNat < 4)
  | .fdot2 f => f.dot (f.ty == .t16 || f.ty == .bf16 || f.ty == .fp16)
  | .fdot4 f => f.dot (f.ty == .t8 || f.ty == .t6)
  | .fpack f => f.packs fun src => f.dst.isV && f.a.isVSrc src && f.b.isVSrc src && f.ty.count == 2 * src.count
  | .funpack f => f.packs fun src =>
      f.dst.isVFor .b64 && f.a.isVSrc src && f.b.isZero && src.count == 2 * f.ty.count
  | .fregime f => f.vform f.ty.isTapered 1 (f.mod.toNat < 2)
  | .ftwin f =>
    f.ctl.ok true && (f.ty == .t4 || f.ty == .t6 || f.ty == .t8) && f.dst.isV && f.a.isVSrc f.ty && f.b.isVSrcAs f.ty .i32
      && f.c.isZero && f.mod.toNat < 16 && bitsN f.mod.toNat 2 0 < f.ty.count
  | .faddi f | .fmuli f | .fmai f | .fmini f | .fmaxi f => f.vform f.ty.isFloat true
  | .fcmpi f =>
    f.ctl.ok true && f.ty.isFloat && f.dst.isPred && f.a.isVSrc f.ty && f.mod.toNat < 16
      && condOk (bitsN f.mod.toNat 2 0) f.ty && immOk f.ty f.imm
  | .frcp f | .frsq f | .fsqrt f | .fexp2 f | .flog2 f | .fsin f | .fcos f | .ftanh f | .fsigm f | .ferf f =>
    f.vform f.ty.isFloat 1 (f.mod == 0)
  | .xshfl f => f.shuffle (f.b.isVSrc .n32)
  | .xbcast f | .xup f | .xdown f | .xxor f => f.shuffle f.b.isLaneSrc
  | .xscan f | .xscanx f | .xred f => f.scan
  | .mma f => f.mmaOk (f.mod == 0)
  | .mmaz f => f.mmaOk (f.mod.toNat < 2)
  | .azero f => f.plain f.a.isZero f.b.isZero (f.mod.toNat < 128)
  | .aload f =>
    f.ctl.ok false && (f.ty == .fp32 || f.ty == .t32) && f.data.isTile && f.base.isS && (f.space == 0 || f.space == 2)
      && f.scope == 0 && f.kind == 0
  | .astore f =>
    f.ctl.ok false && f.ty == .b32 && f.data.isTile && f.base.isS && (f.space == 0 || f.space == 2)
      && f.scope == 0 && f.kind == 0
  | .aread f | .awrite f => f.plain f.a.isV (f.b.isVSrc .n32) (f.mod.toNat < 2)
  | .acvt f => f.plain f.a.isTile f.b.isZero (f.mod.toNat < 2)
  | .aadd f => f.plain f.a.isTile f.b.isZero (f.mod == 0)
  | .pairq f => f.query (· < 4)
  | .ld f => f.load 3
  | .st f => f.store
  | .ldro f => f.load 2
  | .ldg f | .stg f => f.gather
  | .ldx f | .stc f => f.packed
  | .atadd f => f.atomic (Mem.wide f.ty || f.ty == .fp32 || f.ty == .t32)
  | .atmin f | .atmax f => f.atomic ((f.ty.isInt && f.ty.size ≥ 4) || f.ty == .fp32 || f.ty == .t32)
  | .atand f | .ator f | .atxor f | .atswp f => f.atomic (Mem.wide f.ty)
  | .atcas f => f.cas
  | .mwupd f => f.ctl.ok true && mwTypeOk f.ty && f.data.isV && (f.base.isS || f.base.isV) && f.space == 2 && f.scope == 0
  | .hsend f =>
    f.ctl.ok false && hodTypeOk f.ty && f.data.isVFor f.ty && f.base.isS && f.space == 3 && f.scope == 0 && f.kind.toNat < 3
  | .pref f =>
    f.ctl.ok true && f.ty == .t4 && f.data.isZero && (f.base.isS || f.base.isV) && f.space.toNat < 2 && f.scope == 0
      && f.kind.toNat < 2
  | .resid f =>
    f.ctl.ok true && f.ty == .t4 && f.data.isS && f.base.isS && f.space.toNat < 2 && f.scope == 0 && f.kind.toNat < 3
  | .fence f => f.fenceOk 3
  | .fencero f => f.fenceOk 1
  | .bind f | .unbind f => f.bindOk
  | .acq f | .rel f => f.syncOk
  | .cpy f =>
    let dir := bitsN f.mod.toNat 1 0
    f.copyOk 59 (if dir == 2 then f.dst.isZero else f.dst.isS) f.slot
      (f.mod.toNat &&& 0xFEC == 0 && (!f.slot || dir < 2))
  | .cpyg f | .cpys f => f.copyOk 58 f.dst.isS f.slot (f.mod.toNat &&& 0xFEF == 0)
  | .cpyc f => f.copyOk 59 f.dst.isS false (f.mod == 0)
  | .cpyred f => f.copyOk 59 f.dst.isS f.slot (f.mod.toNat &&& 0xFE2 == 0 && bitsN f.mod.toNat 3 2 < 3)
  | .lpinit f => f.loop f.dst.isS f.a.isZero (f.mod.toNat < 512)
  | .lpstart f | .lpstop f => f.loop f.dst.isZero f.a.isZero (f.mod == 0)
  | .lpnext f => f.loop f.dst.isS f.a.isZero (f.mod == 0)
  | .lpdone f => f.loop f.dst.isZero (f.a.isSSrc .n64) (f.mod == 0)
  | .lpq f => f.loop f.dst.isS f.a.isZero (f.mod.toNat < 5)
  | .jinit f => f.jinitOk
  | .jarrive f | .jarwait f => f.arriveOk
  | .jwait f => f.jwaitOk
  | .ringinit f =>
    f.ctl.ok false && f.dst.isZero && f.a.isZero && f.sub == 0 && f.imm.toNat < 512
      && 1 ≤ bitsN f.imm.toNat 8 4 && bitsN f.imm.toNat 8 4 ≤ 16
  | .ringput f | .ringtake f => f.ringOk
  | .kwait f => f.ctl.ok false && f.dst.isZero && f.a.isZero && f.sub == 0 && f.imm.toNat < 256
  | .region f => f.ctl.ok false && f.dst.isZero && f.a.isZero && f.sub == 0
  | .xret f | .eret f | .brk f => f.bare false
  | .trap f => f.ctl.ok false && f.dst.isZero && f.a.isZero && f.sub == 0
  | .scall f => f.scallOk
  | .cpop f => f.regs (f.dst.isSIn 1 57) f.a.isS 2
  | .cpush f => f.regs f.dst.isS (f.a.isSIn 1 57) 1
  | .cjoin f => f.regs f.dst.isS (f.a.isSIn 1 59) 1
  | .mbsend f | .netsend f => f.regs f.dst.isS (f.a.isSIn 1 54) 2
  | .mbrecv f => f.regs (f.dst.isSIn 1 53) f.a.isS 2
  | .quotaq f => f.query (· < 4)
  | .cycq f => f.query (· < 3)
  | .capq f => f.query fun n => n < 68 || (128 ≤ n && n < 192)
  | _ => true

end Sys2Proof
end

