-- ==== Sys2Proof/Machine/Number.lean ====
section
/-!
DEFINITION. The number formats (03): codes of the tapered and IEEE types, exact values, and the one rounding of each
format. An exact value is a sign, a magnitude m and an exponent e, meaning m * 2^e; a magnitude may stand for slightly
more than m (`sticky`), where the exact value has no finite expansion.
-/

namespace Sys2Proof.Machine

/-- A decoded element: no number (NaR, NaN), an infinity, or a sign and m * 2^e. A zero keeps its sign (03 R66). -/
inductive Num
  | nan
  | inf (neg : Bool)
  | fin (neg : Bool) (m : Nat) (e : Int)
  deriving DecidableEq, Repr

/-! ### Formats (03 R58, R66) -/

/-- Exponent-field width of a tapered format. -/
def taperEs : ETy → Nat
  | .t16 | .t32 => 2
  | .t6 | .t8 => 1
  | _ => 0

/-- Fraction bits and exponent bits of an IEEE format. -/
def ieeeP : ETy → Nat
  | .fp16 => 10
  | .bf16 => 7
  | _ => 23
def ieeeE : ETy → Nat
  | .fp16 => 5
  | _ => 8

def ieeeBias (t : ETy) : Nat := 2 ^ (ieeeE t - 1) - 1

/-- The infinity code without its sign. -/
def ieeeInf (t : ETy) : Nat := (2 ^ ieeeE t - 1) * 2 ^ ieeeP t

/-- `invalid(fmt)` of 03 R76: NaR, the default quiet NaN, or 0 of an integer type. -/
def invalidCode (t : ETy) : Nat :=
  if t.isTapered then 2 ^ (t.width - 1) else if t.isIeee then ieeeInf t + 2 ^ (ieeeP t - 1) else 0

/-! ### Decoding (03 R59, R66) -/

/-- Length of the run of bits equal to `b` that starts at bit n - 1 and goes down. -/
def runLength (x : Nat) (b : Nat) : Nat → Nat
  | 0 => 0
  | n + 1 => if x / 2 ^ n % 2 = b then 1 + runLength x b n else 0

/-- Regime k, exponent e, fraction F and its bits f of a positive tapered code (03 R59). -/
def taperFields (n es m : Nat) : Int × Nat × Nat × Nat :=
  let first := m / 2 ^ (n - 2) % 2
  let len := runLength m first (n - 1)
  let k : Int := if first = 1 then (len : Int) - 1 else -(len : Int)
  let left := n - 1 - min (n - 1) (len + 1)
  let rest := m % 2 ^ left
  let ebits := min es left
  let f := left - ebits
  (k, rest / 2 ^ f * 2 ^ (es - ebits), rest % 2 ^ f, f)

def decodeTaper (n es c : Nat) : Num :=
  if c = 0 then .fin false 0 0
  else if c = 2 ^ (n - 1) then .nan
  else
    let neg := decide (2 ^ (n - 1) < c)
    let m := if neg then 2 ^ n - c else c
    let (k, e, F, f) := taperFields n es m
    .fin neg (2 ^ f + F) (k * 2 ^ es + e - f)

def decodeIeee (t : ETy) (c : Nat) : Num :=
  let p := ieeeP t
  let neg := decide (c / 2 ^ (t.width - 1) % 2 = 1)
  let E := c / 2 ^ p % 2 ^ ieeeE t
  let F := c % 2 ^ p
  if E = 2 ^ ieeeE t - 1 then (if F = 0 then .inf neg else .nan)
  else if E = 0 then .fin neg F (1 - ieeeBias t - p)
  else .fin neg (2 ^ p + F) ((E : Int) - ieeeBias t - p)

/-- The value of an element code. -/
def numOf (t : ETy) (c : Nat) : Num :=
  if t.isTapered then decodeTaper t.width (taperEs t) (c % 2 ^ t.width) else decodeIeee t c

/-! ### Rounding (03 R60, R66) -/

/-- Round a magnitude scaled so that the bits kept end above bit `drop`: to nearest, ties to even. -/
def roundOff (x drop : Nat) (sticky : Bool) : Nat :=
  let c := x / 2 ^ drop
  let r := x % 2 ^ drop
  let half := 2 ^ (drop - 1)
  if half < r ∨ (r = half ∧ (sticky ∨ c % 2 = 1)) then c + 1 else c

/-- `round_rne` of a tapered format for m * 2^e, m > 0 (03 R60). -/
def roundTaper (n es : Nat) (neg : Bool) (m : Nat) (e : Int) (sticky : Bool) : Nat :=
  let m := m * 2 ^ (n + 3)
  let e := e - (n + 3)
  let L := Nat.log2 m
  let scale := (L : Int) + e
  let top : Int := ((n - 2) * 2 ^ es : Nat)
  let c :=
    if top ≤ scale then 2 ^ (n - 1) - 1
    else if scale < -top then 1
    else
      let k := scale.fdiv (2 ^ es)
      let x := (scale.fmod (2 ^ es)).toNat
      let rlen := if 0 ≤ k then k.toNat + 2 else (-k).toNat + 1
      let regime := if 0 ≤ k then 2 ^ (k.toNat + 2) - 2 else 1
      let S := (regime * 2 ^ es + x) * 2 ^ L + (m - 2 ^ L)
      let c := roundOff S (rlen + es + L - (n - 1)) sticky
      if c = 0 then 1 else if 2 ^ (n - 1) ≤ c then 2 ^ (n - 1) - 1 else c
  if neg then 2 ^ n - c else c

/-- Rounding of an IEEE format for m * 2^e, m > 0 (03 R66). -/
def roundIeee (t : ETy) (neg : Bool) (m : Nat) (e : Int) (sticky : Bool) : Nat :=
  let p := ieeeP t
  let m := m * 2 ^ (p + 5)
  let e := e - (p + 5)
  let L := Nat.log2 m
  let scale := (L : Int) + e
  let emin : Int := 1 - (ieeeBias t : Int)
  let c :=
    if (ieeeBias t : Int) + 1 ≤ scale then ieeeInf t
    else if scale < emin - p - 2 then 0
    else
      let q := max (scale - p) (emin - p)
      let N := roundOff m (q - e).toNat sticky
      min (((q + p + ieeeBias t - 1).toNat) * 2 ^ p + N) (ieeeInf t)
  if neg then 2 ^ (t.width - 1) + c else c

/-- Round an exact value into a float type. -/
def roundParts (t : ETy) (neg : Bool) (m : Nat) (e : Int) (sticky : Bool) : Nat :=
  if m = 0 then (if t.isIeee && neg then 2 ^ (t.width - 1) else 0)
  else if t.isTapered then roundTaper t.width (taperEs t) neg m e sticky
  else roundIeee t neg m e sticky

/-- `round_rne(x, t)`; what is no real number gives NaR or the default quiet NaN (03 R60, R66 to R68). -/
def roundNum (t : ETy) : Num → Nat
  | .nan => invalidCode t
  | .inf neg => if t.isIeee then ieeeInf t + (if neg then 2 ^ (t.width - 1) else 0) else invalidCode t
  | .fin neg m e => roundParts t neg m e false

/-! ### Exact arithmetic -/

def Num.neg : Num → Num
  | .nan => .nan
  | .inf b => .inf (!b)
  | .fin b m e => .fin (!b) m e

def Num.isZero : Num → Bool
  | .fin _ 0 _ => true
  | _ => false

def Num.sign : Num → Bool
  | .nan => false
  | .inf b => b
  | .fin b _ _ => b

/-- The signed integer m * 2^(e - e0), for e0 ≤ e. -/
def signedAt (neg : Bool) (m : Nat) (e e0 : Int) : Int :=
  let x : Int := m * 2 ^ (e - e0).toNat
  if neg then -x else x

/-- Exact sum, with the IEEE rules for zeros and infinities (05 R121). -/
def Num.add : Num → Num → Num
  | .nan, _ => .nan
  | _, .nan => .nan
  | .inf a, .inf b => if a = b then .inf a else .nan
  | .inf a, _ => .inf a
  | _, .inf b => .inf b
  | .fin a m e, .fin b n f =>
    if m = 0 ∧ n = 0 then .fin (a && b) 0 0
    else if m = 0 then .fin b n f
    else if n = 0 then .fin a m e
    else
      let e0 := min e f
      let x := signedAt a m e e0 + signedAt b n f e0
      .fin (decide (x < 0)) x.natAbs e0

/-- Exact product. -/
def Num.mul : Num → Num → Num
  | .nan, _ => .nan
  | _, .nan => .nan
  | .inf a, .inf b => .inf (a != b)
  | .inf a, .fin b n _ => if n = 0 then .nan else .inf (a != b)
  | .fin a m _, .inf b => if m = 0 then .nan else .inf (a != b)
  | .fin a m e, .fin b n f => .fin (a != b) (m * n) (e + f)

/-- Exact comparison of two values that are no NaN: less. -/
def Num.lt : Num → Num → Bool
  | .inf a, .inf b => a && !b
  | .inf a, .fin _ _ _ => a
  | .fin _ _ _, .inf b => !b
  | .fin a m e, .fin b n f => let e0 := min e f; decide (signedAt a m e e0 < signedAt b n f e0)
  | _, _ => false

def Num.eq : Num → Num → Bool
  | .inf a, .inf b => a == b
  | .fin a m e, .fin b n f => let e0 := min e f; signedAt a m e e0 == signedAt b n f e0
  | _, _ => false

/-- m * 2^e for any integer e, as a rational's parts are exact only upwards: the integer part and whether more remains,
compared with a half: 0 exact, 1 below a half, 2 a half, 3 above. -/
def intParts (m : Nat) (e : Int) : Nat × Nat :=
  if 0 ≤ e then (m * 2 ^ e.toNat, 0)
  else
    let d := (-e).toNat
    if Nat.log2 m + 2 < d then (0, if m = 0 then 0 else 1)
    else
      let r := m % 2 ^ d
      let h := 2 ^ (d - 1)
      (m / 2 ^ d, if r = 0 then 0 else if r < h then 1 else if r = h then 2 else 3)

/-- Rounding an exact value to an integer: 0 nearest even, 1 toward zero, 2 down, 3 up (05 R125). -/
def roundInt (mode : Nat) (neg : Bool) (m : Nat) (e : Int) : Nat :=
  let (i, r) := intParts m e
  let up := match mode with
    | 0 => r == 3 || (r == 2 && i % 2 == 1)
    | 1 => false
    | 2 => neg && r != 0
    | _ => !neg && r != 0
  if up then i + 1 else i

/-! ### Element operations -/

def isNaN (t : ETy) (c : Nat) : Bool := numOf t c == .nan

/-- Negation of a code (03 R61, 05 R121). -/
def negCode (t : ETy) (c : Nat) : Nat :=
  if t.isTapered then (2 ^ t.width - c) % 2 ^ t.width
  else if isNaN t c then invalidCode t else (c + 2 ^ (t.width - 1)) % 2 ^ t.width

def absCode (t : ETy) (c : Nat) : Nat :=
  if isNaN t c then invalidCode t
  else if t.isTapered then (if 2 ^ (t.width - 1) < c then 2 ^ t.width - c else c)
  else c % 2 ^ (t.width - 1)

/-- The signed integer of an element. -/
def signedOf (w c : Nat) : Int := if c / 2 ^ (w - 1) % 2 = 1 then (c % 2 ^ w : Nat) - (2 ^ w : Nat) else (c % 2 ^ w : Nat)

/-- Order of codes for minimum and maximum: −0 below +0 (03 R63, 05 R121). -/
def codeBelow (t : ETy) (a b : Nat) : Bool :=
  if t.isTapered then decide (signedOf t.width a < signedOf t.width b)
  else
    let x := numOf t a
    let y := numOf t b
    x.lt y || (x.isZero && y.isZero && x.sign && !y.sign)

def minCode (t : ETy) (a b : Nat) : Nat :=
  if isNaN t a || isNaN t b then invalidCode t else if codeBelow t b a then b else a
def maxCode (t : ETy) (a b : Nat) : Nat :=
  if isNaN t a || isNaN t b then invalidCode t else if codeBelow t a b then b else a

/-- The lesser, or with `more` the greater, of two exact values, rounded. -/
def extremeNum (t : ETy) (more : Bool) (x y : Num) : Nat :=
  if x == .nan || y == .nan then invalidCode t else roundNum t (if (if more then x.lt y else y.lt x) then y else x)

def addCode (t : ETy) (a b : Nat) : Nat := roundNum t ((numOf t a).add (numOf t b))
def subCode (t : ETy) (a b : Nat) : Nat := roundNum t ((numOf t a).add (numOf t b).neg)
def mulCode (t : ETy) (a b : Nat) : Nat := roundNum t ((numOf t a).mul (numOf t b))

/-- ±(a × b) ± c, rounded once (05 R120). -/
def fmaCode (t : ETy) (negProduct negAddend : Bool) (a b c : Nat) : Nat :=
  let p := (numOf t a).mul (numOf t b)
  let d := numOf t c
  roundNum t ((if negProduct then p.neg else p).add (if negAddend then d.neg else d))

/-- A code of one float type as a code of another (03 R64, R67, R68). -/
def convCode (dst src : ETy) (c : Nat) : Nat := roundNum dst (numOf src c)

/-- The range of a type; .b types are as the unsigned ones (05 R110). -/
def intMin (t : ETy) : Int := if !t.isSigned then 0 else -(2 ^ (t.width - 1) : Nat)
def intMax (t : ETy) : Int := if !t.isSigned then (2 ^ t.width - 1 : Nat) else (2 ^ (t.width - 1) - 1 : Nat)

def clampInt (t : ETy) (x : Int) : Int := max (intMin t) (min (intMax t) x)

/-- An integer as an element of width w. -/
def wrapInt (w : Nat) (x : Int) : Nat := (x % (2 ^ w : Nat)).toNat

/-- Float to integer (03 R69, 05 R123). A magnitude of 2^65 or more saturates without being computed. -/
def toIntCode (dst src : ETy) (trunc : Bool) (c : Nat) : Nat :=
  wrapInt dst.width <|
    match numOf src c with
    | .nan => intMin dst
    | .inf neg => if neg then intMin dst else intMax dst
    | .fin neg m e =>
      if m ≠ 0 ∧ 65 ≤ (Nat.log2 m : Int) + e then (if neg then intMin dst else intMax dst)
      else
        let i := roundInt (if trunc then 1 else 0) neg m e
        clampInt dst (if neg then -(i : Int) else i)

/-- Integer to float (03 R69, 05 R123). -/
def ofIntCode (dst : ETy) (x : Int) : Nat := roundParts dst (decide (x < 0)) x.natAbs 0 false

/-- a × 2^n, rounded (05 R125). -/
def scaleCode (t : ETy) (c : Nat) (n : Int) : Nat :=
  roundNum t (match numOf t c with
    | .fin neg m e => .fin neg m (e + n)
    | x => x)

/-- frnd: to an integer under a mode, then rounded (05 R125); a value with no fraction is kept. -/
def rndCode (t : ETy) (mode c : Nat) : Nat :=
  roundNum t (match numOf t c with
    | .fin neg m e => if 0 ≤ e then .fin neg m e else .fin neg (roundInt mode neg m e) 0
    | x => x)

/-- The exact sum of 03 R76 over term values, with the checks of 05 R126 on infinities. -/
def exactSum (fmt : ETy) (d : Num) (terms : List (Num × Num)) : Nat :=
  if terms.any (fun p => p.1 == .nan || p.2 == .nan) || d == .nan then invalidCode fmt
  else
    let products := terms.map fun p => p.1.mul p.2
    let infs := (products ++ [d]).filterMap fun x => match x with
      | .inf b => some b
      | _ => none
    if products.any (· == .nan) || (infs.contains true && infs.contains false) then invalidCode fmt
    else match infs with
      | b :: _ => roundNum fmt (.inf b)
      | [] =>
        match products.foldl Num.add d with
        | .fin neg m e => if m = 0 then 0 else roundParts fmt neg m e false
        | x => roundNum fmt x

/-- fregime scale: floor(log2 |x|); 0 and NaR give the most negative integer (05 R127). -/
def regimeScale (t : ETy) (c : Nat) : Nat :=
  match numOf t c with
  | .fin _ m e => if m = 0 then 2 ^ (t.width - 1) else wrapInt t.width ((Nat.log2 m : Int) + e)
  | _ => 2 ^ (t.width - 1)

/-- fregime frac: the fraction bits of the code (05 R127). -/
def regimeFrac (t : ETy) (c : Nat) : Nat :=
  if c = 0 ∨ c = 2 ^ (t.width - 1) then 0
  else
    let m := if 2 ^ (t.width - 1) < c then 2 ^ t.width - c else c
    (taperFields t.width (taperEs t) m).2.2.2

/-- fclass (05 R122). -/
def classMask (t : ETy) (c : Nat) : Nat :=
  match numOf t c with
  | .nan => 2
  | .inf neg => if neg then 4 else 8
  | .fin neg m _ =>
    if m = 0 then 1
    else
      let edge :=
        if t.isTapered then
          let a := absCode t c
          a == 1 || a == 2 ^ (t.width - 1) - 1
        else c / 2 ^ ieeeP t % 2 ^ ieeeE t == 0
      (if neg then 16 else 32) + (if edge then 64 else 0)

/-- A twin-scaled element (03 R73): the value times 2^S, S of −128 giving no number. -/
def twinValue (t : ETy) (c : Nat) (scale : Int) : Num :=
  if scale = -128 then .nan
  else match numOf t c with
    | .fin neg m e => .fin neg m (e + scale)
    | _ => .nan

end Sys2Proof.Machine
end

