-- ==== Sys2Proof/Machine/Flags.lean ====
section
/-!
DEFINITION. Integer arithmetic of w bits and the conditions that set a predicate or a 1 (05 R110 to R117, R122). The part
has no flags: a comparison's outcome goes to a register.
-/

namespace Sys2Proof.Machine

/-- An element as an integer under its type's signedness; .b types read as unsigned (05 R110). -/
def valueOf (t : ETy) (x : Nat) : Int :=
  if t.isSigned then signedOf t.width x else ((x % 2 ^ t.width : Nat) : Int)

def addW (w a b : Nat) : Nat := (a + b) % 2 ^ w
def subW (w a b : Nat) : Nat := wrapInt w ((a : Int) - (b : Int))
def mulW (w a b : Nat) : Nat := a * b % 2 ^ w
def madW (w a b c : Nat) : Nat := (a * b + c) % 2 ^ w

/-- High w bits of the double-width product, signed or unsigned (05 R112). -/
def mulHigh (t : ETy) (a b : Nat) : Nat := wrapInt t.width ((valueOf t a * valueOf t b) / (2 ^ t.width : Nat))

/-- Quotient (05 R113). -/
def divW (t : ETy) (a b : Nat) : Nat :=
  if b % 2 ^ t.width = 0 then 2 ^ t.width - 1 else wrapInt t.width ((valueOf t a).tdiv (valueOf t b))

/-- Remainder (05 R113). -/
def remW (t : ETy) (a b : Nat) : Nat :=
  if b % 2 ^ t.width = 0 then a % 2 ^ t.width else wrapInt t.width ((valueOf t a).tmod (valueOf t b))

def andW (a b : Nat) : Nat := a &&& b
def orW (a b : Nat) : Nat := a ||| b
def xorW (a b : Nat) : Nat := a ^^^ b
def andnW (w a b : Nat) : Nat := a &&& (2 ^ w - 1 - b % 2 ^ w)

/-- Shifts by an unsigned amount, w or more included (05 R113). -/
def shlW (w a n : Nat) : Nat := if w ≤ n then 0 else a * 2 ^ n % 2 ^ w
def shrW (w a n : Nat) : Nat := if w ≤ n then 0 else a % 2 ^ w / 2 ^ n
def sraW (w a n : Nat) : Nat := wrapInt w (signedOf w a / (2 ^ min n (w - 1) : Nat))

def minW (t : ETy) (a b : Nat) : Nat := if valueOf t b < valueOf t a then b else a
def maxW (t : ETy) (a b : Nat) : Nat := if valueOf t a < valueOf t b then b else a
def absW (w a : Nat) : Nat := wrapInt w ((signedOf w a).natAbs)
def negW (w a : Nat) : Nat := wrapInt w (-(a : Int))
def addSat (t : ETy) (a b : Nat) : Nat := wrapInt t.width (clampInt t (valueOf t a + valueOf t b))
def subSat (t : ETy) (a b : Nat) : Nat := wrapInt t.width (clampInt t (valueOf t a - valueOf t b))

/-- Leading zero bits of the low w bits (05 R112). -/
def clzW (w a : Nat) : Nat := runLength a 0 w

/-- One bits of the low w bits. -/
def popW (w a : Nat) : Nat := ((List.range w).map fun i => a / 2 ^ i % 2).sum

/-- Field extraction (05 R114). -/
def bfxW (t : ETy) (a pos len : Nat) : Nat :=
  if len = 0 ∨ t.width ≤ pos then 0
  else
    let n := min len (t.width - pos)
    let f := a / 2 ^ pos % 2 ^ n
    if t.isSigned then wrapInt t.width (signedOf n f) else f

/-- Field insertion into d (05 R114). -/
def bfiW (w a pos len d : Nat) : Nat :=
  if len = 0 ∨ w ≤ pos then d
  else
    let n := min len (w - pos)
    d - d / 2 ^ pos % 2 ^ n * 2 ^ pos + a % 2 ^ n * 2 ^ pos

/-- Integer to integer (05 R117). -/
def cvtInt (dst src : ETy) (sat : Bool) (x : Nat) : Nat :=
  let v := valueOf src x
  wrapInt dst.width (if sat then clampInt dst v else v)

/-! ### Conditions (05 R111) -/

/-- A condition from the outcomes equal, less and unordered. -/
def condOf (code : Nat) (eq lt un : Bool) : Bool :=
  match code with
  | 0 => eq && !un
  | 1 => !eq || un
  | 2 => lt && !un
  | 3 => (lt || eq) && !un
  | 4 => !lt && !eq && !un
  | 5 => !lt && !un
  | 6 => un
  | _ => !un

/-- Two elements of a type under a condition: integers by value, tapered codes as integers, IEEE values numerically. -/
def condElem (t : ETy) (code a b : Nat) : Bool :=
  if t.isIeee then
    let x := numOf t a
    let y := numOf t b
    condOf code (x.eq y) (x.lt y) (x == .nan || y == .nan)
  else if t.isTapered then
    condOf code (a % 2 ^ t.width == b % 2 ^ t.width) (decide (signedOf t.width a < signedOf t.width b)) false
  else condOf code (a % 2 ^ t.width == b % 2 ^ t.width) (decide (valueOf t a < valueOf t b)) false

end Sys2Proof.Machine
end

