-- ==== Sys2Proof/Config.lean ====
section
/-!
DEFINITION. What the spec leaves open and the machine fixes for itself: free values, constants without a body, so that
nothing can be proved of which value they are (notes/assumptions 4, 5, 6, 15).
-/

namespace Sys2Proof.Config

/-- The value of the n-th free choice of a run; State.tick is the next n (log 4). -/
opaque freeValue : Nat → BitVec 64

/-- Bits of an accumulator tile's element before anything writes it (01 R21; log 5): team, pair, tile, element. -/
opaque tileBits : Nat → Nat → Nat → Nat → BitVec 32

/-- Whether such a tile's tag is t32 (01 R21; log 5). -/
opaque tileIsT32 : Nat → Nat → Nat → Bool

/-- Which neighbour a special function of a 32-bit format returns when both are allowed (05 R130; log 6):
function number, type code, operand code. True takes the neighbour of greater magnitude. -/
opaque upperNeighbour : Nat → Nat → Nat → Bool

/-- The ECDSA P-384 signature of a message by the attestation key made from measurement M0 (24 R375; log 15):
M0, digest. -/
opaque signature : BitVec 384 → BitVec 384 → BitVec 768

/-- The bytes of the certificate page at PF offset 0x7_4000, by measurement M0 (24 R375; log 15). -/
opaque certificate : BitVec 384 → Nat → BitVec 8

end Sys2Proof.Config
end

