-- ==== Sys2Proof/Machine/Store.lean ====
section
/-!
DEFINITION. Sparse tables as plain data: a list of (key, value) pairs with strictly rising keys. A table that holds
memory or registers lists no pair whose value is what an unlisted key reads as, so equal tables are equal lists.
-/

namespace Sys2Proof.Machine

abbrev Store (α : Type) := List (Nat × α)

namespace Store

variable {α : Type}

/-- The value at a key, if it is listed. -/
def find? : Store α → Nat → Option α
  | [], _ => none
  | (k, v) :: r, n => if n = k then some v else find? r n

/-- The table with the key listed at a value. -/
def put : Store α → Nat → α → Store α
  | [], n, x => [(n, x)]
  | (k, v) :: r, n, x => if n = k then (n, x) :: r else if n < k then (n, x) :: (k, v) :: r else (k, v) :: put r n x

/-- The table without the key. -/
def erase (m : Store α) (n : Nat) : Store α := m.filter fun p => p.1 != n

/-- The value at a key; an unlisted key reads as `d`. -/
def get (d : α) (m : Store α) (n : Nat) : α := (m.find? n).getD d

/-- The table in which the key reads as `x`, where an unlisted key reads as `d`. -/
def set [DecidableEq α] (d : α) (m : Store α) (n : Nat) (x : α) : Store α :=
  if x = d then m.erase n else m.put n x

/-- Keys strictly rising. -/
def rising : Store α → Bool
  | [] => true
  | (_, _) :: [] => true
  | (k, _) :: (k', v') :: r => decide (k < k') && rising ((k', v') :: r)

/-- The canonical form: keys strictly rising and nothing listed that reads as unlisted. -/
def wf [DecidableEq α] (d : α) (m : Store α) : Bool := m.rising && m.all fun p => decide (p.2 ≠ d)

/-- The keys, rising. -/
def keys (m : Store α) : List Nat := m.map (·.1)

/-- Apply a function to one listed value. -/
def update (m : Store α) (n : Nat) (f : α → α) : Store α :=
  match m.find? n with
  | some v => m.put n (f v)
  | none => m

/-- Apply a function to every listed value. -/
def mapVals (m : Store α) (f : Nat → α → α) : Store α := m.map fun p => (p.1, f p.1 p.2)

/-- Keep the listed pairs a predicate holds of. -/
def keep (m : Store α) (f : Nat → α → Bool) : Store α := m.filter fun p => f p.1 p.2

end Store

end Sys2Proof.Machine
end

