-- ==== Sys2Proof/Machine/State.lean ====
section
/-!
DEFINITION. The machine's state as plain data (01, 04, 06, 07, 08, 09, 17 to 22, 24), the reasons a step can stop, and
the state after reset. Fields that are the model's own are marked MODEL.
-/

namespace Sys2Proof.Machine

/-- Why the machine stops. -/
inductive Fault
  /-- Raised by the meaning of an instruction when no split is running it. The machine itself issues an instruction only
  of a running split (02 R44), so no run reaches it. Safe. -/
  | noSplit
  deriving DecidableEq, Repr

/-- Why the model declines a step. -/
inductive Refusal
  /-- An instruction the model has no meaning for yet; no arm answers so now. Safe. -/
  | notModelled (mnemonic : String)
  deriving DecidableEq, Repr

/-! ### Splits and gangs (01, 04) -/

/-- What a fault record reports (20 R321). -/
structure FaultInfo where
  code : Nat
  orig : Nat
  addr : Nat
  acc : Nat
  elem : Nat
  fmask : Mask
  lane : Nat
  pc : Nat
  hdr : Nat
  left : Nat
  exts : List (List Word)
  /-- The host must confirm that a timed-out request was not performed (22 R352). -/
  unsure : Bool := false
  deriving DecidableEq, Repr

/-- Why a split issues nothing though it stands at an instruction (02 R43, R22; 08 R212; 09); `memory`: its access is held
(17 R273; 19 R308; 22 R351; 24 R368), `copyCheck`: one of a copy's checks is. -/
inductive Wait
  | memory
  | copyCheck
  | counter (k : Nat)
  | rendezvous (point : Nat)
  | ringPut
  | ringTake
  | kwait
  | copyRoom
  | matrixRoom
  | scallRoom
  | cpop
  | cpush
  | cjoin
  | mbsend
  | mbrecv
  | lpnext
  | xret
  | checkpoint
  | fence
  | net (id : Nat)
  | hostAtomic (id : Nat)
  | remote
  | held
  | faultQueue (info : FaultInfo)
  deriving DecidableEq, Repr

/-- A clause being run (02 R39, R41): its header, all its words, the next word's index, the index to stop before, whether
its waits are over, whether it has been selected to issue (its instructions left, 02 R41, are stop - pos), and the region descriptor fetched with a marker (09 R218). -/
structure Clause where
  hdr : Nat
  header : Word
  words : List Word
  pos : Nat
  stop : Nat
  waited : Bool
  begun : Bool
  desc : List Word
  deriving DecidableEq, Repr

/-- The results of a long-latency form not yet delivered (02 R51): instructions of its window left, lane-register,
scalar and predicate writes (a predicate's new bits and the lanes they are for). -/
structure Late where
  left : Nat
  vs : List (Nat × Lane32)
  ss : List (Nat × Word)
  ps : List (Nat × Mask × Mask)
  deriving DecidableEq, Repr

/-- One lane's answer to a service call (09 R235). -/
structure CallAnswer where
  lane : Nat
  status : Nat
  words : List Lane32
  deriving DecidableEq, Repr

/-- A split parked in a service call (09 R233, R236). -/
structure CallPark where
  callid : Nat
  tags : List (Nat × Word)
  dst : Nat
  results : Nat
  pred : Nat
  waiting : Mask
  answers : List CallAnswer
  deriving DecidableEq, Repr

/-- A split parked by a fault (09 R231; 20 R322): its token, the fault, its record's address in the log and its index in the
fault queue if it went there, and the address of its first extension record. -/
structure FaultPark where
  token : Nat
  info : FaultInfo
  logAt : Nat
  queued : Option Nat
  hardware : Bool
  extAt : Option Nat
  deriving DecidableEq, Repr

inductive Park
  | call (c : CallPark)
  | fault (f : FaultPark)
  deriving DecidableEq, Repr

/-- A spawn record (04 R92): destination, launch, the lane's p1 to p7 (bit i is p(i+1)), live-in vector registers. -/
structure SpawnRec where
  dest : Nat
  launch : Nat
  preds : Nat
  regs : List (Nat × Lane32)
  deriving DecidableEq, Repr

/-- One entry of the split table with its scalar file (01 R14, R16) and its progress through its clause. The entry's
presence in Gang.splits is VALID, its key INDEX. -/
structure Split where
  pc : Nat := 0
  region : Nat := 0
  member : Mask := 0
  active : Mask := 0
  rstate : Nat := 0
  wonly : Bool := false
  /-- Spawn records not yet accepted; SPAWNP is that there are some (01 R14, 04 R90). -/
  spawning : List SpawnRec := []
  s : Store Word := []
  clause : Option Clause := none
  wait : Option Wait := none
  /-- Its clause has stalled, and its quarter has not gone on with it since (02 R44). -/
  stalled : Bool := false
  late : List Late := []
  parked : Option Park := none
  /-- Issue opportunities of the gang at which it was ready and passed over (04 R84). -/
  passed : Nat := 0
  /-- A yield has issued in the clause being run; the splits it yields to (04 R386). -/
  yielding : Bool := false
  yieldTo : List Nat := []
  /-- An irrevocable instruction has closed the region; a marker must follow (09 R220). -/
  closed : Bool := false
  /-- ACTIVE saved at vectoring, which eret restores (09 R221, R228). -/
  savedActive : Option Mask := none
  /-- Bytes of the split's save area written in the exit routine, as offsets (09 R223). -/
  covered : List Nat := []
  /-- The split has passed its exit routine or was saved without one (09 R221, R226). -/
  saved : Bool := false
  /-- It starts its entry routine when restored (09 R228). -/
  restart : Bool := false
  /-- First element of an interrupted stc still to write (07 R167). -/
  stcFrom : Nat := 0
  /-- What the checks of a copy have read of other packages: key and bytes (08 R199; 22 R356). -/
  reads : List (Nat × List Byte) := []
  /-- Descriptor of the region whose exit routine it runs, in RSTATE 1 (09 R221). -/
  exitDesc : List Word := []
  deriving DecidableEq, Repr

/-- The role a gang holds in its team (06 R135, 08 R198); Chafer's gangs hold none (04 R94). -/
inductive Role
  | copy | matrix | vector | none
  deriving DecidableEq, Repr

structure Gang where
  fn : Nat := 0
  launch : Nat := 0
  team : Nat := 0
  /-- Gang number within the team (%gang). -/
  num : Nat := 0
  role : Role := .vector
  /-- Vector registers allocated, V. -/
  vregs : Nat := 8
  die : Nat := 0
  cluster : Nat := 0
  /-- Core within the cluster, quarter of the core, gang slot of the quarter. -/
  seat : Seat := ⟨0, 0, 0⟩
  live : Mask := 0
  splits : Store Split := []
  /-- Lane registers: key 96 * register + lane. -/
  v : Store Lane32 := []
  /-- p1 to p7. -/
  p : Store Mask := []
  /-- Operations of class n issued so far and those outstanding, as (class, issue number, operation) (01 R22, 08 R210). -/
  issued : Store Nat := []
  ops : List (Nat × Nat × Nat) := []
  /-- Arrival flags and AP of the points (08 R201). -/
  flags : Store Bool := []
  ap : Store Bool := []
  /-- Weevil's record held by the gang (08 R215). -/
  held : Option Word := none
  /-- The issue opportunity at which its quarter last selected it, and selections since placement (16 R261). -/
  lastSel : Nat := 0
  sels : Nat := 0
  /-- Save block address, 0 for none (09 R222; 18 R292, R293), and Chafer's block number. -/
  save : Nat := 0
  sbNum : Option Nat := none
  /-- What the read-only path may still return (07 R164), as places in State.order: of a byte in a lane (key 96 * byte +
  lane), what it last returned; of a lane, its latest fencero; of bound ranges, acquires by the lanes of a mask. -/
  ro : Store Nat := []
  roFrom : Store Nat := []
  acquired : List (Nat × Nat × Mask × Nat) := []
  /-- The place in State.order at which it was placed, and lanes whose splits have re-ganged since a clause last began (01 R38). -/
  born : Nat := 0
  merged : List Mask := []
  /-- Spawn group whose records the gang carries until its first clause has issued (04 R92). -/
  group : Option Nat := none
  /-- No instruction of it has issued yet (19 R305). -/
  fresh : Bool := true
  deriving DecidableEq, Repr

/-! ### Teams (01 R23, R24; 08) -/

structure Point where
  phase : Bool := false
  expect : Nat := 0
  pending : Nat := 0
  deriving DecidableEq, Repr

/-- A stage ring (08 R206); `pb` holds the phase bits. -/
structure Ring where
  pb : BitVec 16 := 0
  full : Bool := false
  depth : Nat := 0
  ppos : Nat := 0
  cpos : Nat := 0
  deriving DecidableEq, Repr

/-- The state of a Weevil nest (08 R213, R215). -/
inductive NestState
  | idle | configured | running | finished
  deriving DecidableEq, Repr

/-- Weevil's nest (08 R213 to R215): trip counts innermost first, permits, role mask (bit 0 copy, 1 matrix, 2 vector),
the next SEQ, open iterations with the roles that reported, and the three queues of records. -/
structure Nest where
  state : NestState := .idle
  trips : List Nat := []
  permits : Nat := 0
  roles : Nat := 0
  next : Nat := 0
  opened : List (Nat × Nat) := []
  queues : Store (List Word) := []
  deriving DecidableEq, Repr

structure Team where
  fn : Nat := 0
  launch : Nat := 0
  /-- Index of the team within its launch; none of a Chafer gang's team. -/
  index : Option Nat := none
  x : Nat := 0
  y : Nat := 0
  z : Nat := 0
  die : Nat := 0
  cluster : Nat := 0
  /-- Tiles per pair, T (06 R134). -/
  tiles : Nat := 0
  /-- Mortar window: colour, first line, bytes (17 R280). -/
  colour : Nat := 0
  line : Nat := 0
  window : Nat := 0
  points : Store Point := []
  rings : Store Ring := []
  nest : Nest := {}
  deriving DecidableEq, Repr

/-! ### Launches, queues and spawn groups (18; 04 R92, R93) -/

/-- A launch taken and not completed (a later one has a higher handle): its record's eight words, the dependence record if
DEP, its queue and front end, gp0 to gp63, teams not yet placed, and how it ended, if it has: status,
code, record address. -/
structure Launch where
  fn : Nat := 0
  queue : Nat := 0
  fe : Nat := 0
  entry : List Word := []
  dep : Option (List Word) := none
  gp : Store Word := []
  /-- The place in State.order at which it was taken: its code is read as it stood then, or as stored since (02 R45). -/
  since : Nat := 0
  todo : List Nat := []
  ended : Option (Nat × Nat × Nat) := none
  /-- Waiting for the dependence record that must follow (18 R298). -/
  wantsDep : Bool := false
  /-- Quanta that a placeable team has waited (18 R300). -/
  waited : Store Nat := []
  /-- Its completion record is written; the launch is kept for that dependence record alone. -/
  completed : Bool := false
  /-- The drain that ended it (23 R363), by the handle from which launches were taken after it. -/
  drain : Option Nat := none
  deriving DecidableEq, Repr

/-- A hardware queue slot (18 R289): the cached QCB words 0 to 3 and its guest fields. -/
structure Slot where
  fn : Nat := 0
  queue : Nat := 0
  die : Nat := 0
  priv : List Word := []
  head : Nat := 0
  tail : Nat := 0
  done : Nat := 0
  closed : Bool := false
  /-- Teams that each other queue of the die has placed since this one last placed one: function, queue, count (18 R300). -/
  others : List (Nat × Nat × Nat) := []
  /-- Quanta without records (18 R289). -/
  idle : Nat := 0
  deriving DecidableEq, Repr

/-- Records on one destination of one launch on a die (04 R93); `formed`: it has become a gang, waiting or placed. -/
structure Group where
  die : Nat := 0
  launch : Nat := 0
  dest : Nat := 0
  recs : List SpawnRec := []
  formed : Bool := false
  placed : Bool := false
  deriving DecidableEq, Repr

/-! ### Engine operations -/

/-- An access an engine or instruction makes to another package, awaiting its response (22 R356). -/
structure Remote where
  tag : Nat
  g : Nat
  sp : Nat
  /-- Lane register keys or scalar register the answer goes to, access size in bytes, sign extension. -/
  vdst : List Nat := []
  sdst : Option Nat := none
  size : Nat := 0
  signed : Bool := false
  write : Bool
  /-- The operation it is part of, if its split does not wait for it. -/
  op : Option Nat
  /-- Lanes whose acquire follows the read (07 R171, R178). -/
  acq : Mask := 0
  va : Nat
  key : Nat
  packet : Packet
  deriving DecidableEq, Repr

/-- What a copy does with its elements: move them, with zero bytes for those out of bounds if `pad`; fill bricks; or combine
them into the destination (08 R193, R197). -/
inductive CopyKind
  | move (pad : Bool) | fill | reduce (op : Nat) (pad : Bool)
  deriving DecidableEq, Repr

/-- Where the bytes of a move come from: nothing (zero bytes), a memory key, bytes that another package has sent, or those
it has yet to send, from a key, under a tag (22 R356). -/
inductive MoveSrc
  | zero
  | key (k : Nat)
  | data (bs : List Byte)
  | wait (tag k : Nat)
  deriving DecidableEq, Repr

/-- One move of up to 32 bytes of a copy with its translations taken (08 R193, R199): the key it goes to, its bytes, how many
of its low bits hold elements in bounds, and the virtual addresses of its ends in global memory. -/
structure Move where
  src : MoveSrc
  dst : Nat
  len : Nat
  valid : Nat
  srcVa : Nat
  dstVa : Nat
  /-- Its first byte among the 32 of its box row's segment, whose first element starts there. -/
  at_ : Nat := 0
  deriving DecidableEq, Repr

/-- A cached brick that tells more than memory does (17 R268; log 17): a TID-0 brick under a t6 window, whose bytes are
`data`; what a fill of a tensor left out of bounds in a brick (08 R194), the bytes `oob` of `data`; a sparse line with its
kept count. -/
structure Brick where
  tag : BrickTag
  /-- Where its first byte lies. -/
  key : Nat
  data : List Byte := []
  oob : List Nat := []
  modified : Bool := false
  /-- The kept count of the sideband, taken when a sparse line was filled (17 R275). -/
  kept : Option Nat := none
  /-- Tensors through whose bricks its bytes were stored. -/
  tids : List Nat := []
  deriving DecidableEq, Repr

structure CopyOp where
  g : Nat
  fn : Nat
  team : Nat
  launch : Nat
  cluster : Nat
  class_ : Nat
  kind : CopyKind
  ty : ETy
  /-- The layout names a twin-scaled format (03 R73). -/
  twin : Bool
  moves : List Move
  fills : List Brick
  point : Nat
  committed : Bool
  deriving DecidableEq, Repr

/-- What a pair engine operation does (06 R142, R146, R147, R149): `t32` is the tag it sets; `n` the sparse N, 0 dense;
`scl` the marked operands. -/
inductive MatKind
  | mma (zero t32 : Bool) (ta tb : ETy) (n scl : Nat)
  | azero (count : Nat) (t32 : Bool)
  | aload (t32 : Bool)
  | astore
  | acvt (src : Nat) (t32 : Bool)
  | aadd (src : Nat)
  deriving DecidableEq, Repr

/-- 32 bytes that an operation reads or writes: where they are, and their place in the brick they were named through. -/
structure MatRow where
  src : MoveSrc
  va : Nat
  brick : Option BrickTag
  pos : Nat
  /-- The bytes as the operation read them, where one of them was written after its acceptance (06 R145). -/
  seen : Option (List Byte) := none
  deriving DecidableEq, Repr

/-- An operation in a pair's engine queue (06 R144) with its translations taken (06 R145): its first tile, the rows of A (of
the tile's memory in aload and astore) and of B, and whether it has started. -/
structure MatOp where
  g : Nat
  fn : Nat
  team : Nat
  launch : Nat
  pair : Nat
  kind : MatKind
  tile : Nat
  rowsA : List MatRow
  rowsB : List MatRow
  started : Bool
  /-- The place in State.order at which it was accepted: it sees each byte as it was then or as written since (06 R145). -/
  since : Nat := 0
  deriving DecidableEq, Repr

/-- A gather or scatter that k2 still counts (07 R165). -/
structure GatherOp where
  g : Nat
  sp : Nat
  fn : Nat
  deriving DecidableEq, Repr

/-- A Hod send (07 R175): lane, key, value not yet applied. -/
structure HodOp where
  g : Nat
  sp : Nat
  fn : Nat
  launch : Nat
  ty : ETy
  op : Nat
  lanes : List (Nat × Nat × Nat)
  /-- The words it writes in all, by key and length: together they may heal a sector (20 R327). -/
  pieces : List (Nat × Nat) := []
  deriving DecidableEq, Repr

/-- A network send awaiting its response (22 R358). -/
structure NetOp where
  g : Nat
  sp : Nat
  fn : Nat
  wait : Bool
  packet : Packet
  deriving DecidableEq, Repr

/-- One lane of a host AtomicOp (07 R172, R173): its request: opcode, memory key, virtual address, operands, size. -/
structure HostReq where
  lane : Nat
  key : Nat
  va : Nat
  /-- 0 FetchAdd, 1 Swap, 2 CAS, 3 no request. -/
  req : Nat
  operand : Nat
  newValue : Nat
  deriving DecidableEq, Repr

/-- A host atomic in progress: its instruction, the lanes whose answer is outstanding and those that failed with the answer. -/
structure HostOp where
  g : Nat
  sp : Nat
  fn : Nat
  ty : ETy
  opcode : Nat
  /-- KIND orders it as an acquire (07 R171). -/
  acq : Bool
  /-- First vector register or scalar register the old values go to. -/
  dst : Operand
  open_ : List HostReq
  failed : List (HostReq × Nat)
  /-- A request of it has timed out. -/
  unsure : Bool := false
  deriving DecidableEq, Repr

/-! ### Functions -/

/-- A bound range (07 R183). -/
structure Bound where
  obj : Nat
  lo : Nat
  hi : Nat
  deriving DecidableEq, Repr

/-- A line written since the mark: its number (key / 128), what it held, and where in the log's ring that payload lies. -/
structure UndoLine where
  line : Nat
  old : List Byte
  at_ : Nat
  /-- Of a line of another package: bytes that committed effects have written since, which no rollback writes (19 R307). -/
  skip : List Nat := []
  deriving DecidableEq, Repr

/-- An item that is no line, whose first write since a mark is logged (19 R306). -/
inductive LogItem
  | vreg (g n : Nat)
  | sreg (g sp n : Nat)
  | preds (g : Nat)
  | entry (g sp : Nat)
  | tile (n : Nat)
  | team (t : Nat)
  | operation (id : Nat)
  deriving DecidableEq, Repr

/-- A close under way (19 R305): it waits for what is in progress, or its mark stands and what waited on it is performed. -/
inductive Close
  | none | waiting | performing
  deriving DecidableEq, Repr

/-- What a rollback returns to (19 R304 to R310): the partition's gangs, teams, tiles, spawn groups and unplaced teams at the
mark, engine operations outstanding, the lines and other items logged since, lines newest first, and of the log's ring the next
position and the bytes used from the mark on. -/
structure Ckpt where
  seq : Nat := 0
  gangs : Store Gang := []
  teams : Store Team := []
  tiles : Store Lane32 := []
  groups : Store Group := []
  todo : Store (List Nat) := []
  undo : List UndoLine := []
  items : List LogItem := []
  logPos : Nat := 0
  used : Nat := 0
  copies : Store CopyOp := []
  mats : Store MatOp := []
  gathers : Store GatherOp := []
  remotes : List Remote := []
  deriving DecidableEq, Repr

/-- A saved partition (09 R226, 19 R310): gangs, teams with their Mortar bytes, tiles, operations to reissue. -/
structure Saved where
  hardware : Bool := false
  /-- Clusters by which the hardware save region is laid out (log 18). -/
  clusters : List Nat := []
  gangs : Store Gang := []
  teams : Store Team := []
  tiles : Store Lane32 := []
  mortar : List (Nat × List (Nat × Byte)) := []
  copies : Store CopyOp := []
  mats : Store MatOp := []
  gathers : Store GatherOp := []
  remotes : List Remote := []
  deriving DecidableEq, Repr

/-- A drain taken (18 R296; 23 R362, R363): queue, tag, the TAIL it covers, and the handle from which launches were taken
later; `spent`: HEAD has reached that TAIL. -/
structure Drain where
  queue : Nat
  tag : Nat
  upto : Nat
  since : Nat
  spent : Bool
  deriving DecidableEq, Repr

/-- Per-function state that is in no register of its space. -/
structure Fn where
  /-- Next CALLID (09 R234). -/
  callid : Nat := 0
  bounds : List Bound := []
  wide : List Nat := []
  ckpt : Option Ckpt := none
  saved : Option Saved := none
  ckSeq : Nat := 0
  /-- A close that is deferred while a gang is in RSTATE 1 (19 R305). -/
  ckDue : Bool := false
  /-- An invalidation in progress and the handle at its start: accesses with lower ones must perform first (20 R320). -/
  inval : Option Nat := none
  /-- Service completion record that could not be read and is logged (09 R235). -/
  scqFault : Option Nat := none
  /-- The undo log since the mark holds an uncorrectable error (19 R308; 20 R327). -/
  logBad : Bool := false
  /-- TID being flushed (17 R271). -/
  flush : Option Nat := none
  attesting : Bool := false
  /-- Under ATTEST: the request is pending with the host, which is to relay it (24 R375). -/
  attestAsked : Bool := false
  /-- Extends that a report in progress has met, oldest first: the register, by MEASUREMENT_EXTEND's number, and what it held
  before (24 R376). -/
  extended : List (Nat × BitVec 384) := []
  mf : BitVec 384 := 0
  /-- NTFYQ queue, if a forwarded notify is pending (18 R303). -/
  ntfyq : List Nat := []
  /-- A rollback waits for the host's ROLLDONE (19 R315). -/
  rolling : Bool := false
  /-- Requests by which a rollback undoes lines of other packages, not answered yet (19 R309). -/
  undoing : List Nat := []
  close : Close := .none
  /-- What met a close and follows it (19 R314): a pre-emption request; a rollback for a code, with its record's address. -/
  preqDue : Bool := false
  rollDue : Option (Nat × Nat) := none
  /-- MODE as it is in effect (18 R303). -/
  mode : Nat := 0
  drains : List Drain := []
  /-- Its group's rotation has pre-empted it (21 R336, R337). -/
  turnedOut : Bool := false
  /-- AtomicOp Requester Enable of Device Control 2 (22 R352). -/
  atomReq : Bool := false
  deriving DecidableEq, Repr

/-- An entry of a doorbell-miss table (18 R291). -/
structure Miss where
  die : Nat
  fn : Nat
  queue : Nat
  tail : Nat
  deriving DecidableEq, Repr

/-- A message of the die mailbox ring (18 R301). -/
inductive RingMsg
  | steal (thief : Nat) (laps : Nat)
  | handover (thief : Nat) (fn queue : Nat)
  deriving DecidableEq, Repr

/-- A range entry (22 R342): its directory slice, the side that holds copies, and its 4096 * 2^log bytes from `lo` on. -/
structure RangeEntry where
  slice : Nat
  chiplet : Bool
  lo : Nat
  log : Nat
  deriving DecidableEq, Repr

/-- What manufacture fixes (16 R259, R267): stepping, cluster masks of the dies, quarters per core, banks of the dies,
channels of the stacks. -/
structure Fuse where
  step : Nat
  clusters : List Nat
  quarters : Nat
  banks : List Nat
  channels : List Nat
  /-- SHA-384 digest of the vendor's public key (24 R373). -/
  vendor : BitVec 384 := 0
  deriving DecidableEq, Repr

/-- An entry of the coherence order: a byte about to be overwritten and what it held; `inner`: an earlier byte of the same
8-byte word is of the same store, so no one sees the word between the two (02 R45). -/
structure Past where
  key : Nat
  old : Byte
  inner : Bool := false
  deriving DecidableEq, Repr

/-- A notify that covers entries not taken yet: the queue, its TAIL, and the place of the coherence order at which it was
observed (18 R290; 23 R360). -/
structure Cover where
  fn : Nat
  queue : Nat
  tail : Nat
  place : Nat
  deriving DecidableEq, Repr

/-- Who acts: a gang, the sets of threads it lies in (01 R26), and the place in State.order at which it was placed. -/
structure Home where
  g : Nat := 0
  team : Nat := 0
  cluster : Nat := 0
  die : Nat := 0
  born : Nat := 0
  deriving DecidableEq, Repr

/-- What a release and the acquire that observes it go through (08 R205, R209; 09 R240, R244): a point or a ring entry of a team, the
record at a place of a queue, a join by its descriptor, the message at a place of a mailbox by its descriptor. -/
inductive Link
  | point (team n : Nat)
  | ring (team n entry : Nat)
  | record (fn queue place : Nat)
  | join (key : Nat)
  | message (key place : Nat)
  deriving DecidableEq, Repr

/-- What decides which writes a thread may still not see (25 R378, R379). Places are in State.order; a thread is a lane of a gang;
`op` is the issue number of a gather or scatter, whose accesses count once a k2 wait has covered them (07 R166). -/
inductive Act
  /-- A lane has read bytes as they stood at a place, or written them between two. -/
  | read (lane key n place : Nat) (va op : Option Nat)
  | wrote (lane key n start stop : Nat) (va op : Option Nat)
  /-- A fence of the lanes, by its KIND and SCOPE (07 R179). -/
  | fence (kind scope : Nat) (lanes : Mask)
  /-- A release of an object, whose word it writes at a place, and of the ranges bound to it; an acquire that reads the word at one. -/
  | release (obj scope place : Nat) (lanes : Mask) (ranges : List (Nat × Nat))
  | acquire (obj scope place : Nat) (lanes : Mask) (ranges : List (Nat × Nat))
  /-- A k2 wait has covered the gang's gathers and scatters below an issue number. -/
  | covered (upTo : Nat)
  /-- A release into a link by the lanes; of what their .sys fences have ordered alone (22 R359); what a link holds is there to
  be acquired; what another link holds goes with it; an acquire. -/
  | give (l : Link) (lanes : Mask)
  | send (l : Link) (lanes : Mask)
  | pass (l : Link)
  | carry (l m : Link)
  | take (l : Link) (lanes : Mask)
  /-- Splits of the lanes have re-ganged (01 R38). -/
  | meet (lanes : Mask)
  deriving DecidableEq, Repr

structure State where
  /-- MODEL. Events to come, oldest first (log 7). -/
  agenda : List Instr
  /-- MODEL. The split whose next instruction issues: gang, INDEX. -/
  cur : Option (Nat × Nat)
  /-- MODEL. Issue opportunities so far, by which the default order takes turns (log 7). -/
  turn : Nat
  /-- MODEL. Counter of free values (log 4). -/
  tick : Nat
  /-- MODEL. Next handle of gangs, teams, launches, operations, groups. -/
  handle : Nat
  gangs : Store Gang
  teams : Store Team
  launches : Store Launch
  slots : List Slot
  groups : Store Group
  /-- Bytes of spawn memory reserved, per die (04 R92). -/
  spawnUsed : Store Nat
  /-- Dies where Chafer forms gangs, largest group first, until occupancy falls below 2 MiB (04 R93). -/
  draining : List Nat
  /-- Queue faults whose records wait for room in the physical function's fault queue (20 R322). -/
  qcbWaiting : List (List Word)
  misses : List Miss
  /-- Notifies that cover entries not taken yet, oldest first (23 R360). -/
  covers : List Cover
  /-- Queues unmapped since the scheduler's last round, whose write-back a notify may find not complete (18 R291). -/
  unmapping : List (Nat × Nat)
  /-- Run-list state of queues that are not mapped while teams of theirs wait (18 R300). -/
  waiters : List Slot
  overflow : List Nat
  ring : List (Nat × RingMsg)
  /-- Dies whose steal request has made a full lap since their last quantum (18 R301). -/
  lapped : List Nat
  /-- gp0 to gp63 of the front ends: key 64 * front end + n (01 R25). -/
  gp : Store Word
  tiles : Store Lane32
  copies : Store CopyOp
  mats : Store MatOp
  gathers : Store GatherOp
  hods : Store HodOp
  nets : Store NetOp
  hostOps : Store HostOp
  remotes : List Remote
  /-- Lines of other packages read before their first write after a mark: tag, function, line (19 R306). -/
  lineAsks : List (Nat × Nat × Nat)
  /-- Tiles that hold an uncorrectable error, by tile number (06 R145; 20 R327). -/
  badTiles : List Nat
  /-- Packets the package has sent (22 R355), oldest first, and requests performed with their responses (22 R354). -/
  outbox : List Packet
  umSeen : List (Packet × Packet)
  /-- Requests of other packages that wait while their bytes are held (22 R351), and lanes of an atomic whose others have not come
  (07 R170). -/
  umWaits : List Packet
  umParts : List Packet
  fns : Store Fn
  mem : List Host.Cell
  /-- Every byte overwritten so far, newest first (the coherence order, 01 R33). -/
  order : List Past
  /-- Accesses of threads, fences and links so far, newest first (25 R378, R379). -/
  acts : List (Home × Act)
  /-- 32-byte sectors that an uncorrectable error poisons, by key / 32, with the unit it arose in (20 R327). -/
  poison : Store Nat
  /-- Malformed lines each format window has counted (17 R275). -/
  malformed : Store Nat
  bricks : List Brick
  /-- Bricks in the LLC slices, oldest first, with where their first bytes lie, and the residency hints, newest first: first byte,
  bytes, 0 keep, 1 evict or 2 normal (07 R177; 21 R333). -/
  llc : List (BrickTag × Nat)
  hints : List (Nat × Nat × Nat)
  /-- Window being committed with its new setting (17 R273), and the windows' committed copies: four words each. -/
  wcommit : Option (Nat × List Word)
  windows : Store (List Word)
  /-- Quanta of a time-slice group's turn that its holder has had (21 R335, R336). -/
  turnsUsed : Store Nat
  /-- The member that last left a group's clusters without a successor (21 R337). -/
  vacated : Store Nat
  /-- Committed partition records: eight words each (21 R331). -/
  parts : Store (List Word)
  /-- Registers of BAR0 in the physical function's view (21 R329). -/
  mmio : Store Word
  /-- Page being flipped and its target (22 R350), and accesses of the host and of the chiplet that wait while their bytes are held
  (22 R351; 24 R368). -/
  flip : Option (Nat × Bool)
  hostWaits : List AgentAccess
  coreWaits : List AgentAccess
  /-- Range entries of the directory slices, those split by contest, and the counts RTSPLIT and RTEVICT (22 R342, R343). -/
  ranges : List RangeEntry
  contested : List RangeEntry
  rtSplit : Nat
  rtEvict : Nat
  ports : List (Option PortMode)
  vfEnable : Bool
  vfMse : Bool
  numVFs : Nat
  /-- Committed HDM decoders of the ports, as base and size, and the ports whose decoder error bit is set (22 R348). -/
  decoders : Store (Nat × Nat)
  decoderErr : List Nat
  fuse : Fuse
  fwCounter : Nat
  staged : List FwImage
  loaded : List FwImage
  meas : Store (BitVec 384)
  /-- Quarters halve their issue opportunities (24 R370), and those whose last opportunity was skipped. -/
  halved : Bool
  skipped : List Nat
  /-- HBM stacks at doubled refresh, dies held at the floor clock (24 R372). -/
  hot : List Nat
  /-- MSI-X messages sent, as function and vector (22 R347); units the management controller was warned of (24 R371); its log
  (24 R377): trips and bring-up failures as unit and code, 0 for a trip. -/
  messages : List (Nat × Nat)
  warned : List Nat
  bmcLog : List (Nat × Nat)
  /-- Units whose bring-up failed (24 R366), and the power controller's clock in MHz (24 R369). -/
  failed : List Nat
  clock : Nat
  /-- A thermal trip has removed power; what the management controller delivers with the cold reset that follows (24 R367, R372). -/
  tripped : Option (BitVec 3 × Bool)
  deriving DecidableEq, Repr

/-- A part that lacks nothing (00 R4, 16 R267; log 3). -/
def Fuse.full : Fuse where
  step := 1
  clusters := List.replicate 8 (2 ^ 32 - 1)
  quarters := 4
  banks := List.replicate 8 512
  channels := List.replicate 12 32

/-- The machine right after a cold reset. -/
def State.reset : State where
  agenda := []
  cur := none
  turn := 0
  tick := 0
  handle := 1
  gangs := []
  teams := []
  launches := []
  slots := []
  groups := []
  spawnUsed := []
  draining := []
  qcbWaiting := []
  misses := []
  covers := []
  unmapping := []
  waiters := []
  overflow := []
  ring := []
  lapped := []
  gp := []
  tiles := []
  copies := []
  mats := []
  gathers := []
  hods := []
  nets := []
  hostOps := []
  remotes := []
  lineAsks := []
  badTiles := []
  outbox := []
  umSeen := []
  umWaits := []
  umParts := []
  fns := []
  mem := []
  order := []
  acts := []
  poison := []
  malformed := []
  bricks := []
  llc := []
  hints := []
  wcommit := none
  windows := []
  turnsUsed := []
  vacated := []
  parts := []
  mmio := []
  flip := none
  hostWaits := []
  coreWaits := []
  ranges := []
  contested := []
  rtSplit := 0
  rtEvict := 0
  ports := [none, none]
  vfEnable := false
  vfMse := false
  numVFs := 0
  decoders := []
  decoderErr := []
  fuse := .full
  fwCounter := 0
  staged := []
  loaded := []
  meas := []
  halved := false
  skipped := []
  hot := []
  messages := []
  warned := []
  bmcLog := []
  failed := []
  clock := 1200
  tripped := none

end Sys2Proof.Machine
end

