-- ==== Sys2Proof/Machine/Memory.lean ====
section
/-!
DEFINITION. Registers of BAR0, bytes of memory, format windows and translation: 17 R268 to R280, 20 R316 to R320, R325,
R327, 21 R329 and R330. A memory key is space * 2^48 + address: space 0 is the package's physical space with the view
aperture, 1 and 2 host memory behind the ports, 3 + p package p, 300 + d the Mortar of die d.
-/

namespace Sys2Proof.Machine

/-! ### Registers of BAR0 (21 R329) -/

/-- Where function `f`'s register space lies in the physical function's BAR0. -/
def fnBase (f : Nat) : Nat := if f = 0 then 0 else 0x1000000 + 0x40000 * f

/-- Entries from one free-running count to a later one, modulo 2^32. -/
def ringCount (tail head : Nat) : Nat := (2 ^ 32 + tail - head) % 2 ^ 32

/-- The reset value of a register of a function's space, by offset. -/
def fnResetWord (off : Nat) : Nat :=
  if off = 0xB28 then 0x00100004 else if off = 0xA38 then 0xFFFF else if 0x3E000 ≤ off ∧ off < 0x3E080 ∧ off % 16 = 8 then 2 ^ 32 else 0

/-- The reset value of a register word, by its place in BAR0; every other register resets to 0. -/
def resetWord (off : Nat) : Word :=
  if 0x1000000 ≤ off then BitVec.ofNat 64 (fnResetWord (off % 0x40000))
  else if off < 0x40000 then BitVec.ofNat 64 (fnResetWord off)
  else if 0x40000 ≤ off ∧ off < 0x41840 ∧ off % 64 = 8 then 0x100000001
  else if off = 0x60000 then 65536
  else if off = 0x71000 ∨ off = 0x71008 then 10000
  else if off = 0x71010 then 1000
  else if off = 0x71018 then 20000
  else if 0x71040 ≤ off ∧ off < 0x71080 then 1200
  else if off = 0x72100 then 95
  else if off = 0x92000 then 131072
  else 0

def State.reg (s : State) (off : Nat) : Word := (s.mmio.find? off).getD (resetWord off)

def State.setReg (s : State) (off : Nat) (v : Word) : State :=
  { s with mmio := if v = resetWord off then s.mmio.erase off else s.mmio.put off v }

/-- A register of function `f`'s space. -/
def State.freg (s : State) (f off : Nat) : Word := s.reg (fnBase f + off)
def State.setFreg (s : State) (f off : Nat) (v : Word) : State := s.setReg (fnBase f + off) v

/-- Field hi:lo of a function's register. -/
def State.ffield (s : State) (f off hi lo : Nat) : Nat := (s.freg f off).field hi lo

/-- A function's own register space answers (21 R329). -/
def State.barOpen (s : State) (f : Nat) : Bool := f == 0 || (s.vfEnable && s.vfMse && decide (f ≤ s.numVFs))

/-- Add 1 to a counter register of a function (21 R338; modulo 2^64). -/
def State.count (s : State) (f off : Nat) : State := s.setFreg f off (s.freg f off + 1)

def State.fn (s : State) (f : Nat) : Fn := s.fns.get {} f
def State.setFn (s : State) (f : Nat) (x : Fn) : State := { s with fns := s.fns.set {} f x }
def State.modFn (s : State) (f : Nat) (k : Fn → Fn) : State := s.setFn f (k (s.fn f))

/-! ### Counts of a part (16 R258, R267) -/

def popCount : Nat → Nat → Nat
  | 0, _ => 0
  | n + 1, m => m % 2 + popCount n (m / 2)

def Fuse.dieClusters (f : Fuse) (d : Nat) : Nat := popCount 32 (f.clusters.getD d 0)
def Fuse.clusterCount (f : Fuse) : Nat := ((List.range 8).map f.dieClusters).sum
def Fuse.cores (f : Fuse) : Nat := 4 * f.clusterCount

/-- First logical cluster of a die. -/
def Fuse.dieBase (f : Fuse) (d : Nat) : Nat := ((List.range d).map f.dieClusters).sum

/-- The die of a logical cluster. -/
def Fuse.dieOf (f : Fuse) (cl : Nat) : Nat :=
  ((List.range 8).filter fun d => f.dieBase d ≤ cl).getLastD 0

/-- Mortar lines of one colour of a die, and bytes (17 R279). -/
def Fuse.colourLines (f : Fuse) (d : Nat) : Nat := 128 * (f.banks.getD d 0 - 16)

/-- Where line `i` of a colour of a die lies: its bank, and its line of that bank's stripe of the colour (17 R279). -/
def Fuse.colourBank (f : Fuse) (d i : Nat) : Nat :=
  let nb := f.banks.getD d 0 - 16
  (i % nb + 7 * (i / nb)) % nb
def Fuse.colourBankLine (f : Fuse) (d i : Nat) : Nat := i / (f.banks.getD d 0 - 16)

/-- The banks of a die that hold its spawn memory. -/
def Fuse.spawnBanks (f : Fuse) (d : Nat) : List Nat := (List.range 16).map (f.banks.getD d 0 - 16 + ·)

def Fuse.colourBytes (f : Fuse) (d : Nat) : Nat := 128 * f.colourLines d

def gib (n : Nat) : Nat := n * 2 ^ 30

def Fuse.cmin (f : Fuse) : Nat := f.channels.foldl min 32
def Fuse.interleaved (f : Fuse) : Nat := 12 * f.cmin * (3 * 2 ^ 29)
def Fuse.hbmBytes (f : Fuse) : Nat := f.channels.sum * (3 * 2 ^ 29)

/-- The memory slice that homes a physical address (17 R269). -/
def Fuse.slice (f : Fuse) (a : Nat) : Nat :=
  if a < f.interleaved then a / 4096 % 12
  else
    let size := fun i => (f.channels.getD i 0 - f.cmin) * (3 * 2 ^ 29)
    let start := fun i => f.interleaved + ((List.range i).map size).sum
    ((List.range 12).filter fun i => decide (start i ≤ a) && decide (0 < size i)).getLastD 0

/-! ### Plain bytes -/

def keyOf (space addr : Nat) : Nat := space * 2 ^ 48 + addr
def keySpace (k : Nat) : Nat := k / 2 ^ 48
def keyAddr (k : Nat) : Nat := k % 2 ^ 48

/-- What a byte reads as that nothing has written (log 1). -/
def Memory.unlisted : Byte := 0

/-- The canonical form of memory. -/
def Memory.wf (m : List Host.Cell) : Bool := Store.wf Memory.unlisted m

def State.byte (s : State) (k : Nat) : Byte := Store.get Memory.unlisted s.mem k
def State.setByte (s : State) (k : Nat) (b : Byte) : State := { s with mem := Store.set Memory.unlisted s.mem k b }

/-- A byte is about to be overwritten, as byte `i` of a store. -/
def State.note (s : State) (k i : Nat) (old : Byte) : State :=
  { s with order := ⟨k, old, decide (0 < i) && k % 8 != 0⟩ :: s.order }

def setBytes (m : List Host.Cell) (k : Nat) : List Byte → List Host.Cell
  | [] => m
  | b :: bs => setBytes (Store.set Memory.unlisted m k b) (k + 1) bs

/-- `n` bytes from a key, as a little-endian number. -/
def State.rawRead (s : State) (k n : Nat) : Nat := ofBytes ((List.range n).map fun i => s.byte (k + i))
def State.rawWrite (s : State) (k : Nat) (bs : List Byte) : State :=
  let s := (List.range bs.length).foldl (fun s i => s.note (k + i) i (s.byte (k + i))) s
  { s with mem := setBytes s.mem k bs }

/-- The 64-bit word at a physical address. -/
def State.rawWord (s : State) (k : Nat) : Word := BitVec.ofNat 64 (s.rawRead k 8)
def State.setRawWord (s : State) (k : Nat) (w : Word) : State := s.rawWrite k (bytesOf 8 w.toNat)

/-! ### Format windows (17 R272 to R277) -/

def aperture : Nat := 0xF00000000000

/-- The committed setting of a format window. -/
structure Window where
  base : Nat
  size : Nat
  owner : Nat
  wtag : Nat
  fmt : Nat
  twin : Bool
  sparse : Bool
  scale : Nat
  store : Nat
  deriving DecidableEq, Repr

def Window.ofWords (w : List Word) : Option Window :=
  let w0 := w.getD 0 0
  let w1 := w.getD 1 0
  if w0.field 63 63 = 1 then
    some { base := w0.field 47 0, size := w1.field 47 0, owner := w0.field 62 56, wtag := w0.field 55 48
           fmt := w1.field 52 48, twin := w1.field 53 53 = 1, sparse := w1.field 54 54 = 1
           scale := (w.getD 2 0).field 47 0, store := (w.getD 3 0).field 47 0 }
  else none

/-- Enabled windows. -/
def State.windowList (s : State) : List Window := s.windows.filterMap fun p => Window.ofWords p.2

def Window.covers (w : Window) (a : Nat) : Bool := decide (w.base ≤ a) && decide (a < w.base + w.size)

/-- The enabled window whose view holds a physical address. -/
def State.windowAt (s : State) (a : Nat) : Option Window := s.windowList.find? fun w => w.covers a

/-- The same with its index. -/
def State.windowIndex (s : State) (k : Nat) : Option (Nat × Window) :=
  s.windows.findSome? fun q => ((Window.ofWords q.2).filter fun w => w.covers k).map fun w => (q.1, w)

def Window.isT6 (w : Window) : Bool := w.fmt == 1

/-- Bytes of the window's scale region (17 R273). -/
def Window.scaleBytes (w : Window) : Nat :=
  if !w.twin then 0 else if w.fmt == 0 || w.sparse then w.size / 16 * 8 else w.size / 32 * 8

def Window.storeBytes (w : Window) : Nat := if w.isT6 then w.size / 128 * 96 else 0

/-- The 6-bit code `e` of a t6 group held as planes: nibbles of bits 3:0 in 64 bytes, then bit pairs in 32 (03 R71). -/
def planeCode (rd : Nat → Byte) (e : Nat) : Nat :=
  bitsN (rd (e / 2)).toNat (4 * (e % 2) + 3) (4 * (e % 2)) + 16 * bitsN (rd (64 + e / 4)).toNat (2 * (e % 4) + 1) (2 * (e % 4))

/-- The 96 plane bytes of 128 containers (17 R276: bits 7:6 are dropped). -/
def planesOf (c : Nat → Nat) : List Byte :=
  ((List.range 64).map fun i => BitVec.ofNat 8 (c (2 * i) % 16 + 16 * (c (2 * i + 1) % 16))) ++
  ((List.range 32).map fun i =>
    BitVec.ofNat 8 (((List.range 4).map fun j => bitsN (c (4 * i + j)) 5 4 * 4 ^ j).sum))

/-- The bytes a fill of the brick at a physical address gives (17 R275). -/
def State.fillBytes (s : State) (a : Nat) : List Byte :=
  match s.windowAt a with
  | some w =>
    if w.isT6 then
      let g := (a - w.base) / 128
      (List.range 128).map fun e => BitVec.ofNat 8 (planeCode (fun i => s.byte (w.store + 96 * g + i)) e)
    else (List.range 128).map fun i => s.byte (a / 128 * 128 + i)
  | none => (List.range 128).map fun i => s.byte (a / 128 * 128 + i)

/-- The scale records of the brick at a physical address (17 R275, 03 R74). -/
def State.scaleRecords (s : State) (a : Nat) : List Word :=
  match s.windowAt a with
  | some w =>
    if w.twin then
      let block := if w.fmt == 0 || w.sparse then 16 else 32
      let first := (a / 128 * 128 - w.base) / block
      (List.range (128 / block)).map fun i => s.rawWord (w.scale + 8 * (first + i))
    else []
  | none => []

/-- The kept count of a sparse line: the one bits of M0 to M7 where all agree and are in range, else 63 (17 R275). -/
def keptCount (fmt : Nat) (bytes : List Byte) : Nat :=
  let m := fun i => popCount 32 (ofBytes ((bytes.drop (4 * i)).take 4))
  let n := m 0
  if (List.range 8).all (fun i => m i == n) && decide (n ≤ (if fmt = 0 then 24 else 12)) then n else 63

/-- The tag of the TID-0 brick that holds a physical address (17 R268). -/
def linTag (f k : Nat) : BrickTag := ⟨f, 0, k / 2 ^ 28, k / 128 % 2 ^ 21⟩

/-- Physical address of a TID-0 brick. -/
def brickAddr (t : BrickTag) : Nat := t.brow * 2 ^ 28 + t.bcol * 128

def State.brickAt (s : State) (t : BrickTag) : Option Brick := s.bricks.find? fun b => b.tag == t

/-- The first of the three sectors of the planes of a t6 group. -/
def Window.planeSector (w : Window) (k : Nat) : Nat := (w.store + 96 * ((k - w.base) / 128)) / 32

/-- The unit whose error poisons the sector of a byte (20 R327): in a t6 view where no brick is modified, the unit of a sector of
the planes that the codes come from. -/
def State.sectorUnit (s : State) (k : Nat) : Option Nat :=
  (s.poison.find? (k / 32)).or <|
    match (if aperture ≤ k ∧ k < 2 ^ 48 then s.windowAt k else none) with
    | some w =>
      if !w.isT6 || s.bricks.any fun b => b.modified && b.tag.tid == 0 && b.key == k / 128 * 128 then none
      else (s.poison.find? (w.planeSector k + k % 128 / 64)).or (s.poison.find? (w.planeSector k + 2))
    | none => none

def setPoison (p : Store Nat) (n : Nat) (u : Option Nat) : Store Nat :=
  match u with
  | some u => p.put n u
  | none => p.erase n

/-- The poison of a view's line becomes that of the planes written from it (20 R327). -/
def State.poisonPlanes (s : State) (w : Window) (k : Nat) : State :=
  let bad := fun i => s.poison.find? (k / 32 + i)
  let n := w.planeSector k
  let low := (bad 0).or (bad 1)
  let high := (bad 2).or (bad 3)
  let planes := setPoison (setPoison (setPoison s.poison n low) (n + 1) high) (n + 2) (low.or high)
  { s with poison := (List.range 4).foldl (fun (p : Store Nat) i => p.erase (k / 32 + i)) planes }

/-- A new brick holds what its fill gives, poison with it. -/
def State.poisonView (s : State) (k : Nat) : State :=
  let line := k / 128 * 128
  { s with poison := (List.range 4).foldl (fun (p : Store Nat) i => setPoison p (line / 32 + i) (s.sectorUnit (line + 32 * i))) s.poison }

/-- Write a brick back through its window, if it is modified. -/
def State.writeBack (s : State) (b : Brick) : State :=
  match b.modified, s.windowAt b.key with
  | true, some w =>
    (s.rawWrite (w.store + 96 * ((b.key - w.base) / 128)) (planesOf fun e => (b.data.getD e 0).toNat)).poisonPlanes w b.key
  | _, _ => s

/-- Write a brick back and drop it. -/
def State.dropBrick (s : State) (b : Brick) : State :=
  ({ s with bricks := s.bricks.filter fun x => x.tag != b.tag, llc := s.llc.filter fun q => q.1 != b.tag } : State).writeBack b

/-- Write a brick back; it stays. -/
def State.cleanBrick (s : State) (b : Brick) : State :=
  ({ s with bricks := s.bricks.map fun x => if x.tag = b.tag then { x with modified := false } else x } : State).writeBack b

/-- Recall the bricks that a predicate picks: write them back and drop them (17 R270). -/
def State.recall (s : State) (p : Brick → Bool) : State := (s.bricks.filter p).foldl State.dropBrick s

/-- A brick pinned by the tile fetch unit or by a copy in progress (17 R270). -/
def State.inUse (s : State) (b : Brick) : Bool :=
  let here := fun k => k / 128 == b.key / 128
  let reads := fun (m : MoveSrc) => match m with
    | .key k => here k
    | _ => false
  (s.mats.any fun q => q.2.fn == b.tag.func && (q.2.rowsA ++ q.2.rowsB).any fun r => reads r.src)
    || s.copies.any fun q => q.2.fn == b.tag.func && q.2.moves.any fun m => reads m.src || here m.dst

/-- Other functions' TID-0 bricks of the line at a physical address. -/
def Brick.rival (b : Brick) (f k : Nat) : Bool := b.tag.tid == 0 && b.tag.func != f && brickAddr b.tag == k / 128 * 128

/-- A recall of one of them; one in use gives its data and stays in place. -/
def State.yieldBrick (s : State) (b : Brick) : State := if s.inUse b then s.cleanBrick b else s.dropBrick b

/-- A write of the line by function `f` invalidates them. -/
def State.recallOthers (s : State) (f k : Nat) : State :=
  let t := (s.bricks.filter fun b => b.rival f k).foldl State.yieldBrick s
  { t with llc := t.llc.filter fun q => !(({ tag := q.1, key := q.2 } : Brick).rival f k && (t.brickAt q.1).isNone) }

/-- A fill of it recalls those that are modified (17 R270). -/
def State.shareLine (s : State) (f k : Nat) : State :=
  (s.bricks.filter fun b => b.modified && b.rival f k).foldl State.yieldBrick s

/-- A write of a line recalls the bricks whose planes or scale records lie in it (17 R277). -/
def State.recallSources (s : State) (k : Nat) : State :=
  let line := k / 128 * 128
  let meets := fun (lo n : Nat) => decide (lo < line + 128) && decide (line < lo + n)
  s.recall fun b =>
    match s.windowAt b.key with
    | some w =>
      let block := if w.fmt == 0 || w.sparse then 16 else 32
      (w.isT6 && meets (w.store + 96 * ((b.key - w.base) / 128)) 96)
        || (w.twin && meets (w.scale + 8 * ((b.key - w.base) / block)) (8 * (128 / block)))
    | none => false

/-! ### The LLC slices (17 R269, R278; 21 R333) -/

/-- Bricks that the LLC of a slice holds: 64 MiB (17 R283). -/
def llcBricks : Nat := 524288

/-- The slice that homes a key of the package; a t6 view's is that of its planes (log 31). -/
def State.homeSlice (s : State) (k : Nat) : Nat :=
  s.fuse.slice (if k < aperture then k else match s.windowAt k with
    | some w => if w.isT6 then w.store else k
    | none => 0)

def State.partRecord (s : State) (f : Nat) : List Word := (s.parts.find? f).getD [0, 0x100000001, 0, 0, 0, 0, 0, 0]

/-- A function's LLCMIN and LLCMAX, in bricks of a slice. -/
def State.llcShare (s : State) (f : Nat) : Nat × Nat :=
  let w := (s.partRecord f).getD 0 0
  (llcBricks / 256 * w.field 31 24, llcBricks / 256 * if w.field 39 32 = 0 then 256 else w.field 39 32)

/-- A pinned region: enabled, owner, base, bytes. -/
def State.pinRegion (s : State) (n : Nat) : Bool × Nat × Nat × Nat :=
  let w := s.reg (0x89000 + 16 * n)
  let x := s.reg (0x89008 + 16 * n)
  (w.field 63 63 == 1, x.field 54 48, w.field 47 0, x.field 47 0)

/-- A home address lies in an enabled region of the function. -/
def State.pinnedAt (s : State) (f k : Nat) : Bool :=
  (List.range 64).any fun n =>
    let r := s.pinRegion n
    r.1 && r.2.1 == f && decide (r.2.2.1 ≤ k) && decide (k < r.2.2.1 + r.2.2.2)

/-- How late the replacement takes a brick, by its hint: evict, none, keep (07 R177). -/
def State.hintRank (s : State) (k : Nat) : Nat :=
  match s.hints.find? fun h => decide (h.1 ≤ k) && decide (k < h.1 + h.2.1) with
  | some h => if h.2.2 = 0 then 2 else if h.2.2 = 1 then 0 else 1
  | none => 1

/-- A free choice among some things (log 4). -/
def State.pick {α : Type} (s : State) (n : Nat) (xs : List α) : Option α :=
  xs[(Config.freeValue (s.tick + n)).toNat % xs.length]?

/-- Bricks of a slice, one of which makes room for a fill by function `f`: its own if it has LLCMAX of them; else those of
functions above LLCMAX, or above LLCMIN, or not below it, and its own. -/
def State.lineVictims (s : State) (f i : Nat) : List (BrickTag × Nat) :=
  let here := s.llc.filter fun q => s.homeSlice q.2 == i
  let count := fun g => (here.filter fun q => q.1.func == g).length
  let loose := here.filter fun q => !s.pinnedAt q.1.func q.2 && !s.inUse { tag := q.1, key := q.2 }
  let own := loose.filter fun q => q.1.func == f
  let beyond := loose.filter fun q => decide ((s.llcShare q.1.func).2 < count q.1.func)
  let above := loose.filter fun q => decide ((s.llcShare q.1.func).1 < count q.1.func)
  if (s.llcShare f).2 ≤ count f then own
  else if !beyond.isEmpty then beyond
  else if !above.isEmpty then above
  else loose.filter fun q => q.1.func == f || decide ((s.llcShare q.1.func).1 ≤ count q.1.func)

/-- One of them: a function that has some is chosen, and of its bricks one that its hints let go first. -/
def State.lineVictim (s : State) (f i : Nat) : Option (BrickTag × Nat) :=
  let xs := s.lineVictims f i
  (s.pick 0 (xs.map fun q => q.1.func).eraseDups).bind fun g =>
    let mine := xs.filter fun q => q.1.func == g
    let first := (mine.map fun q => s.hintRank q.2).foldl min 2
    s.pick 1 (mine.filter fun q => s.hintRank q.2 == first)

/-- A brick leaves its slice. -/
def State.evict (s : State) (tag : BrickTag) : State :=
  match s.brickAt tag with
  | some b => s.dropBrick b
  | none => { s with llc := s.llc.filter fun q => q.1 != tag }

/-- A fill takes its place in its home slice; one that finds no room is made without. -/
def State.allocate (s : State) (tag : BrickTag) (k : Nat) : State :=
  let i := s.homeSlice k
  let here := s.llc.filter fun q => s.homeSlice q.2 == i
  if keySpace k ≠ 0 ∨ s.llc.any (fun q => q.1 == tag) then s
  else if here.length < llcBricks ∧ (here.filter fun q => q.1.func == tag.func).length < (s.llcShare tag.func).2 then
    { s with llc := s.llc ++ [(tag, k)] }
  else
    match s.lineVictim tag.func i with
    | some q =>
      let t := s.evict q.1
      { t with tick := t.tick + 2, llc := t.llc ++ [(tag, k)] }
    | none => s

/-- What a fill of a line under a window takes with it (17 R270, R275): others' modified bricks of its line are recalled first; of a
sparse line the kept count is taken, and a malformed one counted. -/
def State.fillBrick (s : State) (tag : BrickTag) (k : Nat) : State :=
  match (if keySpace k = 0 then s.windowIndex k else none), s.brickAt tag with
  | some (n, w), none =>
    let s := s.shareLine tag.func k
    if w.sparse then
      let count := keptCount w.fmt ((List.range 32).map fun i => s.byte (k + i))
      { s with
        bricks := s.bricks ++ [{ tag := tag, key := k, kept := some count }]
        malformed := if count = 63 then Store.set 0 s.malformed n (Store.get 0 s.malformed n + 1) else s.malformed }
    else s
  | _, _ => s

/-- A brick is filled on its first touch; `k` is where its first byte lies. -/
def State.fillLine (s : State) (tag : BrickTag) (k : Nat) : State := (s.allocate tag k).fillBrick tag k

/-- A byte as function `f` reads it: its cached brick under a t6 window, what another function's modified brick writes back,
the window's rearranged bytes, or memory (17 R275, R276). -/
def State.readByte (s : State) (f k : Nat) : Byte :=
  if aperture ≤ k ∧ k < 2 ^ 48 then
    match s.brickAt (linTag f k), s.bricks.find? fun b => b.modified && b.rival f k with
    | some b, _ => b.data.getD (k % 128) 0
    | none, some b => BitVec.ofNat 8 ((b.data.getD (k % 128) 0).toNat % 64)
    | none, none => (s.fillBytes k).getD (k % 128) 0
  else s.byte k

/-- `n` bytes as function `f` reads them. -/
def State.read (s : State) (f k n : Nat) : Nat := ofBytes ((List.range n).map fun i => s.readByte f (k + i))

/-- Write one byte, byte `i` of a store, as function `f` does. -/
def State.writeByte (s : State) (f k i : Nat) (b : Byte) : State :=
  let tag := linTag f k
  let s := (s.note k i (s.readByte f k)).recallOthers f k
  if aperture ≤ k ∧ k < 2 ^ 48 then
    let s := if (s.brickAt tag).isNone then s.poisonView k else s
    let old := match s.brickAt tag with
      | some x => x
      | none => { tag := tag, key := k / 128 * 128, data := s.fillBytes k }
    let new := { old with data := old.data.set (k % 128) b, modified := true }
    let shared := fun (x : Brick) => bif x.rival f k then { x with data := x.data.set (k % 128) b } else x
    { s with bricks := ((s.bricks.filter fun x => x.tag != tag).map shared) ++ [new] }
  else s.setByte k b

/-! ### The tracked ranges (22 R342) -/

def RangeEntry.meets (e : RangeEntry) (slice lo n : Nat) : Bool :=
  e.slice == slice && decide (e.lo < lo + n) && decide (lo < e.lo + 4096 * 2 ^ e.log)

/-- The entry a side's miss makes: of a size the slice chooses, if nothing of the other side nor contested is in it (log 16). -/
def State.newRange (s : State) (chiplet : Bool) (k : Nat) : RangeEntry :=
  let slice := s.fuse.slice k
  let e := fun (log : Nat) => (⟨slice, chiplet, k / (4096 * 2 ^ log) * (4096 * 2 ^ log), log⟩ : RangeEntry)
  let wide := e ((Config.freeValue (k / 4096)).toNat % 10)
  if (s.contested ++ s.ranges.filter fun x => x.chiplet != chiplet).any fun x => x.meets slice wide.lo (4096 * 2 ^ wide.log) then e 0
  else wide

/-- Evicting an entry recalls every line of its range that its side holds: the LLC holds the device's, the chiplet's own caches no
byte that memory lacks (log 16). -/
def State.recallRange (s : State) (e : RangeEntry) : State :=
  let inside := fun a => decide (e.lo ≤ a) && decide (a < e.lo + 4096 * 2 ^ e.log) && s.homeSlice a == e.slice
  if e.chiplet then s
  else
    let t := (s.bricks.filter fun b => inside b.key).foldl State.yieldBrick s
    { t with llc := t.llc.filter fun q => !(inside q.2 && (t.brickAt q.1).isNone) }

/-- A side accesses package memory: it meets its own entry, splits the other side's, or makes or widens one of its own, for
which a full slice evicts another, of its choice. -/
def State.track (s : State) (chiplet : Bool) (k : Nat) : State :=
  let slice := s.fuse.slice k
  let own := s.ranges.any fun e => e.meets slice k 1 && e.chiplet == chiplet
  let theirs := s.ranges.filter fun e => e.meets slice k 1 && e.chiplet != chiplet
  let make := keySpace k == 0 && decide (k < s.fuse.hbmBytes) && !own && theirs.isEmpty
    && !(s.contested.any fun e => e.meets slice k 1)
  let e := s.newRange chiplet k
  let rest := s.ranges.filter fun x => !(x.chiplet == chiplet && x.meets slice e.lo (4096 * 2 ^ e.log))
  let mine := rest.filter fun x => x.slice == slice
  let full := decide (8192 ≤ mine.length)
  match (if make && full then s.pick 0 mine else none) with
  | some x =>
    let t := s.recallRange x
    { t with ranges := rest.filter (· != x) ++ [e], rtEvict := t.rtEvict + 1, tick := t.tick + 1 }
  | none =>
    { s with
      ranges := if make then rest ++ [e] else s.ranges.filter fun x => !theirs.contains x
      contested := s.contested ++ theirs
      rtSplit := s.rtSplit + theirs.length }

/-! ### Poison (20 R327): 32-byte sectors, by key / 32 -/

def State.poisoned (s : State) (k n : Nat) : Bool :=
  (List.range n).any fun i => (s.sectorUnit (k + i)).isSome

/-- The unit of the first poisoned sector of `n` bytes. -/
def State.poisonUnit (s : State) (k n : Nat) : Nat :=
  ((List.range n).findSome? fun i => s.sectorUnit (k + i)).getD 1

/-- A write of whole sectors clears their poison. -/
def State.heal (s : State) (k n : Nat) : State :=
  { s with poison := Store.keep s.poison fun p _ => !(decide (k ≤ 32 * p) && decide (32 * p + 32 ≤ k + n)) }

/-- One instruction or copy that writes every byte of a sector in several pieces, by key and length, clears it too. -/
def State.healPieces (s : State) (ks : List (Nat × Nat)) : State :=
  let wrote := fun a => ks.any fun q => decide (q.1 ≤ a) && decide (a < q.1 + q.2)
  { s with poison := Store.keep s.poison fun p _ => !((List.range 32).all fun i => wrote (32 * p + i)) }

/-! ### Translation (20 R316 to R318) -/

inductive Acc
  | read | write | exec | atomic
  deriving DecidableEq, Repr

/-- ACC of a fault record (20 R321). -/
def Acc.code : Acc → Nat
  | .read => 0 | .write => 1 | .exec => 2 | .atomic => 3

/-- A translation that a walk completed: where the byte lies, the leaf's own address and word, bytes of the page. -/
structure Walked where
  key : Nat
  leaf : Nat
  pte : Word
  size : Nat
  deriving DecidableEq, Repr

inductive WalkResult
  | ok (w : Walked)
  | fault (code : Nat)
  deriving DecidableEq, Repr

/-- Bytes of package memory lie in one of the function's ranges (21 R330). -/
def State.withinRanges (s : State) (f lo n : Nat) : Bool :=
  (List.range 4).any fun i =>
    let w := (s.partRecord f).getD (2 + i) 0
    decide (w.field 63 32 ≠ 0) && decide (w.field 31 0 * 65536 ≤ lo) && decide (lo + n ≤ w.field 63 32 * 65536)

/-- A page that a leaf maps does; the physical function's leaves are not checked. -/
def State.inRanges (s : State) (f lo n : Nat) : Bool := f == 0 || s.withinRanges f lo n

def pteLeaf (e : Word) : Bool := e.field 3 1 ≠ 0

/-- A malformed entry at a level (20 R318). -/
def State.pteMalformed (s : State) (f level : Nat) (e : Word) : Bool :=
  let leaf := pteLeaf e
  let tgt := e.field 10 9
  let size := 2 ^ (12 + 9 * level)
  e.field 63 56 ≠ 0 || e.field 5 4 ≠ 0
    || (level == 0 && !leaf) || (level == 3 && leaf)
    || (e.field 55 48 ≠ 0 && (!leaf || tgt ≠ 3))
    || (leaf && e.field 1 1 == 0)
    || (leaf && level == 2 && e.field 29 12 ≠ 0) || (leaf && level == 1 && e.field 20 12 ≠ 0)
    || (leaf && tgt == 0 && !s.inRanges f (e.field 47 12 * 4096) size)

def Acc.granted (a : Acc) (e : Word) : Bool :=
  match a with
  | .read => e.field 1 1 == 1
  | .write => e.field 2 2 == 1
  | .exec => e.field 3 3 == 1
  | .atomic => e.field 1 1 == 1 && e.field 2 2 == 1

/-- Walk from a table at a level; `level` counts down to 0 (20 R317). -/
def State.walkFrom (s : State) (f va : Nat) : Nat → Nat → WalkResult
  | level, table =>
    let a := table + 8 * (va / 2 ^ (12 + 9 * level) % 512)
    let e := s.rawWord a
    if s.poisoned a 8 then .fault 0x11
    else if e.field 0 0 == 0 then .fault 0x05
    else if s.pteMalformed f level e then .fault 0x04
    else if pteLeaf e && e.field 6 6 == 1 && level == 0 && s.poisoned (a / 128 * 128) 128 then .fault 0x11
    else if pteLeaf e then
      let size := 2 ^ (12 + 9 * level)
      let tgt := e.field 10 9
      let space := if tgt == 3 then 3 + e.field 55 48 else tgt
      .ok { key := keyOf space (e.field 47 12 * 4096 / size * size + va % size), leaf := a, pte := e, size := size }
    else
      match level with
      | 0 => .fault 0x04
      | l + 1 => s.walkFrom f va l (e.field 47 12 * 4096)

/-- The page-table walk of a virtual address (20 R317, R318), without the permission check. -/
def State.walk (s : State) (f va : Nat) : WalkResult :=
  if va < 2 ^ 48 then s.walkFrom f va 3 (s.ffield f 0xC00 47 12 * 4096) else .fault 0x04

/-- A physical address of the package that exists: HBM, or the aperture under an enabled window (17 R274; log 31). -/
def State.exists_ (s : State) (k : Nat) : Bool :=
  keySpace k ≠ 0 || decide (k < s.fuse.hbmBytes) || (decide (aperture ≤ k) && (s.windowAt k).isSome)

/-- Translation with the permission check (20 R318) and the aperture check (17 R274). -/
def State.translate (s : State) (f va : Nat) (acc : Acc) : WalkResult :=
  match s.walk f va with
  | .fault c => .fault c
  | .ok w => if acc.granted w.pte && s.exists_ w.key then .ok w else .fault 0x04

/-! ### The undo log's ring (19 R307, R308) -/

def State.logBase (s : State) (f : Nat) : Nat := s.ffield f 0xB00 47 0
def State.logBytes (s : State) (f : Nat) : Nat := s.ffield f 0xB08 15 0 * 2 ^ 20

/-- Bytes into the log's ring from a position on. -/
def State.putLog (s : State) (f pos : Nat) (bs : List Byte) : State :=
  let size := max (s.logBytes f) 1
  let m := (List.range bs.length).foldl
    (fun m i => Store.set Memory.unlisted m (s.logBase f + (pos + i) % size) (bs.getD i 0)) s.mem
  { s with mem := m }

/-- What a rollback of the function would write back of some bytes becomes what is written there now: it never undoes them
(19 R307; log 59). -/
def State.patchLog (s : State) (f k : Nat) (bs : List Byte) : State :=
  match (s.fn f).ckpt with
  | none => s
  | some c =>
    let now := fun (u : UndoLine) => if u.old = [] then [] else (List.range 128).map fun i =>
      let a := 128 * u.line + i
      if k ≤ a ∧ a < k + bs.length then bs.getD (a - k) 0 else u.old.getD i 0
    let s := c.undo.foldl (fun s u => if now u = u.old then s else s.putLog f u.at_ (now u)) s
    s.modFn f fun x => { x with ckpt := some { c with undo := c.undo.map fun u => { u with old := now u } } }

/-- A word of a table that the device writes for function `f`: no rollback undoes it (19 R306). -/
def State.plainWord (s : State) (f k : Nat) (w : Word) : State := (s.setRawWord k w).patchLog f k (bytesOf 8 w.toNat)

/-- The charge step (20 R325): the page is charged to the agent if it is tracked and not charged yet. None: QUOTA. -/
def State.charge (s : State) (f agent : Nat) (w : Walked) : Option State :=
  if w.pte.field 11 11 == 1 && w.pte.field 8 8 == 0 then
    let e := s.ffield f 0xC50 47 0 + 16 * agent
    let pages := w.size / 4096
    let charged := (s.rawWord (e + 8)).field 31 0
    if charged + pages > (s.rawWord e).field 31 0 then none
    else some ((s.plainWord f (e + 8) ((s.rawWord (e + 8)).put 31 0 (charged + pages))).plainWord f w.leaf (w.pte.put 8 8 1))
  else some s

/-- A quota table entry that must be read and is poisoned raises ECC (20 R325). -/
def State.chargeEcc (s : State) (f agent : Nat) (w : Walked) : Bool :=
  w.pte.field 11 11 == 1 && w.pte.field 8 8 == 0 && s.poisoned (s.ffield f 0xC50 47 0 + 16 * agent) 16

/-- The unit that the record of a failed walk names: the tables' for an uncorrectable error in an entry (20 R327). -/
def walkUnit (code : Nat) : Nat := if code = 0x11 then 10 else 0

/-- The unit that the record of a failed read names: the tables' or that of the bytes read (20 R327). -/
def State.readUnit (s : State) (f va n code : Nat) : Nat :=
  if code ≠ 0x11 then 0
  else match s.walk f va with
    | .fault _ => 10
    | .ok w => s.poisonUnit w.key n

/-- The unit that the record of a failed access names (20 R321, R327): the table entry walked, or what holds the quota entry. -/
def State.eccUnit (s : State) (f agent va : Nat) (acc : Acc) (code : Nat) : Nat :=
  if code ≠ 0x11 then 0
  else match s.translate f va acc with
    | .fault _ => 10
    | .ok _ => s.poisonUnit (s.ffield f 0xC50 47 0 + 16 * agent) 16

/-- Step 4 of 07 R161 for one access: translation, permission, quota. The state keeps charges made. -/
def State.permit (s : State) (f agent va : Nat) (acc : Acc) : Nat ⊕ (Nat × State) :=
  match s.translate f va acc with
  | .fault c => .inl c
  | .ok w =>
    if s.chargeEcc f agent w then .inl 0x11
    else match s.charge f agent w with
      | some s' => .inr (w.key, s')
      | none => .inl 0x06

/-- Whether the unit that homes a key is ready (24 R366, R368). -/
def State.ready (s : State) (k : Nat) : Bool :=
  let bits := s.reg 0x70000
  let sp := keySpace k
  if sp = 0 then
    let slice := s.homeSlice k
    bits.field (12 + slice) (12 + slice) == 1
  else if sp ≤ 2 then bits.field (37 + sp) (37 + sp) == 1
  else if sp < 300 then bits.field 40 40 == 1
  else if 1000 ≤ sp then true
  else bits.field (24 + (sp - 300)) (24 + (sp - 300)) == 1

/-- HDM page number of a package address (22 R349), if it is one. -/
def State.hdmPage (s : State) (k : Nat) : Option Nat :=
  let base := s.reg 0x58008 |>.field 47 0
  let size := s.reg 0x58010 |>.field 47 0
  if keySpace k = 0 ∧ base ≤ k ∧ k < base + size then some ((k - base) / 65536) else none

/-- Accesses to a key are held: its unit is not ready (24 R368), its HDM page is flipping (22 R350), or its window is
being committed (17 R273). -/
def State.heldKey (s : State) (k : Nat) : Bool :=
  !s.ready k
    || (match s.flip, s.hdmPage k with
        | some (p, _), some q => p == q
        | _, _ => false)
    || (match s.wcommit with
        | some (n, new) =>
          let hits := fun (w : Window) =>
            w.covers k || (decide (w.store ≤ k) && decide (k < w.store + w.storeBytes))
              || (decide (w.scale ≤ k) && decide (k < w.scale + w.scaleBytes))
          decide (keySpace k = 0) &&
            ((match (s.windows.find? n).bind Window.ofWords with | some w => hits w | none => false)
              || (match Window.ofWords new with | some w => hits w | none => false))
        | none => false)

/-- An entry of a walk from a table at a level is held. -/
def State.tablesHeld (s : State) (f va : Nat) : Nat → Nat → Bool
  | level, table =>
    let a := table + 8 * (va / 2 ^ (12 + 9 * level) % 512)
    let e := s.rawWord a
    s.heldKey a ||
      match level with
      | 0 => false
      | l + 1 => e.field 0 0 == 1 && !pteLeaf e && s.tablesHeld f va l (e.field 47 12 * 4096)

/-- An access to a virtual address is held: its bytes, or an entry of its walk (17 R273; 22 R350; 24 R368). It is tried again, and
checked, once they are not. -/
def State.heldVa (s : State) (f va : Nat) : Bool :=
  decide (va < 2 ^ 48) && (s.tablesHeld f va 3 (s.ffield f 0xC00 47 12 * 4096) ||
    match s.walk f va with
    | .ok w => s.heldKey w.key
    | .fault _ => false)

end Sys2Proof.Machine
end

