-- ==== Sys2Proof/Machine/Views.lean ====
section
/-!
DEFINITION. Which writes of other threads a thread may still not see: 01 R33 to R38; 07 R164, R166, R178 to R185; 08 R205, R209, R211;
09 R240, R244; 10 R250; 25 R378, R379. The views follow from the accesses, fences and links so far (State.acts). Writes of engines,
devices and the host are seen at once, and no load returns before an earlier access of its thread (log 9). A place is a count of
entries of State.order: the bytes as they stood after so many writes.
-/

namespace Sys2Proof.Machine

/-! ### Views -/

/-- What is seen: every write before a place; of a byte, all before one, with the virtual address it was reached by; of a virtual
range, all before one. -/
structure View where
  all : Nat := 0
  bytes : Store (Nat × Option Nat) := []
  ranges : List (Nat × Nat × Nat) := []
  deriving DecidableEq, Repr

/-- The place that a view has of a byte. -/
def View.floor (v : View) (k : Nat) (va : Option Nat) : Nat :=
  let one := (v.bytes.find? k).elim 0 (·.1)
  v.ranges.foldl (fun m r => if va.any fun a => decide (r.1 ≤ a) && decide (a < r.2.1) then max m r.2.2 else m) (max v.all one)

def laterByte (m : Store (Nat × Option Nat)) (k : Nat) (x : Nat × Option Nat) : Store (Nat × Option Nat) :=
  if x.1 ≤ (m.find? k).elim 0 (·.1) then m else m.put k x

/-- `n` bytes have been seen as they stood at a place. -/
def View.add (v : View) (k n place : Nat) (va : Option Nat) : View :=
  { v with bytes := (List.range n).foldl (fun m i => laterByte m (k + i) (place, va.map (· + i))) v.bytes }

def View.join (v w : View) : View where
  all := max v.all w.all
  bytes := w.bytes.foldl (fun m q => laterByte m q.1 q.2) v.bytes
  ranges := v.ranges ++ w.ranges

/-- What a view has of virtual ranges (01 R36: a release of an object covers no more). -/
def View.within (v : View) (rs : List (Nat × Nat)) : View where
  bytes := Store.keep v.bytes fun _ x => x.2.any fun a => rs.any fun r => decide (r.1 ≤ a) && decide (a < r.2)
  ranges := rs.flatMap fun r => (r.1, r.2, v.all) ::
    v.ranges.filterMap fun q => if max q.1 r.1 < min q.2.1 r.2 then some (max q.1 r.1, min q.2.1 r.2, q.2.2) else none

/-! ### Threads -/

/-- What a thread has read and written, and by the scope of the fences it needs, what it would acquire from writes it has read. -/
structure Seen where
  read : View := {}
  wrote : View := {}
  pending : Store View := []
  deriving DecidableEq, Repr

def Seen.join (a b : Seen) : Seen where
  read := a.read.join b.read
  wrote := a.wrote.join b.wrote
  pending := b.pending.foldl (fun m q => m.put q.1 ((m.get {} q.1).join q.2)) a.pending

/-- A thread: its accesses; those of gathers and scatters that no k2 wait has covered, by issue number; what links have carried to it;
and what its later writes publish, by scope. -/
structure Thread where
  own : Seen := {}
  late : List (Nat × Seen) := []
  carried : View := {}
  published : Store View := []
  deriving DecidableEq, Repr

/-- What it has accessed, and what has been carried to it: what its releases cover (25 R379). -/
def Thread.covered (t : Thread) : View := (t.own.read.join t.own.wrote).join t.carried

/-- What it must see: its own accesses too that no wait has covered (07 R166 keeps 01 R34). -/
def Thread.sees (t : Thread) : View := t.late.foldl (fun v q => (v.join q.2.read).join q.2.wrote) t.covered

/-- An access, covered at once or of an operation that a k2 wait is to cover. -/
def Thread.access (t : Thread) (op : Option Nat) (p : Seen) : Thread :=
  match op with
  | none => { t with own := t.own.join p }
  | some i => { t with late := (i, p) :: t.late }

/-- A fence: a kind that orders earlier loads acquires what those have observed; later writes publish what it orders (07 R179,
R180). -/
def Thread.fence (t : Thread) (kind scope : Nat) : Thread :=
  let levels := List.range (scope + 1)
  let carried := if kind = 1 then t.carried else levels.foldl (fun v m => v.join (t.own.pending.get {} m)) t.carried
  let loads : View := if kind = 1 then {} else t.own.read
  let stores : View := if kind = 2 then {} else t.own.wrote
  let out := (carried.join loads).join stores
  { t with carried := carried, published := levels.foldl (fun m i => m.put i ((m.get {} i).join out)) t.published }

/-- A wait has covered the operations below an issue number. -/
def Thread.cover (t : Thread) (upTo : Nat) : Thread :=
  { t with own := (t.late.filter fun q => decide (q.1 < upTo)).foldl (fun p q => p.join q.2) t.own
           late := t.late.filter fun q => !decide (q.1 < upTo) }

/-- The narrowest scope that holds both (01 R26), by its code. -/
def Home.scope (a b : Home) : Nat :=
  if a.g = b.g then 0 else if a.team = b.team then 1 else if a.cluster = b.cluster then 2 else if a.die = b.die then 3 else 4

/-- A write that follows fences of its thread, with what they publish. -/
structure Sent where
  home : Home
  lane : Nat
  key : Nat
  n : Nat
  place : Nat
  published : Store View
  deriving DecidableEq, Repr

/-- A release of an object. -/
structure Released where
  home : Home
  obj : Nat
  scope : Nat
  place : Nat
  view : View
  deriving DecidableEq, Repr

/-- Every thread's view, by 96 * gang + lane, the writes that publish, the releases, and what each link holds: there to be acquired,
and not yet. -/
structure Views where
  threads : Store Thread := []
  sent : List Sent := []
  released : List Released := []
  links : List (Link × View × View) := []
  deriving DecidableEq, Repr

/-- A thread, which sees every write before its gang was placed. -/
def Views.thread (v : Views) (h : Home) (l : Nat) : Thread :=
  let t := v.threads.get {} (96 * h.g + l)
  { t with carried := t.carried.join { all := h.born } }

def Views.change (v : Views) (h : Home) (ls : List Nat) (k : Thread → Thread) : Views :=
  { v with threads := ls.foldl (fun m l => m.put (96 * h.g + l) (k (v.thread h l))) v.threads }

def Views.coveredBy (v : Views) (h : Home) (m : Mask) (view : Thread → View) : View :=
  ((List.range 96).filter fun l => m.getLsbD l).foldl (fun w l => w.join (view (v.thread h l))) {}

def Views.link (v : Views) (l : Link) : View × View := ((v.links.find? fun q => q.1 == l).map (·.2)).getD ({}, {})

def Views.setLink (v : Views) (l : Link) (x : View × View) : Views :=
  { v with links := (l, x) :: v.links.filter fun q => q.1 != l }

def overlap (a m b n : Nat) : Bool := decide (a < b + n) && decide (b < a + m)

/-- What a read of bytes at a place observes of other threads' fences: the writes at or before it (07 R180). -/
def Views.observed (v : Views) (h : Home) (l k n place : Nat) : Store View :=
  let seen := v.sent.filter fun w => overlap w.key w.n k n && decide (w.place ≤ place) && !(w.home.g == h.g && w.lane == l)
  seen.foldl (fun m w =>
    let at_ := h.scope w.home
    m.put at_ ((m.get {} at_).join (w.published.get {} at_))) []

def lanesIn (m : Mask) : List Nat := (List.range 96).filter fun l => m.getLsbD l

/-- One act after another. -/
def Views.act (v : Views) (h : Home) : Act → Views
  | .read l k n place va op =>
    v.change h [l] fun t => t.access op { read := View.add {} k n place va, pending := v.observed h l k n place }
  | .wrote l k n _ stop va op =>
    let pub := (v.thread h l).published
    let w := v.change h [l] fun t => t.access op { wrote := View.add {} k n stop va }
    if op.isSome || pub.isEmpty then w else { w with sent := ⟨h, l, k, n, stop, pub⟩ :: w.sent }
  | .fence kind scope m => v.change h (lanesIn m) fun t => t.fence kind scope
  | .release obj scope place m rs =>
    { v with released := ⟨h, obj, scope, place, (v.coveredBy h m Thread.covered).within rs⟩ :: v.released }
  | .acquire obj scope place m rs =>
    let hears := fun (r : Released) => r.obj == obj && decide (r.place ≤ place) && decide (h.scope r.home ≤ min scope r.scope)
    let all := (v.released.filter hears).foldl (fun w r => w.join (r.view.within rs)) {}
    v.change h (lanesIn m) fun t => { t with carried := t.carried.join all }
  | .covered upTo => v.change h (List.range 96) fun t => t.cover upTo
  | .give l m => v.setLink l ((v.link l).1, (v.link l).2.join (v.coveredBy h m Thread.covered))
  | .send l m => v.setLink l ((v.link l).1, (v.link l).2.join (v.coveredBy h m fun t => t.published.get {} 5))
  | .pass l => v.setLink l ((v.link l).1.join (v.link l).2, {})
  | .carry l m => v.setLink l ((v.link l).1, ((v.link l).2.join (v.link m).1).join (v.link m).2)
  | .take l m => v.change h (lanesIn m) fun t => { t with carried := t.carried.join (v.link l).1 }
  | .meet m =>
    let all := v.coveredBy h m Thread.covered
    v.change h (lanesIn m) fun t => { t with carried := t.carried.join all }

/-- The views now. -/
def State.views (s : State) : Views := s.acts.foldr (fun a v => v.act a.1 a.2) {}

def State.did (s : State) (h : Home) (a : Act) : State := { s with acts := (h, a) :: s.acts }

/-! ### What a read may return -/

/-- An act writes some of `n` bytes, and its thread is not the lane; of what a team shares beside memory, not its gang (10 R250). -/
def Act.rivals (a : Home × Act) (h : Home) (l k n : Nat) : Bool :=
  match a.2 with
  | .wrote l' k' n' _ _ _ _ => overlap k' n' k n && (a.1.g != h.g || (l' != l && keySpace k < 1000))
  | _ => false

/-- A write of the byte at a place of the order is a rival's. -/
def Act.rivalsAt (a : Home × Act) (h : Home) (l k place : Nat) : Bool :=
  match a.2 with
  | .wrote _ _ _ start stop _ _ => Act.rivals a h l k 1 && decide (start ≤ place) && decide (place < stop)
  | _ => false

/-- Other threads have written some of the bytes. A view that rearranges codes gives what stands there now (log 9). -/
def State.contended (s : State) (h : Home) (l k n : Nat) : Bool :=
  !(decide (aperture ≤ k) && decide (k < 2 ^ 48)) && s.acts.any fun a => Act.rivals a h l k n

/-- The place of a byte's latest write that no rival made. -/
def settledPlace (acts : List (Home × Act)) (h : Home) (l k : Nat) : List Past → Nat
  | [] => 0
  | q :: r => if q.key = k && !(acts.any fun a => Act.rivalsAt a h l k r.length) then r.length + 1 else settledPlace acts h l k r

/-- Places at which some of `n` bytes from a key changed, from a place on; no write lies across one. -/
def changesOf (k n since : Nat) : List Past → List Nat
  | [] => []
  | q :: r =>
    if r.length < since then []
    else (if k ≤ q.key ∧ q.key < k + n ∧ !q.inner then [r.length] else []) ++ changesOf k n since r

/-- What a byte held at a place of the order, if it has been overwritten since. -/
def heldAt (k place : Nat) : List Past → Option Byte
  | [] => none
  | q :: r => if r.length < place then none else (heldAt k place r).or (if q.key = k then some q.old else none)

/-- The places before now as of which a thread may read bytes: none of a byte before what it must see of it (01 R33, R34). -/
def State.placesOf (s : State) (h : Home) (l k n : Nat) (va : Option Nat) : List Nat :=
  if !s.contended h l k n then []
  else
    let sees := ((s.views).thread h l).sees
    let bound := (List.range n).foldl (fun m i =>
      max m (max (sees.floor (k + i) (va.map (· + i))) (settledPlace s.acts h l (k + i) s.order))) 0
    changesOf k n bound s.order

/-! ### What a team shares beside memory (10 R250) -/

/-- The key under which the initialisations of a point, or of ring n as 24 + n, are writes. -/
def initKey (team n : Nat) : Nat := keyOf 1000 (32 * team + n)

/-- An initialisation by a lane; the object was configured or not. -/
def State.initialise (s : State) (h : Home) (l n : Nat) (was : Bool) : State :=
  let k := initKey h.team n
  (s.note k 0 (BitVec.ofNat 8 was.toNat)).did h (.wrote l k 1 s.order.length (s.order.length + 1) none none)

/-- A use by a lane: it finds the object unconfigured where it may find the state before an initialisation that configured it, a
free choice. -/
def State.finds (s : State) (h : Home) (l n : Nat) : State × Bool :=
  let k := initKey h.team n
  match s.placesOf h l k 1 none with
  | [] => (s, true)
  | ps =>
    match ps[(Config.freeValue s.tick).toNat % (ps.length + 1)]? with
    | none => ({ s with tick := s.tick + 1 }, true)
    | some p => ({ s with tick := s.tick + 1 }.did h (.read l k 1 p none none), heldAt k p s.order != some 0)

end Sys2Proof.Machine
end

