-- ==== Sys2Proof/Machine/Ops.lean ====
section
/-!
DEFINITION. The shared operations: an instruction's context and its registers (01 R13 to R20), going on to the next
instruction (02 R40, R44, R51), waiting, re-ganging (04 R83), the checkpoint and the rollback of a function (19), and
taking a fault, with the return from one (09 R230, R231; 20 R321 to R323).
-/

namespace Sys2Proof.Machine

abbrev Outcome := Host.Outcome State Fault Refusal

/-! ### Lanes and masks -/

def allLanes : Mask := BitVec.allOnes 96

/-- The lanes of a mask in ascending order. -/
def lanesOf (m : Mask) : List Nat := (List.range 96).filter fun l => m.getLsbD l

/-- The mask of the lanes a predicate picks. -/
def maskOf (f : Nat → Bool) : Mask := BitVec.ofNat 96 (((List.range 96).map fun l => if f l then 2 ^ l else 0).sum)

def maskOfList (ls : List Nat) : Mask := maskOf fun l => ls.contains l

def laneCount (m : Mask) : Nat := (lanesOf m).length

/-- Lanes 32w to 32w + 31 of a mask, as a word. -/
def maskWord (m : Mask) (w : Nat) : Word := BitVec.ofNat 64 (m.toNat / 2 ^ (32 * w) % 2 ^ 32)

/-! ### The context of an instruction -/

/-- The state, the gang and split that run the instruction, and both as they are being changed. -/
structure Cx where
  s : State
  g : Nat
  sp : Nat
  G : Gang
  P : Split

/-- Store the context's gang and split back. -/
def Cx.flush (c : Cx) : State :=
  { c.s with gangs := c.s.gangs.put c.g { c.G with splits := c.G.splits.put c.sp c.P } }

/-- The context of a split, if there is one. -/
def State.cx? (s : State) (g sp : Nat) : Option Cx :=
  (s.gangs.find? g).bind fun G => (G.splits.find? sp).map fun P => ⟨s, g, sp, G, P⟩

/-- The gang as it acts on memory and links (25 R379). -/
def Gang.home (G : Gang) (g : Nat) : Home := ⟨g, G.team, G.cluster, G.die, G.born⟩
def Cx.home (c : Cx) : Home := c.G.home c.g

/-- The gang's threads have done something that decides what is seen. -/
def Cx.did (c : Cx) (a : Act) : Cx := { c with s := c.s.did c.home a }

/-- A release into a link that makes it there to be acquired. -/
def Cx.hand (c : Cx) (l : Link) (m : Mask) : Cx := (c.did (.give l m)).did (.pass l)

/-- Run an instruction's effect in the context of the running split. -/
def State.issue (s : State) (k : Cx → State) : Outcome :=
  match s.cur.bind fun q => s.cx? q.1 q.2 with
  | some c => .next (k c)
  | none => .fault .noSplit

/-- Read the context anew from a state that may have changed it. -/
def Cx.reload (c : Cx) (s : State) : Cx :=
  match s.cx? c.g c.sp with
  | some d => d
  | none => { c with s := s }

/-! ### Registers (01 R18, R20) -/

/-- A scalar register of a split: s0 reads 0, s61 to s63 the activity mask. -/
def Split.sreg (P : Split) (n : Nat) : Word :=
  if n = 0 then 0 else if n < 61 then P.s.get 0 n else maskWord P.active (n - 61)

/-- Write a scalar register: s0 discards, s61 to s63 set their lanes of ACTIVE within MEMBER. -/
def Split.setS (P : Split) (n : Nat) (w : Word) : Split :=
  if n = 0 then P
  else if n < 61 then { P with s := P.s.set 0 n w }
  else
    let lo := 32 * (n - 61)
    let new := maskOf fun l => if lo ≤ l ∧ l < lo + 32 then w.getLsbD (l - lo) else P.active.getLsbD l
    { P with active := new &&& P.member }

/-- A lane's vector register. -/
def Gang.vreg (G : Gang) (r l : Nat) : Lane32 := G.v.get 0 (96 * r + l)
def Gang.setV (G : Gang) (r l : Nat) (x : Lane32) : Gang := { G with v := G.v.set 0 (96 * r + l) x }

/-- A predicate; p0 reads 1 in every lane. -/
def Gang.pred (G : Gang) (n : Nat) : Mask := if n = 0 then allLanes else G.p.get 0 n

/-- Write a predicate in the lanes of `m`; a write to p0 is discarded. -/
def Gang.setP (G : Gang) (n : Nat) (x m : Mask) : Gang :=
  if n = 0 then G else { G with p := G.p.set 0 n ((x &&& m) ||| (G.pred n &&& ~~~m)) }

def Cx.sreg (c : Cx) (n : Nat) : Word := c.P.sreg n
def Cx.setS (c : Cx) (n : Nat) (w : Word) : Cx := { c with P := c.P.setS n w }
def Cx.vreg (c : Cx) (r l : Nat) : Lane32 := c.G.vreg r l
def Cx.setV (c : Cx) (r l : Nat) (x : Lane32) : Cx := { c with G := c.G.setV r l x }
def Cx.setP (c : Cx) (n : Nat) (x m : Mask) : Cx := { c with G := c.G.setP n x m }

/-- The lanes an instruction includes (02 R52). -/
def Cx.included (c : Cx) (k : Ctl) : Mask :=
  if k.ge then c.P.active &&& (if k.gn then ~~~(c.G.pred k.gp.toNat) else c.G.pred k.gp.toNat) else c.P.active

/-- Scalar registers n and following. -/
def Cx.sregs (c : Cx) (n count : Nat) : List Word := (List.range count).map fun i => c.sreg (n + i)

/-- Write scalar registers n and following. -/
def Cx.setSs (c : Cx) (n : Nat) : List Word → Cx
  | [] => c
  | w :: ws => (c.setS n w).setSs (n + 1) ws

/-! ### Delivering the results of long-latency forms (02 R51) -/

def applyVs (G : Gang) (vs : List (Nat × Lane32)) : Gang :=
  vs.foldl (fun G q => { G with v := G.v.set 0 q.1 q.2 }) G

def applySs (P : Split) (ss : List (Nat × Word)) : Split := ss.foldl (fun P q => P.setS q.1 q.2) P

def applyPs (G : Gang) (ps : List (Nat × Mask × Mask)) : Gang := ps.foldl (fun G q => G.setP q.1 q.2.1 q.2.2) G

/-- Write the results of one long-latency form. -/
def Cx.deliver (c : Cx) (r : Late) : Cx :=
  { c with G := applyPs (applyVs c.G r.vs) r.ps, P := applySs c.P r.ss }

/-- Write every result still outstanding. -/
def Cx.settle (c : Cx) : Cx :=
  let d := c.P.late.foldl Cx.deliver c
  { d with P := { d.P with late := [] } }

/-- One instruction more has issued: results whose window is over are written. -/
def Cx.ageLate (c : Cx) : Cx :=
  let aged := c.P.late.map fun r => { r with left := r.left - 1 }
  let d := (aged.filter fun r => r.left == 0).foldl Cx.deliver c
  { d with P := { d.P with late := aged.filter fun r => r.left != 0 } }

/-- Opcode of a word. -/
def opcodeOf (w : Word) : Nat := w.field 63 54

/-- Column I of the opcode map (02 R55); a copy is irrevocable when its POINT is not 31. -/
def isIrrevocable (w : Word) : Bool :=
  let op := opcodeOf w
  (decide (0x0D7 ≤ op) && decide (op ≤ 0x0E0))
    || (decide (0x0F0 ≤ op) && decide (op ≤ 0x0F4) && w.field 20 16 != 31)
    || op == 0x101 || op == 0x103 || op == 0x105 || op == 0x106
    || (decide (0x114 ≤ op) && decide (op ≤ 0x119)) || op == 0x11C

/-- Instructions in the window of a form with lookahead count `la` at the clause's current position (02 R51). -/
def Clause.window (cl : Clause) (la : Nat) : Nat :=
  let rest := (cl.words.take cl.stop).drop (cl.pos + 1)
  let free := rest.takeWhile fun w => !(decide (0x010 ≤ opcodeOf w) && decide (opcodeOf w ≤ 0x025))
  min la free.length

def Cx.window (c : Cx) (k : Ctl) : Nat :=
  match c.P.clause with
  | some cl => cl.window k.la.toNat
  | none => 0

/-- Give a long-latency form's results: at once, or after the window it declares. -/
def Cx.results (c : Cx) (k : Ctl) (r : Late) : Cx :=
  let n := c.window k
  if n = 0 then c.deliver r else { c with P := { c.P with late := c.P.late ++ [{ r with left := n + 1 }] } }

/-! ### Going on (02 R40, R44) and re-ganging (04 R83, 01 R16) -/

/-- The header that follows a clause. -/
def Clause.after (cl : Clause) : Nat := cl.hdr + 8 * (cl.words.length + 1)

/-- A split in the midst of a clause that nothing stalls. -/
def Split.midClause (P : Split) : Bool :=
  P.clause.any (·.begun) && !P.stalled && P.wait.isNone && P.parked.isNone && !P.saved

/-- A gang's quarter, numbered through the package. -/
def Gang.quarterNo (G : Gang) : Nat := (4 * G.cluster + G.seat.core) * 4 + G.seat.quarter

/-- The gangs resident on a quarter. -/
def State.onQuarter (s : State) (q : Nat) : Store Gang := Store.keep s.gangs fun _ G => G.quarterNo == q

/-- The first split of a quarter that a predicate picks. -/
def State.splitOn (s : State) (q : Nat) (p : Split → Bool) : Option (Nat × Nat) :=
  (s.onQuarter q).findSome? fun r => (List.find? (fun (x : Nat × Split) => p x.2) r.2.splits).map fun x => (r.1, x.1)

/-- At a clause boundary and not issuing from the clause there. -/
def Split.atBoundary (P : Split) : Bool :=
  P.parked.isNone && !P.wonly &&
    match P.clause with
    | none => true
    | some cl => !cl.begun

def Split.mergeable (P Q : Split) : Bool :=
  P.atBoundary && Q.atBoundary && P.pc == Q.pc && P.region == Q.region && P.rstate == 0 && Q.rstate == 0
    && P.spawning.isEmpty && Q.spawning.isEmpty && !P.saved && !Q.saved

/-- A split is no longer waited for by the splits that yielded to it (04 R386). -/
def Gang.unyield (G : Gang) (sp : Nat) : Gang :=
  { G with splits := Store.mapVals G.splits fun _ Q => { Q with yieldTo := Q.yieldTo.filter (· != sp) } }

/-- Merge the splits that stand with `sp` at its boundary; the lowest INDEX and its scalar registers remain, and no opportunity has
passed the merged split over (log 75). -/
def Gang.regang (G : Gang) (sp : Nat) : Gang :=
  match G.splits.find? sp with
  | none => G
  | some P =>
    let group : Store Split := G.splits.filter fun q => q.1 == sp || P.mergeable q.2
    match group with
    | [] => G
    | [_] => G
    | (i, Q) :: rest =>
      let m := rest.foldl (fun a q => a ||| q.2.member) Q.member
      let act := rest.foldl (fun a q => a ||| q.2.active) Q.active
      let merged := { Q with member := m, active := act, clause := none, wait := none, stalled := false, passed := 0,
                             closed := group.any fun (q : Nat × Split) => q.2.closed }
      let kept := G.splits.filter fun q => q.1 == i || !(group.any fun (r : Nat × Split) => r.1 == q.1)
      rest.foldl (fun G q => G.unyield q.1) { G with splits := Store.put kept i merged, merged := G.merged ++ [m] }

/-- Ready (04 R84) unless a yield holds it back: at a boundary, its header waits over, not held at a meet. -/
def Split.readyAt (P : Split) : Bool :=
  P.parked.isNone && P.wait.isNone && !P.saved &&
    match P.clause with
    | some cl => cl.waited && !cl.begun
    | none => false

/-- Ready (04 R84, R386). -/
def Split.ready (P : Split) : Bool := P.readyAt && P.yieldTo.isEmpty

/-- End the clause and stand at `target`. A split that has yielded waits for those that are ready now: siblings that its own
division has just made, which have not fetched, are not among them (log 74). -/
def Cx.endClause (c : Cx) (target : Nat) : State :=
  let c := c.settle
  let others := (Store.keep c.G.splits fun i Q => i != c.sp && Q.ready).keys
  let P := { c.P with pc := target, clause := none, wait := none, stalled := false, passed := 0, stcFrom := 0, reads := [],
                      yieldTo := if c.P.yielding then others else [], yielding := false }
  let G := { c.G with splits := c.G.splits.put c.sp P }
  { c.s with cur := none, gangs := c.s.gangs.put c.g (G.regang c.sp) }

/-- The instruction is done: go on to the next of the clause, or end the clause. An irrevocable one closes its region. -/
def Cx.retire (c : Cx) : State :=
  let c := c.ageLate
  match c.P.clause with
  | some cl =>
    let c := { c with P := { c.P with closed := c.P.closed || isIrrevocable (cl.words.getD cl.pos 0) } }
    if cl.pos + 1 < cl.stop then
      { c with P := { c.P with pc := c.P.pc + 8, clause := some { cl with pos := cl.pos + 1, begun := true }, stcFrom := 0, reads := [] } }.flush
    else c.endClause cl.after
  | none => c.endClause (c.P.pc + 8)

/-- Outstanding operations of a class: the counter kn (01 R22). -/
def Gang.k (G : Gang) (n : Nat) : Nat := (G.ops.filter fun q => q.1 == n).length

/-- An operation of class `n` has issued. -/
def Gang.addOp (G : Gang) (n id : Nat) : Gang :=
  let i := Store.get 0 G.issued n
  { G with issued := Store.set 0 G.issued n (i + 1), ops := G.ops ++ [(n, i, id)] }

/-- An operation has completed. -/
def Gang.endOp (G : Gang) (id : Nat) : Gang := { G with ops := G.ops.filter fun q => q.2.2 != id }

/-- The instruction waits; nothing of it has taken effect (08 R212). -/
def Cx.waitFor (c : Cx) (w : Wait) : State :=
  { { c with P := { c.P with wait := some w, stalled := true } }.flush with cur := none }

/-- The instruction word the running split issues next (02 R42: its clause has been fetched whole). -/
def Cx.word? (c : Cx) : Option Word := c.P.clause.map fun cl => cl.words.getD cl.pos 0

/-- The quarter of a split runs no other clause: it may go on with one that has stalled (02 R44). -/
def State.quarterFree (s : State) (g : Nat) : Bool :=
  (s.gangs.find? g).all fun G => (s.splitOn G.quarterNo Split.midClause).isNone

/-- A close is under way: no new instruction of the partition issues (19 R305). -/
def State.stopped (s : State) (f : Nat) : Bool := (s.fn f).close != .none

/-- A split whose wait is over becomes the running split if none is and its quarter runs no other clause; else its clause
goes on later. -/
def State.wake (s : State) (g sp : Nat) (w : Wait → Bool) (past : Cx → Bool) : Outcome :=
  .next <|
    match s.cx? g sp with
    | some c =>
      if c.P.wait.any w && c.P.parked.isNone && past c then
        let go := s.cur.isNone && c.P.clause.isSome && s.quarterFree g && !s.stopped c.G.fn
        let c := { c with P := { c.P with wait := none, stalled := !go } }
        { c.flush with cur := if go then some (g, sp) else s.cur }
      else s
    | none => s

/-- An effect of the machine on one split, whichever split is running. -/
def State.onSplit (s : State) (g sp : Nat) (k : Cx → State) : State :=
  match s.cx? g sp with
  | some c =>
    let t := k c
    { t with cur := s.cur.filter fun q => (t.cx? q.1 q.2).isSome }
  | none => s

/-- No operation of class `n` that the gang issued is outstanding except among the `t` most recently issued; 63 always
holds (08 R210). -/
def Gang.kHolds (G : Gang) (n t : Nat) : Bool :=
  t == 63 || G.ops.all fun q => q.1 != n || decide (Store.get 0 G.issued n - t ≤ q.2.1)

/-! ### Memory written by a partition: the undo log (19 R306 to R308) -/

/-- A front end's block (18 R284). -/
def State.feWord (s : State) (fe : Nat) : Word := s.reg (0x90000 + 64 * fe)
def State.feFunc (s : State) (fe : Nat) : Nat := (s.feWord fe).field 56 50
def State.feOn (s : State) (fe : Nat) : Bool := (s.feWord fe).field 49 49 == 1
def State.feBase (s : State) (fe : Nat) : Nat := (s.feWord fe).field 16 1
def State.feLimit (s : State) (fe : Nat) : Nat := (s.feWord fe).field 32 17

/-- The enabled front ends of a function. -/
def State.frontEnds (s : State) (f : Nat) : List Nat :=
  (List.range 128).filter fun fe => s.feOn fe && s.feFunc fe == f

/-- The logical clusters of a function's front-end ranges. -/
def State.clustersOf (s : State) (f : Nat) : List Nat :=
  let fes := s.frontEnds f
  (List.range s.fuse.clusterCount).filter fun c => fes.any fun fe => decide (s.feBase fe ≤ c) && decide (c ≤ s.feLimit fe)

/-- Gang slots of a cluster. -/
def State.clusterSlots (s : State) : Nat := 4 * s.fuse.quarters * 8

/-- Bytes the hardware save region of a function must hold (19 R310). -/
def State.saveNeeds (s : State) (f : Nat) : Nat := (s.clustersOf f).length * (s.clusterSlots * 0x10000 + 2 * 0x40000)

/-- The log of a function, if it keeps checkpoints (19 R308, R310). -/
def State.hasLog (s : State) (f : Nat) : Bool :=
  decide (s.ffield f 0xB08 15 0 ≠ 0) && decide (s.saveNeeds f ≤ s.ffield f 0xB18 15 0 * 2 ^ 20)

/-- Free bytes of the undo log. -/
def State.logFree (s : State) (f : Nat) (k : Ckpt) : Nat := s.logBytes f - k.used

/-- The log holds more than its region: the step that wrote the entries cannot be taken. -/
def State.logFull (s : State) (f : Nat) : Bool := (s.fn f).ckpt.any fun k => decide (s.logBytes f < k.used)

/-- Append an entry: header, payload rounded up to a multiple of 32 bytes. -/
def State.logEntry (s : State) (f : Nat) (k : Ckpt) (kind item who : Nat) (cmt : Bool) (addr : Nat) (payload : List Byte) :
    State × Ckpt :=
  let head := [kind * 2 ^ 60 + cmt.toNat * 2 ^ 59 + addr % 2 ^ 48, item % 2 ^ 16, who, k.seq]
  let pad := (32 - payload.length % 32) % 32
  let bytes := head.flatMap (bytesOf 8) ++ payload ++ List.replicate pad 0
  (s.putLog f k.logPos bytes,
   { k with logPos := (k.logPos + bytes.length) % max (s.logBytes f) 1, used := k.used + bytes.length })

/-- The checkpoint with what has been logged; less than 1 MiB left calls for a close. -/
def State.setCkpt (s : State) (f : Nat) (k : Ckpt) : State :=
  s.modFn f fun x => { x with ckpt := some k, ckDue := x.ckDue || decide (s.logFree f k < 2 ^ 20) }

/-- Log a line's old contents, unless they are logged. -/
def State.logOld (s : State) (f line : Nat) (old : List Byte) : State :=
  match (s.fn f).ckpt with
  | none => s
  | some k =>
    if k.undo.any (fun u => u.line == line) then s
    else
      let at_ := (k.logPos + 32) % max (s.logBytes f) 1
      let (s, k) := s.logEntry f k 1 0 0 false (128 * line) old
      s.setCkpt f { k with undo := { line := line, old := old, at_ := at_ } :: k.undo }

/-- Log the old contents of a line of this package before its first write after the mark. -/
def State.logLine (s : State) (f line : Nat) : State :=
  s.logOld f line ((List.range 128).map fun i => s.readByte f (128 * line + i))

/-- A committed write of an item is marked in the log (19 R307). -/
def State.logCommit (s : State) (f kind item who addr : Nat) : State :=
  match (s.fn f).ckpt with
  | none => s
  | some k =>
    let (s, k) := s.logEntry f k kind item who true addr []
    s.setCkpt f k

/-- The lines that `n` bytes from a key touch. -/
def linesOf (k n : Nat) : List Nat := (List.range ((k + n + 127) / 128 - k / 128)).map (k / 128 + ·)

/-- Write bytes as function `f`; sources of windowed bricks are recalled. -/
def State.overwrite (s : State) (f k : Nat) (bs : List Byte) : State :=
  let s := (linesOf k bs.length).foldl (fun s line => s.recallSources (128 * line)) s
  let s := (List.range bs.length).foldl (fun s i => s.writeByte f (k + i) i (bs.getD i 0)) s
  s.heal k bs.length

/-- A write that is never logged and never undone: rings, records, descriptors (19 R306). -/
def State.plainStore (s : State) (f k : Nat) (bs : List Byte) : State := (s.overwrite f k bs).patchLog f k bs

/-- Address of a queue's control block, if the number names a queue (18 R286). -/
def State.qcbAt (s : State) (f q : Nat) : Option Nat :=
  if q < s.ffield f 0xA08 12 0 then
    let e := s.rawWord (s.ffield f 0xA00 47 0 + 8 * q)
    if e.field 0 0 = 1 then some (e.field 47 7 * 128) else none
  else none

/-- A byte of a control block of the function that it only reads: its guest fields but TAIL (18 R287; 00 R9). -/
def State.readOnly (s : State) (f k : Nat) : Bool :=
  f != 0 && (List.range (s.ffield f 0xA08 12 0)).any fun q => (s.qcbAt f q).any fun a => decide (a + 36 ≤ k) && decide (k < a + 128)

/-- What a store of the function leaves: bytes it only reads keep their value. -/
def State.guarded (s : State) (f k : Nat) (bs : List Byte) : List Byte :=
  bs.zipIdx.map fun q => if s.readOnly f (k + q.2) then s.readByte f (k + q.2) else q.1

/-- Store bytes as function `f`: old lines are logged, or the lines marked where the write is committed. -/
def State.store (s : State) (f k : Nat) (bs : List Byte) (commit : Bool) : State :=
  if commit then
    ((linesOf k bs.length).foldl (fun s line => s.logCommit f 1 0 0 (128 * line)) s).plainStore f k (s.guarded f k bs)
  else ((linesOf k bs.length).foldl (fun s line => s.logLine f line) s).overwrite f k (s.guarded f k bs)

/-! ### Device writes into a function's virtual space: records and rings -/

/-- Write words at a virtual address through the function's page tables, if the page can be written. -/
def State.deviceWrite (s : State) (f va : Nat) (ws : List Word) : Option State :=
  match s.translate f va .write with
  | .ok w => some ((s.track false w.key).plainStore f w.key (ws.flatMap fun x => bytesOf 8 x.toNat))
  | .fault _ => none

/-- The mask bit of an entry of a function's MSI-X table (22 R347; log 32). -/
def State.masked (s : State) (f v : Nat) : Bool := s.ffield f (0x3E008 + 16 * v) 32 32 == 1

/-- Raise MSI-X vector `v` of a function: its message is sent, or while it is masked its pending bit is set (22 R347). -/
def State.raiseVector (s : State) (f v : Nat) : State :=
  if s.masked f v then s.setFreg f 0x3F000 (s.freg f 0x3F000 ||| BitVec.ofNat 64 (2 ^ v))
  else { s with messages := s.messages ++ [(f, v)] }

/-! ### Fault records (20 R321, R322) -/

/-- The eight words of a fault record. -/
def recordWords (f lid gang split token : Nat) (precise resum : Bool) (i : FaultInfo) : List Word :=
  [ BitVec.ofNat 64 (i.code * 2 ^ 56 + i.orig * 2 ^ 48 + f * 2 ^ 41 + precise.toNat * 2 ^ 40 + resum.toNat * 2 ^ 39
      + i.lane * 2 ^ 32 + lid % 2 ^ 32)
  , BitVec.ofNat 64 i.pc, BitVec.ofNat 64 i.hdr, BitVec.ofNat 64 i.addr
  , BitVec.ofNat 64 (i.elem % 2 ^ 32 + i.exts.length * 2 ^ 32 + i.acc * 2 ^ 40 + i.left * 2 ^ 42 + split * 2 ^ 46
      + gang % 2 ^ 16 * 2 ^ 48)
  , BitVec.ofNat 64 (i.fmask.toNat % 2 ^ 64)
  , BitVec.ofNat 64 (i.fmask.toNat / 2 ^ 64)
  , BitVec.ofNat 64 (token % 2 ^ 32) ]

/-- One record into the function's fault log; one whose slot cannot be written is dropped and not counted (20 R322, R328). -/
def State.log1 (s : State) (f : Nat) (ws : List Word) : State :=
  let n := (s.freg f 0xC30).toNat
  let base := s.ffield f 0xC20 47 0
  let counted := fun (s : State) => s.setFreg f 0xC30 (s.freg f 0xC30 + 1)
  if base = 0 then counted s
  else match s.deviceWrite f (base + 64 * (n % 2 ^ (s.ffield f 0xC28 3 0 + 6))) ws with
    | some t => counted t
    | none => s

/-- Where the next log record goes; 0 where no log is kept. -/
def State.logAddr (s : State) (f : Nat) : Nat :=
  let base := s.ffield f 0xC20 47 0
  if base = 0 then 0 else base + 64 * ((s.freg f 0xC30).toNat % 2 ^ (s.ffield f 0xC28 3 0 + 6))

/-- A record and its extension records into the log. -/
def State.logAll (s : State) (f : Nat) (ws : List Word) (exts : List (List Word)) : State :=
  exts.foldl (fun s x => s.log1 f x) (s.log1 f ws)

/-- Records into the fault queue, if it is enabled, has room and its slots can be written: the state, the index of the
first and the address of the second. -/
def State.queueFault (s : State) (f : Nat) (recs : List (List Word)) : Option (State × Nat × Nat) :=
  let pi := s.ffield f 0xC18 31 0
  let ci := s.ffield f 0xC18 63 32
  let size := 2 ^ (s.ffield f 0xC10 3 0 + 6)
  let base := s.ffield f 0xC08 47 0
  let at_ := fun i => base + 64 * ((pi + i) % size)
  if s.ffield f 0xC10 8 8 = 1 ∧ ringCount pi ci + recs.length ≤ size then
    let written := (List.range recs.length).foldl
      (fun (o : Option State) i => o.bind fun s => s.deviceWrite f (at_ i) (recs.getD i [])) (some s)
    written.map fun s =>
      ((s.setFreg f 0xC18 ((s.freg f 0xC18).put 31 0 ((pi + recs.length) % 2 ^ 32))).raiseVector f 0, pi, at_ 1)
  else none

/-! ### Partitions: ending, checkpoints, rollback (19 R304 to R311) -/

/-- Bytes of spawn memory of a record with `m` live-in registers (04 R92). -/
def recBytes (m : Nat) : Nat := (32 + 4 * m + 31) / 32 * 32

def recsBytes (rs : List SpawnRec) : Nat := (rs.map fun r => recBytes r.regs.length).sum

/-- Bytes reserved on a die for records of some gangs not accepted yet. -/
def pendingBytes (gangs : Store Gang) (d : Nat) : Nat :=
  (gangs.map fun q => if q.2.die = d then (q.2.splits.map fun r => recsBytes r.2.spawning).sum else 0).sum

/-- The largest group on a die that is no gang yet; of equals the one opened first (log 67). -/
def State.largestGroup (s : State) (d : Nat) : Option Nat :=
  ((s.groups.filter fun q => q.2.die == d && !q.2.formed).foldl (fun (b : Option (Nat × Nat)) q =>
    if b.all fun x => decide (x.2 < q.2.recs.length) then some (q.1, q.2.recs.length) else b) none).map (·.1)

/-- Chafer, once occupancy has reached 3 MiB, forms the next gang of the die, until occupancy is below 2 MiB (04 R93): one at
each acceptance, freeing and forming event (log 67). -/
def State.drain (s : State) (d : Nat) : State :=
  if !s.draining.contains d then s
  else if Store.get 0 s.spawnUsed d < 2 * 2 ^ 20 then { s with draining := s.draining.filter (· != d) }
  else match s.largestGroup d with
    | some n => { s with groups := Store.update s.groups n fun x => { x with formed := true } }
    | none => s

/-- Occupancy of 3 MiB on some dies starts the forming of gangs (04 R93). -/
def State.occupied (s : State) (dies : List Nat) : State :=
  dies.foldl (fun s d =>
    State.drain (if 3 * 2 ^ 20 ≤ Store.get 0 s.spawnUsed d ∧ !s.draining.contains d then { s with draining := d :: s.draining } else s) d) s

/-- Spawn memory holds the groups and the records not accepted yet, those of saved partitions too (01 R17; 04 R92). -/
def State.recount (s : State) : State :=
  let used := fun d =>
    (s.groups.map fun q => if q.2.die = d then recsBytes q.2.recs else 0).sum + pendingBytes s.gangs d
      + (s.fns.map fun q => match q.2.saved with
          | some x => pendingBytes x.gangs d
          | none => 0).sum
  State.occupied { s with spawnUsed := (List.range 8).foldl (fun u d => Store.set 0 u d (used d)) [] } (List.range 8)

def Ckpt.without (k : Ckpt) (p : Nat → Bool) : Ckpt :=
  { k with
    gangs := k.gangs.filter fun q => !p q.2.launch
    teams := k.teams.filter fun q => !p q.2.launch
    groups := k.groups.filter fun q => !p q.2.launch
    copies := k.copies.filter fun q => !p q.2.launch
    mats := k.mats.filter fun q => !p q.2.launch }

def Saved.without (k : Saved) (p : Nat → Bool) : Saved :=
  { k with
    gangs := k.gangs.filter fun q => !p q.2.launch
    teams := k.teams.filter fun q => !p q.2.launch
    copies := k.copies.filter fun q => !p q.2.launch
    mats := k.mats.filter fun q => !p q.2.launch }

/-- Forget what runs of the launches a predicate picks, here, saved or in a checkpoint: gangs, teams, spawn groups and engine
operations (20 R322; 18 R296). -/
def State.killLaunches (s : State) (p : Nat → Bool) : State :=
  let dead := (s.gangs.filter fun q => p q.2.launch).map (·.1)
  State.recount { s with
    cur := match s.cur with
      | some (g, sp) => if dead.contains g then none else some (g, sp)
      | none => none
    gangs := s.gangs.filter fun q => !p q.2.launch
    teams := s.teams.filter fun q => !p q.2.launch
    groups := s.groups.filter fun q => !p q.2.launch
    copies := s.copies.filter fun q => !dead.contains q.2.g
    mats := s.mats.filter fun q => !dead.contains q.2.g
    gathers := s.gathers.filter fun q => !dead.contains q.2.g
    nets := s.nets.filter fun q => !dead.contains q.2.g
    remotes := s.remotes.filter fun q => !dead.contains q.g
    fns := s.fns.map fun (q : Nat × Fn) =>
      (q.1, { q.2 with ckpt := q.2.ckpt.map fun k => k.without p, saved := q.2.saved.map fun k => k.without p }) }

/-- A launch ends with a completion status: its gangs end without saving; its record is written at its completion. -/
def State.stopLaunch (s : State) (l status code addr : Nat) : State :=
  let s := { s with launches := Store.update s.launches l fun x =>
    { x with todo := [], ended := some (x.ended.getD (status, code, addr)) } }
  s.killLaunches (· == l)

/-- End every running launch of a function (19 R308). -/
def State.endAll (s : State) (f status code addr : Nat) : State :=
  (s.launches.filter fun q => q.2.fn == f).foldl (fun s q => s.stopLaunch q.1 status code addr) s

def State.gangsOf (s : State) (f : Nat) : Store Gang := s.gangs.filter fun q => q.2.fn == f
def State.teamsOf (s : State) (f : Nat) : Store Team := s.teams.filter fun q => q.2.fn == f

/-- The number of a tile among the tiles, and the place of its element: element 1024 is its tag. -/
def tileNumber (team pair tile : Nat) : Nat := (team * 512 + pair) * 64 + tile
def tileKey (team pair tile e : Nat) : Nat := tileNumber team pair tile * 1025 + e

def tileTeam (k : Nat) : Nat := k / (512 * 64 * 1025)

def State.tilesOf (s : State) (teams : Store Team) : Store Lane32 :=
  s.tiles.filter fun q => (teams.find? (tileTeam q.1)).isSome

/-- The partition as it stands (19 R304). -/
def State.snapshot (s : State) (f : Nat) (k : Ckpt) : Ckpt :=
  let teams := s.teamsOf f
  { k with
    gangs := s.gangsOf f
    teams := teams
    tiles := s.tilesOf teams
    groups := s.groups.filter fun q => (s.launches.find? q.2.launch).any fun l => l.fn == f
    todo := (s.launches.filter fun q => q.2.fn == f).map fun q => (q.1, q.2.todo)
    copies := s.copies.filter fun q => q.2.fn == f && !q.2.committed
    mats := s.mats.filter fun q => q.2.fn == f
    gathers := s.gathers.filter fun q => q.2.fn == f
    remotes := s.remotes.filter fun r => r.op.any fun id => (s.gathers.find? id).any fun o => o.fn == f }

/-- Every register result that issued instructions owe the gangs of a function is written (19 R305). -/
def State.settleAll (s : State) (f : Nat) : State :=
  let settle := fun (s : State) (g sp : Nat) =>
    match s.cx? g sp with
    | some c => if c.P.late.isEmpty then s else c.settle.flush
    | none => s
  (s.gangsOf f).foldl (fun s q => q.2.splits.keys.foldl (fun s sp => settle s q.1 sp) s) s

/-- A mark is appended and the log starts afresh (19 R305, R308). -/
def State.mark (s : State) (f : Nat) : State :=
  if s.hasLog f then
    let s := s.settleAll f
    let x := s.fn f
    let old := x.ckpt.getD {}
    let (s, k) := s.logEntry f { old with seq := x.ckSeq + 1, undo := [], items := [], used := 0 } 0 0 0 false 0 []
    let k := s.snapshot f k
    let s := s.setFn f { x with ckpt := some k, ckSeq := x.ckSeq + 1, ckDue := false, logBad := false }
    let w := s.freg f 0xB40
    s.setFreg f 0xB40 (w.put 31 0 (w.field 31 0 + 1))
  else s

/-- What has just been done is committed and part of the checkpoint (19 R307): the partition's registers, teams and groups are taken
again. Tiles and the operations to be reissued stay those of the mark, for what is not committed of them is undone (19 R309). -/
def State.remark (s : State) (f : Nat) : State :=
  match (s.fn f).ckpt with
  | some k =>
    let now := s.snapshot f k
    let kept := { now with tiles := k.tiles, copies := k.copies, mats := k.mats, gathers := k.gathers, remotes := k.remotes }
    s.modFn f fun x => { x with ckpt := some kept }
  | none => s

/-- The split has issued an instruction whose results other agents owe it. -/
def Split.owed (P : Split) : Bool :=
  match P.wait with
  | some .remote => true
  | some (.net _) => true
  | some (.hostAtomic _) => true
  | _ => false

/-- A close waits for every instruction in progress and every cpyred of the partition (19 R305). -/
def State.closeWaits (s : State) (f : Nat) : Bool :=
  s.hasLog f &&
    ((s.copies.any fun q => q.2.fn == f && (match q.2.kind with | .reduce _ _ => true | _ => false))
      || (s.gangsOf f).any fun q => q.2.splits.any fun r => r.2.owed)

/-- Teams a launch has in all. -/
def Launch.teamCount (l : Launch) : Nat :=
  let w := l.entry.getD 3 0
  w.field 63 48 * w.field 47 32 * w.field 31 16

def State.pstat (s : State) (f : Nat) : Nat := s.ffield f 0xB38 2 0

/-- Set PSTAT, raising vector 3 (22 R347). -/
def State.setPstat (s : State) (f n : Nat) : State :=
  if s.pstat f = n then s else (s.setFreg f 0xB38 (BitVec.ofNat 64 n)).raiseVector f 3

/-- PSTAT shows a close of a running partition, and its end. -/
def State.closing (s : State) (f : Nat) : State := if s.hasLog f ∧ s.pstat f = 0 then s.setPstat f 1 else s
def State.closed (s : State) (f : Nat) : State := if s.pstat f = 1 then s.setPstat f 0 else s

/-- A close that must wait begins: the partition's quarters stop issuing its instructions. -/
def State.startClose (s : State) (f : Nat) : State :=
  let s := (s.closing f).modFn f fun x => { x with close := .waiting }
  { s with
    cur := s.cur.filter fun q => (s.gangs.find? q.1).all fun G => G.fn != f
    gangs := Store.mapVals s.gangs fun _ G =>
      if G.fn = f then { G with splits := Store.mapVals G.splits fun _ P => if P.midClause then { P with stalled := true } else P }
      else G }

/-- The bytes of a Mortar window. -/
def teamWindowKey (colourBytes : Nat) (t : Team) : Nat := keyOf (300 + t.die) (t.colour * colourBytes + 128 * t.line)

def State.windowBytes (s : State) (t : Team) : List (Nat × Byte) :=
  let base := teamWindowKey (s.fuse.colourBytes t.die) t
  (s.mem.filter fun q => decide (base ≤ q.1) && decide (q.1 < base + t.window)).map fun q => (q.1 - base, q.2)

/-- The partition leaves its cores: nothing of it runs, and operations that are not committed are cancelled. -/
def State.halt (s : State) (f : Nat) : State :=
  { s with
    cur := match s.cur with
      | some (g, sp) => if (s.gangs.find? g).any (fun (G : Gang) => G.fn == f) then none else some (g, sp)
      | none => none
    gangs := s.gangs.filter fun q => q.2.fn != f
    teams := s.teams.filter fun q => q.2.fn != f
    copies := s.copies.filter fun q => q.2.fn != f || q.2.committed
    mats := s.mats.filter fun q => q.2.fn != f
    gathers := s.gathers.filter fun q => q.2.fn != f
    remotes := s.remotes.filter fun r => !(r.op.isSome && r.op.any fun id =>
      (s.gathers.find? id).any (fun o => o.fn == f) || (s.mats.find? id).any (fun o => o.fn == f)
        || (s.copies.find? id).any fun o => o.fn == f && !o.committed)
    lineAsks := s.lineAsks.filter fun q => q.2.1 != f
    badTiles := s.badTiles.filter fun n => (s.teams.find? (n / (512 * 64))).all fun (t : Team) => t.fn != f
    tiles := s.tiles.filter fun q => (s.teams.find? (tileTeam q.1)).all fun (t : Team) => t.fn != f }

/-- What is saved is put aside and the partition holds nothing (09 R226; 19 R309, R310, R313). -/
def State.putAside (s : State) (f : Nat) (x : Saved) : State :=
  ((s.halt f).modFn f fun y => { y with saved := some x, rolling := false, undoing := [], close := .none }).setPstat f 4

/-- A partition saved by its exit routines: the tiles are not kept (01 R28). -/
def State.leave (s : State) (f : Nat) : State :=
  let gangs := s.gangsOf f
  let done := gangs.all fun q => !q.2.splits.isEmpty && q.2.splits.all fun r => r.2.saved
  if s.pstat f = 2 ∧ done then
    let teams := s.teamsOf f
    s.putAside f
      { hardware := false, gangs := gangs, teams := teams, tiles := []
        mortar := teams.map fun (q : Nat × Team) => (q.1, s.windowBytes q.2), copies := [], mats := [], gathers := [] }
  else s

/-- End a launch; a partition that was leaving its cores may have nothing left there (19 R313). -/
def State.endLaunch (s : State) (l status code addr : Nat) : State :=
  (s.stopLaunch l status code addr).leave ((s.launches.find? l).getD {}).fn

/-! ### Requests to other packages (22 R355, R356) -/

def isRemote (k : Nat) : Bool := decide (3 ≤ keySpace k) && decide (keySpace k < 300)

def State.umid (s : State) : Nat := (s.reg 0x50000).field 7 0

/-- A request to the package that holds a key (log 21: sizes below 8 bytes go in the mailbox field). -/
def State.request (s : State) (f kind key : Nat) (mbox : Nat) (payload : List Word) : Packet where
  dpkg := BitVec.ofNat 8 (keySpace key - 3)
  spkg := BitVec.ofNat 8 s.umid
  kind := BitVec.ofNat 4 kind
  sfunc := BitVec.ofNat 7 f
  dfunc := 0
  len := BitVec.ofNat 6 payload.length
  tag := BitVec.ofNat 24 s.handle
  mbox := BitVec.ofNat 16 mbox
  addr := BitVec.ofNat 48 (keyAddr key)
  payload := payload

/-- Send a request and remember it until its response. -/
def State.ask (s : State) (r : Remote) : State :=
  { s with remotes := s.remotes ++ [r], outbox := s.outbox ++ [r.packet], handle := s.handle + 1 }

/-- A request the device makes for itself. -/
def State.askPlain (s : State) (p : Packet) (key size : Nat) (write : Bool) : State :=
  s.ask { tag := p.tag.toNat, g := 0, sp := 0, size := size, write := write, op := some p.tag.toNat, va := 0, key := key, packet := p }

/-- Lines of other packages that are to be written and whose old contents the log does not hold (19 R306). -/
def State.unlogged (s : State) (f : Nat) (keys : List Nat) : List Nat :=
  match (s.fn f).ckpt with
  | none => []
  | some k => (((keys.filter isRemote).map (· / 128)).filter fun n => !(k.undo.any fun u => u.line == n)).eraseDups

/-- They are read first, once. -/
def State.askLines (s : State) (f : Nat) (lines : List Nat) : State :=
  lines.foldl (fun s n =>
    if s.lineAsks.any fun q => q.2 == (f, n) then s
    else
      let p := s.request f 1 (128 * n) 128 []
      { s.askPlain p (128 * n) 128 false with lineAsks := s.lineAsks ++ [(p.tag.toNat, f, n)] }) s

/-- A committed effect writes bytes that another package holds: their lines are marked in the log, no rollback writes the bytes,
and a read of a line under way that may not have seen them is made again (19 R307). -/
def State.commitAway (s : State) (f k n : Nat) : State :=
  let lines := linesOf k n
  let s := lines.foldl (fun s line => s.logCommit f 1 0 0 (128 * line)) s
  let skip := fun (u : UndoLine) => (List.range 128).filter fun i =>
    u.skip.contains i || (decide (k ≤ 128 * u.line + i) && decide (128 * u.line + i < k + n))
  let s := { s with lineAsks := s.lineAsks.filter fun q => !(q.2.1 == f && lines.contains q.2.2) }
  match (s.fn f).ckpt with
  | some c => s.modFn f fun x => { x with ckpt := some { c with undo := c.undo.map fun u => { u with skip := skip u } } }
  | none => s

/-- The words of the bytes of a line. -/
def lineWords (bs : List Byte) : List Word := (List.range 16).map fun i => BitVec.ofNat 64 (ofBytes ((bs.drop (8 * i)).take 8))

/-! ### Rollback (19 R309, R310) -/

/-- The pieces in which a line of another package is written back: first byte and bytes. Bytes that committed effects have written
are left out. -/
def UndoLine.pieces (u : UndoLine) : List (Nat × Nat) :=
  if u.skip = [] then [(0, 128)]
  else (List.range 16).flatMap fun j =>
    let bytes := (List.range 8).map (8 * j + ·)
    if bytes.all fun i => !u.skip.contains i then [(8 * j, 8)]
    else (bytes.filter fun i => !u.skip.contains i).map fun i => (i, 1)

/-- Undo the lines written since the mark, newest first; those of other packages by requests, to be answered. A line whose
package would not let it be read holds nothing to undo. -/
def State.undoLines (s : State) (f : Nat) (k : Ckpt) : State :=
  k.undo.foldl (fun s u =>
    if u.old = [] then s
    else if isRemote (128 * u.line) then
      u.pieces.foldl (fun s q =>
        let bytes := (u.old.drop q.1).take q.2
        let key := 128 * u.line + q.1
        let words := if q.2 = 128 then lineWords u.old else [BitVec.ofNat 64 (ofBytes bytes)]
        let p := s.request f 2 key (if q.2 = 8 then 0 else q.2) words
        (s.askPlain p key q.2 true).modFn f fun x => { x with undoing := x.undoing ++ [p.tag.toNat] }) s
    else (List.range 128).foldl (fun s i => s.writeByte f (128 * u.line + i) i (u.old.getD i 0)) s) s

/-- Tokens of the parked splits of some gangs. -/
def tokensOf (gangs : Store Gang) : List Nat :=
  gangs.flatMap fun q => q.2.splits.filterMap fun r =>
    match r.2.parked with
    | some (.fault p) => some p.token
    | _ => none

/-- Tokens that name a parked split: here, saved, or in a checkpoint. -/
def State.tokens (s : State) : List Nat :=
  tokensOf s.gangs ++ s.fns.flatMap fun q =>
    (match q.2.saved with
    | some x => tokensOf x.gangs
    | none => []) ++ (match q.2.ckpt with
    | some x => tokensOf x.gangs
    | none => [])

/-- RSTATE of the split's entry: 3 while it is parked (01 R14; 04 R89; 09 R221). -/
def Split.entryState (P : Split) : Nat := if P.parked.isSome then 3 else P.rstate

/-- A split-table entry as the device writes it (01 R14), with the PC and RSTATE it is to be restored with. -/
def Split.entryWords (P : Split) (index pc rstate : Nat) : List Word :=
  let act := (P.savedActive.getD P.active).toNat
  [ BitVec.ofNat 64 (rstate * 2 ^ 12 + P.wonly.toNat * 2 ^ 4 + index * 2 ^ 2 + (!P.spawning.isEmpty).toNat * 2 + 1), 0, 0
  , BitVec.ofNat 64 act, BitVec.ofNat 64 (act / 2 ^ 64 + P.member.toNat % 2 ^ 32 * 2 ^ 32)
  , BitVec.ofNat 64 (P.member.toNat / 2 ^ 32), BitVec.ofNat 64 P.region, BitVec.ofNat 64 pc ]

/-- A split's entry as the split table holds it now. -/
def Split.entryNow (P : Split) (index : Nat) : List Word :=
  Split.entryWords { P with savedActive := none } index P.pc P.entryState

/-- The predicate file as 12 bytes for each of p1 to p7. -/
def Gang.predBytes (G : Gang) : List Byte := (List.range 7).flatMap fun i => bytesOf 12 (G.pred (i + 1)).toNat

/-- Where the hardware save region holds the gang slot of a seat, and a pair of a cluster (19 R310; log 18). -/
def State.slotPlace (s : State) (f : Nat) (cls : List Nat) (cluster : Nat) (seat : Seat) : Nat :=
  let n := cls.idxOf cluster
  s.ffield f 0xB10 47 0 + 0x10000 * (n * s.clusterSlots + (seat.core * s.fuse.quarters + seat.quarter) * 8 + seat.slot)

def State.pairPlace (s : State) (f : Nat) (cls : List Nat) (pair : Nat) : Nat :=
  s.ffield f 0xB10 47 0 + 0x10000 * (cls.length * s.clusterSlots) + 0x40000 * (2 * cls.idxOf (pair / 2) + pair % 2)

/-- Where it holds the tags of a pair's tiles: at the end of the first slot of the pair's first core. -/
def State.tagPlace (s : State) (f : Nat) (cls : List Nat) (pair : Nat) : Nat :=
  s.slotPlace f cls (pair / 2) ⟨2 * (pair % 2), 0, 0⟩ + 0xFFC0

/-- Flags as a word, and back. -/
def flagWord (m : Store Bool) : Word := BitVec.ofNat 64 ((List.range 24).map fun i => if Store.get false m i then 2 ^ i else 0).sum
def flagsOf (w : Word) : Store Bool := (List.range 24).foldl (fun m i => Store.set false m i (w.getLsbD i)) []

/-- The words a slot holds of its gang's team (19 R310; log 18): points, rings, Weevil's nest. -/
def Team.words (t : Team) : List Word :=
  let n := t.nest
  let list := fun (xs : List Nat) => BitVec.ofNat 64 xs.length :: xs.map (BitVec.ofNat 64)
  ((List.range 24).map fun i =>
    let p := (t.points.find? i).getD {}
    BitVec.ofNat 64 (p.phase.toNat + p.expect % 2 ^ 24 * 2 ^ 8 + p.pending % 2 ^ 24 * 2 ^ 32))
  ++ ((List.range 8).map fun i =>
    let r := (t.rings.find? i).getD {}
    BitVec.ofNat 64 (r.pb.toNat + r.full.toNat * 2 ^ 16 + r.depth % 2 ^ 8 * 2 ^ 24 + r.ppos % 2 ^ 8 * 2 ^ 32 + r.cpos % 2 ^ 8 * 2 ^ 40))
  ++ [BitVec.ofNat 64 (match n.state with | .idle => 0 | .configured => 1 | .running => 2 | .finished => 3)
     , BitVec.ofNat 64 n.permits, BitVec.ofNat 64 n.roles, BitVec.ofNat 64 n.next]
  ++ list n.trips ++ list (n.opened.flatMap fun q => [q.1, q.2])
  ++ (List.range 3).flatMap fun i => let q := Store.get [] n.queues i; BitVec.ofNat 64 q.length :: q

/-- A counted list among words: the list, of at most 64 entries, and the words after it. -/
def takeList (ws : List Word) : List Word × List Word :=
  let n := min 64 (ws.headD 0).toNat
  ((ws.drop 1).take n, ws.drop (n + 1))

def wordPairs : List Word → List (Nat × Nat)
  | a :: b :: r => (a.toNat, b.toNat) :: wordPairs r
  | _ => []

/-- A team whose points, rings and nest are what a slot's words hold. -/
def Team.ofWords (t : Team) (ws : List Word) : Team :=
  let w := fun i => ws.getD i 0
  let points : Store Point := (List.range 24).foldl (fun (m : Store Point) i =>
    Store.set {} m i ⟨(w i).getLsbD 0, (w i).field 31 8, (w i).field 55 32⟩) []
  let rings : Store Ring := (List.range 8).foldl (fun (m : Store Ring) i =>
    let x := w (24 + i)
    Store.set {} m i ⟨BitVec.ofNat 16 x.toNat, x.getLsbD 16, x.field 31 24, x.field 39 32, x.field 47 40⟩) []
  let (trips, r) := takeList (ws.drop 36)
  let (opened, r) := takeList r
  let (q0, r) := takeList r
  let (q1, r) := takeList r
  let (q2, _) := takeList r
  let queues : Store (List Word) := [(0, q0), (1, q1), (2, q2)].filter fun q => !q.2.isEmpty
  let state : NestState := if w 32 = 0 then .idle else if w 32 = 1 then .configured else if w 32 = 2 then .running else .finished
  { t with points := points, rings := rings, nest :=
      { state := state, permits := (w 33).toNat, roles := (w 34).toNat, next := (w 35).toNat
        trips := trips.map (·.toNat), opened := wordPairs opened, queues := queues } }

/-- Words from a key. -/
def State.rawWords (s : State) (k n : Nat) : List Word := (List.range n).map fun i => s.rawWord (k + 8 * i)

/-- What a slot holds beside its gang's registers: the gang's flags, the handles of the operations to reissue for it, and its team's
state. -/
def Gang.extraWords (G : Gang) (ops : List Nat) (t : Team) : List Word :=
  [flagWord G.flags, flagWord G.ap, BitVec.ofNat 64 ops.length] ++ ops.map (BitVec.ofNat 64) ++ t.words

/-- A gang's operations that a saved partition reissues. -/
def Saved.reissues (x : Saved) (g : Nat) : List Nat :=
  (Store.keep x.copies fun _ o => o.g == g).keys ++ (Store.keep x.mats fun _ o => o.g == g).keys
    ++ (Store.keep x.gathers fun _ o => o.g == g).keys

/-- Write a gang's registers and split table to its slot: lane registers, predicates, then entry and scalars of each split. -/
def State.saveGang (s : State) (f : Nat) (cls : List Nat) (G : Gang) : State :=
  let at_ := s.slotPlace f cls G.cluster G.seat
  let s := (List.range G.vregs).foldl
    (fun s r => s.rawWrite (at_ + 384 * r) ((List.range 96).flatMap fun l => bytesOf 4 (G.vreg r l).toNat)) s
  let s := s.rawWrite (at_ + 0xC000) G.predBytes
  (List.range 4).foldl (fun s i =>
    let x := at_ + 0xC100 + 0x300 * i
    match G.splits.find? i with
    | none => s.rawWrite x (bytesOf 64 0)
    | some P => (s.rawWrite x ((P.entryNow i).flatMap fun w => bytesOf 8 w.toNat)).rawWrite (x + 0x40)
        ((List.range 61).flatMap fun n => bytesOf 8 (P.sreg n).toNat)) s

/-- A split as the hardware save region holds it. Its progress through its clause is the device's own (log 18): where the region
holds another PC it stands there at a header, and one that the region does not show parked is not. -/
def State.loadSplit (s : State) (x : Nat) (old : Option Split) : Option Split :=
  let w := fun j => s.rawWord (x + 8 * j)
  let kept := old.getD {}
  let pc := (w 7).toNat
  let state := (w 0).field 15 12
  if (w 0).field 0 0 = 0 then none
  else
    some { kept with
      pc := pc, region := (w 6).toNat, wonly := (w 0).field 4 4 == 1
      rstate := if state = 3 then kept.rstate else state
      parked := if state = 3 then kept.parked else none
      clause := if pc = kept.pc then kept.clause else none
      wait := if pc = kept.pc then kept.wait else none
      active := BitVec.ofNat 96 ((w 3).toNat + (w 4).field 31 0 * 2 ^ 64)
      member := BitVec.ofNat 96 ((w 4).field 63 32 + (w 5).toNat * 2 ^ 32)
      s := (List.range 60).foldl (fun m n => Store.set 0 m (n + 1) (w (9 + n))) [] }

/-- Whatever the region holds of a gang (19 R310). -/
def State.loadGang (s : State) (f : Nat) (cls : List Nat) (G : Gang) : Gang :=
  let at_ := s.slotPlace f cls G.cluster G.seat
  { G with
    v := (List.range (96 * G.vregs)).foldl (fun m i => Store.set 0 m i (BitVec.ofNat 32 (s.rawRead (at_ + 4 * i) 4))) []
    p := (List.range 7).foldl (fun m i => Store.set 0 m (i + 1) (BitVec.ofNat 96 (s.rawRead (at_ + 0xC000 + 12 * i) 12))) []
    splits := (List.range 4).filterMap fun i =>
      (s.loadSplit (at_ + 0xC100 + 0x300 * i) (G.splits.find? i)).map fun P => (i, P) }

/-! ### Effects on splits wherever they are kept -/

/-- The function in whose saved partition or checkpoint a gang is kept. -/
def State.keeper (s : State) (g : Nat) : Option (Nat × Fn) :=
  List.find? (fun (q : Nat × Fn) => (q.2.saved.any fun x => (x.gangs.find? g).isSome)
    || (q.2.ckpt.any fun x => (x.gangs.find? g).isSome)) s.fns

/-- An effect on a split of some gangs that are not on cores: the state it leaves, with the cores' gangs as they were, and those
gangs. -/
def State.onGangs (s : State) (gangs : Store Gang) (g sp : Nat) (k : Cx → State) : State × Store Gang :=
  let u := ({ s with gangs := gangs } : State).onSplit g sp k
  ({ u with gangs := s.gangs, cur := s.cur }, u.gangs)

/-- The gangs of a checkpoint become these. -/
def State.setCkptGangs (s : State) (f : Nat) (gangs : Store Gang) : State :=
  s.modFn f fun x => { x with ckpt := x.ckpt.map fun c => { c with gangs := gangs } }

/-- The effect in the checkpoint that a rollback returns to too, of a split that is kept elsewhere: records and counts are made
once. -/
def State.onCkpt (s t : State) (f g sp : Nat) (k : Cx → State) : State :=
  match (t.fn f).ckpt with
  | some c => t.setCkptGangs f (s.onGangs c.gangs g sp k).2
  | none => t

/-- An effect of the machine on one split wherever it is kept: on its core, in a saved partition, whose save region shows it
(19 R310), or, while a rollback is under way, in the checkpoint alone; and in the checkpoint that a rollback returns to, for the
effect is committed (19 R307). -/
def State.onKept (s : State) (g sp : Nat) (k : Cx → State) : State :=
  match s.gangs.find? g with
  | some G => s.onCkpt (s.onSplit g sp k) G.fn g sp k
  | none =>
    match s.keeper g with
    | none => s
    | some (f, x) =>
      match x.saved, x.ckpt with
      | none, none => s
      | none, some c =>
        let (t, gangs) := s.onGangs c.gangs g sp k
        t.setCkptGangs f gangs
      | some y, _ =>
        let held := if y.hardware then Store.update y.gangs g (s.loadGang f y.clusters) else y.gangs
        let (t, gangs) := s.onGangs held g sp k
        let t := match y.hardware, gangs.find? g with
          | true, some G => t.saveGang f y.clusters G
          | _, _ => t
        s.onCkpt (t.modFn f fun z => { z with saved := z.saved.map fun y => { y with gangs := gangs } }) f g sp k

/-- A tile's element, or its tag, among some tiles; what nothing has written is free (06 R135). -/
def tileWord (tiles : Store Lane32) (n e : Nat) : Lane32 :=
  let pair := n / 64 % 512
  let team := n / (64 * 512)
  (tiles.find? (n * 1025 + e)).getD (if e = 1024 then (if Config.tileIsT32 team pair (n % 64) then 1 else 0)
    else Config.tileBits team pair (n % 64) e)

/-- Write a tile of a team to its pair's place. -/
def State.saveTile (s : State) (f : Nat) (cls : List Nat) (tiles : Store Lane32) (n : Nat) : State :=
  let pair := n / 64 % 512
  let e := tileWord tiles n
  (s.rawWrite (s.pairPlace f cls pair + 4096 * (n % 64)) ((List.range 1024).flatMap fun i => bytesOf 4 (e i).toNat)).rawWrite
    (s.tagPlace f cls pair + n % 64) (bytesOf 1 (e 1024).toNat)

/-- The numbers of the tiles that some gangs of teams hold. -/
def tilesHeld (gangs : Store Gang) (teams : Store Team) : List Nat :=
  (gangs.flatMap fun q =>
    (List.range ((teams.find? q.2.team).getD {}).tiles).map fun i => tileNumber q.2.team (2 * q.2.cluster + q.2.seat.core / 2) i).eraseDups

/-- Write what a slot holds beside its gang's registers. -/
def State.saveExtra (s : State) (f : Nat) (x : Saved) (g : Nat) (G : Gang) : State :=
  s.rawWrite (s.slotPlace f x.clusters G.cluster G.seat + 0xCD00)
    ((G.extraWords (x.reissues g) ((x.teams.find? G.team).getD {})).flatMap fun w => bytesOf 8 w.toNat)

/-- The full save of a partition (19 R310). -/
def State.saveRegion (s : State) (f : Nat) (x : Saved) : State :=
  (tilesHeld x.gangs x.teams).foldl (fun s n => s.saveTile f x.clusters x.tiles n)
    (x.gangs.foldl (fun s q => (s.saveGang f x.clusters q.2).saveExtra f x q.1 q.2) s)

/-- Steps 3 to 5 of the rollback: the partition of the mark is saved whole. Teams placed since the mark return to their
launches; the log goes on from the mark. -/
def State.finishRollback (s : State) (f : Nat) (k : Ckpt) : State :=
  let k := k.without fun l => (s.launches.find? l).all fun x => x.completed
  let fresh : Store Launch := s.launches.map fun (q : Nat × Launch) =>
    if q.2.fn == f && q.2.ended.isNone then
      (q.1, { q.2 with todo := (k.todo.find? q.1).getD (List.range q.2.teamCount) })
    else q
  let dead := (Store.keep s.launches fun _ l => l.fn == f).keys
  let s := { s with
    launches := fresh
    groups := k.groups.foldl (fun (m : Store Group) (q : Nat × Group) => Store.put m q.1 q.2) (s.groups.filter fun q => !dead.contains q.2.launch) }
  let back := k.used - 32
  let size := max (s.logBytes f) 1
  let s := s.modFn f fun x => { x with ckpt := some { k with
    undo := [], items := [], used := 32, logPos := (k.logPos + size - back % size) % size } }
  let w := s.freg f 0xB40
  let s := s.setFreg f 0xB40 (w.put 63 32 (w.field 63 32 + 1))
  let x : Saved :=
    { hardware := true, clusters := s.clustersOf f, gangs := k.gangs, teams := k.teams, tiles := k.tiles
      mortar := k.teams.map fun (q : Nat × Team) => (q.1, s.windowBytes q.2)
      copies := k.copies, mats := k.mats, gathers := k.gathers, remotes := k.remotes }
  ((s.saveRegion f x).putAside f x).recount

/-- An imprecise record of a function: log only (20 R323). -/
def State.logImprecise (s : State) (f lid code elem addr : Nat) : State :=
  s.log1 f (recordWords f lid 0 0 0 false false
    { code := code, orig := 0, addr := addr, acc := 0, elem := elem, fmask := 0, lane := 127, pc := 0, hdr := 0, left := 0
      exts := [] })

/-- The log since the mark holds an uncorrectable error (19 R308; 20 R327). -/
def State.logPoisoned (s : State) (f : Nat) (k : Ckpt) : Bool :=
  let size := max (s.logBytes f) 1
  let first := k.logPos + size - k.used % size
  (s.fn f).logBad || s.poison.any fun p =>
    let a := 32 * p.1 - s.logBase f
    decide (s.logBase f ≤ 32 * p.1) && decide (a < size) && decide ((a + size - first % size) % size < k.used)

/-- A rollback returns to the mark; where the host drives it, it writes the lines itself (19 R315). With an uncorrectable
error in the log it ends every launch instead, and where a pre-emption `asked` for it the partition is left empty, as saved
(19 R308). -/
def State.rollback (s : State) (f : Nat) (asked : Bool) : State :=
  match (s.fn f).ckpt with
  | some k =>
    if s.logPoisoned f k then
      let at_ := s.logAddr f
      let s := (s.logImprecise f 0 0x11 9 (s.logBase f)).endAll f 3 0x11 at_
      if asked then s.putAside f {} else s.setPstat f 0
    else
      let s := (s.setPstat f 3).halt f
      if (s.fn f).mode / 4 % 2 = 1 then (s.modFn f fun x => { x with rolling := true }).raiseVector f 3
      else
        let s := s.undoLines f k
        if (s.fn f).undoing.isEmpty then s.finishRollback f k else s
  | none => s

/-- A failed exit routine, or an error the partition rolls back for: with checkpoints a rollback, without them every
launch ends with the code (19 R308, R309). One that meets a close follows it (19 R314). -/
def State.rollbackFor (s : State) (f code addr : Nat) : State :=
  if s.pstat f = 3 then s
  else if s.stopped f then s.modFn f fun x => { x with rollDue := some (x.rollDue.getD (code, addr)) }
  else if s.hasLog f ∧ (s.fn f).ckpt.isSome then s.rollback f false
  else (s.endAll f 3 code addr).setPstat f 0

/-! ### Taking a fault (09 R224, R230, R231; 20 R321 to R323) -/

/-- What a split's fault reports of its place. -/
def Cx.faultAt (c : Cx) (code : Nat) : FaultInfo :=
  { code := code, orig := 0, addr := 0, acc := 0, elem := 0, fmask := 0, lane := 127, pc := c.P.pc
    hdr := match c.P.clause with | some cl => cl.hdr | none => c.P.pc
    left := match c.P.clause with | some cl => cl.stop - cl.pos - 1 | none => 0
    exts := [] }

/-- Position of a gang's slot among the function's (log 22). -/
def Gang.slotNumber (G : Gang) : Nat := ((G.cluster * 4 + G.seat.core) * 4 + G.seat.quarter) * 8 + G.seat.slot

def State.launchOf (s : State) (G : Gang) : Launch := (s.launches.find? G.launch).getD {}

/-- LID of a launch (18 R292). -/
def Launch.lid (l : Launch) : Nat := (l.entry.getD 0 0).field 31 0
def Launch.agent (l : Launch) : Nat := (l.entry.getD 4 0).field 32 17

/-- A token that names no parked split (20 R321: chosen by the device; log 14). -/
def freshFrom (used : List Nat) : Nat → Nat → Nat
  | 0, n => n
  | fuel + 1, n => if used.contains n then freshFrom used fuel (n + 1) else n

def State.freeToken (s : State) : Nat :=
  let t := (Config.freeValue s.tick).toNat % 2 ^ 32
  if t ≠ 0 ∧ !s.tokens.contains t then t else freshFrom s.tokens s.tokens.length 1

/-- A level-0 entry with V = 0 and DZ = 1 (20 R323). -/
def State.demandZeroFrom (s : State) (f va : Nat) : Nat → Nat → Option Nat
  | level, table =>
    let a := table + 8 * (va / 2 ^ (12 + 9 * level) % 512)
    let e := s.rawWord a
    match level with
    | 0 => if e.field 0 0 == 0 && e.field 7 7 == 1 then some a else none
    | l + 1 => if e.field 0 0 == 1 && !pteLeaf e then s.demandZeroFrom f va l (e.field 47 12 * 4096) else none

def State.demandZero (s : State) (f va : Nat) : Option Nat :=
  if va < 2 ^ 48 then s.demandZeroFrom f va 3 (s.ffield f 0xC00 47 12 * 4096) else none

def resumable (code : Nat) : Bool :=
  [0x05, 0x06, 0x0A, 0x0B, 0x0C, 0x11, 0x20, 0x21].contains code

/-- Whether the page of a failing address is host memory behind a port in CXL mode (20 R324). -/
def State.cxlPage (s : State) (f va : Nat) : Bool :=
  match s.walk f va with
  | .ok w => (keySpace w.key == 1 || keySpace w.key == 2) && s.ports.getD (keySpace w.key - 1) none == some .cxl
  | .fault _ => false

/-- Whether the device itself services the fault (20 R323). -/
def State.serviced (s : State) (f mode : Nat) (i : FaultInfo) : Bool :=
  if i.code = 0x0C then
    mode / 8 % 2 == 0 && mode % 2 == 0 && !i.unsure && i.exts.all fun x => s.cxlPage f (x.getD 1 0).toNat
  else mode % 2 == 0 &&
    ((i.code == 0x05 && (s.demandZero f i.addr).isSome && decide (s.ffield f 0xC68 31 0 ≠ 0))
      || i.code == 0x0A || i.code == 0x0B)

/-- Park a split for a fault. Its gang keeps its quarter, though all its splits may be parked (log 84). -/
def Cx.park (c : Cx) (s : State) (p : Park) : State :=
  let c := { c with s := s, P := { c.P with parked := some p, wait := none, stalled := true, late := [] } }
  { c.flush with cur := if s.cur == some (c.g, c.sp) then none else s.cur
                 gangs := c.s.gangs.put c.g (({ c.G with splits := c.G.splits.put c.sp c.P } : Gang).unyield c.sp) }

/-- Take the fault `i` of the context's split. In an exit routine it becomes XFLT and rolls the partition back; a code that
is not resumable is logged and ends the launch; a resumable one is logged and parks the split under a new token, through
the fault queue unless the device services it; without room in the queue the instruction has not issued and waits. -/
def Cx.takeFault (c : Cx) (i : FaultInfo) : State :=
  let c := c.settle
  let f := c.G.fn
  let l := c.s.launchOf c.G
  let s := if i.code = 0x0C then c.s.count f 0xD40 else c.s
  let words := fun token precise resum i => recordWords f l.lid c.G.slotNumber c.sp token precise resum i
  let stopped := { c with s := s }.flush
  if c.P.rstate = 1 then
    let x := { i with code := 0x0E, orig := i.code, exts := [] }
    let s := { stopped.count f 0xD48 with cur := none }
    let at_ := s.logAddr f
    (s.logAll f (words 0 false false x) []).rollbackFor f 0x0E at_
  else if !resumable i.code then
    let at_ := stopped.logAddr f
    let s := stopped.logAll f (words 0 true false i) i.exts
    s.endLaunch c.G.launch 3 i.code at_
  else
    let token := s.freeToken
    let ws := words token true true i
    let s := { s with tick := s.tick + 1 }
    let at_ := s.logAddr f
    let park := fun hw q e => Park.fault { token := token, info := i, logAt := at_, queued := q, hardware := hw, extAt := e }
    if s.serviced f (s.fn f).mode i then
      { c with s := s }.park ((s.logAll f ws i.exts)) (park true none none)
    else match (s.logAll f ws i.exts).queueFault f (ws :: i.exts) with
      | some (s', n, e) => { c with s := s' }.park s' (park false (some n) (some e))
      | none => c.waitFor (.faultQueue i)

/-- A fault with a code alone (02 R46, R49). -/
def Cx.fault (c : Cx) (code : Nat) : State := c.takeFault (c.faultAt code)

def Cx.illop (c : Cx) : State := c.fault 0x01

/-- A fault at an address of a lane. -/
def Cx.faultAddr (c : Cx) (code addr lane : Nat) (acc : Acc) : State :=
  c.takeFault { c.faultAt code with addr := addr, lane := lane, acc := acc.code, fmask := maskOfList [lane] }

/-! ### Returning from a fault (20 R322) -/

/-- Where a resumed split goes on (09 R230): after a trap or a break the next instruction, after an ATOMNS the next
clause, else the faulting instruction. -/
def Cx.returnFault (c : Cx) (i : FaultInfo) : State :=
  let c := { c with P := { c.P with parked := none, wait := none } }
  let running := c.s.cur
  let s := if i.code = 0x20 ∨ i.code = 0x21 ∨ i.code = 0x0C then c.retire
    else { c.flush with cur := none }
  { s with cur := running }

/-! ### Instructions that close their region (09 R220, 19 R305) -/

/-- An exit routine must not execute the instruction (09 R224). -/
def Cx.outsideExit (c : Cx) (k : State) : State := if c.P.rstate = 1 then c.fault 0x00 else k

/-- The effect of an irrevocable instruction in a state whose mark stands: it belongs to the checkpoint. -/
def Cx.perform (c : Cx) (s : State) (k : Cx → State) : State := (k (c.reload s)).remark c.G.fn

/-- Perform an irrevocable effect at a checkpoint close: its checks have passed; the effect, which includes going on to the
next clause, belongs to the checkpoint; the next clause must open with a region marker. A close under way is joined. -/
def Cx.commit (c : Cx) (k : Cx → State) : State :=
  let f := c.G.fn
  match (c.s.fn f).close with
  | .waiting => c.waitFor .checkpoint
  | .performing => c.settle.perform c.settle.flush k
  | .none =>
    if c.s.closeWaits f then (c.waitFor .checkpoint).startClose f
    else (c.settle.perform ((c.settle.flush.closing f).mark f) k).closed f

end Sys2Proof.Machine
end

