-- ==== Sys2Proof/Machine/Operands.lean ====
section
/-!
DEFINITION. Operands: elements within registers (02 R49, R50), special sources (02 R53), immediates (02 R54), and the ways
a form takes its sources and writes its result: scalar (05 R109), per lane and per element (05 R108), predicates.
-/

namespace Sys2Proof

/-- Register number of a scalar operand, and of a vector operand. -/
def Operand.sNum : Operand → Nat
  | .s n => n.toNat
  | _ => 0
def Operand.vNum : Operand → Nat
  | .v n => n.toNat
  | _ => 0

end Sys2Proof

namespace Sys2Proof.Machine

/-! ### Elements -/

/-- Element `e` of an operand value. -/
def elem (t : ETy) (x e : Nat) : Nat := x / 2 ^ (t.stride * e) % 2 ^ t.width

/-- An operand value from its elements; the bits of a container above its element are 0 (03 R72). -/
def ofElems (t : ETy) (f : Nat → Nat) : Nat := ((List.range t.count).map fun e => f e % 2 ^ t.width * 2 ^ (t.stride * e)).sum

/-- The operand value with one element replaced. -/
def setElem (t : ETy) (x e v : Nat) : Nat :=
  let lo := 2 ^ (t.stride * e)
  x - x / lo % 2 ^ t.stride * lo + v % 2 ^ t.width * lo

/-! ### Special sources (02 R53) -/

/-- The constants 0xC0 and 0xD0 to 0xE6 as an element of a type; .b types as the signed type of their width. -/
def constElem (t : ETy) (x : Special) : Nat :=
  let w := t.width
  if t.isFloat then
    let int := fun (n : Int) => ofIntCode t n
    match x with
    | .int n => int n.toNat
    | .one => int 1
    | .m1 => int (-1)
    | .two => int 2
    | .half => roundParts t false 1 (-1) false
    | .max => if t.isTapered then 2 ^ (w - 1) - 1 else ieeeInf t - 1
    | .min => 1
    | .nar => invalidCode t
    | _ => 0
  else
    match x with
    | .int n => n.toNat
    | .one => 1
    | .m1 => 2 ^ w - 1
    | .two => 2
    | .max => if t.isUnsigned then 2 ^ w - 1 else 2 ^ (w - 1) - 1
    | .min => 1
    | .nar => if t.isUnsigned then 0 else 2 ^ (w - 1)
    | _ => 0

/-- Team coordinates; a gang that Chafer formed reads 0xFFFF_FFFF (04 R94). -/
def Cx.teamCoord (c : Cx) (f : Team → Nat) : Nat :=
  match c.s.teams.find? c.G.team with
  | some t => if t.index.isNone && c.G.role == .none then 0xFFFFFFFF else f t
  | none => 0

/-- The machine values 0xC1 to 0xCB in a lane. -/
def Cx.machineValue (c : Cx) (x : Special) (l : Nat) : Nat :=
  match x with
  | .lane => l
  | .lslice => l / 8
  | .beatlane => l % 32
  | .split => c.sp
  | .gang => c.G.num
  | .teamx => c.teamCoord (·.x)
  | .teamy => c.teamCoord (·.y)
  | .teamz => c.teamCoord (·.z)
  | .thread => 96 * c.G.num + l
  | .core => 4 * c.G.cluster + c.G.seat.core
  | .quarter => c.G.seat.quarter
  | _ => 0

/-- A special source as a lane's operand value: machine values modulo the element width in every element, or whole in a
64-bit type; constants in every element. -/
def Cx.specialVec (c : Cx) (x : Special) (t : ETy) (l : Nat) : Nat :=
  ofElems t fun _ => if x.isMachine then c.machineValue x l else constElem t x

/-! ### Sources -/

/-- A lane's value of a vector-form source: 32 bits, or 64 of a pair type. -/
def Cx.vsrc (c : Cx) (o : Operand) (t : ETy) (l : Nat) : Nat :=
  match o with
  | .v n => if t.is64 then (c.vreg n.toNat l).toNat + 2 ^ 32 * (c.vreg (n.toNat + 1) l).toNat else (c.vreg n.toNat l).toNat
  | .s n => if t.is64 then (c.sreg n.toNat).toNat else (c.sreg n.toNat).toNat % 2 ^ 32
  | .x k => c.specialVec k t l

/-- A scalar-form source read in a type: its low w bits (05 R109). -/
def Cx.ssrc (c : Cx) (o : Operand) (t : ETy) : Nat :=
  match o with
  | .v _ => 0
  | .s n => (c.sreg n.toNat).toNat % 2 ^ t.width
  | .x k => if k.isMachine then c.machineValue k 0 % 2 ^ t.width else constElem t k

/-- A vector register operand lies below V, with its odd half if it is a pair (01 R19, 02 R50). -/
def Cx.fits (c : Cx) (o : Operand) (t : ETy) : Bool :=
  match o with
  | .v n => n.toNat + (if t.is64 then 1 else 0) < c.G.vregs
  | _ => true

/-- `n` registers from a vector register lie below V. -/
def Cx.fitsN (c : Cx) (o : Operand) (n : Nat) : Bool :=
  match o with
  | .v r => decide (r.toNat + n ≤ c.G.vregs)
  | _ => true

/-- Element e of a 16-bit immediate read in a type (02 R54). -/
def immElem (t : ETy) (imm : BitVec 16) (e : Nat) : Nat :=
  let x := imm.toNat
  match t with
  | .t4 => bitsN x (4 * (e % 4) + 3) (4 * (e % 4))
  | .t6 => bitsN x (8 * (e % 2) + 5) (8 * (e % 2))
  | .t8 | .i8 | .n8 => bitsN x (8 * (e % 2) + 7) (8 * (e % 2))
  | .t16 | .bf16 | .fp16 | .i16 | .n16 => x
  | .t32 | .fp32 => x * 2 ^ 16
  | .i32 => wrapInt 32 (signedOf 16 x)
  | .i64 => wrapInt 64 (signedOf 16 x)
  | .n32 | .n64 | .b32 | .b64 => x

/-- The immediate as an operand value of every lane. -/
def immValue (t : ETy) (imm : BitVec 16) : Nat := ofElems t (immElem t imm)

/-! ### Results -/

/-- Extend a w-bit scalar result to its register: signed for .i32 (05 R109). -/
def extendS (t : ETy) (x : Nat) : Word :=
  if t = .i32 then BitVec.ofNat 64 (wrapInt 64 (signedOf 32 x)) else BitVec.ofNat 64 (x % 2 ^ t.width)

/-- Write a scalar form's result and go on. -/
def Cx.scalar (c : Cx) (t : ETy) (dst : Operand) (x : Nat) : State := (c.setS dst.sNum (extendS t x)).retire

/-- Write a word to a scalar destination and go on. -/
def Cx.scalarWord (c : Cx) (dst : Operand) (w : Word) : State := (c.setS dst.sNum w).retire

/-- Lane-register writes of an operand value in each lane of a mask; `pair`: two registers. -/
def laneWrites (m : Mask) (r : Nat) (pair : Bool) (f : Nat → Nat) : List (Nat × Lane32) :=
  (lanesOf m).flatMap fun l =>
    let x := f l
    if pair then [(96 * r + l, BitVec.ofNat 32 x), (96 * (r + 1) + l, BitVec.ofNat 32 (x / 2 ^ 32))]
    else [(96 * r + l, BitVec.ofNat 32 x)]

/-- A vector form: sources checked against V, each included lane's result computed and written (05 R108). -/
def Cx.vector (c : Cx) (k : Ctl) (t : ETy) (dst : Operand) (srcs : List (Operand × ETy)) (f : Nat → Nat) : State :=
  if !(c.fits dst t && srcs.all fun q => c.fits q.1 q.2) then c.illop
  else (c.deliver { left := 0, vs := laneWrites (c.included k) dst.vNum t.is64 f, ss := [], ps := [] }).retire

/-- As `vector`, for a long-latency form (02 R51). -/
def Cx.vectorL (c : Cx) (k : Ctl) (t : ETy) (dst : Operand) (srcs : List (Operand × ETy)) (f : Nat → Nat) : State :=
  if !(c.fits dst t && srcs.all fun q => c.fits q.1 q.2) then c.illop
  else (c.results k { left := 0, vs := laneWrites (c.included k) dst.vNum t.is64 f, ss := [], ps := [] }).retire

/-- An element-wise form of one, two or three sources of its own type. -/
def Cx.elems1 (c : Cx) (f : Tri) (op : Nat → Nat) : State :=
  c.vector f.ctl f.ty f.dst [(f.a, f.ty)] fun l =>
    let a := c.vsrc f.a f.ty l
    ofElems f.ty fun e => op (elem f.ty a e)

def Cx.elems2 (c : Cx) (f : Tri) (op : Nat → Nat → Nat) : State :=
  c.vector f.ctl f.ty f.dst [(f.a, f.ty), (f.b, f.ty)] fun l =>
    let a := c.vsrc f.a f.ty l
    let b := c.vsrc f.b f.ty l
    ofElems f.ty fun e => op (elem f.ty a e) (elem f.ty b e)

def Cx.elems3 (c : Cx) (f : Tri) (op : Nat → Nat → Nat → Nat) : State :=
  c.vector f.ctl f.ty f.dst [(f.a, f.ty), (f.b, f.ty), (f.c, f.ty)] fun l =>
    let a := c.vsrc f.a f.ty l
    let b := c.vsrc f.b f.ty l
    let d := c.vsrc f.c f.ty l
    ofElems f.ty fun e => op (elem f.ty a e) (elem f.ty b e) (elem f.ty d e)

/-- An element-wise form of a source and the immediate. -/
def Cx.elemsImm (c : Cx) (f : Imm) (op : Nat → Nat → Nat) : State :=
  c.vector f.ctl f.ty f.dst [(f.a, f.ty)] fun l =>
    let a := c.vsrc f.a f.ty l
    let b := immValue f.ty f.imm
    ofElems f.ty fun e => op (elem f.ty a e) (elem f.ty b e)

/-- Write a predicate in the included lanes from a per-lane outcome, and go on. -/
def Cx.predicate (c : Cx) (k : Ctl) (dst : Operand) (srcs : List (Operand × ETy)) (f : Nat → Bool) : State :=
  if !(srcs.all fun q => c.fits q.1 q.2) then c.illop
  else
    let m := c.included k
    (c.setP dst.vNum (maskOf fun l => m.getLsbD l && f l) m).retire

/-- All, or with `any` some, of a lane's elements (05 R111). -/
def overElems (t : ETy) (any : Bool) (f : Nat → Bool) : Bool :=
  if any then (List.range t.count).any f else (List.range t.count).all f

/-- A scalar source read as a 64-bit unsigned integer (04 R81). -/
def Cx.src64 (c : Cx) (o : Operand) : Word := BitVec.ofNat 64 (c.ssrc o .n64)

end Sys2Proof.Machine
end

