-- ==== Sys2Proof/Machine/Lanes.lean ====
section
/-!
DEFINITION. Predicates, votes and ballots (04 R100, R101), shuffles (04 R103), scans and reductions across lanes (04 R104;
03 R78 to R80).
-/

namespace Sys2Proof.Machine

/-! ### Predicates and votes -/

/-- Write a predicate in the included lanes and go on. -/
def Cx.setPred (c : Cx) (f : Tri) (x : Mask) : State := (c.setP f.dst.vNum x (c.included f.ctl)).retire

def Cx.predA (c : Cx) (f : Tri) : Mask := c.G.pred f.a.vNum
def Cx.predB (c : Cx) (f : Tri) : Mask := c.G.pred f.b.vNum

def execPand (f : Tri) (s : State) : Outcome := s.issue fun c => c.setPred f (c.predA f &&& c.predB f)
def execPor (f : Tri) (s : State) : Outcome := s.issue fun c => c.setPred f (c.predA f ||| c.predB f)
def execPxor (f : Tri) (s : State) : Outcome := s.issue fun c => c.setPred f (c.predA f ^^^ c.predB f)
def execPandn (f : Tri) (s : State) : Outcome := s.issue fun c => c.setPred f (c.predA f &&& ~~~(c.predB f))
def execPmov (f : Tri) (s : State) : Outcome := s.issue fun c => c.setPred f (c.predA f)

/-- Three scalar sources, 32 lanes from each. -/
def execPfroms (f : Tri) (s : State) : Outcome :=
  s.issue fun c => c.setPred f (maskOf fun l =>
    let w := c.src64 (if l < 32 then f.a else if l < 64 then f.b else f.c)
    w.getLsbD (l % 32))

def everywhere (b : Bool) : Mask := if b then allLanes else 0

def execVany (f : Tri) (s : State) : Outcome :=
  s.issue fun c => c.setPred f (everywhere (c.predA f &&& c.included f.ctl != 0))

def execVall (f : Tri) (s : State) : Outcome :=
  s.issue fun c => c.setPred f (everywhere (c.included f.ctl &&& ~~~(c.predA f) == 0))

def execPtos (f : Tri) (s : State) : Outcome :=
  s.issue fun c => c.scalarWord f.dst (maskWord (c.predA f &&& c.included f.ctl) f.mod.toNat)

def execBallot (f : Tri) (s : State) : Outcome :=
  s.issue fun c =>
    if !c.fits f.a .b32 then c.illop
    else
      let m := c.included f.ctl
      c.scalarWord f.dst (maskWord (maskOf fun l => m.getLsbD l && c.vreg f.a.vNum l != 0) f.mod.toNat)

def execPcount (f : Tri) (s : State) : Outcome :=
  s.issue fun c => c.scalarWord f.dst (BitVec.ofNat 64 (laneCount (c.predA f &&& c.included f.ctl)))

def execPfind (f : Tri) (s : State) : Outcome :=
  s.issue fun c => c.scalarWord f.dst
    (match (lanesOf (c.predA f &&& c.included f.ctl)).head? with
     | some l => BitVec.ofNat 64 l
     | none => BitVec.allOnes 64)

/-! ### Shuffles -/

/-- Each included lane takes vA of its source lane, if that is an included lane, and says so in the predicate. -/
def Cx.shuffle (c : Cx) (f : Tri) (src : Nat → Int) : State :=
  if !(c.fits f.dst f.ty && c.fits f.a f.ty) then c.illop
  else
    let m := c.included f.ctl
    let from_ := fun l => match src l with
      | .ofNat k => if decide (k < 96) && m.getLsbD k then some k else none
      | .negSucc _ => none
    (c.results f.ctl
      { left := 0
        vs := laneWrites m f.dst.vNum f.ty.is64 fun l => c.vsrc f.a f.ty ((from_ l).getD l)
        ss := []
        ps := [(f.mod.toNat % 8, maskOf fun l => (from_ l).isSome, m)] }).retire

def execXshfl (f : Tri) (s : State) : Outcome :=
  s.issue fun c => if !c.fits f.b .n32 then c.illop else c.shuffle f fun l => (c.vsrc f.b .n32 l : Nat)

/-- sB as each lane reads it: a special source may differ from lane to lane. -/
def Cx.laneSrc (c : Cx) (f : Tri) (l : Nat) : Nat := c.vsrc f.b .n64 l

def execXbcast (f : Tri) (s : State) : Outcome := s.issue fun c => c.shuffle f fun l => (c.laneSrc f l : Int)
def execXup (f : Tri) (s : State) : Outcome := s.issue fun c => c.shuffle f fun l => (l : Int) - c.laneSrc f l
def execXdown (f : Tri) (s : State) : Outcome := s.issue fun c => c.shuffle f fun l => (l : Int) + c.laneSrc f l
def execXxor (f : Tri) (s : State) : Outcome := s.issue fun c => c.shuffle f fun l => ((l ^^^ c.laneSrc f l : Nat) : Int)

/-! ### Scans and reductions -/

/-- The operation of a scan or reduction: 0 add, 1 minimum, 2 maximum (04 R104). -/
def combineOp (t : ETy) (op a b : Nat) : Nat :=
  if t.isFloat then
    match op with
    | 0 => addCode t a b
    | 1 => minCode t a b
    | _ => maxCode t a b
  else
    match op with
    | 0 => addW t.width a b
    | 1 => minW t a b
    | _ => maxW t a b

/-- Combine two nodes; an absent one leaves the other as it is (03 R78). -/
def combine (t : ETy) (op : Nat) : Option Nat → Option Nat → Option Nat
  | some a, some b => some (combineOp t op a b)
  | some a, none => some a
  | none, b => b

/-- The result over no lane (03 R80). -/
def emptyValue (t : ETy) (op : Nat) : Nat :=
  if t.isFloat then (if op = 0 then 0 else invalidCode t)
  else match op with
    | 0 => 0
    | 1 => wrapInt t.width (intMax t)
    | _ => wrapInt t.width (intMin t)

/-- One stage of the tree. -/
def pairUp (f : Option Nat → Option Nat → Option Nat) : List (Option Nat) → List (Option Nat)
  | a :: b :: r => f a b :: pairUp f r
  | r => r

/-- The tree over lane positions: 96, 48, 24, 12, 6, 3, 2, 1 nodes (03 R78). -/
def treeOf (t : ETy) (op : Nat) (x : List (Option Nat)) : Option Nat :=
  let up := pairUp (combine t op)
  (up (up (up (up (up (up (up x))))))).headD none

/-- Values of one element position after a prefix scan, by lane, in the order of the lanes (03 R79). -/
def scanList (t : ETy) (op : Nat) (inclusive : Bool) : Option Nat → List (Nat × Nat) → List (Nat × Nat)
  | _, [] => []
  | acc, (l, x) :: r =>
    let next := combine t op acc (some x)
    (l, (if inclusive then next else acc).getD (emptyValue t op)) :: scanList t op inclusive next r

/-- Run a scan or reduction: `col` gives each lane's element of one position from the lanes' elements. -/
def Cx.crossLane (c : Cx) (f : Tri) (col : List (Nat × Nat) → List (Nat × Nat)) : State :=
  if !(c.fits f.dst f.ty && c.fits f.a f.ty) then c.illop
  else
    let m := c.included f.ctl
    let cols := (List.range f.ty.count).map fun e =>
      col ((lanesOf m).map fun l => (l, elem f.ty (c.vsrc f.a f.ty l) e))
    (c.results f.ctl
      { left := 0
        vs := laneWrites m f.dst.vNum f.ty.is64 fun l =>
          ofElems f.ty fun e => (Store.find? (cols.getD e []) l).getD 0
        ss := [], ps := [] }).retire

def execXscan (f : Tri) (s : State) : Outcome := s.issue fun c => c.crossLane f (scanList f.ty f.mod.toNat true none)
def execXscanx (f : Tri) (s : State) : Outcome := s.issue fun c => c.crossLane f (scanList f.ty f.mod.toNat false none)

def execXred (f : Tri) (s : State) : Outcome :=
  s.issue fun c => c.crossLane f fun xs =>
    let r := (treeOf f.ty f.mod.toNat ((List.range 96).map fun l => Store.find? xs l)).getD (emptyValue f.ty f.mod.toNat)
    xs.map fun q => (q.1, r)

end Sys2Proof.Machine
end

