-- ==== Sys2Proof/Machine/Access.lean ====
section
/-!
DEFINITION. What the memory instructions share: their addresses (07 R158 to R160), where an address leads (01 R30, R31; 17
R269, R271), the checks of 07 R161 in their order, stores, the requests sent to other packages (22 R355, R356), and failing
an exit routine (09 R227).
-/

namespace Sys2Proof.Machine

/-! ### Where an address leads -/

/-- A virtual address, with the brick it was named through if it was, or a byte of the team's Mortar window by its key. -/
inductive Target
  | virt (va : Nat) (brick : Option BrickTag)
  | key (k : Nat)
  deriving DecidableEq, Repr

/-- A function's tensor-table entry: four words at its physical place (17 R271). -/
def State.tensorEntry (s : State) (f tid : Nat) : List Word :=
  let a := s.ffield f 0x900 47 0 + 32 * tid
  (List.range 4).map fun i => s.rawWord (a + 8 * i)

def entryValid (e : List Word) : Bool := (e.getD 3 0).field 0 0 == 1
def entryShape (e : List Word) : Nat := (e.getD 3 0).field 6 6
def entryStride (e : List Word) : Nat := (e.getD 3 0).field 63 16
def entryBase (e : List Word) : Nat := (e.getD 1 0).toNat
def entryRows (e : List Word) : Nat := (e.getD 2 0).field 63 32
def entryCols (e : List Word) : Nat := (e.getD 2 0).field 31 0

/-- Virtual address of byte `b` of a brick of a tensor (17 R269). -/
def brickByte (e : List Word) (brow bcol b : Nat) : Nat :=
  (if entryShape e = 0 then entryBase e + 32 * bcol + b % 32 + (4 * brow + b / 32) * entryStride e
   else entryBase e + brow * entryStride e + b) % 2 ^ 64

/-- The linear address of a tensor-brick address; none outside the extents (01 R30; 07 R160; 08 R194). -/
def State.brickVa (s : State) (f a : Nat) : Option Nat :=
  let tid := a / 2 ^ 48 % 2 ^ 16
  if tid = 0 then some (a % 2 ^ 48)
  else
    let e := s.tensorEntry f tid
    let brow := bitsN a 47 28
    let bcol := bitsN a 27 7
    if entryValid e && decide (brow < entryRows e) && decide (bcol < entryCols e) then some (brickByte e brow bcol (a % 128))
    else none

/-- Keys of the 32-byte rows of a brick; of a TID other than 0, those whose pages are mapped (17 R269). -/
def State.rowKeys (s : State) (t : BrickTag) : List Nat :=
  if t.tid = 0 then (List.range 4).map fun r => brickAddr t + 32 * r
  else
    let e := s.tensorEntry t.func t.tid
    (List.range 4).filterMap fun r =>
      match s.walk t.func (brickByte e t.brow t.bcol (32 * r)) with
      | .ok w => some w.key
      | .fault _ => none

/-- Bytes `lo` to `lo + n - 1` meet a brick. -/
def State.brickMeets (s : State) (t : BrickTag) (lo n : Nat) : Bool :=
  (s.rowKeys t).any fun k => decide (k < lo + n) && decide (lo < k + 32)

/-- The tag that a tensor-brick address names. -/
def addrTag (f a : Nat) : BrickTag := ⟨f, a / 2 ^ 48 % 2 ^ 16, bitsN a 47 28, bitsN a 27 7⟩

/-- The context's team is changed. -/
def Cx.setTeam (c : Cx) (t : Team) : Cx := { c with s := { c.s with teams := c.s.teams.put c.G.team t } }

def Cx.team (c : Cx) : Team := (c.s.teams.find? c.G.team).getD {}

/-- The key of a window offset. -/
def Cx.windowKey (c : Cx) (o : Nat) : Nat := teamWindowKey (c.s.fuse.colourBytes c.team.die) c.team + o

/-- Where an access of `n` bytes leads in a space; none raises PROT (07 R161 step 3). -/
def Cx.target (c : Cx) (space a n : Nat) : Option Target :=
  match space with
  | 2 => if a + n ≤ c.team.window then some (.key (c.windowKey a)) else none
  | 1 => (c.s.brickVa c.G.fn a).map fun va => .virt va (if a / 2 ^ 48 % 2 ^ 16 = 0 then none else some (addrTag c.G.fn a))
  | _ => if a < 2 ^ 48 then some (.virt a none) else none

/-! ### Checks (07 R161) -/

/-- An access of a lane. -/
structure LaneAcc where
  lane : Nat
  addr : Nat
  deriving DecidableEq, Repr

/-- An access admitted: its lane, its address as written, its virtual address (none in Mortar), the brick it was named
through, and its key. -/
structure Admitted where
  lane : Nat
  addr : Nat
  va : Option Nat
  brick : Option BrickTag
  key : Nat
  deriving DecidableEq, Repr

/-- An access fills the brick it names, or the brick of its line (17 R270, R275). -/
def State.touch (s : State) (f : Nat) (q : Admitted) : State :=
  let s := s.track false q.key
  match q.brick with
  | none => s.fillLine (linTag f q.key) (q.key / 128 * 128)
  | some t =>
    match (s.rowKeys t).head? with
    | some k => s.fillLine t k
    | none => s

def State.touchAll (s : State) (f : Nat) (ks : List Admitted) : State := ks.foldl (fun s q => s.touch f q) s

/-- A precise fault of the lanes that failed a check. -/
def Cx.faultLanes (c : Cx) (code : Nat) (acc : Acc) (elem : Nat) (fails : List LaneAcc) : State :=
  let first := fails.headD ⟨127, 0⟩
  c.takeFault { c.faultAt code with
    addr := first.addr, lane := first.lane, acc := acc.code, elem := elem, fmask := maskOfList (fails.map (·.lane)) }

/-- The instruction's access is held: it has not taken effect and is tried again. -/
def Cx.stall (c : Cx) : State := c.waitFor .memory

/-- Translation, permission and quota of accesses in their order. A failure gives its code, the state with the charges made
before it, and the lanes that fail with their virtual addresses. -/
def State.admitAll (s : State) (f agent : Nat) (acc : Acc) :
    List (LaneAcc × Target) → (Nat × State × List LaneAcc) ⊕ (State × List Admitted)
  | [] => .inr (s, [])
  | (x, .key k) :: r =>
    match s.admitAll f agent acc r with
    | .inl e => .inl e
    | .inr (s, ks) => .inr (s, ⟨x.lane, x.addr, none, none, k⟩ :: ks)
  | (x, .virt va b) :: r =>
    match s.permit f agent va acc with
    | .inl code =>
      let also := r.filterMap fun q => match q.2 with
        | .virt v _ => match s.permit f agent v acc with
          | .inl _ => some { q.1 with addr := v }
          | .inr _ => none
        | .key _ => none
      .inl (code, s, { x with addr := va } :: also)
    | .inr (k, s) =>
      match s.admitAll f agent acc r with
      | .inl e => .inl e
      | .inr (s, ks) => .inr (s, ⟨x.lane, x.addr, some va, b, k⟩ :: ks)

/-- Steps 2 and 3: alignment and space limits of every access. -/
def Cx.located (c : Cx) (space n align : Nat) (acc : Acc) (xs : List LaneAcc) (k : List (LaneAcc × Target) → State) : State :=
  let crooked := xs.filter fun x => x.addr % align != 0
  if !crooked.isEmpty then c.faultLanes 0x03 acc 0 crooked
  else
    let outside := xs.filter fun x => (c.target space x.addr n).isNone
    if !outside.isEmpty then c.faultLanes 0x04 acc 0 outside
    else k (xs.filterMap fun x => (c.target space x.addr n).map fun t => (x, t))

/-- An access to a place is held. -/
def State.heldTarget (s : State) (f : Nat) : Target → Bool
  | .virt va _ => s.heldVa f va
  | .key k => s.heldKey k

/-- Steps 2 to 4 and, where `ecc`, the poison check of 20 R327; then `k` with the accesses' keys. An access that is held stalls
before it is translated (17 R273). -/
def Cx.access (c : Cx) (space n align : Nat) (acc : Acc) (ecc : Bool) (xs : List LaneAcc)
    (k : Cx → List Admitted → State) : State :=
  c.located space n align acc xs fun ts =>
    if ts.any fun q => c.s.heldTarget c.G.fn q.2 then c.stall
    else match c.s.admitAll c.G.fn (c.s.launchOf c.G).agent acc ts with
    | .inl (code, s, fails) =>
      let va := (fails.headD ⟨127, 0⟩).addr
      { c with s := s }.faultLanes code acc (s.eccUnit c.G.fn (c.s.launchOf c.G).agent va acc code) fails
    | .inr (s, ks) =>
      let sour := ks.filter fun q => s.poisoned q.key n
      if ecc && !sour.isEmpty then
        { c with s := s }.faultLanes 0x11 acc (s.poisonUnit ((sour.map fun (q : Admitted) => q.key).headD 0) n)
          (sour.map fun (q : Admitted) => (⟨q.lane, q.va.getD q.addr⟩ : LaneAcc))
      else k { c with s := s.touchAll c.G.fn ks } ks

/-! ### Addresses (07 R158) -/

/-- sext(OFFS, 64) added to a register, modulo 2^64. -/
def offset (base : Nat) (o : BitVec 16) : Nat := wrapInt 64 ((base : Int) + o.toInt)

/-- A lane's address under the row that the register kinds and `mode` select; S is the access size. -/
def Cx.laneAddr (c : Cx) (f : Mem) (mode : Nat) (S l : Nat) : Nat :=
  match f.base with
  | .s n => (offset (c.sreg n.toNat).toNat f.offs + if mode = 1 then S * l else 0) % 2 ^ 64
  | .v n =>
    let lo := (c.vreg n.toNat l).toNat
    offset (if mode = 2 then lo + 2 ^ 32 * (c.vreg (n.toNat + 1) l).toNat else lo) f.offs
  | .x _ => 0

/-- The elected lane (07 R162). -/
def elected (m : Mask) : Nat := (lanesOf m).headD 0

/-- The accesses of an instruction: one per included lane, or one of the elected lane. -/
def Cx.accesses (c : Cx) (f : Mem) (vec : Bool) (mode S : Nat) (m : Mask) : List LaneAcc :=
  (if vec then lanesOf m else [elected m]).map fun l => ⟨l, c.laneAddr f mode S l⟩

/-- The vector registers of a memory form lie below V (01 R19). -/
def Cx.memFits (c : Cx) (f : Mem) (wide : Bool) : Bool := c.fits f.data f.ty && c.fits f.base (if wide then .n64 else .n32)

/-! ### Values -/

/-- A loaded value extended to its destination: 32 bits of a lane register, 64 of a scalar register or a pair. -/
def extendLoad (t : ETy) (scalar : Bool) (x : Nat) : Nat :=
  if t.isSigned then wrapInt (if scalar then 64 else 32) (if t.is64 then (x : Int) else signedOf t.width x) else x

/-- The register writes that give a lane, or the scalar register, its loaded value. -/
def loadWrites (data : Operand) (t : ETy) (l x : Nat) : Late :=
  match data with
  | .v n =>
    let x := if t.is64 then x else extendLoad t false x
    { left := 0, vs := laneWrites (maskOfList [l]) n.toNat t.is64 fun _ => x, ss := [], ps := [] }
  | _ => { left := 0, vs := [], ss := [(data.sNum, BitVec.ofNat 64 (extendLoad t true x))], ps := [] }

def Late.append (a b : Late) : Late := { left := a.left, vs := a.vs ++ b.vs, ss := a.ss ++ b.ss, ps := a.ps ++ b.ps }
def noLate : Late := { left := 0, vs := [], ss := [], ps := [] }

/-- Low bytes of a store's source in a lane. -/
def Cx.storeValue (c : Cx) (f : Mem) (vec : Bool) (l : Nat) : Nat :=
  (if vec then c.vsrc f.data f.ty l else c.ssrc f.data f.ty) % 2 ^ (8 * f.ty.size)

/-! ### Failing an exit routine (09 R227) -/

/-- XOVR or SAVESHORT: the record is logged and the partition rolls back. -/
def Cx.exitFailure (c : Cx) (code : Nat) : State :=
  let f := c.G.fn
  let s := { (c.settle.flush).count f 0xD48 with cur := none }
  let at_ := s.logAddr f
  (s.logAll f (recordWords f (s.launchOf c.G).lid c.G.slotNumber c.sp 0 false false (c.faultAt code)) []).rollbackFor f code at_

/-- Bytes written in the split's own save area in an exit routine (09 R223). -/
def Cx.cover (c : Cx) (space n : Nat) (addrs : List Nat) : Cx :=
  let lo := c.G.save + 0x400 + 0xC400 * c.sp
  if c.P.rstate = 1 ∧ space = 0 ∧ c.G.save ≠ 0 then
    let offs := addrs.flatMap fun a => (List.range n).filterMap fun i =>
      if lo ≤ a + i ∧ a + i < 0xC400 + lo then some (a + i - lo) else none
    { c with P := { c.P with covered := c.P.covered ++ offs } }
  else c

/-! ### Other packages (22 R354 to R356) -/

/-- A port that is up is set in the package's route. -/
def State.reachable (s : State) (d : Nat) : Bool :=
  (List.range 24).any fun p => (s.reg (0x51000 + 8 * d)).field p p == 1 && (s.reg (0x50100 + 8 * p)).field 0 0 == 1

/-- The mailbox field of a remote atomic: low byte of the opcode, type code, log2 of the size (log 21). -/
def atomicField (opcode : Nat) (t : ETy) (logSize : Nat) : Nat := opcode % 256 * 256 + t.code * 8 + logSize

/-- A refused or unreachable remote access: an imprecise PROT is logged and the launch ends. -/
def State.refused (s : State) (f l addr : Nat) : State :=
  let at_ := s.logAddr f
  let s := s.logImprecise f (((s.launches.find? l).getD {}).lid) 0x04 0 addr
  s.endLaunch l 3 0x04 at_

/-- An access of a split's instruction is refused; in an exit routine, as every fault there, it is XFLT (09 R224). -/
def Cx.refuse (c : Cx) (addr : Nat) : State :=
  if c.P.rstate = 1 then c.takeFault { c.faultAt 0x04 with addr := addr }
  else c.flush.refused c.G.fn c.G.launch addr

/-- The lane registers, or the scalar register, of a memory form that a lane's answer goes to. -/
def laneKeys (f : Mem) (lane : Nat) : List Nat :=
  match f.data with
  | .v n => (96 * n.toNat + lane) :: if f.ty.is64 then [96 * (n.toNat + 1) + lane] else []
  | _ => []

def scalarKey (f : Mem) : Option Nat :=
  match f.data with
  | .s n => some n.toNat
  | _ => none

/-- Ask another package for a lane's load, which is an acquire of the lanes `acq`, or send it a lane's store. -/
def Cx.askLane (c : Cx) (f : Mem) (write : Bool) (value : Nat) (op : Option Nat) (acq : Mask) (q : Admitted) : Cx :=
  let S := f.ty.size
  let words := [BitVec.ofNat 64 value]
  let p := c.s.request c.G.fn (if write then 2 else 1) q.key (if S < 8 then S else 0) (if write then words else [])
  let r : Remote :=
    { tag := p.tag.toNat, g := c.g, sp := c.sp, vdst := laneKeys f q.lane, sdst := scalarKey f, size := S
      signed := f.ty.isSigned, write := write, op := op, acq := acq, va := q.va.getD q.addr, key := q.key, packet := p }
  { c with s := c.s.ask r }

/-- Lines of other packages are logged before their first write (19 R306). -/
def Cx.withLines (c : Cx) (ks : List Nat) (k : State) : State :=
  match c.s.unlogged c.G.fn ks with
  | [] => k
  | lines => { c with s := c.s.askLines c.G.fn lines }.stall

/-- A key's package cannot be reached. -/
def State.far (s : State) (q : Admitted) : Bool := isRemote q.key && !s.reachable (keySpace q.key - 3)

/-- Make the accesses whose packages can be reached; the others are refused, which ends the launch (22 R356). -/
def Cx.reaching (c : Cx) (ks : List Admitted) (k : List Admitted → State) : State :=
  match ks.find? c.s.far with
  | some q =>
    let addr := q.va.getD q.addr
    if c.P.rstate = 1 then c.refuse addr else (k (ks.filter fun q => !c.s.far q)).refused c.G.fn c.G.launch addr
  | none => k ks

/-! ### Loads and stores of admitted accesses -/

/-- The cached brick in which byte `i` of an access lies out of its tensor's bounds, if one does (08 R194). -/
def State.outside (s : State) (q : Admitted) (i : Nat) : Option Brick :=
  (q.brick.bind s.brickAt).filter fun b => b.oob.contains (q.addr % 128 + i)

/-- Byte `i` of an access. -/
def State.getByte (s : State) (f : Nat) (q : Admitted) (i : Nat) : Byte :=
  match s.outside q i with
  | some b => b.data.getD (q.addr % 128 + i) 0
  | none => s.readByte f (q.key + i)

/-- The `n` bytes of an access. -/
def State.get (s : State) (f : Nat) (q : Admitted) (n : Nat) : Nat := ofBytes ((List.range n).map (s.getByte f q))

/-- A store through a tensor's brick to bytes that a t6 window holds as planes (17 R271): their brick is the tensor's too. -/
def State.markTid (s : State) (f : Nat) (q : Admitted) : State :=
  match q.brick with
  | none => s
  | some t => { s with bricks := s.bricks.map fun b =>
      if b.tag == linTag f q.key && !b.tids.contains t.tid then { b with tids := b.tids ++ [t.tid] } else b }

/-- Store an access's bytes; those out of bounds stay in their brick and go nowhere else. -/
def State.put (s : State) (f : Nat) (q : Admitted) (bs : List Byte) (commit : Bool) : State :=
  if (List.range bs.length).all fun i => (s.outside q i).isNone then (s.store f q.key bs commit).markTid f q
  else (List.range bs.length).foldl (fun s i =>
    match s.outside q i with
    | some b =>
      let new := { b with data := b.data.set (q.addr % 128 + i) (bs.getD i 0) }
      { s with bricks := s.bricks.map fun x => if x.tag == b.tag then new else x }
    | none => (s.store f (q.key + i) [bs.getD i 0] commit).markTid f q) s

/-! ### What a thread reads and writes (01 R33 to R35) -/

/-- Other threads have written bytes of the access. -/
def Cx.contended (c : Cx) (n : Nat) (q : Admitted) : Bool := !isRemote q.key && c.s.contended c.home q.lane q.key n

/-- `n` bytes of an access as they stood at a place. -/
def State.getAt (s : State) (f : Nat) (q : Admitted) (n place : Nat) : Nat :=
  ofBytes ((List.range n).map fun i =>
    if (s.outside q i).isSome then s.getByte f q i else (heldAt (q.key + i) place s.order).getD (s.getByte f q i))

/-- `n` bytes as the access's thread reads them, and the place: now or an earlier one that its view allows, a free choice; `op` as in
Act. -/
def Cx.see (c : Cx) (n : Nat) (op : Option Nat) (q : Admitted) : Cx × Nat × Nat :=
  let places := c.s.placesOf c.home q.lane q.key n q.va
  let place := ((places[(Config.freeValue c.s.tick).toNat % (places.length + 1)]?).getD c.s.order.length)
  ((({ c with s := { c.s with tick := c.s.tick + 1 } } : Cx).did (.read q.lane q.key n place q.va op)),
    c.s.getAt c.G.fn q n place, place)

def Cx.seeEach (c : Cx) (n : Nat) (op : Option Nat) : List Admitted → Cx × List (Admitted × Nat)
  | [] => (c, [])
  | q :: r =>
    let (c, x, _) := c.see n op q
    let (c, xs) := c.seeEach n op r
    (c, (q, x) :: xs)

/-- The bytes of an instruction's accesses in lane order; where no other thread has written any of them, as they stand. -/
def Cx.seeAll (c : Cx) (n : Nat) (op : Option Nat) (ks : List Admitted) : Cx × (Admitted → Nat) :=
  if ks.any (c.contended n) then
    let (c, xs) := c.seeEach n op (ks.filter fun q => !isRemote q.key)
    (c, fun q => (xs.find? fun x => x.1 == q).elim 0 (·.2))
  else (c, fun q => c.s.get c.G.fn q n)

/-- A thread's store: others see it once they must (25 R378). -/
def Cx.putBy (c : Cx) (q : Admitted) (bs : List Byte) (commit : Bool) (op : Option Nat) : Cx :=
  let s := c.s.put c.G.fn q bs commit
  ({ c with s := s } : Cx).did (.wrote q.lane q.key bs.length c.s.order.length s.order.length q.va op)

/-- Issue number of the gather or scatter that has just issued. -/
def Cx.gatherNo (c : Cx) : Nat := Store.get 0 c.G.issued 2 - 1

/-- The register writes of local accesses. -/
def lateOf (f : Mem) (ks : List Admitted) (value : Admitted → Nat) : Late :=
  (ks.filter fun q => !isRemote q.key).foldl (fun r q => r.append (loadWrites f.data f.ty q.lane (value q))) noLate

/-- Give the loaded values of local accesses, and wait for those of other packages. -/
def Cx.loadAway (c : Cx) (f : Mem) (acq : Mask) (ks : List Admitted) (value : Admitted → Nat) : State :=
  c.reaching (ks.filter fun q => isRemote q.key) fun away =>
    (away.foldl (fun c q => c.askLane f false 0 none acq q) (c.deliver (lateOf f ks value))).waitFor .remote

/-- Give the loaded values. -/
def Cx.load (c : Cx) (f : Mem) (ks : List Admitted) (value : Admitted → Nat) : State :=
  if ks.any fun q => isRemote q.key then c.loadAway f 0 ks value else (c.results f.ctl (lateOf f ks value)).retire

/-- Store a value at each access in order; the bytes written in the save area count as covered; sectors written whole are no
longer poisoned (20 R327). -/
def Cx.storeAll (c : Cx) (f : Mem) (op : Option Nat) (ks : List Admitted) (value : Nat → Nat) : Cx :=
  let S := f.ty.size
  let c := ks.foldl (fun c q =>
    if isRemote q.key then c.askLane f true (value q.lane) op 0 q
    else c.putBy q (bytesOf S (value q.lane)) false (op.map fun _ => c.gatherNo)) c
  let c := { c with s := c.s.healPieces (ks.filterMap fun (q : Admitted) => if isRemote q.key then none else some (q.key, S)) }
  c.cover f.space.toNat S (ks.map fun (q : Admitted) => q.addr)

end Sys2Proof.Machine
end

