-- ==== Sys2Proof/Machine/LoadStore.lean ====
section
/-!
DEFINITION. Loads and stores (07 R163), the read-only path (07 R164), gather and scatter (07 R165), expand-load and
compress-store (07 R167).
-/

namespace Sys2Proof.Machine

/-- An address mode that takes a pair of registers (07 R158, row 5). -/
def Mem.wideBase (f : Mem) : Bool := f.kind == 2

/-- DATA counts as a vector register (07 R158, R159). -/
def Mem.vectorData (f : Mem) : Bool :=
  match f.data with
  | .v _ => true
  | .s _ => false
  | .x k => k.variesByLane || !f.base.isS || f.kind != 0

/-- Run a memory form's effect: with no included lane it does nothing (07 R161); a register at or above V is ILLOP. -/
def Cx.memory (c : Cx) (f : Mem) (wide : Bool) (k : Mask → State) : State :=
  let m := c.included f.ctl
  if m = 0 then c.retire else if c.memFits f wide then k m else c.illop

/-- An irrevocable memory form: with no included lane it does nothing, in an exit routine too (07 R161; 09 R224). -/
def Cx.irrevocable (c : Cx) (f : Mem) (k : Mask → State) : State :=
  if c.included f.ctl = 0 then c.retire else c.outsideExit (c.memory f false k)

def execLd (f : Mem) (s : State) : Outcome :=
  s.issue fun c => c.memory f (Mem.wideBase f) fun m =>
    let S := f.ty.size
    c.access f.space.toNat S S .read true (c.accesses f f.data.isV f.kind.toNat S m) fun c ks =>
      let (c, value) := c.seeAll S none ks
      c.load f ks value

def execSt (f : Mem) (s : State) : Outcome :=
  s.issue fun c => c.memory f (Mem.wideBase f) fun m =>
    let S := f.ty.size
    let vec := Mem.vectorData f
    c.access f.space.toNat S S .write false (c.accesses f vec f.kind.toNat S m) fun c ks =>
      c.withLines (ks.map (·.key)) (c.reaching ks fun ks => (c.storeAll f none ks (c.storeValue f vec)).retire)

/-! ### The read-only path -/

/-- Values a byte held that were overwritten at or after a place in the order, oldest first, with their places. -/
def olderValues (k bound : Nat) : List Past → List (Nat × Byte)
  | [] => []
  | q :: r =>
    if r.length < bound then [] else olderValues k bound r ++ if q.key = k then [(r.length, q.old)] else []

/-- The place before which the read-only path returns no value of a byte to a lane (07 R164). -/
def Gang.roBound (G : Gang) (l key : Nat) (va : Option Nat) : Nat :=
  let acq := G.acquired.filter fun q =>
    q.2.2.1.getLsbD l && (match va with | some a => decide (q.1 ≤ a) && decide (a < q.2.1) | none => false)
  acq.foldl (fun m q => max m q.2.2.2) (max (Store.get 0 G.ro (96 * key + l)) (Store.get 0 G.roFrom l))

/-- One byte through the read-only path: a free choice among the values it may return. -/
def Cx.roByte (c : Cx) (q : Admitted) (i : Nat) : Cx × Byte :=
  let l := q.lane
  let key := q.key + i
  let va := q.va.map (· + i)
  let olds := olderValues key (c.G.roBound l key va) c.s.order
  let j := (Config.freeValue c.s.tick).toNat % (olds.length + 1)
  let (at_, b) := olds.getD j (c.s.order.length, c.s.readByte c.G.fn key)
  if (c.s.outside q i).isSome then (c, c.s.getByte c.G.fn q i)
  else ({ c with s := { c.s with tick := c.s.tick + 1 }, G := { c.G with ro := Store.set 0 c.G.ro (96 * key + l) at_ } }, b)

/-- The bytes of one access. -/
def Cx.roBytes (c : Cx) (q : Admitted) : Nat → Nat → Cx × List Byte
  | 0, _ => (c, [])
  | n + 1, i =>
    let (c, b) := c.roByte q i
    let (c, bs) := c.roBytes q n (i + 1)
    (c, b :: bs)

/-- Every access in lane order; the values by lane. -/
def Cx.roAll (c : Cx) (n : Nat) : List Admitted → Cx × Store Nat
  | [] => (c, [])
  | q :: r =>
    if isRemote q.key then c.roAll n r
    else
      let (c, bs) := c.roBytes q n 0
      let (c, m) := c.roAll n r
      (c, Store.put m q.lane (ofBytes bs))

def execLdro (f : Mem) (s : State) : Outcome :=
  s.issue fun c => c.memory f (Mem.wideBase f) fun m =>
    let S := f.ty.size
    c.access f.space.toNat S S .read true (c.accesses f f.data.isV f.kind.toNat S m) fun c ks =>
      let (c, vals) := c.roAll S ks
      c.load f ks fun q => Store.get 0 vals q.lane

/-! ### Gather and scatter -/

/-- sB + (ext(vI) << c). -/
def Cx.gatherAddr (c : Cx) (f : Mem) (l : Nat) : Nat :=
  let i := c.vreg (bitsN f.offs.toNat 7 0) l
  let x : Int := if f.kind = 1 then i.toInt else i.toNat
  wrapInt 64 (((c.sreg f.base.sNum).toNat : Int) + x * 2 ^ (bitsN f.offs.toNat 9 8))

/-- Checks, the k2 stall, and the operation that k2 counts; `k` moves the data, knowing the operation's id. -/
def Cx.gather (c : Cx) (f : Mem) (acc : Acc) (k : Cx → Nat → List Admitted → State) : State :=
  c.memory f false fun m =>
    let S := f.ty.size
    if !c.fits (.v (BitVec.ofNat 7 (bitsN f.offs.toNat 7 0))) .n32 then c.illop
    else c.access f.space.toNat S S acc false ((lanesOf m).map fun l => ⟨l, c.gatherAddr f l⟩) fun c ks =>
      if 63 ≤ c.G.k 2 then c.waitFor (.counter 2)
      else
        let id := c.s.handle
        c.withLines (if acc == .write then ks.map (·.key) else []) <|
          c.reaching ks fun ks => k { c with
            s := { c.s with handle := id + 1, gathers := c.s.gathers.put id ⟨c.g, c.sp, c.G.fn⟩ }
            G := c.G.addOp 2 id } id ks

/-- Poisoned sectors give 0 and an imprecise record (07 R165 through an engine, 20 R327). -/
def execLdg (f : Mem) (s : State) : Outcome :=
  s.issue fun c => c.gather f .read fun c _ ks =>
    let S := f.ty.size
    let sour := (ks.filter fun q => !isRemote q.key).filter fun q => c.s.poisoned q.key S
    let (c, seen) := c.seeAll S (some c.gatherNo) ks
    let bad := c.s
    let value := fun (q : Admitted) => if bad.poisoned q.key S then 0 else seen q
    let lid := (c.s.launchOf c.G).lid
    let c := { c with s := sour.foldl (fun (s : State) (q : Admitted) =>
      s.logImprecise c.G.fn lid 0x11 (s.poisonUnit q.key S) (keyAddr q.key)) c.s }
    c.load f ks value

def execStg (f : Mem) (s : State) : Outcome :=
  s.issue fun c => c.gather f .write fun d id ks => (d.storeAll { f with space := 7 } (some id) ks (c.storeValue f true)).retire

/-! ### Expand-load and compress-store -/

/-- Consecutive accesses of the included lanes. -/
def Cx.packed (c : Cx) (f : Mem) (m : Mask) : List LaneAcc :=
  (lanesOf m).zipIdx.map fun q => ⟨q.1, (offset (c.sreg f.base.sNum).toNat f.offs + f.ty.size * q.2) % 2 ^ 64⟩

def execLdx (f : Mem) (s : State) : Outcome :=
  s.issue fun c => c.memory f false fun m =>
    let S := f.ty.size
    c.access f.space.toNat S S .read true (c.packed f m) fun c ks =>
      let (c, value) := c.seeAll S none ks
      c.load f ks value

/-- Write the elements that remain; the first that fails is where resumption continues. `done` is what has been written. -/
def Cx.compress (c : Cx) (f : Mem) (done : List (Nat × Nat)) : List ((LaneAcc × Target) × Nat) → State
  | [] => { c with s := c.s.healPieces done }.retire
  | (x, i) :: r =>
    let c := { c with P := { c.P with stcFrom := i } }
    if c.s.heldTarget c.G.fn x.2 then c.stall
    else match c.s.admitAll c.G.fn (c.s.launchOf c.G).agent .write [x] with
    | .inl (code, s, fails) => { c with s := s }.faultLanes code .write i fails
    | .inr (s, ks) =>
      let c := { c with s := s.touchAll c.G.fn ks }
      c.withLines (ks.map (·.key)) (c.reaching ks fun ks =>
        (c.storeAll f none ks (c.storeValue f true)).compress f (done ++ ks.filterMap fun (q : Admitted) => if isRemote q.key then none else some (q.key, f.ty.size)) r)

def execStc (f : Mem) (s : State) : Outcome :=
  s.issue fun c => c.memory f false fun m =>
    c.located f.space.toNat f.ty.size f.ty.size .write (c.packed f m) fun ts => c.compress f [] (ts.zipIdx.drop c.P.stcFrom)

end Sys2Proof.Machine
end

