-- ==== Sys2Proof/Machine/Atomics.lean ====
section
/-!
DEFINITION. Atomics (07 R168 to R173; 20 R324; 22 R352, R356), Mortar updates (07 R174) and Hod sends (07 R175, R176; 17
R282).
-/

namespace Sys2Proof.Machine

/-! ### One atomic step -/

/-- The operation of an opcode 0x0D7 to 0x0DE. -/
inductive AtOp
  | add | min | max | and | or | xor | swap | cas
  deriving DecidableEq, Repr

def AtOp.code : AtOp → Nat
  | .add => 0x0D7 | .min => 0x0D8 | .max => 0x0D9 | .and => 0x0DA | .or => 0x0DB | .xor => 0x0DC | .swap => 0x0DD | .cas => 0x0DE

def AtOp.ofCode (n : Nat) : AtOp :=
  match n with
  | 0x0D7 => .add | 0x0D8 => .min | 0x0D9 => .max | 0x0DA => .and | 0x0DB => .or | 0x0DC => .xor | 0x0DD => .swap | _ => .cas

/-- The location's new value from its old one, the operand (a compare value in cas) and cas's new value (07 R168, R169). -/
def AtOp.new (op : AtOp) (t : ETy) (old v w : Nat) : Nat :=
  match op with
  | .add => combineOp t 0 old v
  | .min => combineOp t 1 old v
  | .max => combineOp t 2 old v
  | .and => old &&& v
  | .or => old ||| v
  | .xor => old ^^^ v
  | .swap => v
  | .cas => if old = v then w else old

/-- The AtomicOp request a host page takes: 0 FetchAdd, 1 Swap, 2 CAS, 3 none (07 R172). -/
def AtOp.request (op : AtOp) (t : ETy) : Nat :=
  match op with
  | .add => if t.isIntB then 0 else 3
  | .swap => 1
  | .cas => 2
  | _ => 3

/-- A lane's operands: the value, and the new value of cas. -/
def Cx.atOperands (c : Cx) (f : Mem) (op : AtOp) (l : Nat) : Nat × Nat :=
  let m := 2 ^ f.ty.width
  match f.data with
  | .v n =>
    let second : Operand := .v (n + BitVec.ofNat 7 (if f.ty.is64 then 2 else 1))
    (c.vsrc f.data f.ty l % m, if op = .cas then c.vsrc second f.ty l % m else 0)
  | .s n => ((c.sreg n.toNat).toNat % m, if op = .cas then (c.sreg (n.toNat + 1)).toNat % m else 0)
  | .x _ => (0, 0)

/-! ### Objects (07 R171, R178; 01 R36) -/

/-- The ranges bound to the object whose word holds an address: a release or an acquire covers the bindings that stand when it is
performed (07 R184; log 76). -/
def Cx.boundTo (c : Cx) (va : Nat) : List Bound := (c.s.fn c.G.fn).bounds.filter fun b => b.obj == va / 8 * 8

/-- The ranges of an object's release or acquire. -/
def Cx.rangesOf (c : Cx) (va : Nat) : List (Nat × Nat) := (c.boundTo va).map fun b => (b.lo, b.hi)

/-- Releases and acquires of a wide object act as a full fence too (07 R185). -/
def Cx.wideFence (c : Cx) (va scope : Nat) (m : Mask) : Cx :=
  if (c.s.fn c.G.fn).wide.contains (va / 8 * 8) then c.did (.fence 0 scope m) else c

/-- An acquire by lanes that reads the object's word at a place; their read-only path returns nothing older of the bound ranges. -/
def Cx.acquireOf (c : Cx) (va scope place : Nat) (m : Mask) : Cx :=
  let d := (c.did (.acquire (va / 8 * 8) scope place m (c.rangesOf va))).wideFence va scope m
  { d with G := { d.G with acquired := d.G.acquired ++ (c.boundTo va).map fun b => (b.lo, b.hi, m, c.s.order.length) } }

/-- A release by lanes whose write of the object's word is the latest. -/
def Cx.releaseOf (c : Cx) (va scope : Nat) (m : Mask) : Cx :=
  (c.wideFence va scope m).did (.release (va / 8 * 8) scope c.s.order.length m (c.rangesOf va))

/-- Earlier Hod sends of the gang have been applied and its stores to other packages acknowledged, those of stg and of engines
apart (07 R166, R179). -/
def Cx.settled (c : Cx) : Bool :=
  (c.s.hods.all fun q => q.2.g != c.g) && c.s.remotes.all fun r => !(r.g == c.g && r.write && r.op.isNone)

/-- A release or acquire of a wide object is a full fence too (07 R185). -/
def Cx.wideWaits (c : Cx) (va : Nat) : Bool := (c.s.fn c.G.fn).wide.contains (va / 8 * 8) && !c.settled

/-! ### Atomics -/

/-- The page of a key is reached by AtomicOps or by the host-assisted path: host memory, unless its port runs CXL in the
bias regime (07 R172; 00 R6). -/
def State.hostAtomic (s : State) (k : Nat) : Bool :=
  let sp := keySpace k
  (sp == 1 || sp == 2) &&
    !(s.ports.getD (sp - 1) none == some .cxl && (s.reg 0x70008).field 1 1 == 1 && (s.reg 0x70008).field 0 0 == 0)

/-- A lane's request on a host page; without the Requester Enable none is named (22 R352). -/
def Cx.hostReq (c : Cx) (f : Mem) (op : AtOp) (q : Admitted) : HostReq :=
  let v := c.atOperands f op q.lane
  { lane := q.lane, key := q.key, va := q.va.getD q.addr
    req := if (c.s.fn c.G.fn).atomReq then op.request f.ty else 3
    operand := v.1, newValue := v.2 }

/-- The extension record of a failing lane (20 R321). -/
def extRecord (t : ETy) (op : AtOp) (r : HostReq) (answer : Nat) : List Word :=
  [BitVec.ofNat 64 (r.req * 2 ^ 56 + (if r.req = 3 then op.code * 2 ^ 46 else 0) + t.is64.toNat * 2 ^ 45 + answer * 2 ^ 42
      + r.lane * 2 ^ 32),
   BitVec.ofNat 64 r.va, BitVec.ofNat 64 r.operand, BitVec.ofNat 64 r.newValue, 0, 0, 0, 0]

/-- ATOMNS for the lanes that failed (07 R173). -/
def Cx.atomns (c : Cx) (t : ETy) (op : AtOp) (failed : List (HostReq × Nat)) (unsure : Bool) : State :=
  let first := (failed.map (·.1)).head?
  c.takeFault { c.faultAt 0x0C with
    unsure := unsure
    addr := (first.map (·.va)).getD 0, lane := (first.map (·.lane)).getD 127, acc := Acc.atomic.code
    fmask := maskOfList (failed.map (·.1.lane)), exts := failed.map fun q => extRecord t op q.1 q.2 }

/-- KIND makes an atomic an acquire (07 R171). -/
def acquires (f : Mem) : Bool := f.kind == 1 || f.kind == 3

/-- And a release. -/
def releases (f : Mem) : Bool := f.kind == 2 || f.kind == 3

/-- The words of a lane's request to another package: its operands, and where several lanes of the instruction name the location,
which of them this is, how many there are, and a number of the instruction's own (07 R170; log 21). -/
def requestWords (v : Nat × Nat) (i n id : Nat) : List Word :=
  [BitVec.ofNat 64 v.1, BitVec.ofNat 64 v.2] ++ if n ≤ 1 then [] else [BitVec.ofNat 64 (i + n * 2 ^ 8 + id * 2 ^ 16)]

/-- A request of a lane to another package (22 R356): its operation and size in the mailbox field. It is lane `i` of the `n` that name
its location. -/
def Cx.askAtomic (c : Cx) (f : Mem) (op : AtOp) (q : Admitted) (i n id : Nat) : Cx :=
  let v := c.atOperands f op q.lane
  let p := c.s.request c.G.fn 3 q.key (atomicField op.code f.ty (Nat.log2 f.ty.size)) (requestWords v i n id)
  let r : Remote :=
    { tag := p.tag.toNat, g := c.g, sp := c.sp, vdst := laneKeys f q.lane, sdst := scalarKey f, size := f.ty.size
      signed := f.ty.isSigned, write := false, op := none, acq := if acquires f then maskOfList [q.lane] else 0
      va := q.va.getD q.addr, key := q.key, packet := p }
  { c with s := (c.s.ask r).commitAway c.G.fn q.key f.ty.size }

/-- One lane's atomic performed by the device: it reads what stands in memory; an acquire is placed after its read, a release with
its write (07 R171). -/
def Cx.atomicHere (c : Cx) (f : Mem) (op : AtOp) (q : Admitted) : Cx :=
  let S := f.ty.size
  let v := c.atOperands f op q.lane
  let old := c.s.get c.G.fn q S
  let new := op.new f.ty old v.1 v.2
  let skip := op = .cas ∧ old ≠ v.1
  let me := maskOfList [q.lane]
  let d := match q.va with
    | some va => if acquires f then c.acquireOf va f.scope.toNat c.s.order.length me else c
    | none => c
  let d := if skip then d else d.putBy q (bytesOf S new) true none
  let d := match q.va with
    | some va => if skip || !releases f then d else d.releaseOf va f.scope.toNat me
    | none => d
  (d.did (.read q.lane q.key S d.s.order.length q.va none)).deliver (loadWrites f.data f.ty q.lane old)

/-- No answer of another package is awaited by the split's instruction. -/
def State.answered (s : State) (g sp : Nat) : Bool := !(s.remotes.any fun r => r.g == g && r.sp == sp && r.op.isNone && !r.write)

/-- Failed lanes in ascending order. -/
def sortFailed (xs : List (HostReq × Nat)) : List (HostReq × Nat) :=
  (List.range 96).flatMap fun l => xs.filter fun q => q.1.lane == l

/-- The element type and operation of a host atomic in progress. -/
def HostOp.at_ (o : HostOp) : AtOp := AtOp.ofCode o.opcode

/-- Once every lane has been answered: ATOMNS for those that failed, else the split goes on. -/
def Cx.finishHost (c : Cx) (id : Nat) (o : HostOp) : State :=
  if o.open_.isEmpty && c.s.answered c.g c.sp then
    let c := { c with s := { c.s with hostOps := c.s.hostOps.erase id }, P := { c.P with wait := none } }
    if o.failed.isEmpty then c.retire else c.atomns o.ty o.at_ (sortFailed o.failed) o.unsure
  else c.flush

/-- The lanes' steps in ascending order; then the split goes on, or waits for what other agents perform. -/
def Cx.atomicAll (c : Cx) (f : Mem) (op : AtOp) (ks : List Admitted) : State :=
  let id := c.s.handle
  let c := ks.foldl (fun c q =>
    if c.s.hostAtomic q.key then c
    else if isRemote q.key then
      let same := ks.filter fun x => x.key == q.key
      c.askAtomic f op q (same.idxOf q) same.length id
    else c.atomicHere f op q) c
  let reqs := (ks.filter fun q => c.s.hostAtomic q.key).map (c.hostReq f op)
  if reqs.isEmpty then if c.s.answered c.g c.sp then c.retire else c.waitFor .remote
  else
    let id := c.s.handle
    let o : HostOp :=
      { g := c.g, sp := c.sp, fn := c.G.fn, ty := f.ty, opcode := op.code, acq := acquires f, dst := f.data
        open_ := reqs.filter fun r => r.req != 3, failed := (reqs.filter fun r => r.req == 3).map fun r => (r, 3) }
    let c := { c with s := { c.s with handle := id + 1, hostOps := c.s.hostOps.put id o } }
    if o.open_.isEmpty && c.s.answered c.g c.sp then c.finishHost id o else c.waitFor (.hostAtomic id)

/-- An atomic: its checks, the close of its region, its steps. -/
def Cx.atomic (c : Cx) (f : Mem) (op : AtOp) : State :=
  c.irrevocable f fun m =>
    let S := f.ty.size
    let regs := (if op = .cas then 2 else 1) * (if f.ty.is64 then 2 else 1)
    if !c.fitsN f.data regs then c.illop
    else c.access f.space.toNat S S .atomic true (c.accesses f f.data.isV 0 S m) fun c ks =>
      if f.kind ≠ 0 && ks.any fun q => q.va.any c.wideWaits then c.waitFor .fence
      else c.reaching ks fun ks => c.commit fun c => c.atomicAll f op ks

def execAtadd (f : Mem) (s : State) : Outcome := s.issue fun c => c.atomic f .add
def execAtmin (f : Mem) (s : State) : Outcome := s.issue fun c => c.atomic f .min
def execAtmax (f : Mem) (s : State) : Outcome := s.issue fun c => c.atomic f .max
def execAtand (f : Mem) (s : State) : Outcome := s.issue fun c => c.atomic f .and
def execAtor (f : Mem) (s : State) : Outcome := s.issue fun c => c.atomic f .or
def execAtxor (f : Mem) (s : State) : Outcome := s.issue fun c => c.atomic f .xor
def execAtswp (f : Mem) (s : State) : Outcome := s.issue fun c => c.atomic f .swap
def execAtcas (f : Mem) (s : State) : Outcome := s.issue fun c => c.atomic f .cas

/-! ### Mortar updates -/

/-- op(old, v) of one element: 0 add, 1 min, 2 max, 3 mul (07 R174). -/
def updateElem (t : ETy) (op old v : Nat) : Nat :=
  if op = 3 then (if t.isFloat then mulCode t old v else mulW t.width old v) else combineOp t op old v

/-- Each element of a word. -/
def updateWord (t : ETy) (op old v : Nat) : Nat := ofElems t fun e => updateElem t op (elem t old e) (elem t v e)

def execMwupd (f : Mem) (s : State) : Outcome :=
  s.issue fun c => c.irrevocable f fun m =>
    c.access 2 4 4 .write false (c.accesses f true 0 4 m) fun c ks =>
      c.commit fun c =>
        let d := ks.foldl (fun (d : Cx) q =>
          d.putBy q (bytesOf 4 (updateWord f.ty f.kind.toNat (d.s.get d.G.fn q 4) (c.vsrc f.data .b32 q.lane))) true none) c
        { d with s := d.s.healPieces (ks.map fun (q : Admitted) => (q.key, 4)) }.retire

/-! ### Hod sends -/

/-- The scan operation that a KIND of hsend names: 0 add, 1 max, 2 min. -/
def hodOp (kind : Nat) : Nat := if kind = 1 then 2 else if kind = 2 then 1 else 0

/-- An address outside package HBM is found once every lane has its translation and its charge (log 53). -/
def execHsend (f : Mem) (s : State) : Outcome :=
  s.issue fun c => c.irrevocable f fun m =>
    let W := if f.ty.is64 then 8 else 4
    let xs := (lanesOf m).map fun l => (⟨l, (offset (c.sreg f.base.sNum).toNat f.offs + W * l) % 2 ^ 64⟩ : LaneAcc)
    c.access 0 W W .write false xs fun c ks =>
      let outside := ks.filter fun q => !decide (q.key < aperture)
      if !outside.isEmpty then c.faultLanes 0x04 .write 0 (outside.map fun q => ⟨q.lane, q.addr⟩)
      else if 63 ≤ c.G.k 3 then c.waitFor (.counter 3)
      else c.commit fun c =>
        let id := c.s.handle
        let op : HodOp :=
          { g := c.g, sp := c.sp, fn := c.G.fn, launch := c.G.launch, ty := f.ty, op := hodOp f.kind.toNat
            lanes := ks.map fun q => (q.lane, q.key, c.vsrc f.data f.ty q.lane), pieces := ks.map fun (q : Admitted) => (q.key, W) }
        { c with s := { c.s with handle := id + 1, hods := c.s.hods.put id op }, G := c.G.addOp 3 id }.retire

end Sys2Proof.Machine
end

