-- ==== Sys2Proof/Decode.lean ====
section
/-!
DEFINITION. Decoding and encoding of the 64-bit instruction word (02 R47, R48, R49, R53, R55, R56), from the formats' field
tables and the opcode map. `decode` answers none where an assigned opcode's word is malformed: such a word is the ILLOP of
02 R49 and no instruction. An unassigned opcode decodes to `unassignedOpcode`, which raises ILLOP in its turn (R56).
-/

namespace Sys2Proof

/-! ### Operand fields (02 R53) -/

/-- The code of a special source. -/
def Special.code : Special → Nat
  | .zero => 0xC0 | .lane => 0xC1 | .lslice => 0xC2 | .beatlane => 0xC3 | .split => 0xC4 | .gang => 0xC5
  | .teamx => 0xC6 | .teamy => 0xC7 | .teamz => 0xC8 | .thread => 0xC9 | .core => 0xCA | .quarter => 0xCB
  | .int n => 0xD0 + n.toNat
  | .one => 0xE0 | .m1 => 0xE1 | .two => 0xE2 | .half => 0xE3 | .max => 0xE4 | .min => 0xE5 | .nar => 0xE6

/-- The special source of a code; none for the reserved codes 0xCC to 0xCF and 0xE7 to 0xFF. -/
def Special.ofCode? (n : Nat) : Option Special :=
  if 0xD0 ≤ n ∧ n < 0xE0 then some (.int (BitVec.ofNat 4 (n - 0xD0)))
  else match n with
    | 0xC0 => some .zero | 0xC1 => some .lane | 0xC2 => some .lslice | 0xC3 => some .beatlane | 0xC4 => some .split
    | 0xC5 => some .gang | 0xC6 => some .teamx | 0xC7 => some .teamy | 0xC8 => some .teamz | 0xC9 => some .thread
    | 0xCA => some .core | 0xCB => some .quarter | 0xE0 => some .one | 0xE1 => some .m1 | 0xE2 => some .two
    | 0xE3 => some .half | 0xE4 => some .max | 0xE5 => some .min | 0xE6 => some .nar
    | _ => none

/-- The 8-bit operand field of an operand. -/
def Operand.code : Operand → Nat
  | .v n => n.toNat
  | .s n => 0x80 + n.toNat
  | .x c => c.code

/-- The operand an 8-bit field names; none for a reserved special code. -/
def Operand.ofCode? (n : Nat) : Option Operand :=
  if n < 0x80 then some (.v (BitVec.ofNat 7 n))
  else if n < 0xC0 then some (.s (BitVec.ofNat 6 (n - 0x80)))
  else (Special.ofCode? n).map .x

/-! ### The common upper fields and the formats (02 R47, R48) -/

def Ctl.bits (c : Ctl) : Nat := c.la.toNat * 2 ^ 50 + c.ge.toNat * 2 ^ 49 + c.gp.toNat * 2 ^ 46 + c.gn.toNat * 2 ^ 45

def Ctl.ofBits (w : Nat) : Ctl where
  la := BitVec.ofNat 4 (w / 2 ^ 50)
  ge := w / 2 ^ 49 % 2 == 1
  gp := BitVec.ofNat 3 (w / 2 ^ 46)
  gn := w / 2 ^ 45 % 2 == 1

/-- TRI words: the fields below the common ones. -/
def Tri.bits (f : Tri) : Nat :=
    f.ctl.bits + f.ty.code * 2 ^ 40 + f.dst.code * 2 ^ 32 + f.a.code * 2 ^ 24 + f.b.code * 2 ^ 16 + f.c.code * 2 ^ 8 +
    f.mod.toNat

def Tri.ofBits? (w : Nat) : Option Tri :=
  ((ETy.ofCode? (bitsN w 44 40)).bind fun ty =>
  ((Operand.ofCode? (bitsN w 39 32)).bind fun dst =>
  ((Operand.ofCode? (bitsN w 31 24)).bind fun a =>
  ((Operand.ofCode? (bitsN w 23 16)).bind fun b =>
  ((Operand.ofCode? (bitsN w 15 8)).bind fun c =>
    some { ctl := Ctl.ofBits w, ty := ty, dst := dst, a := a, b := b, c := c, mod := BitVec.ofNat 8 w })))))

/-- IMM words: the fields below the common ones. -/
def Imm.bits (f : Imm) : Nat :=
    f.ctl.bits + f.ty.code * 2 ^ 40 + f.dst.code * 2 ^ 32 + f.a.code * 2 ^ 24 + f.mod.toNat * 2 ^ 16 + f.imm.toNat

def Imm.ofBits? (w : Nat) : Option Imm :=
  ((ETy.ofCode? (bitsN w 44 40)).bind fun ty =>
  ((Operand.ofCode? (bitsN w 39 32)).bind fun dst =>
  ((Operand.ofCode? (bitsN w 31 24)).bind fun a =>
    some { ctl := Ctl.ofBits w, ty := ty, dst := dst, a := a, mod := BitVec.ofNat 8 (w / 2 ^ 16), imm := BitVec.ofNat 16 w })))

/-- MEM words: the fields below the common ones. -/
def Mem.bits (f : Mem) : Nat :=
    f.ctl.bits + f.ty.code * 2 ^ 40 + f.data.code * 2 ^ 32 + f.base.code * 2 ^ 24 + f.space.toNat * 2 ^ 21 +
    f.scope.toNat * 2 ^ 18 + f.kind.toNat * 2 ^ 16 + f.offs.toNat

def Mem.ofBits? (w : Nat) : Option Mem :=
  ((ETy.ofCode? (bitsN w 44 40)).bind fun ty =>
  ((Operand.ofCode? (bitsN w 39 32)).bind fun data =>
  ((Operand.ofCode? (bitsN w 31 24)).bind fun base =>
    some { ctl := Ctl.ofBits w, ty := ty, data := data, base := base, space := BitVec.ofNat 3 (w / 2 ^ 21), scope := BitVec.ofNat 3 (w / 2 ^ 18), kind := BitVec.ofNat 2 (w / 2 ^ 16), offs := BitVec.ofNat 16 w })))

/-- BR words: the fields below the common ones. -/
def Br.bits (f : Br) : Nat :=
    f.ctl.bits + f.cond.code * 2 ^ 37 + f.sub.toNat * 2 ^ 32 + f.disp.toNat

def Br.ofBits? (w : Nat) : Option Br :=
  ((Operand.ofCode? (bitsN w 44 37)).bind fun cond =>
    some { ctl := Ctl.ofBits w, cond := cond, sub := BitVec.ofNat 5 (w / 2 ^ 32), disp := BitVec.ofNat 32 w })

/-- MAT words: the fields below the common ones. -/
def Mat.bits (f : Mat) : Nat :=
    f.ctl.bits + f.tile.toNat * 2 ^ 39 + f.a.code * 2 ^ 31 + f.b.code * 2 ^ 23 + f.ta.code * 2 ^ 18 + f.tb.code * 2 ^ 13
    + f.sprs.toNat * 2 ^ 10 + f.scl.toNat * 2 ^ 8 + f.mod.toNat

def Mat.ofBits? (w : Nat) : Option Mat :=
  ((Operand.ofCode? (bitsN w 38 31)).bind fun a =>
  ((Operand.ofCode? (bitsN w 30 23)).bind fun b =>
  ((ETy.ofCode? (bitsN w 22 18)).bind fun ta =>
  ((ETy.ofCode? (bitsN w 17 13)).bind fun tb =>
    some { ctl := Ctl.ofBits w, tile := BitVec.ofNat 6 (w / 2 ^ 39), a := a, b := b, ta := ta, tb := tb, sprs := BitVec.ofNat 3 (w / 2 ^ 10), scl := BitVec.ofNat 2 (w / 2 ^ 8), mod := BitVec.ofNat 8 w }))))

/-- CPY words: the fields below the common ones. -/
def Cpy.bits (f : Cpy) : Nat :=
    f.ctl.bits + f.layout.code * 2 ^ 37 + f.dst.code * 2 ^ 29 + f.a.code * 2 ^ 21 + f.point.toNat * 2 ^ 16 +
    f.ring.toNat * 2 ^ 12 + f.mod.toNat

def Cpy.ofBits? (w : Nat) : Option Cpy :=
  ((Operand.ofCode? (bitsN w 44 37)).bind fun layout =>
  ((Operand.ofCode? (bitsN w 36 29)).bind fun dst =>
  ((Operand.ofCode? (bitsN w 28 21)).bind fun a =>
    some { ctl := Ctl.ofBits w, layout := layout, dst := dst, a := a, point := BitVec.ofNat 5 (w / 2 ^ 16), ring := BitVec.ofNat 4 (w / 2 ^ 12), mod := BitVec.ofNat 12 w })))

/-- SYS words: the fields below the common ones. -/
def Sys.bits (f : Sys) : Nat :=
    f.ctl.bits + f.dst.code * 2 ^ 37 + f.a.code * 2 ^ 29 + f.sub.toNat * 2 ^ 21 + f.imm.toNat

def Sys.ofBits? (w : Nat) : Option Sys :=
  ((Operand.ofCode? (bitsN w 44 37)).bind fun dst =>
  ((Operand.ofCode? (bitsN w 36 29)).bind fun a =>
    some { ctl := Ctl.ofBits w, dst := dst, a := a, sub := BitVec.ofNat 8 (w / 2 ^ 21), imm := BitVec.ofNat 21 w }))

/-! ### The opcode map (02 R55) -/

/-- The opcode and the format fields of an instruction; none of an event. -/
def Instr.opcode? : Instr → Option Nat
  | .br _ => some 0x010
  | .brs _ => some 0x011
  | .brz _ => some 0x012
  | .bra _ => some 0x013
  | .brl _ => some 0x014
  | .brd _ => some 0x015
  | .brsp _ => some 0x016
  | .brx _ => some 0x017
  | .brxd _ => some 0x018
  | .call _ => some 0x019
  | .callx _ => some 0x01A
  | .ret _ => some 0x01B
  | .meet _ => some 0x01C
  | .endLanes _ => some 0x01D
  | .nop _ => some 0x01E
  | .yield _ => some 0x01F
  | .gwidth _ => some 0x020
  | .gsplits _ => some 0x021
  | .gmember _ => some 0x022
  | .gactive _ => some 0x023
  | .lrank _ => some 0x024
  | .lfirst _ => some 0x025
  | .pand _ => some 0x030
  | .por _ => some 0x031
  | .pxor _ => some 0x032
  | .pandn _ => some 0x033
  | .pmov _ => some 0x034
  | .pfroms _ => some 0x035
  | .ptos _ => some 0x036
  | .vany _ => some 0x037
  | .vall _ => some 0x038
  | .ballot _ => some 0x039
  | .pcount _ => some 0x03A
  | .pfind _ => some 0x03B
  | .sadd _ => some 0x040
  | .ssub _ => some 0x041
  | .smul _ => some 0x042
  | .smulh _ => some 0x043
  | .sdiv _ => some 0x044
  | .srem _ => some 0x045
  | .sand _ => some 0x046
  | .sor _ => some 0x047
  | .sxor _ => some 0x048
  | .sandn _ => some 0x049
  | .sshl _ => some 0x04A
  | .sshr _ => some 0x04B
  | .ssra _ => some 0x04C
  | .smin _ => some 0x04D
  | .smax _ => some 0x04E
  | .scmp _ => some 0x04F
  | .ssel _ => some 0x050
  | .smad _ => some 0x051
  | .sclz _ => some 0x052
  | .spopc _ => some 0x053
  | .sbfx _ => some 0x054
  | .sbfi _ => some 0x055
  | .saddi _ => some 0x056
  | .sandi _ => some 0x057
  | .sori _ => some 0x058
  | .sxori _ => some 0x059
  | .smovi _ => some 0x05A
  | .smovhi _ => some 0x05B
  | .saddpc _ => some 0x05C
  | .scmpi _ => some 0x05D
  | .vadd _ => some 0x060
  | .vsub _ => some 0x061
  | .vmul _ => some 0x062
  | .vmulh _ => some 0x063
  | .vmad _ => some 0x064
  | .vaddsat _ => some 0x065
  | .vsubsat _ => some 0x066
  | .vand _ => some 0x067
  | .vor _ => some 0x068
  | .vxor _ => some 0x069
  | .vandn _ => some 0x06A
  | .vshl _ => some 0x06B
  | .vshr _ => some 0x06C
  | .vsra _ => some 0x06D
  | .vmin _ => some 0x06E
  | .vmax _ => some 0x06F
  | .vabs _ => some 0x070
  | .vneg _ => some 0x071
  | .vcmp _ => some 0x072
  | .vsel _ => some 0x073
  | .vclz _ => some 0x074
  | .vpopc _ => some 0x075
  | .vbfx _ => some 0x076
  | .vbfi _ => some 0x077
  | .vcvti _ => some 0x078
  | .vmovi _ => some 0x079
  | .vaddi _ => some 0x07A
  | .vandi _ => some 0x07B
  | .vori _ => some 0x07C
  | .fadd _ => some 0x080
  | .fsub _ => some 0x081
  | .fmul _ => some 0x082
  | .fma _ => some 0x083
  | .fms _ => some 0x084
  | .fnma _ => some 0x085
  | .fnms _ => some 0x086
  | .fmin _ => some 0x087
  | .fmax _ => some 0x088
  | .fabs _ => some 0x089
  | .fneg _ => some 0x08A
  | .fcmp _ => some 0x08B
  | .fsel _ => some 0x08C
  | .fclass _ => some 0x08D
  | .fcvt _ => some 0x08E
  | .fcvti _ => some 0x08F
  | .icvtf _ => some 0x090
  | .fscale _ => some 0x091
  | .frnd _ => some 0x092
  | .fdot2 _ => some 0x093
  | .fdot4 _ => some 0x094
  | .fpack _ => some 0x095
  | .funpack _ => some 0x096
  | .fregime _ => some 0x097
  | .ftwin _ => some 0x098
  | .faddi _ => some 0x099
  | .fmuli _ => some 0x09A
  | .fmai _ => some 0x09B
  | .fcmpi _ => some 0x09C
  | .fmini _ => some 0x09D
  | .fmaxi _ => some 0x09E
  | .frcp _ => some 0x0A0
  | .frsq _ => some 0x0A1
  | .fsqrt _ => some 0x0A2
  | .fexp2 _ => some 0x0A3
  | .flog2 _ => some 0x0A4
  | .fsin _ => some 0x0A5
  | .fcos _ => some 0x0A6
  | .ftanh _ => some 0x0A7
  | .fsigm _ => some 0x0A8
  | .ferf _ => some 0x0A9
  | .xshfl _ => some 0x0B0
  | .xbcast _ => some 0x0B1
  | .xup _ => some 0x0B2
  | .xdown _ => some 0x0B3
  | .xxor _ => some 0x0B4
  | .xscan _ => some 0x0B5
  | .xscanx _ => some 0x0B6
  | .xred _ => some 0x0B7
  | .mma _ => some 0x0C0
  | .mmaz _ => some 0x0C1
  | .azero _ => some 0x0C2
  | .aload _ => some 0x0C3
  | .astore _ => some 0x0C4
  | .aread _ => some 0x0C5
  | .awrite _ => some 0x0C6
  | .acvt _ => some 0x0C7
  | .aadd _ => some 0x0C8
  | .pairq _ => some 0x0C9
  | .ld _ => some 0x0D0
  | .st _ => some 0x0D1
  | .ldro _ => some 0x0D2
  | .ldg _ => some 0x0D3
  | .stg _ => some 0x0D4
  | .ldx _ => some 0x0D5
  | .stc _ => some 0x0D6
  | .atadd _ => some 0x0D7
  | .atmin _ => some 0x0D8
  | .atmax _ => some 0x0D9
  | .atand _ => some 0x0DA
  | .ator _ => some 0x0DB
  | .atxor _ => some 0x0DC
  | .atswp _ => some 0x0DD
  | .atcas _ => some 0x0DE
  | .mwupd _ => some 0x0DF
  | .hsend _ => some 0x0E0
  | .pref _ => some 0x0E1
  | .resid _ => some 0x0E2
  | .fence _ => some 0x0E3
  | .fencero _ => some 0x0E4
  | .bind _ => some 0x0E5
  | .unbind _ => some 0x0E6
  | .acq _ => some 0x0E7
  | .rel _ => some 0x0E8
  | .cpy _ => some 0x0F0
  | .cpyg _ => some 0x0F1
  | .cpys _ => some 0x0F2
  | .cpyc _ => some 0x0F3
  | .cpyred _ => some 0x0F4
  | .lpinit _ => some 0x0F5
  | .lpstart _ => some 0x0F6
  | .lpnext _ => some 0x0F7
  | .lpdone _ => some 0x0F8
  | .lpstop _ => some 0x0F9
  | .lpq _ => some 0x0FA
  | .jinit _ => some 0x100
  | .jarrive _ => some 0x101
  | .jwait _ => some 0x102
  | .jarwait _ => some 0x103
  | .ringinit _ => some 0x104
  | .ringput _ => some 0x105
  | .ringtake _ => some 0x106
  | .kwait _ => some 0x107
  | .region _ => some 0x110
  | .xret _ => some 0x111
  | .eret _ => some 0x112
  | .trap _ => some 0x113
  | .brk _ => some 0x11E
  | .scall _ => some 0x114
  | .cpop _ => some 0x115
  | .cpush _ => some 0x116
  | .cjoin _ => some 0x117
  | .mbsend _ => some 0x118
  | .mbrecv _ => some 0x119
  | .quotaq _ => some 0x11A
  | .cycq _ => some 0x11B
  | .capq _ => some 0x11D
  | .netsend _ => some 0x11C
  | _ => none

/-- The word with the given opcode and the given bits below it. -/
def asm (op fields : Nat) : BitVec 64 := BitVec.ofNat 64 (op * 2 ^ 54 + fields)

/-- The word of an instruction. An unassigned opcode is its own word; an event has none and answers 0. -/
def encode : Instr → BitVec 64
  | .br f => asm 0x010 f.bits
  | .brs f => asm 0x011 f.bits
  | .brz f => asm 0x012 f.bits
  | .bra f => asm 0x013 f.bits
  | .brl f => asm 0x014 f.bits
  | .brd f => asm 0x015 f.bits
  | .brsp f => asm 0x016 f.bits
  | .brx f => asm 0x017 f.bits
  | .brxd f => asm 0x018 f.bits
  | .call f => asm 0x019 f.bits
  | .callx f => asm 0x01A f.bits
  | .ret f => asm 0x01B f.bits
  | .meet f => asm 0x01C f.bits
  | .endLanes f => asm 0x01D f.bits
  | .nop f => asm 0x01E f.bits
  | .yield f => asm 0x01F f.bits
  | .gwidth f => asm 0x020 f.bits
  | .gsplits f => asm 0x021 f.bits
  | .gmember f => asm 0x022 f.bits
  | .gactive f => asm 0x023 f.bits
  | .lrank f => asm 0x024 f.bits
  | .lfirst f => asm 0x025 f.bits
  | .pand f => asm 0x030 f.bits
  | .por f => asm 0x031 f.bits
  | .pxor f => asm 0x032 f.bits
  | .pandn f => asm 0x033 f.bits
  | .pmov f => asm 0x034 f.bits
  | .pfroms f => asm 0x035 f.bits
  | .ptos f => asm 0x036 f.bits
  | .vany f => asm 0x037 f.bits
  | .vall f => asm 0x038 f.bits
  | .ballot f => asm 0x039 f.bits
  | .pcount f => asm 0x03A f.bits
  | .pfind f => asm 0x03B f.bits
  | .sadd f => asm 0x040 f.bits
  | .ssub f => asm 0x041 f.bits
  | .smul f => asm 0x042 f.bits
  | .smulh f => asm 0x043 f.bits
  | .sdiv f => asm 0x044 f.bits
  | .srem f => asm 0x045 f.bits
  | .sand f => asm 0x046 f.bits
  | .sor f => asm 0x047 f.bits
  | .sxor f => asm 0x048 f.bits
  | .sandn f => asm 0x049 f.bits
  | .sshl f => asm 0x04A f.bits
  | .sshr f => asm 0x04B f.bits
  | .ssra f => asm 0x04C f.bits
  | .smin f => asm 0x04D f.bits
  | .smax f => asm 0x04E f.bits
  | .scmp f => asm 0x04F f.bits
  | .ssel f => asm 0x050 f.bits
  | .smad f => asm 0x051 f.bits
  | .sclz f => asm 0x052 f.bits
  | .spopc f => asm 0x053 f.bits
  | .sbfx f => asm 0x054 f.bits
  | .sbfi f => asm 0x055 f.bits
  | .saddi f => asm 0x056 f.bits
  | .sandi f => asm 0x057 f.bits
  | .sori f => asm 0x058 f.bits
  | .sxori f => asm 0x059 f.bits
  | .smovi f => asm 0x05A f.bits
  | .smovhi f => asm 0x05B f.bits
  | .saddpc f => asm 0x05C f.bits
  | .scmpi f => asm 0x05D f.bits
  | .vadd f => asm 0x060 f.bits
  | .vsub f => asm 0x061 f.bits
  | .vmul f => asm 0x062 f.bits
  | .vmulh f => asm 0x063 f.bits
  | .vmad f => asm 0x064 f.bits
  | .vaddsat f => asm 0x065 f.bits
  | .vsubsat f => asm 0x066 f.bits
  | .vand f => asm 0x067 f.bits
  | .vor f => asm 0x068 f.bits
  | .vxor f => asm 0x069 f.bits
  | .vandn f => asm 0x06A f.bits
  | .vshl f => asm 0x06B f.bits
  | .vshr f => asm 0x06C f.bits
  | .vsra f => asm 0x06D f.bits
  | .vmin f => asm 0x06E f.bits
  | .vmax f => asm 0x06F f.bits
  | .vabs f => asm 0x070 f.bits
  | .vneg f => asm 0x071 f.bits
  | .vcmp f => asm 0x072 f.bits
  | .vsel f => asm 0x073 f.bits
  | .vclz f => asm 0x074 f.bits
  | .vpopc f => asm 0x075 f.bits
  | .vbfx f => asm 0x076 f.bits
  | .vbfi f => asm 0x077 f.bits
  | .vcvti f => asm 0x078 f.bits
  | .vmovi f => asm 0x079 f.bits
  | .vaddi f => asm 0x07A f.bits
  | .vandi f => asm 0x07B f.bits
  | .vori f => asm 0x07C f.bits
  | .fadd f => asm 0x080 f.bits
  | .fsub f => asm 0x081 f.bits
  | .fmul f => asm 0x082 f.bits
  | .fma f => asm 0x083 f.bits
  | .fms f => asm 0x084 f.bits
  | .fnma f => asm 0x085 f.bits
  | .fnms f => asm 0x086 f.bits
  | .fmin f => asm 0x087 f.bits
  | .fmax f => asm 0x088 f.bits
  | .fabs f => asm 0x089 f.bits
  | .fneg f => asm 0x08A f.bits
  | .fcmp f => asm 0x08B f.bits
  | .fsel f => asm 0x08C f.bits
  | .fclass f => asm 0x08D f.bits
  | .fcvt f => asm 0x08E f.bits
  | .fcvti f => asm 0x08F f.bits
  | .icvtf f => asm 0x090 f.bits
  | .fscale f => asm 0x091 f.bits
  | .frnd f => asm 0x092 f.bits
  | .fdot2 f => asm 0x093 f.bits
  | .fdot4 f => asm 0x094 f.bits
  | .fpack f => asm 0x095 f.bits
  | .funpack f => asm 0x096 f.bits
  | .fregime f => asm 0x097 f.bits
  | .ftwin f => asm 0x098 f.bits
  | .faddi f => asm 0x099 f.bits
  | .fmuli f => asm 0x09A f.bits
  | .fmai f => asm 0x09B f.bits
  | .fcmpi f => asm 0x09C f.bits
  | .fmini f => asm 0x09D f.bits
  | .fmaxi f => asm 0x09E f.bits
  | .frcp f => asm 0x0A0 f.bits
  | .frsq f => asm 0x0A1 f.bits
  | .fsqrt f => asm 0x0A2 f.bits
  | .fexp2 f => asm 0x0A3 f.bits
  | .flog2 f => asm 0x0A4 f.bits
  | .fsin f => asm 0x0A5 f.bits
  | .fcos f => asm 0x0A6 f.bits
  | .ftanh f => asm 0x0A7 f.bits
  | .fsigm f => asm 0x0A8 f.bits
  | .ferf f => asm 0x0A9 f.bits
  | .xshfl f => asm 0x0B0 f.bits
  | .xbcast f => asm 0x0B1 f.bits
  | .xup f => asm 0x0B2 f.bits
  | .xdown f => asm 0x0B3 f.bits
  | .xxor f => asm 0x0B4 f.bits
  | .xscan f => asm 0x0B5 f.bits
  | .xscanx f => asm 0x0B6 f.bits
  | .xred f => asm 0x0B7 f.bits
  | .mma f => asm 0x0C0 f.bits
  | .mmaz f => asm 0x0C1 f.bits
  | .azero f => asm 0x0C2 f.bits
  | .aload f => asm 0x0C3 f.bits
  | .astore f => asm 0x0C4 f.bits
  | .aread f => asm 0x0C5 f.bits
  | .awrite f => asm 0x0C6 f.bits
  | .acvt f => asm 0x0C7 f.bits
  | .aadd f => asm 0x0C8 f.bits
  | .pairq f => asm 0x0C9 f.bits
  | .ld f => asm 0x0D0 f.bits
  | .st f => asm 0x0D1 f.bits
  | .ldro f => asm 0x0D2 f.bits
  | .ldg f => asm 0x0D3 f.bits
  | .stg f => asm 0x0D4 f.bits
  | .ldx f => asm 0x0D5 f.bits
  | .stc f => asm 0x0D6 f.bits
  | .atadd f => asm 0x0D7 f.bits
  | .atmin f => asm 0x0D8 f.bits
  | .atmax f => asm 0x0D9 f.bits
  | .atand f => asm 0x0DA f.bits
  | .ator f => asm 0x0DB f.bits
  | .atxor f => asm 0x0DC f.bits
  | .atswp f => asm 0x0DD f.bits
  | .atcas f => asm 0x0DE f.bits
  | .mwupd f => asm 0x0DF f.bits
  | .hsend f => asm 0x0E0 f.bits
  | .pref f => asm 0x0E1 f.bits
  | .resid f => asm 0x0E2 f.bits
  | .fence f => asm 0x0E3 f.bits
  | .fencero f => asm 0x0E4 f.bits
  | .bind f => asm 0x0E5 f.bits
  | .unbind f => asm 0x0E6 f.bits
  | .acq f => asm 0x0E7 f.bits
  | .rel f => asm 0x0E8 f.bits
  | .cpy f => asm 0x0F0 f.bits
  | .cpyg f => asm 0x0F1 f.bits
  | .cpys f => asm 0x0F2 f.bits
  | .cpyc f => asm 0x0F3 f.bits
  | .cpyred f => asm 0x0F4 f.bits
  | .lpinit f => asm 0x0F5 f.bits
  | .lpstart f => asm 0x0F6 f.bits
  | .lpnext f => asm 0x0F7 f.bits
  | .lpdone f => asm 0x0F8 f.bits
  | .lpstop f => asm 0x0F9 f.bits
  | .lpq f => asm 0x0FA f.bits
  | .jinit f => asm 0x100 f.bits
  | .jarrive f => asm 0x101 f.bits
  | .jwait f => asm 0x102 f.bits
  | .jarwait f => asm 0x103 f.bits
  | .ringinit f => asm 0x104 f.bits
  | .ringput f => asm 0x105 f.bits
  | .ringtake f => asm 0x106 f.bits
  | .kwait f => asm 0x107 f.bits
  | .region f => asm 0x110 f.bits
  | .xret f => asm 0x111 f.bits
  | .eret f => asm 0x112 f.bits
  | .trap f => asm 0x113 f.bits
  | .brk f => asm 0x11E f.bits
  | .scall f => asm 0x114 f.bits
  | .cpop f => asm 0x115 f.bits
  | .cpush f => asm 0x116 f.bits
  | .cjoin f => asm 0x117 f.bits
  | .mbsend f => asm 0x118 f.bits
  | .mbrecv f => asm 0x119 f.bits
  | .quotaq f => asm 0x11A f.bits
  | .cycq f => asm 0x11B f.bits
  | .capq f => asm 0x11D f.bits
  | .netsend f => asm 0x11C f.bits
  | .unassignedOpcode w => w
  | _ => 0

/-- The instruction of an opcode and its operand fields, before the checks of WellFormed. -/
def decodeGroup01 (op w : Nat) (word : BitVec 64) : Option Instr :=
  match op with
  | 0x010 => (Br.ofBits? w).map .br
  | 0x011 => (Br.ofBits? w).map .brs
  | 0x012 => (Br.ofBits? w).map .brz
  | 0x013 => (Br.ofBits? w).map .bra
  | 0x014 => (Br.ofBits? w).map .brl
  | 0x015 => (Br.ofBits? w).map .brd
  | 0x016 => (Br.ofBits? w).map .brsp
  | 0x017 => (Br.ofBits? w).map .brx
  | 0x018 => (Br.ofBits? w).map .brxd
  | 0x019 => (Br.ofBits? w).map .call
  | 0x01A => (Br.ofBits? w).map .callx
  | 0x01B => (Br.ofBits? w).map .ret
  | 0x01C => (Sys.ofBits? w).map .meet
  | 0x01D => (Sys.ofBits? w).map .endLanes
  | 0x01E => (Sys.ofBits? w).map .nop
  | 0x01F => (Sys.ofBits? w).map .yield
  | _ => some (.unassignedOpcode word)

def decodeGroup02 (op w : Nat) (word : BitVec 64) : Option Instr :=
  match op with
  | 0x020 => (Sys.ofBits? w).map .gwidth
  | 0x021 => (Sys.ofBits? w).map .gsplits
  | 0x022 => (Sys.ofBits? w).map .gmember
  | 0x023 => (Sys.ofBits? w).map .gactive
  | 0x024 => (Sys.ofBits? w).map .lrank
  | 0x025 => (Sys.ofBits? w).map .lfirst
  | _ => some (.unassignedOpcode word)

def decodeGroup03 (op w : Nat) (word : BitVec 64) : Option Instr :=
  match op with
  | 0x030 => (Tri.ofBits? w).map .pand
  | 0x031 => (Tri.ofBits? w).map .por
  | 0x032 => (Tri.ofBits? w).map .pxor
  | 0x033 => (Tri.ofBits? w).map .pandn
  | 0x034 => (Tri.ofBits? w).map .pmov
  | 0x035 => (Tri.ofBits? w).map .pfroms
  | 0x036 => (Tri.ofBits? w).map .ptos
  | 0x037 => (Tri.ofBits? w).map .vany
  | 0x038 => (Tri.ofBits? w).map .vall
  | 0x039 => (Tri.ofBits? w).map .ballot
  | 0x03A => (Tri.ofBits? w).map .pcount
  | 0x03B => (Tri.ofBits? w).map .pfind
  | _ => some (.unassignedOpcode word)

def decodeGroup04 (op w : Nat) (word : BitVec 64) : Option Instr :=
  match op with
  | 0x040 => (Tri.ofBits? w).map .sadd
  | 0x041 => (Tri.ofBits? w).map .ssub
  | 0x042 => (Tri.ofBits? w).map .smul
  | 0x043 => (Tri.ofBits? w).map .smulh
  | 0x044 => (Tri.ofBits? w).map .sdiv
  | 0x045 => (Tri.ofBits? w).map .srem
  | 0x046 => (Tri.ofBits? w).map .sand
  | 0x047 => (Tri.ofBits? w).map .sor
  | 0x048 => (Tri.ofBits? w).map .sxor
  | 0x049 => (Tri.ofBits? w).map .sandn
  | 0x04A => (Tri.ofBits? w).map .sshl
  | 0x04B => (Tri.ofBits? w).map .sshr
  | 0x04C => (Tri.ofBits? w).map .ssra
  | 0x04D => (Tri.ofBits? w).map .smin
  | 0x04E => (Tri.ofBits? w).map .smax
  | 0x04F => (Tri.ofBits? w).map .scmp
  | _ => some (.unassignedOpcode word)

def decodeGroup05 (op w : Nat) (word : BitVec 64) : Option Instr :=
  match op with
  | 0x050 => (Tri.ofBits? w).map .ssel
  | 0x051 => (Tri.ofBits? w).map .smad
  | 0x052 => (Tri.ofBits? w).map .sclz
  | 0x053 => (Tri.ofBits? w).map .spopc
  | 0x054 => (Tri.ofBits? w).map .sbfx
  | 0x055 => (Tri.ofBits? w).map .sbfi
  | 0x056 => (Imm.ofBits? w).map .saddi
  | 0x057 => (Imm.ofBits? w).map .sandi
  | 0x058 => (Imm.ofBits? w).map .sori
  | 0x059 => (Imm.ofBits? w).map .sxori
  | 0x05A => (Imm.ofBits? w).map .smovi
  | 0x05B => (Imm.ofBits? w).map .smovhi
  | 0x05C => (Imm.ofBits? w).map .saddpc
  | 0x05D => (Imm.ofBits? w).map .scmpi
  | _ => some (.unassignedOpcode word)

def decodeGroup06 (op w : Nat) (word : BitVec 64) : Option Instr :=
  match op with
  | 0x060 => (Tri.ofBits? w).map .vadd
  | 0x061 => (Tri.ofBits? w).map .vsub
  | 0x062 => (Tri.ofBits? w).map .vmul
  | 0x063 => (Tri.ofBits? w).map .vmulh
  | 0x064 => (Tri.ofBits? w).map .vmad
  | 0x065 => (Tri.ofBits? w).map .vaddsat
  | 0x066 => (Tri.ofBits? w).map .vsubsat
  | 0x067 => (Tri.ofBits? w).map .vand
  | 0x068 => (Tri.ofBits? w).map .vor
  | 0x069 => (Tri.ofBits? w).map .vxor
  | 0x06A => (Tri.ofBits? w).map .vandn
  | 0x06B => (Tri.ofBits? w).map .vshl
  | 0x06C => (Tri.ofBits? w).map .vshr
  | 0x06D => (Tri.ofBits? w).map .vsra
  | 0x06E => (Tri.ofBits? w).map .vmin
  | 0x06F => (Tri.ofBits? w).map .vmax
  | _ => some (.unassignedOpcode word)

def decodeGroup07 (op w : Nat) (word : BitVec 64) : Option Instr :=
  match op with
  | 0x070 => (Tri.ofBits? w).map .vabs
  | 0x071 => (Tri.ofBits? w).map .vneg
  | 0x072 => (Tri.ofBits? w).map .vcmp
  | 0x073 => (Tri.ofBits? w).map .vsel
  | 0x074 => (Tri.ofBits? w).map .vclz
  | 0x075 => (Tri.ofBits? w).map .vpopc
  | 0x076 => (Tri.ofBits? w).map .vbfx
  | 0x077 => (Tri.ofBits? w).map .vbfi
  | 0x078 => (Tri.ofBits? w).map .vcvti
  | 0x079 => (Imm.ofBits? w).map .vmovi
  | 0x07A => (Imm.ofBits? w).map .vaddi
  | 0x07B => (Imm.ofBits? w).map .vandi
  | 0x07C => (Imm.ofBits? w).map .vori
  | _ => some (.unassignedOpcode word)

def decodeGroup08 (op w : Nat) (word : BitVec 64) : Option Instr :=
  match op with
  | 0x080 => (Tri.ofBits? w).map .fadd
  | 0x081 => (Tri.ofBits? w).map .fsub
  | 0x082 => (Tri.ofBits? w).map .fmul
  | 0x083 => (Tri.ofBits? w).map .fma
  | 0x084 => (Tri.ofBits? w).map .fms
  | 0x085 => (Tri.ofBits? w).map .fnma
  | 0x086 => (Tri.ofBits? w).map .fnms
  | 0x087 => (Tri.ofBits? w).map .fmin
  | 0x088 => (Tri.ofBits? w).map .fmax
  | 0x089 => (Tri.ofBits? w).map .fabs
  | 0x08A => (Tri.ofBits? w).map .fneg
  | 0x08B => (Tri.ofBits? w).map .fcmp
  | 0x08C => (Tri.ofBits? w).map .fsel
  | 0x08D => (Tri.ofBits? w).map .fclass
  | 0x08E => (Tri.ofBits? w).map .fcvt
  | 0x08F => (Tri.ofBits? w).map .fcvti
  | _ => some (.unassignedOpcode word)

def decodeGroup09 (op w : Nat) (word : BitVec 64) : Option Instr :=
  match op with
  | 0x090 => (Tri.ofBits? w).map .icvtf
  | 0x091 => (Tri.ofBits? w).map .fscale
  | 0x092 => (Tri.ofBits? w).map .frnd
  | 0x093 => (Tri.ofBits? w).map .fdot2
  | 0x094 => (Tri.ofBits? w).map .fdot4
  | 0x095 => (Tri.ofBits? w).map .fpack
  | 0x096 => (Tri.ofBits? w).map .funpack
  | 0x097 => (Tri.ofBits? w).map .fregime
  | 0x098 => (Tri.ofBits? w).map .ftwin
  | 0x099 => (Imm.ofBits? w).map .faddi
  | 0x09A => (Imm.ofBits? w).map .fmuli
  | 0x09B => (Imm.ofBits? w).map .fmai
  | 0x09C => (Imm.ofBits? w).map .fcmpi
  | 0x09D => (Imm.ofBits? w).map .fmini
  | 0x09E => (Imm.ofBits? w).map .fmaxi
  | _ => some (.unassignedOpcode word)

def decodeGroup0A (op w : Nat) (word : BitVec 64) : Option Instr :=
  match op with
  | 0x0A0 => (Tri.ofBits? w).map .frcp
  | 0x0A1 => (Tri.ofBits? w).map .frsq
  | 0x0A2 => (Tri.ofBits? w).map .fsqrt
  | 0x0A3 => (Tri.ofBits? w).map .fexp2
  | 0x0A4 => (Tri.ofBits? w).map .flog2
  | 0x0A5 => (Tri.ofBits? w).map .fsin
  | 0x0A6 => (Tri.ofBits? w).map .fcos
  | 0x0A7 => (Tri.ofBits? w).map .ftanh
  | 0x0A8 => (Tri.ofBits? w).map .fsigm
  | 0x0A9 => (Tri.ofBits? w).map .ferf
  | _ => some (.unassignedOpcode word)

def decodeGroup0B (op w : Nat) (word : BitVec 64) : Option Instr :=
  match op with
  | 0x0B0 => (Tri.ofBits? w).map .xshfl
  | 0x0B1 => (Tri.ofBits? w).map .xbcast
  | 0x0B2 => (Tri.ofBits? w).map .xup
  | 0x0B3 => (Tri.ofBits? w).map .xdown
  | 0x0B4 => (Tri.ofBits? w).map .xxor
  | 0x0B5 => (Tri.ofBits? w).map .xscan
  | 0x0B6 => (Tri.ofBits? w).map .xscanx
  | 0x0B7 => (Tri.ofBits? w).map .xred
  | _ => some (.unassignedOpcode word)

def decodeGroup0C (op w : Nat) (word : BitVec 64) : Option Instr :=
  match op with
  | 0x0C0 => (Mat.ofBits? w).map .mma
  | 0x0C1 => (Mat.ofBits? w).map .mmaz
  | 0x0C2 => (Mat.ofBits? w).map .azero
  | 0x0C3 => (Mem.ofBits? w).map .aload
  | 0x0C4 => (Mem.ofBits? w).map .astore
  | 0x0C5 => (Mat.ofBits? w).map .aread
  | 0x0C6 => (Mat.ofBits? w).map .awrite
  | 0x0C7 => (Mat.ofBits? w).map .acvt
  | 0x0C8 => (Mat.ofBits? w).map .aadd
  | 0x0C9 => (Sys.ofBits? w).map .pairq
  | _ => some (.unassignedOpcode word)

def decodeGroup0D (op w : Nat) (word : BitVec 64) : Option Instr :=
  match op with
  | 0x0D0 => (Mem.ofBits? w).map .ld
  | 0x0D1 => (Mem.ofBits? w).map .st
  | 0x0D2 => (Mem.ofBits? w).map .ldro
  | 0x0D3 => (Mem.ofBits? w).map .ldg
  | 0x0D4 => (Mem.ofBits? w).map .stg
  | 0x0D5 => (Mem.ofBits? w).map .ldx
  | 0x0D6 => (Mem.ofBits? w).map .stc
  | 0x0D7 => (Mem.ofBits? w).map .atadd
  | 0x0D8 => (Mem.ofBits? w).map .atmin
  | 0x0D9 => (Mem.ofBits? w).map .atmax
  | 0x0DA => (Mem.ofBits? w).map .atand
  | 0x0DB => (Mem.ofBits? w).map .ator
  | 0x0DC => (Mem.ofBits? w).map .atxor
  | 0x0DD => (Mem.ofBits? w).map .atswp
  | 0x0DE => (Mem.ofBits? w).map .atcas
  | 0x0DF => (Mem.ofBits? w).map .mwupd
  | _ => some (.unassignedOpcode word)

def decodeGroup0E (op w : Nat) (word : BitVec 64) : Option Instr :=
  match op with
  | 0x0E0 => (Mem.ofBits? w).map .hsend
  | 0x0E1 => (Mem.ofBits? w).map .pref
  | 0x0E2 => (Mem.ofBits? w).map .resid
  | 0x0E3 => (Mem.ofBits? w).map .fence
  | 0x0E4 => (Mem.ofBits? w).map .fencero
  | 0x0E5 => (Mem.ofBits? w).map .bind
  | 0x0E6 => (Mem.ofBits? w).map .unbind
  | 0x0E7 => (Mem.ofBits? w).map .acq
  | 0x0E8 => (Mem.ofBits? w).map .rel
  | _ => some (.unassignedOpcode word)

def decodeGroup0F (op w : Nat) (word : BitVec 64) : Option Instr :=
  match op with
  | 0x0F0 => (Cpy.ofBits? w).map .cpy
  | 0x0F1 => (Cpy.ofBits? w).map .cpyg
  | 0x0F2 => (Cpy.ofBits? w).map .cpys
  | 0x0F3 => (Cpy.ofBits? w).map .cpyc
  | 0x0F4 => (Cpy.ofBits? w).map .cpyred
  | 0x0F5 => (Cpy.ofBits? w).map .lpinit
  | 0x0F6 => (Cpy.ofBits? w).map .lpstart
  | 0x0F7 => (Cpy.ofBits? w).map .lpnext
  | 0x0F8 => (Cpy.ofBits? w).map .lpdone
  | 0x0F9 => (Cpy.ofBits? w).map .lpstop
  | 0x0FA => (Cpy.ofBits? w).map .lpq
  | _ => some (.unassignedOpcode word)

def decodeGroup10 (op w : Nat) (word : BitVec 64) : Option Instr :=
  match op with
  | 0x100 => (Sys.ofBits? w).map .jinit
  | 0x101 => (Sys.ofBits? w).map .jarrive
  | 0x102 => (Sys.ofBits? w).map .jwait
  | 0x103 => (Sys.ofBits? w).map .jarwait
  | 0x104 => (Sys.ofBits? w).map .ringinit
  | 0x105 => (Sys.ofBits? w).map .ringput
  | 0x106 => (Sys.ofBits? w).map .ringtake
  | 0x107 => (Sys.ofBits? w).map .kwait
  | _ => some (.unassignedOpcode word)

def decodeGroup11 (op w : Nat) (word : BitVec 64) : Option Instr :=
  match op with
  | 0x110 => (Sys.ofBits? w).map .region
  | 0x111 => (Sys.ofBits? w).map .xret
  | 0x112 => (Sys.ofBits? w).map .eret
  | 0x113 => (Sys.ofBits? w).map .trap
  | 0x11E => (Sys.ofBits? w).map .brk
  | 0x114 => (Sys.ofBits? w).map .scall
  | 0x115 => (Sys.ofBits? w).map .cpop
  | 0x116 => (Sys.ofBits? w).map .cpush
  | 0x117 => (Sys.ofBits? w).map .cjoin
  | 0x118 => (Sys.ofBits? w).map .mbsend
  | 0x119 => (Sys.ofBits? w).map .mbrecv
  | 0x11A => (Sys.ofBits? w).map .quotaq
  | 0x11B => (Sys.ofBits? w).map .cycq
  | 0x11D => (Sys.ofBits? w).map .capq
  | 0x11C => (Sys.ofBits? w).map .netsend
  | _ => some (.unassignedOpcode word)

/-- The opcode map by its upper six bits. -/
def decodeFields (word : BitVec 64) : Option Instr :=
  let w := word.toNat
  let op := bitsN w 63 54
  match op / 16 with
  | 0x01 => decodeGroup01 op w word
  | 0x02 => decodeGroup02 op w word
  | 0x03 => decodeGroup03 op w word
  | 0x04 => decodeGroup04 op w word
  | 0x05 => decodeGroup05 op w word
  | 0x06 => decodeGroup06 op w word
  | 0x07 => decodeGroup07 op w word
  | 0x08 => decodeGroup08 op w word
  | 0x09 => decodeGroup09 op w word
  | 0x0A => decodeGroup0A op w word
  | 0x0B => decodeGroup0B op w word
  | 0x0C => decodeGroup0C op w word
  | 0x0D => decodeGroup0D op w word
  | 0x0E => decodeGroup0E op w word
  | 0x0F => decodeGroup0F op w word
  | 0x10 => decodeGroup10 op w word
  | 0x11 => decodeGroup11 op w word
  | _ => some (.unassignedOpcode word)

/-- The instruction of a word; none where the opcode is assigned and the word malformed (02 R49). -/
def decode (w : BitVec 64) : Option Instr :=
  (decodeFields w).filter Instr.wf

/-- The instruction read from an opcode-table word: one little-endian 64-bit word, the bits above `nbits` zero. -/
def decodeTableWord (nbits w : Nat) : Option Instr :=
  decode (BitVec.ofNat 64 (w % 2 ^ min nbits 64))

end Sys2Proof
end

