-- ==== Sys2Proof/Machine/Fetch.lean ====
section
/-!
DEFINITION. Fetching a clause and its region descriptor, and the checks made on them (02 R39, R42, R46, R55; 09 R217,
R218).
-/

namespace Sys2Proof.Machine

/-- A fetch's outcome: what was read, or the fault's code, the address that failed and the kind of access. -/
inductive Fetched (α : Type)
  | ok (x : α)
  | fault (code addr acc : Nat)
  deriving DecidableEq, Repr

/-- A word of code that has been written since the launch was taken reads as it stood then or at some time since, a free
choice (02 R45; log 12). -/
def State.codeWord (s : State) (f since n k : Nat) : Word :=
  let places := changesOf k 8 since s.order
  match places with
  | [] => BitVec.ofNat 64 (s.read f k 8)
  | _ =>
    match places[(Config.freeValue (s.tick + n)).toNat % (places.length + 1)]? with
    | none => BitVec.ofNat 64 (s.read f k 8)
    | some p => BitVec.ofNat 64 (ofBytes ((List.range 8).map fun i => (heldAt (k + i) p s.order).getD (s.readByte f (k + i))))

/-- One word at a virtual address, under a kind of access: as it reads now, or word `n` of a clause of a launch taken at
`since`. A fetch is never charged to a quota (20 R325). -/
def State.fetchWord (s : State) (f : Nat) (since : Option Nat) (n va : Nat) (acc : Acc) : Fetched Word :=
  match s.translate f va acc with
  | .fault c => .fault c va acc.code
  | .ok w =>
    if s.poisoned w.key 8 then .fault 0x11 va acc.code
    else .ok (match since with
      | some p => s.codeWord f p n w.key
      | none => BitVec.ofNat 64 (s.read f w.key 8))

/-- `n` words from a virtual address, in ascending order; the first that fails decides. -/
def State.fetchWords (s : State) (f : Nat) (since : Option Nat) (acc : Acc) : Nat → Nat → Fetched (List Word)
  | 0, _ => .ok []
  | n + 1, va =>
    match s.fetchWord f since (n + 1) va acc with
    | .fault c a x => .fault c a x
    | .ok w =>
      match s.fetchWords f since acc n (va + 8) with
      | .fault c a x => .fault c a x
      | .ok ws => .ok (w :: ws)

/-- Instructions of a clause (02 R39). -/
def headerCount (h : Word) : Nat := h.field 59 56 + 1

/-- Engine class of an opcode (02 R55); none for an unassigned one. -/
def opcodeClass (op : Nat) : Option Nat :=
  let among := fun (lo hi : Nat) => decide (lo ≤ op) && decide (op ≤ hi)
  if among 0x010 0x025 || among 0x030 0x03B || among 0x040 0x05D || among 0x060 0x07C || among 0x080 0x09E
      || among 0x0A0 0x0A9 || among 0x0B0 0x0B7 || among 0x0D0 0x0E8 then some 0
  else if among 0x0C0 0x0C9 then some 1
  else if among 0x0F0 0x0FA then some 2
  else if among 0x100 0x107 then some 3
  else if among 0x110 0x11E then some 4
  else none

/-- Control transfers (02 R40): br to ret, xret and eret. -/
def isTransfer (op : Nat) : Bool := (decide (0x010 ≤ op) && decide (op ≤ 0x01B)) || op == 0x111 || op == 0x112

def isMarker (w : Word) : Bool := opcodeOf w == 0x110

/-- A defect of R46 that is detected at fetch. -/
def clauseDefect (h : Word) (ws : List Word) : Bool :=
  let cls := h.field 63 60
  decide (5 ≤ cls) || h.field 15 0 != 0
    || ws.any (fun w => (opcodeClass (opcodeOf w)).any (· != cls))
    || ws.dropLast.any (fun w => isTransfer (opcodeOf w) || isIrrevocable w)
    || ws.tail.any isMarker

/-- The instruction the split issues next. -/
def Cx.instr? (c : Cx) : Option Instr := c.word?.bind decode

/-- Where the descriptor of a marker lies (09 R216). -/
def descAddr (hdr : Nat) (marker : Word) : Nat := wrapInt64 (hdr + 8 * sext21 (marker.field 20 0))
where
  sext21 (x : Nat) : Int := if x < 2 ^ 20 then x else (x : Int) - 2 ^ 21
  wrapInt64 (x : Int) : Nat := (x % (2 ^ 64 : Nat)).toNat

/-- A clause with the descriptor its first instruction names, if that is a region marker. -/
structure Code where
  header : Word
  words : List Word
  desc : List Word
  deriving DecidableEq, Repr

/-- Fetch a clause of a launch taken at `since` whole, then the descriptor, which is data (02 R42, R45; 09 R218). -/
def State.fetchClause (s : State) (f since va : Nat) : Fetched Code :=
  match s.fetchWord f (some since) 0 va .exec with
  | .fault c a x => .fault c a x
  | .ok h =>
    match s.fetchWords f (some since) .exec (headerCount h) (va + 8) with
    | .fault c a x => .fault c a x
    | .ok ws =>
      if ws.head?.any isMarker then
        match s.fetchWords f none .read 8 (descAddr va (ws.headD 0)) with
        | .fault c a x => .fault c a x
        | .ok d => .ok { header := h, words := ws, desc := d }
      else .ok { header := h, words := ws, desc := [] }

/-- Fetch a clause of the split's launch. -/
def Cx.fetch (c : Cx) (va : Nat) : Fetched Code := c.s.fetchClause c.G.fn (c.s.launchOf c.G).since va

/-- The lines of a clause at a header, and of its descriptor, if they can be translated: 17 words at most. -/
def State.codeKeys (s : State) (f va : Nat) : List Nat :=
  ((List.range 17).filterMap fun i => match s.walk f (va + 8 * i) with
    | .ok w => some (w.key / 128)
    | .fault _ => none).eraseDups.map (128 * ·)

/-- A fetch of the clause at an address is held: its header, or a word or the descriptor that the header and the marker name. -/
def Cx.fetchHeld (c : Cx) (va : Nat) : Bool :=
  let f := c.G.fn
  let word := fun a acc => c.s.fetchWord f none 0 a acc
  c.s.heldVa f va || match word va .exec with
    | .fault _ _ _ => false
    | .ok h => (List.range (headerCount h)).any (fun i => c.s.heldVa f (va + 8 + 8 * i)) ||
        match word (va + 8) .exec with
        | .ok w => isMarker w && (List.range 8).any fun i => c.s.heldVa f (descAddr va w + 8 * i)
        | .fault _ _ _ => false

/-- The free values of a fetch are used up, and its lines are tracked (22 R342). -/
def Cx.fetched (c : Cx) : Cx :=
  let s := (c.s.codeKeys c.G.fn c.P.pc).foldl (fun s k => s.track false k) c.s
  { c with s := { s with tick := s.tick + 32 } }

/-! ### Region descriptors (09 R217) -/

def descExit (d : List Word) : Nat := (d.getD 0 0).toNat
def descEntry (d : List Word) : Nat := (d.getD 1 0).toNat

/-- LIVES: bit n for sn. -/
def descLiveS (d : List Word) (n : Nat) : Bool := (d.getD 2 0).getLsbD n

/-- LIVEV: bit n for vn. -/
def descLiveV (d : List Word) (n : Nat) : Bool := (d.getD (3 + n / 64) 0).getLsbD (n % 64)

/-- LIVEP: p(i + 1). -/
def descLiveP (d : List Word) (i : Nat) : Bool := (d.getD 5 0).getLsbD i

/-- XB, in units of 64 cycles. -/
def descBound (d : List Word) : Nat := (d.getD 5 0).field 31 16

/-- The live-in vector registers. -/
def descVRegs (d : List Word) : List Nat := (List.range 128).filter (descLiveV d)

/-- The checks of 09 R218 on a descriptor and its address, for a gang with `v` vector registers. -/
def descOk (v addr : Nat) (d : List Word) : Bool :=
  addr % 64 == 0
    && (d.getD 5 0).field 15 7 == 0 && (d.getD 5 0).field 63 32 == 0 && d.getD 6 0 == 0 && d.getD 7 0 == 0
    && !descLiveS d 0 && !descLiveS d 61 && !descLiveS d 62 && !descLiveS d 63
    && descExit d % 8 == 0 && descEntry d % 8 == 0
    && !((List.range 60).all fun n => descLiveS d (n + 1))
    && (descVRegs d).all fun n => decide (n < v)

end Sys2Proof.Machine
end

