-- ==== Sys2Proof/Machine/Control.lean ====
section
/-!
DEFINITION. Control flow, divisions and spawning (04 R85 to R98), and the split and lane queries (04 R99).
-/

namespace Sys2Proof.Machine

/-! ### Targets -/

/-- PC + 8 * DISP (04 R85). -/
def Cx.label (c : Cx) (f : Br) : Nat := wrapInt 64 ((c.P.pc : Int) + 8 * f.disp.toInt)

/-- The fall-through address (04 R85). -/
def Cx.fallThrough (c : Cx) : Nat :=
  match c.P.clause with
  | some cl => cl.after
  | none => c.P.pc + 8

/-- Lanes in which a branch's predicate holds (04 R85). -/
def Cx.branchPred (c : Cx) (f : Br) : Mask :=
  let p := c.G.pred f.cond.vNum
  if f.sub = 0 then p else ~~~p

/-- Move the whole split (04 R86). -/
def Cx.uniform (c : Cx) (f : Br) (cond : Bool) : State :=
  c.endClause (if cond then c.label f else c.fallThrough)

/-- Move the whole split to an address from a register; a misaligned one raises ALIGN with no register written. -/
def Cx.indirect (c : Cx) (target : Nat) (link : Cx → Cx) : State :=
  if target % 8 ≠ 0 then c.takeFault { c.faultAt 0x03 with addr := target }
  else (link c).endClause target

def execBr (f : Br) (s : State) : Outcome := s.issue fun c => c.uniform f true
def execBrs (f : Br) (s : State) : Outcome := s.issue fun c => c.uniform f (c.src64 f.cond != 0)
def execBrz (f : Br) (s : State) : Outcome := s.issue fun c => c.uniform f (c.src64 f.cond == 0)

/-- Every active lane; taken when none is active. -/
def execBra (f : Br) (s : State) : Outcome := s.issue fun c => c.uniform f (c.P.active &&& ~~~(c.branchPred f) == 0)

/-- Some active lane. -/
def execBrl (f : Br) (s : State) : Outcome := s.issue fun c => c.uniform f (c.P.active &&& c.branchPred f != 0)

def execBrx (f : Br) (s : State) : Outcome := s.issue fun c => c.indirect (c.src64 f.cond).toNat id
def execRet (f : Br) (s : State) : Outcome := s.issue fun c => c.indirect (c.src64 f.cond).toNat id

def execCall (f : Br) (s : State) : Outcome :=
  s.issue fun c => (c.setS f.cond.sNum (BitVec.ofNat 64 c.fallThrough)).endClause (c.label f)

/-- The target is read before the link is written. -/
def execCallx (f : Br) (s : State) : Outcome :=
  s.issue fun c =>
    let t := (c.src64 ((Operand.ofCode? (f.disp.toNat % 256)).getD (.s 0))).toNat
    c.indirect t fun c => c.setS f.cond.sNum (BitVec.ofNat 64 c.fallThrough)

/-! ### Spawning (04 R88, R90 to R92) -/

/-- Lanes that go to one destination. -/
structure Path where
  dest : Nat
  lanes : Mask
  deriving DecidableEq, Repr

/-- The checks 1 to 3 of R91 on a destination: its live-in registers, or the fault code and address. -/
def Cx.spawnTarget (c : Cx) (dest : Nat) : Fetched (List Nat) :=
  match c.fetch dest with
  | .fault code a x => .fault code a x
  | .ok k =>
    if clauseDefect k.header k.words || !(k.words.head?.any isMarker) then .fault 0x01 0 0
    else if descOk c.G.vregs (descAddr dest (k.words.headD 0)) k.desc then .ok (descVRegs k.desc)
    else .fault 0x01 0 0

/-- A lane's record. -/
def Cx.spawnRec (c : Cx) (dest : Nat) (regs : List Nat) (l : Nat) : SpawnRec where
  dest := dest
  launch := c.G.launch
  preds := ((List.range 7).map fun i => if (c.G.pred (i + 1)).getLsbD l then 2 ^ i else 0).sum
  regs := regs.map fun r => (r, c.vreg r l)

/-- The clause of a destination is held: the branch waits. -/
def Cx.spawnHeld (c : Cx) (paths : List Path) : Bool := paths.any fun p => c.fetchHeld p.dest

/-- The records of every lane that leaves, or the first failing check; of several destinations the branch's rank order decides
which is checked first (log 56). -/
def Cx.spawnRecs (c : Cx) : List Path → Fetched (List SpawnRec)
  | [] => .ok []
  | p :: ps =>
    match c.spawnTarget p.dest with
    | .fault code a x => .fault code a x
    | .ok regs =>
      match c.fetched.spawnRecs ps with
      | .fault code a x => .fault code a x
      | .ok rs => .ok ((lanesOf p.lanes).map (c.spawnRec p.dest regs) ++ rs)

/-- Bytes of a die's spawn memory (04 R92). -/
def spawnBytes : Nat := 4 * 2 ^ 20

/-- Hand lanes to Chafer: all checks of R91 first, then the lanes leave and their records wait to be accepted. -/
def Cx.spawn (c : Cx) (paths : List Path) (k : Cx → State) : State :=
  if c.spawnHeld paths then c.waitFor .memory
  else match c.spawnRecs paths with
  | .fault code a acc => c.takeFault { c.faultAt code with addr := a, acc := acc, elem := c.s.readUnit c.G.fn a 8 code }
  | .ok rs =>
    let used := Store.get 0 c.s.spawnUsed c.G.die
    if spawnBytes < used + recsBytes rs then c.fault 0x0A
    else
      let gone := paths.foldl (fun m p => m ||| p.lanes) 0
      k { c with
          s := { c.s with
            tick := c.s.tick + 32 * paths.length
            spawnUsed := Store.set 0 c.s.spawnUsed c.G.die (used + recsBytes rs) }
          G := { c.G with live := c.G.live &&& ~~~gone }
          P := { c.P with member := c.P.member &&& ~~~gone, active := c.P.active &&& ~~~gone
                          spawning := c.P.spawning ++ rs } }

/-- An entry whose MEMBER is empty issues nothing more; it is invalid unless records of it are still to be accepted
(04 R90, R97). -/
def Cx.leaveIfEmpty (c : Cx) (k : Cx → State) : State :=
  if c.P.member ≠ 0 then k c
  else
    let c := c.settle
    let G := if c.P.spawning.isEmpty then ({ c.G with splits := c.G.splits.erase c.sp } : Gang).unyield c.sp
      else { c.G with splits := c.G.splits.put c.sp { c.P with clause := none, wait := none } }
    { c.s with cur := none, gangs := c.s.gangs.put c.g G }

def execBrsp (f : Br) (s : State) : Outcome :=
  s.issue fun c =>
    if c.P.rstate = 1 then c.fault 0x00
    else
      let lanes := c.P.active &&& c.branchPred f
      let on := fun (c : Cx) => c.leaveIfEmpty fun c => c.endClause c.fallThrough
      if lanes = 0 then on c else c.spawn [⟨c.label f, lanes⟩] on

/-! ### Divisions (04 R87) -/

/-- Insert a group by rank: more lanes first, earlier in the list first among equals. -/
def insertPath (p : Path) : List Path → List Path
  | [] => [p]
  | q :: r => if laneCount q.lanes < laneCount p.lanes then p :: q :: r else q :: insertPath p r

/-- Rank groups given in the order that breaks ties. -/
def rankPaths (ps : List Path) : List Path := ps.foldl (fun r p => insertPath p r) []

/-- Distinct addresses in ascending order. -/
def insertAddr (a : Nat) : List Nat → List Nat
  | [] => [a]
  | b :: r => if a < b then a :: b :: r else if a = b then b :: r else b :: insertAddr a r

/-- Divide the split by destination; `paths` are the nonempty groups in the order that breaks ties. -/
def Cx.divide (c : Cx) (paths : List Path) : State :=
  match rankPaths paths with
  | [] => c.endClause c.fallThrough
  | [p] => c.endClause p.dest
  | first :: rest =>
    let free := (List.range 4).filter fun i => (c.G.splits.find? i).isNone
    let stay := rest.take free.length
    let minority := rest.drop free.length
    let go := fun (c : Cx) =>
      let c := c.settle
      let leaving := stay.foldl (fun m p => m ||| p.lanes) 0
      let new : Store Split := (free.zip stay).map fun q =>
        (q.1, { c.P with pc := q.2.dest, member := q.2.lanes, active := q.2.lanes, clause := none, spawning := []
                         passed := 0, yielding := false, yieldTo := [], stcFrom := 0, reads := [] })
      let c := { c with
        G := { c.G with splits := new.foldl (fun (m : Store Split) (q : Nat × Split) => m.put q.1 q.2) c.G.splits }
        P := { c.P with member := c.P.member &&& ~~~leaving, active := first.lanes } }
      let s := c.endClause first.dest
      { s with gangs := Store.update s.gangs c.g fun G => new.foldl (fun (G : Gang) (q : Nat × Split) => G.regang q.1) G }
    if minority.isEmpty then go c else c.spawn minority go

def execBrd (f : Br) (s : State) : Outcome :=
  s.issue fun c =>
    if c.P.rstate = 1 then c.fault 0x00
    else
      let taken := c.P.active &&& c.branchPred f
      let groups :=
        if c.label f = c.fallThrough then [⟨c.fallThrough, c.P.active⟩]
        else [⟨c.fallThrough, c.P.active &&& ~~~taken⟩, ⟨c.label f, taken⟩]
      c.divide (groups.filter fun (p : Path) => p.lanes != 0)

/-- The destination of a lane under brxd. -/
def Cx.laneTarget (c : Cx) (f : Br) (l : Nat) : Nat := wrapInt 64 ((c.P.pc : Int) + 8 * (c.vreg f.cond.vNum l).toInt)

def execBrxd (f : Br) (s : State) : Outcome :=
  s.issue fun c =>
    if !c.fits f.cond .b32 then c.illop
    else if c.P.rstate = 1 then c.fault 0x00
    else
      let lanes := lanesOf c.P.active
      let dests := lanes.foldl (fun r l => insertAddr (c.laneTarget f l) r) []
      c.divide (dests.map fun d => ⟨d, maskOfList (lanes.filter fun l => c.laneTarget f l == d)⟩)

/-! ### Meet, end, nop, yield (04 R89, R96, R97) -/

/-- Whether a held split's hold ends: it holds every live lane, or every other valid entry is held or parked and it is
the lowest of those held. -/
def Gang.holdEnds (G : Gang) (sp : Nat) : Bool :=
  let others : Store Split := G.splits.filter fun q => q.1 != sp
  others.isEmpty ||
    (others.all fun q => q.2.parked.isSome || q.2.wait == some .held) &&
      others.all fun q => q.2.wait != some .held || decide (sp < q.1)

/-- Once the hold is over, no operation; anywhere but first in its clause, ILLOP. -/
def execMeet (_f : Sys) (s : State) : Outcome :=
  s.issue fun c =>
    if c.P.rstate = 1 then c.fault 0x00
    else if c.P.clause.any (fun cl => cl.pos != 0) then c.illop
    else c.retire

def execEndLanes (f : Sys) (s : State) : Outcome :=
  s.issue fun c =>
    if c.P.rstate = 1 then c.fault 0x00
    else
      let gone := c.included f.ctl
      let c := { c with
        G := { c.G with live := c.G.live &&& ~~~gone }
        P := { c.P with member := c.P.member &&& ~~~gone, active := c.P.active &&& ~~~gone } }
      c.leaveIfEmpty Cx.retire

def execNop (_f : Sys) (s : State) : Outcome := s.issue Cx.retire

/-- The split yields when its clause ends (04 R386). -/
def execYield (_f : Sys) (s : State) : Outcome :=
  s.issue fun c => { c with P := { c.P with yielding := true } }.retire

/-! ### Queries (04 R99) -/

def execGwidth (f : Sys) (s : State) : Outcome :=
  s.issue fun c => c.scalarWord f.dst (BitVec.ofNat 64 (laneCount c.G.live))

/-- VALID of the entries and the current INDEX. -/
def execGsplits (f : Sys) (s : State) : Outcome :=
  s.issue fun c => c.scalarWord f.dst
    (BitVec.ofNat 64 ((c.G.splits.keys.map fun i => 2 ^ i).sum + 16 * c.sp))

/-- MEMBER bits of a named entry; 0 for one that is not valid. -/
def execGmember (f : Sys) (s : State) : Outcome :=
  s.issue fun c =>
    let n := (c.src64 f.a).toNat
    let m := if n = c.sp then c.P.member else ((c.G.splits.find? n).map Split.member).getD 0
    c.scalarWord f.dst (maskWord m f.imm.toNat)

def execGactive (f : Sys) (s : State) : Outcome := s.issue fun c => c.scalarWord f.dst (maskWord c.G.live f.imm.toNat)

/-- Included lanes below the lane. -/
def execLrank (f : Sys) (s : State) : Outcome :=
  s.issue fun c =>
    let m := c.included f.ctl
    c.vector f.ctl .n32 f.dst [] fun l => ((lanesOf m).filter fun k => decide (k < l)).length

/-- A lane number, or all ones when there is none. -/
def laneWord : Option Nat → Word
  | some l => BitVec.ofNat 64 l
  | none => BitVec.allOnes 64

def execLfirst (f : Sys) (s : State) : Outcome := s.issue fun c => c.scalarWord f.dst (laneWord (lanesOf c.P.active).head?)

end Sys2Proof.Machine
end

