-- ==== Sys2Proof/Machine/Sync.lean ====
section
/-!
DEFINITION. Rendezvous points (01 R23; 08 R201 to R205), stage rings (01 R24; 08 R206 to R209), threshold waits (08 R210,
R211) and what ends their waits (08 R212).
-/

namespace Sys2Proof.Machine

/-! ### Rendezvous points -/

/-- Arrivals of members, one phase after another (08 R201); each turn of the loop takes at least one arrival. -/
def Point.arriveLoop : Nat → Nat → Point → Point
  | 0, _, p => p
  | fuel + 1, n, p =>
    if n = 0 then p
    else
      let m := min n p.pending
      let left := p.pending - m
      Point.arriveLoop fuel (n - m)
        (if left = 0 then { p with phase := !p.phase, pending := p.expect } else { p with pending := left })

def Point.arrive (p : Point) (n : Nat) : Point := Point.arriveLoop n n p

def Team.point (t : Team) (n : Nat) : Point := t.points.get {} n
def Team.setPoint (t : Team) (n : Nat) (p : Point) : Team := { t with points := t.points.set {} n p }

/-- The lowest lane of the split, which uses what its team shares (10 R250). -/
def Cx.actor (c : Cx) : Nat := ((lanesOf c.P.active).head?.or (lanesOf c.P.member).head?).getD 0

/-- The split initialises a point, or ring n as 24 + n. -/
def Cx.initialise (c : Cx) (n : Nat) (was : Bool) : Cx := { c with s := c.s.initialise c.home c.actor n was }

/-- It uses one, which it may find unconfigured still. -/
def Cx.uses (c : Cx) (n : Nat) (configured : Bool) (k : Cx → State) : State :=
  if !configured then c.illop
  else
    let (s, found) := c.s.finds c.home c.actor n
    if found then k { c with s := s } else { c with s := s }.illop

/-- An engine arrives at a point of a team (08 R202), wherever the team is kept: the arrival is committed (19 R307). -/
def State.engineArrive (s : State) (team point : Nat) : State :=
  let arrive := fun (m : Store Team) => Store.update m team fun t =>
    if (t.point point).expect = 0 then t else t.setPoint point ((t.point point).arrive 1)
  let flips := (s.teams.find? team).any fun t => ((t.point point).arrive 1).phase != (t.point point).phase
  let s := if flips then s.did {} (.pass (.point team point)) else s
  { s with
    teams := arrive s.teams
    fns := s.fns.map fun (q : Nat × Fn) =>
      (q.1, { q.2 with saved := q.2.saved.map fun x => { x with teams := arrive x.teams }
                       ckpt := q.2.ckpt.map fun x => { x with teams := arrive x.teams } }) }

/-- The gang arrives: its flag is set and AP is the phase before the arrival. -/
def Cx.arrive (c : Cx) (pt n : Nat) : Cx :=
  let t := c.team
  let p := t.point pt
  let c := { c with G := { c.G with
    flags := Store.set false c.G.flags pt true, ap := Store.set false c.G.ap pt p.phase } }
  let c := c.did (.give (.point c.G.team pt) c.P.member)
  let c := if (p.arrive n).phase != p.phase then c.did (.pass (.point c.G.team pt)) else c
  c.setTeam (t.setPoint pt (p.arrive n))

/-- A satisfied wait acquires what the completed phases' arrivals have released (08 R205). -/
def Cx.met (c : Cx) (pt : Nat) : Cx := c.did (.take (.point c.G.team pt) c.P.member)

/-- A wait of mode 0 at a point is satisfied (08 R204). -/
def Cx.arrived (c : Cx) (pt : Nat) : Bool :=
  !(Store.get false c.G.flags pt) || (c.team.point pt).phase != Store.get false c.G.ap pt

/-- A satisfied wait clears the gang's flag. -/
def Cx.clearFlag (c : Cx) (pt : Nat) : Cx := { c with G := { c.G with flags := Store.set false c.G.flags pt false } }

/-- The point that a form names, and the count of jinit, jarrive or jarwait, from the field or from sA (08 R203). -/
def Sys.point (f : Sys) : Nat := bitsN f.imm.toNat 4 0
def Cx.syncCount (c : Cx) (f : Sys) : Nat := if f.sub = 1 then (c.src64 f.a).toNat else bitsN f.imm.toNat 16 5
def Cx.arriveCount (c : Cx) (f : Sys) : Nat := if f.sub = 0 ∧ bitsN f.imm.toNat 16 5 = 0 then 1 else c.syncCount f

def countOk (n : Nat) : Bool := decide (1 ≤ n) && decide (n ≤ 4095)

def execJinit (f : Sys) (s : State) : Outcome :=
  s.issue fun c =>
    let pt := Sys.point f
    let e := c.syncCount f
    let p := c.team.point pt
    if !countOk e || p.pending != p.expect then c.illop
    else
      let clear := fun (G : Gang) =>
        { G with flags := Store.set false G.flags pt false, ap := Store.set false G.ap pt false }
      let gangs := Store.mapVals c.s.gangs fun _ G => if G.team = c.G.team then clear G else G
      let c := { c with s := { c.s with gangs := gangs }, G := clear c.G }
      ((c.setTeam (c.team.setPoint pt { p with expect := e, pending := e })).initialise pt (p.expect != 0)).retire

def execJarrive (f : Sys) (s : State) : Outcome :=
  s.issue fun c => c.outsideExit <|
    let n := c.arriveCount f
    if !countOk n then c.illop
    else c.uses (Sys.point f) ((c.team.point (Sys.point f)).expect != 0) fun c =>
      c.commit fun c => (c.arrive (Sys.point f) n).retire

/-- jwait's wait is satisfied: mode 0, or the phase differs from the one named. -/
def Cx.jwaitHolds (c : Cx) (f : Sys) : Bool :=
  if f.sub = 0 then c.arrived (Sys.point f) else (c.team.point (Sys.point f)).phase != f.imm.getLsbD 5

def execJwait (f : Sys) (s : State) : Outcome :=
  s.issue fun c =>
    let pt := Sys.point f
    c.uses pt ((c.team.point pt).expect != 0) fun c =>
      if c.jwaitHolds f then ((if f.sub = 0 then c.clearFlag pt else c).met pt).retire
      else c.waitFor (.rendezvous pt)

/-- The wait of a jarwait whose arrival has been applied (08 R212). -/
def Cx.finishArwait (c : Cx) (pt : Nat) : State :=
  let c := { c with P := { c.P with wonly := true } }
  if c.arrived pt then
    let c := (c.clearFlag pt).met pt
    { c with P := { c.P with wonly := false, wait := none, closed := true } }.retire
  else c.waitFor (.rendezvous pt)

def execJarwait (f : Sys) (s : State) : Outcome :=
  s.issue fun c => c.outsideExit <|
    let pt := Sys.point f
    let n := c.arriveCount f
    if c.P.wonly then c.finishArwait pt
    else if !countOk n then c.illop
    else c.uses pt ((c.team.point pt).expect != 0) fun c => c.commit fun c => (c.arrive pt n).finishArwait pt

/-- A jwait goes on to clear its flag; a jarwait's wait ends where it stands. -/
def execRendezvousWaitSatisfied (g sp : Nat) (s : State) : Outcome :=
  match s.cx? g sp with
  | some c =>
    match c.P.wait with
    | some (.rendezvous pt) =>
      if c.P.wonly then .next (if c.arrived pt then s.onSplit g sp fun c => c.finishArwait pt else s)
      else s.wake g sp (fun _ => true) fun c =>
        match c.instr? with
        | some (.jwait f) => c.jwaitHolds f
        | _ => false
    | _ => .next s
  | none => .next s

/-! ### Stage rings -/

def Team.ring (t : Team) (n : Nat) : Ring := t.rings.get {} n
def Team.setRing (t : Team) (n : Nat) (r : Ring) : Team := { t with rings := t.rings.set {} n r }

def Sys.ring (f : Sys) : Nat := bitsN f.imm.toNat 3 0
def Sys.nochk (f : Sys) : Bool := f.imm.getLsbD 4

/-- The sequence number: all of sA, or its bits 63:48 with REC (08 R208). -/
def Cx.sequence (c : Cx) (f : Sys) : Nat :=
  let w := c.src64 f.a
  if f.imm.getLsbD 5 then w.field 63 48 else w.toNat

/-- The phase bit that sequence number `n` expects. -/
def Ring.phaseOf (r : Ring) (n : Nat) : Bool := decide (n / r.depth % 2 = 1)

def Ring.isFull (r : Ring) : Bool := r.ppos == r.cpos && r.full
def Ring.isEmpty (r : Ring) : Bool := r.ppos == r.cpos && !r.full

/-- The ring after a put into its next entry. -/
def Ring.put (r : Ring) : Ring :=
  let next := (r.ppos + 1) % r.depth
  { r with pb := r.pb ^^^ BitVec.ofNat 16 (2 ^ r.ppos), ppos := next, full := next == r.cpos }

/-- The ring after its next entry is taken. -/
def Ring.take (r : Ring) : Ring := { r with cpos := (r.cpos + 1) % r.depth, full := false }

def execRinginit (f : Sys) (s : State) : Outcome :=
  s.issue fun c =>
    let was := (c.team.ring (Sys.ring f)).depth != 0
    ((c.setTeam (c.team.setRing (Sys.ring f) { depth := bitsN f.imm.toNat 8 4 })).initialise (24 + Sys.ring f) was).retire

/-- A put or take of an entry acquires what the other has released, and releases (08 R209). -/
def Cx.exchange (c : Cx) (ring entry : Nat) : Cx :=
  (c.did (.take (.ring c.G.team ring entry) c.P.member)).hand (.ring c.G.team ring entry) c.P.member

def execRingput (f : Sys) (s : State) : Outcome :=
  s.issue fun c => c.outsideExit <|
    let r := c.team.ring (Sys.ring f)
    let n := c.sequence f
    c.uses (24 + Sys.ring f) (r.depth != 0) fun c =>
      if !Sys.nochk f && n % r.depth != r.ppos then c.fault 0x09
      else if r.isFull then c.waitFor .ringPut
      else if !Sys.nochk f && r.pb.getLsbD r.ppos != r.phaseOf n then c.fault 0x09
      else c.commit fun c =>
        ((c.setTeam (c.team.setRing (Sys.ring f) r.put)).exchange (Sys.ring f) r.ppos).scalarWord f.dst (BitVec.ofNat 64 r.ppos)

def execRingtake (f : Sys) (s : State) : Outcome :=
  s.issue fun c => c.outsideExit <|
    let r := c.team.ring (Sys.ring f)
    let n := c.sequence f
    c.uses (24 + Sys.ring f) (r.depth != 0) fun c =>
      if !Sys.nochk f && n % r.depth != r.cpos then c.fault 0x09
      else if r.isEmpty then c.waitFor .ringTake
      else if !Sys.nochk f && r.pb.getLsbD r.cpos == r.phaseOf n then c.fault 0x09
      else c.commit fun c =>
        ((c.setTeam (c.team.setRing (Sys.ring f) r.take)).exchange (Sys.ring f) r.cpos).scalarWord f.dst (BitVec.ofNat 64 r.cpos)

/-- A put or take that waits goes on when its entry is there, or when a ringinit since makes its check fail (08 R207). -/
def Cx.putMoves (c : Cx) (f : Sys) : Bool :=
  let r := c.team.ring (Sys.ring f)
  !r.isFull || (!Sys.nochk f && c.sequence f % r.depth != r.ppos)

def Cx.takeMoves (c : Cx) (f : Sys) : Bool :=
  let r := c.team.ring (Sys.ring f)
  !r.isEmpty || (!Sys.nochk f && c.sequence f % r.depth != r.cpos)

def execRingputProceeds (g sp : Nat) (s : State) : Outcome :=
  s.wake g sp (· == .ringPut) fun c =>
    match c.instr? with
    | some (.ringput f) => c.putMoves f
    | _ => false

def execRingtakeProceeds (g sp : Nat) (s : State) : Outcome :=
  s.wake g sp (· == .ringTake) fun c =>
    match c.instr? with
    | some (.ringtake f) => c.takeMoves f
    | _ => false

/-! ### Counters -/

/-- kwait's wait is satisfied (08 R210). -/
def Cx.kwaitHolds (c : Cx) (f : Sys) : Bool := c.G.kHolds (bitsN f.imm.toNat 1 0) (bitsN f.imm.toNat 7 2)

/-- A satisfied k2 wait that leaves `t` operations covers the gathers and scatters before them (07 R166; 08 R211). -/
def Cx.covers2 (c : Cx) (t : Nat) : Cx :=
  if t = 63 || Store.get 0 c.G.issued 2 ≤ t then c else c.did (.covered (Store.get 0 c.G.issued 2 - t))

def execKwait (f : Sys) (s : State) : Outcome :=
  s.issue fun c =>
    if c.kwaitHolds f then (if bitsN f.imm.toNat 1 0 = 2 then c.covers2 (bitsN f.imm.toNat 7 2) else c).retire
    else c.waitFor .kwait

def execKwaitSatisfied (g sp : Nat) (s : State) : Outcome :=
  s.wake g sp (· == .kwait) fun c =>
    match c.instr? with
    | some (.kwait f) => c.kwaitHolds f
    | _ => false

/-- A counter has come down to 62 (01 R22). -/
def execCounterStallRelease (g sp : Nat) (s : State) : Outcome :=
  match s.cx? g sp with
  | some c =>
    match c.P.wait with
    | some (.counter k) => s.wake g sp (fun _ => true) fun c => decide (c.G.k k < 63)
    | _ => .next s
  | none => .next s

end Sys2Proof.Machine
end

