-- ==== Sys2Proof/Machine/Weevil.lean ====
section
/-!
DEFINITION. Weevil, the loop-control processor of a team (08 R213 to R215).
-/

namespace Sys2Proof.Machine

/-- The number of a role in role masks and among the queues: 0 copy, 1 matrix, 2 vector. -/
def Role.bit : Role → Nat
  | .copy => 0 | .matrix => 1 | .vector => 2 | .none => 3

def NestState.code : NestState → Nat
  | .idle => 0 | .configured => 1 | .running => 2 | .finished => 3

/-- Iterations of the nest. -/
def Nest.total (n : Nest) : Nat := n.trips.foldl (· * ·) 1

def Nest.serves (n : Nest) (role : Nat) : Bool := n.roles.testBit role

/-- Records queued for a role, oldest first. -/
def Nest.queue (n : Nest) (role : Nat) : List Word := n.queues.get [] role
def Nest.setQueue (n : Nest) (role : Nat) (q : List Word) : Nest := { n with queues := n.queues.set [] role q }

/-- Indices of iteration `seq`, loop 0 innermost. -/
def loopIndices : List Nat → Nat → List Nat
  | [], _ => []
  | t :: r, n => n % t :: loopIndices r (n / t)

/-- The record of iteration `seq` (08 R214). -/
def Nest.record (n : Nest) (seq : Nat) : Word :=
  let idx := loopIndices n.trips seq
  BitVec.ofNat 64 (seq * 2 ^ 48 + idx.getD 3 0 * 2 ^ 36 + idx.getD 2 0 * 2 ^ 24 + idx.getD 1 0 * 2 ^ 12 + idx.getD 0 0)

def endRecord : Word := BitVec.allOnes 64

/-- The lowest open iteration, or the next. -/
def Nest.lowest (n : Nest) : Nat := n.opened.foldl (fun m q => min m q.1) n.next

/-- Weevil may push the next iteration: permits and queue room allow. -/
def Nest.canPush (n : Nest) : Bool :=
  n.state == .running && decide (n.next < n.total) && decide (n.next < n.lowest + n.permits)
    && (List.range 3).all fun r => !n.serves r || decide ((n.queue r).length < 16)

def Nest.push (n : Nest) : Nest :=
  let rec_ := n.record n.next
  let m := (List.range 3).foldl (fun m r => if n.serves r then m.setQueue r (n.queue r ++ [rec_]) else m) n
  { m with next := n.next + 1, opened := n.opened ++ [(n.next, 0)] }

/-- A role reports an iteration done; when every role has, its permit returns. -/
def Nest.report (n : Nest) (seq role : Nat) : Nest :=
  let marked := n.opened.map fun q => if q.1 = seq then (seq, q.2 ||| 2 ^ role) else q
  let opened := marked.filter fun q => !(q.1 == seq && q.2 == n.roles)
  { n with opened := opened
           state := if n.state = .running ∧ n.next = n.total ∧ opened = [] then .finished else n.state }

/-! ### Instructions -/

def Cx.nest (c : Cx) : Nest := c.team.nest
def Cx.setNest (c : Cx) (n : Nest) : Cx := c.setTeam { c.team with nest := n }

/-- Only the copy gang may run the nest (08 R198). -/
def Cx.asCopy (c : Cx) (k : State) : State := if c.G.role = .copy then k else c.fault 0x07

/-- The operands are checked before the role, and the role before the nest's state (log 81). -/
def execLpinit (f : Cpy) (s : State) : Outcome :=
  s.issue fun c =>
    let w := c.sreg f.dst.sNum
    let m := f.mod.toNat
    let trips := (List.range (bitsN m 8 7 + 1)).map fun i => bitsN w.toNat (16 * i + 15) (16 * i)
    let roles := bitsN m 6 4
    let total := trips.foldl (· * ·) 1
    if (trips.any fun t => decide (4096 < t)) || decide (65535 < total) || roles == 0 then c.illop
    else c.asCopy <|
      if c.nest.state = .running ∨ c.nest.state = .configured then c.illop
      else (c.setNest { state := .configured, trips := trips, permits := bitsN m 3 0 + 1, roles := roles }).retire

def execLpstart (_f : Cpy) (s : State) : Outcome :=
  s.issue fun c => c.asCopy <|
    match c.nest.state with
    | .idle => c.illop
    | .configured => (c.setNest { c.nest with state := if c.nest.total = 0 then .finished else .running }).retire
    | _ => c.retire

/-- Queued and held records of the team are discarded. -/
def execLpstop (_f : Cpy) (s : State) : Outcome :=
  s.issue fun c => c.asCopy <|
    if c.nest.state = .idle then c.retire
    else
      let gangs := Store.mapVals c.s.gangs fun _ (G : Gang) => if G.team = c.G.team then { G with held := none } else G
      ({ c with s := { c.s with gangs := gangs }, G := { c.G with held := none } }.setNest {}).retire

/-- What lpnext returns at once, and the team and record held after it; none while it waits (08 R215). -/
def Cx.nextRecord (c : Cx) : Option (Word × Cx) :=
  let n := c.nest
  let role := c.G.role.bit
  match c.G.held with
  | some r => some (r, c)
  | none =>
    if n.state = .idle || !n.serves role then some (endRecord, c)
    else match n.queue role with
      | r :: q => some (r, { c with G := { c.G with held := some r } }.setNest (n.setQueue role q))
      | [] => if n.next = n.total then some (endRecord, c) else none

def execLpnext (f : Cpy) (s : State) : Outcome :=
  s.issue fun c =>
    match c.nextRecord with
    | some (r, c) => c.scalarWord f.dst r
    | none => c.waitFor .lpnext

def execLpnextRecordTaken (g sp : Nat) (s : State) : Outcome :=
  s.wake g sp (· == .lpnext) fun c => c.nextRecord.isSome

def execLpdone (f : Cpy) (s : State) : Outcome :=
  s.issue fun c =>
    match c.G.held with
    | some r =>
      if c.src64 f.a = BitVec.ofNat 64 (r.field 63 48) then
        ({ c with G := { c.G with held := none } }.setNest (c.nest.report (r.field 63 48) c.G.role.bit)).retire
      else c.retire
    | none => c.retire

def execLpq (f : Cpy) (s : State) : Outcome :=
  s.issue fun c =>
    let n := c.nest
    c.scalarWord f.dst <|
      match f.mod.toNat with
      | 0 => BitVec.ofNat 64 n.state.code
      | 1 => BitVec.ofNat 64 n.opened.length
      | 2 => BitVec.ofNat 64 (n.permits - n.opened.length)
      | 3 => BitVec.ofNat 64 n.next
      | _ => c.G.held.getD endRecord

def execWeevilPush (team : Nat) (s : State) : Outcome :=
  .next { s with teams := Store.update s.teams team fun t =>
    if t.nest.canPush then { t with nest := t.nest.push } else t }

end Sys2Proof.Machine
end

