-- ==== Sys2Proof/Machine/Copies.lean ====
section
/-!
DEFINITION. Copies (08 R187 to R200, R202): layout records, boxes, the checks in their order, the moves with their
translations, and the engine that performs them when the copy completes.
-/

namespace Sys2Proof.Machine

/-! ### Layouts and boxes -/

/-- A layout: the record's address and words, the base, and the extents, 1 for dimensions it has not (08 R187, R188). -/
structure Layout where
  rec_ : Nat
  words : List Word
  base : Nat
  ext : List Nat
  deriving DecidableEq, Repr

def Layout.w (l : Layout) (i : Nat) : Word := l.words.getD i 0
def Layout.tid (l : Layout) : Nat := (l.w 0).field 63 48
def Layout.wtag (l : Layout) : Nat := (l.w 0).field 47 40
def Layout.ty (l : Layout) : ETy := (ETy.ofCode? ((l.w 0).field 39 35)).getD .b32
def Layout.rank (l : Layout) : Nat := (l.w 0).field 33 32 + 1
def Layout.twin (l : Layout) : Bool := (l.w 0).field 34 34 == 1
def Layout.shape (l : Layout) : Nat := (l.w 0).field 31 30
def Layout.stride (l : Layout) (d : Nat) : Nat := if d < l.rank then (l.w d).field 47 0 else 0

/-- Bits of an element in memory; bytes per brick row and rows per brick. -/
def Layout.width (l : Layout) : Nat := l.ty.stride
def Layout.rowBytes (l : Layout) : Nat := if l.shape = 0 then 32 else 128
def Layout.rows (l : Layout) : Nat := if l.shape = 0 then 4 else 1

/-- The record's own defects (08 R187). -/
def Layout.recordOk (l : Layout) : Bool :=
  let code := (l.w 0).field 39 35
  (l.w 0).field 29 0 == 0 && (l.w 1).field 63 48 == 0 && (l.w 2).field 63 48 == 0 && (l.w 3).field 63 48 == 0
    && decide (code < 18) && decide (l.shape < 2) && ((l.w 0).field 34 34 == 0 || decide (code < 3))
    && !(l.shape == 0 && l.rank == 1)

/-- A box: origin and sizes, 0 and 1 for dimensions the layout has not (08 R191). -/
structure Box where
  c : List Nat
  n : List Nat
  deriving DecidableEq, Repr

def Box.origin (b : Box) (d : Nat) : Nat := b.c.getD d 0
def Box.size (b : Box) (d : Nat) : Nat := b.n.getD d 1

/-- Bricks across and down the box, and bytes of the packed box (08 R192). -/
def packCols (l : Layout) (b : Box) : Nat := b.size 0 * l.width / (8 * l.rowBytes)
def packRows (l : Layout) (b : Box) : Nat := b.size 1 / l.rows
def packBytes (l : Layout) (b : Box) : Nat := 128 * packCols l b * packRows l b * b.size 2 * b.size 3

/-- Packed offset of byte `u` of the box row at (i1, i2, i3). -/
def packOffset (l : Layout) (b : Box) (u i1 i2 i3 : Nat) : Nat :=
  128 * (u / l.rowBytes + packCols l b * (i1 / l.rows + packRows l b * (i2 + b.size 2 * i3)))
    + l.rowBytes * (i1 % l.rows) + u % l.rowBytes

/-- Whole bricks only (08 R191). -/
def boxAligned (l : Layout) (b : Box) : Bool :=
  b.origin 0 * l.width % (8 * l.rowBytes) == 0 && b.size 0 * l.width % (8 * l.rowBytes) == 0
    && b.origin 1 % l.rows == 0 && b.size 1 % l.rows == 0

/-- 32 bytes of a box row: their global address, packed offset, and low bits in bounds. -/
structure Seg where
  va : Nat
  off : Nat
  valid : Nat
  deriving DecidableEq, Repr

/-- Segment `j` of a box row whose second coordinate is `x1`. -/
def segment (l : Layout) (b : Box) (x1 i1 i2 i3 j : Nat) : Seg :=
  let x0 := b.origin 0 + 256 * j / l.width
  let x2 := b.origin 2 + i2
  let x3 := b.origin 3 + i3
  let inb := decide (x1 < l.ext.getD 1 1) && decide (x2 < l.ext.getD 2 1) && decide (x3 < l.ext.getD 3 1)
  { va := (l.base + x0 * l.width / 8 + x1 * l.stride 1 + x2 * l.stride 2 + x3 * l.stride 3) % 2 ^ 64
    off := packOffset l b (32 * j) i1 i2 i3
    valid := if inb then min 256 ((l.ext.getD 0 1 - x0) * l.width) else 0 }

/-- Every segment of a box, in ascending position; `rows` are the second coordinates of an index list (08 R195). -/
def segments (l : Layout) (b : Box) (rows : Option (List Nat)) : List Seg :=
  (List.range (b.size 3)).flatMap fun i3 => (List.range (b.size 2)).flatMap fun i2 =>
    (List.range (b.size 1)).flatMap fun i1 => (List.range (b.size 0 * l.width / 256)).map fun j =>
      segment l b (match rows with | some xs => xs.getD i1 0 | none => b.origin 1 + i1) i1 i2 i3 j

/-! ### What is copied -/

/-- The forms: cpy in its four directions, cpyg, cpys, cpyc and cpyred in its two. -/
inductive CopyForm
  | g2m | m2g | g2l | g2g | gather | scatter | clusters
  | red (op : Nat) (out : Bool)
  deriving DecidableEq, Repr

/-- The global side is written. -/
def CopyForm.writes : CopyForm → Bool
  | .m2g | .scatter | .red _ true => true
  | _ => false

/-- One side is the Mortar window. -/
def CopyForm.mortar : CopyForm → Bool
  | .g2m | .m2g | .gather | .scatter | .red _ _ => true
  | _ => false

def CopyForm.fills : CopyForm → Bool
  | .g2l | .clusters => true
  | _ => false

def CopyForm.lists : CopyForm → Bool
  | .gather | .scatter => true
  | _ => false

/-- The counter that counts the copy (08 R190). -/
def CopyForm.counter : CopyForm → Nat
  | .g2m | .m2g | .g2l | .g2g => 0
  | _ => 2

def CopyForm.kind : CopyForm → CopyKind
  | .g2l | .clusters => .fill
  | .m2g | .scatter => .move false
  | .red op out => .reduce op (!out)
  | _ => .move true

def Cx.layout (c : Cx) (f : Cpy) (words : List Word) : Layout :=
  let n := f.layout.sNum
  let e := fun (i : Nat) => let w := c.sreg (n + 2 + i / 2); if i % 2 = 0 then w.field 31 0 else w.field 63 32
  let rank := (words.getD 0 0).field 33 32 + 1
  { rec_ := (c.sreg n).toNat, words := words, base := (c.sreg (n + 1)).toNat
    ext := (List.range 4).map fun i => if i < rank then e i else 1 }

def Cx.box (c : Cx) (f : Cpy) (rank : Nat) : Box :=
  let n := f.a.sNum
  let part := fun (w : Word) (i : Nat) => bitsN w.toNat (16 * i + 15) (16 * i)
  { c := (List.range 4).map fun i => if i < rank then part (c.sreg n) i else 0
    n := (List.range 4).map fun i => if i < rank then part (c.sreg (n + 1)) i else 1 }

/-! ### Checks (08 R199) -/

/-- A precise fault of a copy at an address; of an uncorrectable error, in a unit (20 R327). -/
def Cx.copyFault (c : Cx) (code addr : Nat) (acc : Acc) (unit : Nat := 0) : State :=
  let c := { c with P := { c.P with reads := [] } }
  c.takeFault { c.faultAt code with addr := addr, acc := acc.code, elem := unit }

/-- A check fails in translation, permission or quota. -/
def Cx.copyDenied (c : Cx) (code addr : Nat) (acc : Acc) : State :=
  c.copyFault code addr acc (c.s.eccUnit c.G.fn (c.s.launchOf c.G).agent addr acc code)

/-- Bytes that the checks of a copy read, as pairs of address and key; other packages are asked for theirs first (22 R356). An
uncorrectable error in them is a precise fault of the copy (log 82). -/
def Cx.checkRead (c : Cx) (n : Nat) (xs : List (Nat × Nat)) (k : List (List Byte) → State) : State :=
  let got := fun (key : Nat) => (List.find? (fun (r : Nat × List Byte) => r.1 == key) c.P.reads).map (·.2)
  let away := xs.filter fun q => isRemote q.2 && (got q.2).isNone
  match away.find? fun q => !c.s.reachable (keySpace q.2 - 3) with
  | some q => c.refuse q.1
  | none =>
    if !away.isEmpty then
      let ask := fun (s : State) (q : Nat × Nat) =>
        if s.remotes.any fun r => r.g == c.g && r.sp == c.sp && r.op.isNone && !r.write && r.key == q.2 then s
        else
          let p := s.request c.G.fn 1 q.2 (if n = 8 then 0 else n) []
          s.ask { tag := p.tag.toNat, g := c.g, sp := c.sp, size := n, write := false, op := none, va := q.1, key := q.2, packet := p }
      { c with s := away.foldl ask c.s }.waitFor .copyCheck
    else match xs.find? fun q => c.s.poisoned q.2 n with
      | some q => c.copyFault 0x11 q.1 .read (c.s.poisonUnit q.2 n)
      | none => k (xs.map fun q => (got q.2).getD ((List.range n).map fun i => c.s.readByte c.G.fn (q.2 + i)))

/-- A copy's check that is held is tried again. -/
def Cx.unheld (c : Cx) (vas : List Nat) (k : State) : State :=
  if vas.any (c.s.heldVa c.G.fn) then c.waitFor .copyCheck else k

/-- The lowest address that is touched in each page. -/
def pageFirsts (vas : List Nat) : Store Nat :=
  vas.foldl (fun (m : Store Nat) va => Store.put m (va / 4096) (min va ((m.find? (va / 4096)).getD va))) []

/-- Admit pages in ascending order; the keys of the pages' first bytes, or the code and address that fail. -/
def State.admitPages (s : State) (f agent : Nat) (acc : Acc) : List (Nat × Nat) → (Nat × Nat × State) ⊕ (State × Store Nat)
  | [] => .inr (s, [])
  | (page, va) :: r =>
    match s.permit f agent va acc with
    | .inl code => .inl (code, va, s)
    | .inr (k, s) =>
      match s.admitPages f agent acc r with
      | .inl e => .inl e
      | .inr (s, m) => .inr (s, Store.put m page (k - va % 4096))

/-- The key of an address in an admitted page. -/
def pageKey (m : Store Nat) (va : Nat) : Nat := (m.find? (va / 4096)).getD 0 + va % 4096

/-- Bytes of a segment that hold elements in bounds. -/
def Seg.bytes (g : Seg) : Nat := (g.valid + 7) / 8

/-- A key lies under an enabled window with the tag, owned by the function (08 R199 step 9; 17 R274). -/
def State.tagged (s : State) (f wtag k : Nat) : Bool :=
  keySpace k == 0 && (s.windowAt k).any fun w => w.wtag == wtag && w.owner == f

/-- A run of bytes that crosses no 32-byte boundary at its destination, as (offset, length) pieces of 32 bytes. -/
def pieces (dst : Nat) : List (Nat × Nat) :=
  if dst % 32 = 0 then [(0, 32)] else [(0, 32 - dst % 32), (32 - dst % 32, dst % 32)]

/-- The moves of a copy: sources and destinations by key. -/
def movesOf (form : CopyForm) (segs : List Seg) (global dst : Nat → Nat) (dstBase : Nat) : List Move :=
  if form.fills then []
  else segs.flatMap fun g =>
    if form.writes then
      if g.valid = 0 then []
      else [{ src := .key (dst g.off), dst := global g.va, len := 32, valid := g.valid, srcVa := 0, dstVa := g.va }]
    else (pieces (dstBase + g.off)).map fun p =>
      { src := if g.valid ≤ 8 * p.1 then .zero else .key (global g.va + p.1)
        dst := dst (g.off + p.1), len := p.2, valid := min (8 * p.2) (g.valid - 8 * p.1)
        srcVa := g.va + p.1, dstVa := if form = .g2g then (dstBase + g.off + p.1) % 2 ^ 64 else 0, at_ := p.1 }

/-- Each brick a copy fills that holds a byte in bounds, with its bytes out of bounds (08 R194): a tensor's, or where TID is
0 the lines of memory. -/
def filledBricks (f : Nat) (l : Layout) (b : Box) (segs : List Seg) (global : Nat → Nat) : List Brick :=
  if l.tid = 0 then
    (((segs.filter fun g => g.valid != 0).map fun g => global g.va / 128 * 128).eraseDups).map fun k => { tag := linTag f k, key := k }
  else
  let tag := fun (i : Nat) =>
    if l.shape = 0 then (⟨f, l.tid, b.origin 1 / 4 + i / packCols l b, b.origin 0 * l.width / 256 + i % packCols l b⟩ : BrickTag)
    else ⟨f, l.tid, b.origin 1 + i, 0⟩
  (List.range (packCols l b * packRows l b)).filterMap fun i =>
    let mine := segs.filter fun g => g.off / 128 == i
    let oob := mine.flatMap fun g => ((List.range 32).filter fun j => decide (g.bytes ≤ j)).map fun j => g.off % 128 + j
    if oob.length = 128 then none
    else some { tag := tag i, key := global ((mine.map (·.va)).headD 0), data := List.replicate 128 0, oob := oob }

/-- A tensor's bricks are dropped; what was stored through them is written back (17 R271). -/
def State.dropTensor (s : State) (f tid : Nat) : State :=
  let t := s.recall fun b => b.tag.func == f && (b.tag.tid == tid || b.tids.contains tid)
  { t with llc := t.llc.filter fun q => !(q.1.func == f && q.1.tid == tid) }

/-- Write a tensor-table entry; a change drops the function's bricks of the TID (08 R194; 17 R271). -/
def State.writeEntry (s : State) (f tid : Nat) (ws : List Word) : State :=
  if s.tensorEntry f tid = ws then s
  else
    let bytes := ws.flatMap fun w => bytesOf 8 w.toNat
    let at_ := s.ffield f 0x900 47 0 + 32 * tid
    ((s.dropTensor f tid).rawWrite at_ bytes).patchLog f at_ bytes

/-- The entry of a layout. -/
def entryOf (l : Layout) : List Word :=
  let cols := if l.shape = 0 then (l.ext.getD 0 1 * l.width + 255) / 256 else 1
  let rows := if l.shape = 0 then (l.ext.getD 1 1 + 3) / 4 else l.ext.getD 1 1
  [ BitVec.ofNat 64 l.rec_, BitVec.ofNat 64 l.base, BitVec.ofNat 64 (rows * 2 ^ 32 + cols)
  , BitVec.ofNat 64 (l.stride 1 * 2 ^ 16 + l.shape * 2 ^ 6 + (l.w 0).field 39 35 * 2 + 1) ]

/-- A request for the source bytes of a move from another package. -/
def Cx.askMove (c : Cx) (id : Nat) (m : Move) : Cx × Move :=
  match m.src with
  | .key k =>
    if isRemote k then
      let p := c.s.request c.G.fn 1 k m.len []
      let r : Remote := { tag := p.tag.toNat, g := c.g, sp := c.sp, vdst := [], sdst := none, size := m.len, signed := false
                          write := false, op := some id, va := m.srcVa, key := k, packet := p }
      ({ c with s := c.s.ask r }, { m with src := .wait p.tag.toNat k })
    else (c, m)
  | _ => (c, m)

def Cx.askMoves (c : Cx) (id : Nat) : List Move → Cx × List Move
  | [] => (c, [])
  | m :: r =>
    let (c, m) := c.askMove id m
    let (c, ms) := c.askMoves id r
    (c, m :: ms)

/-- All checks have passed: the counter, the queue, the entry of a tensor, the operation. -/
def Cx.enqueueCopy (c : Cx) (f : Cpy) (form : CopyForm) (l : Layout) (moves : List Move) (fills : List Brick) : State :=
  let n := form.counter
  if 63 ≤ c.G.k n then c.waitFor (.counter n)
  else if 32 ≤ (Store.keep c.s.copies fun _ o => o.cluster == c.G.cluster).length then c.waitFor .copyRoom
  else
    let go := fun (c : Cx) =>
      let c := if form.fills ∧ l.tid ≠ 0 then { c with s := c.s.writeEntry c.G.fn l.tid (entryOf l) } else c
      let id := c.s.handle
      let c := { c with s := { c.s with handle := id + 1 }, G := c.G.addOp n id }
      let (c, moves) := c.askMoves id moves
      let op : CopyOp :=
        { g := c.g, fn := c.G.fn, team := c.G.team, launch := c.G.launch, cluster := c.G.cluster, class_ := n
          kind := form.kind, ty := l.ty, twin := l.twin, moves := moves, fills := fills, point := f.point.toNat
          committed := f.point != 31 }
      { c with s := { c.s with copies := c.s.copies.put id op } }.retire
    if f.point = 31 then go c else c.commit go

/-- Steps 7 to 9: the index list, the pages, the window tags. WTAG is asked of every piece of a DIR 3 destination, of those that
take only zeros for elements out of bounds too (log 83). -/
def Cx.copyPages (c : Cx) (f : Cpy) (form : CopyForm) (l : Layout) (b : Box) (off : Nat) (rows : Option (List Nat)) : State :=
  let fn := c.G.fn
  let agent := (c.s.launchOf c.G).agent
  let segs := segments l b rows
  let live := segs.filter fun g => g.valid != 0
  let acc : Acc := if form.writes then .write else .read
  let base := (c.sreg f.dst.sNum).toNat
  let ends := segs.flatMap fun g => (pieces (base + g.off)).map fun p => (base + g.off + p.1) % 2 ^ 64
  c.unheld (live.map (·.va) ++ if form = .g2g then ends else []) <|
  match c.s.admitPages fn agent acc (pageFirsts (live.map (·.va))) with
  | .inl (code, va, s) => { c with s := s }.copyDenied code va acc
  | .inr (s, global) =>
    match s.admitPages fn agent .write (if form = .g2g then pageFirsts ends else []) with
    | .inl (code, va, s) => { c with s := s }.copyDenied code va .write
    | .inr (s, there) =>
      let c := { c with s := s }
      let dstKey := fun q => if form = .g2g then pageKey there ((base + q) % 2 ^ 64) else c.windowKey (off + q)
      let untagged := if l.wtag = 0 then [] else
        (live.filter fun g => !s.tagged fn l.wtag (pageKey global g.va)).map (·.va)
          ++ if form = .g2g then ends.filter fun va => !s.tagged fn l.wtag (pageKey there va) else []
      match untagged with
      | va :: _ => c.copyFault 0x04 va acc
      | [] =>
        let moves := movesOf form segs (pageKey global) dstKey (if form = .g2g then base else 0)
        let fills := if form = .g2l ∨ (form = CopyForm.clusters ∧ (c.sreg f.dst.sNum).toNat ≠ 0) then filledBricks fn l b segs (pageKey global) else []
        let away := moves.filter fun m =>
          let far := fun k => isRemote k && !s.reachable (keySpace k - 3)
          far m.dst || match m.src with | .key k => far k | _ => false
        match away with
        | [] => c.enqueueCopy f form l moves fills
        | m :: _ => c.refuse (if isRemote m.dst then m.dstVa else m.srcVa)

/-- Read an index list of `n` entries after its pages are admitted (08 R199 step 7). -/
def Cx.indexList (c : Cx) (va n : Nat) (k : Cx → List Nat → State) : State :=
  let vas := (List.range n).map fun i => (va + 4 * i) % 2 ^ 64
  c.unheld vas <| match c.s.admitPages c.G.fn (c.s.launchOf c.G).agent .read (pageFirsts vas) with
  | .inl (code, a, s) => { c with s := s }.copyDenied code a .read
  | .inr (s, m) =>
    { c with s := s }.checkRead 4 (vas.map fun a => (a, pageKey m a)) fun bs => k { c with s := s } (bs.map ofBytes)

/-- Steps 4 to 6: the record's contents, rank and shape; alignment; the Mortar range and the cluster mask. -/
def Cx.copyLayout (c : Cx) (f : Cpy) (form : CopyForm) (l : Layout) : State :=
  let b := c.box f l.rank
  let d := c.sreg f.dst.sNum
  let tensor := form.fills && l.tid != 0
  let shapeBad := tensor && (decide (2 < l.rank)
    || (l.shape == 1 && (b.size 0 * l.width != 1024 || b.origin 0 != 0)))
  let redBad := match form with | .red _ _ => !mwTypeOk l.ty | _ => false
  let list := (c.sreg (f.a.sNum + 2)).toNat
  let tot := packBytes l b
  let r := c.team.ring f.ring.toNat
  let pos := if f.slot then (if form.writes then r.cpos else r.ppos) else 0
  let off := d.toNat + pos * tot
  let die := c.team.die
  let outside := form == .clusters && (List.range 32).any fun n =>
    d.getLsbD n && !(decide (n < c.s.fuse.dieClusters die) && (c.s.clustersOf c.G.fn).contains (c.s.fuse.dieBase die + n))
  if !l.recordOk || (form.lists && l.rank == 1) || shapeBad || redBad then c.illop
  else if l.base % 32 ≠ 0 ∨ ((List.range l.rank).any fun i => l.stride i % 32 != 0 && i != 0) then
    c.copyFault 0x03 l.base .read
  else if !boxAligned l b then c.copyFault 0x03 0 .read
  else if form.mortar ∧ d.toNat % 128 ≠ 0 then c.copyFault 0x03 d.toNat .read
  else if form.lists ∧ list % 4 ≠ 0 then c.copyFault 0x03 list .read
  else if form.mortar ∧ tot ≠ 0 ∧ c.team.window < off + tot then c.copyFault 0x04 off .write
  else if outside then c.copyFault 0x04 0 .read
  else if form.lists then c.indexList list (b.size 1) fun c rows => c.copyPages f form l b off (some rows)
  else c.copyPages f form l b off none

/-- A copy's checks: steps 1 to 3, then the rest. -/
def Cx.copyChecks (c : Cx) (f : Cpy) (form : CopyForm) : State :=
  let unset := f.point != 31 && (c.team.point f.point.toNat).expect == 0
  let noRing := f.slot && (c.team.ring f.ring.toNat).depth == 0
  let badMask := form == .clusters && (c.sreg f.dst.sNum).field 63 32 != 0
  let rec_ := (c.sreg f.layout.sNum).toNat
  if unset || noRing || badMask then c.illop
  else if c.G.role ≠ .copy then c.fault 0x07
  else if rec_ % 32 ≠ 0 then c.copyFault 0x03 rec_ .read
  else c.unheld [rec_] <| match c.s.translate c.G.fn rec_ .read with
    | .fault code => c.copyDenied code rec_ .read
    | .ok w => c.checkRead 32 [(rec_, w.key)] fun bs =>
        c.copyLayout f form (c.layout f ((List.range 4).map fun i => BitVec.ofNat 64 (ofBytes (((bs.headD []).drop (8 * i)).take 8))))

/-- A copy; one that arrives at a point is irrevocable (02 R55). -/
def Cx.copy (c : Cx) (f : Cpy) (form : CopyForm) : State :=
  if f.point = 31 then c.copyChecks f form else c.outsideExit (c.copyChecks f form)

/-- The directions of cpy (08 R193). -/
def cpyForm (mod : Nat) : CopyForm :=
  match mod % 4 with
  | 0 => .g2m | 1 => .m2g | 2 => .g2l | _ => .g2g

def execCpy (f : Cpy) (s : State) : Outcome := s.issue fun c => c.copy f (cpyForm f.mod.toNat)
def execCpyg (f : Cpy) (s : State) : Outcome := s.issue fun c => c.copy f .gather
def execCpys (f : Cpy) (s : State) : Outcome := s.issue fun c => c.copy f .scatter
def execCpyc (f : Cpy) (s : State) : Outcome := s.issue fun c => c.copy f .clusters

/-- OP 0 add, 1 min, 2 max; DIR 1 writes the global side. -/
def execCpyred (f : Cpy) (s : State) : Outcome :=
  s.issue fun c => c.copy f (.red (bitsN f.mod.toNat 3 2) (f.mod.getLsbD 0))

def execCopyQueueRoom (g sp : Nat) (s : State) : Outcome :=
  s.wake g sp (· == .copyRoom) fun c => decide ((Store.keep s.copies fun _ o => o.cluster == c.G.cluster).length < 32)

/-! ### The engine -/

/-- The place of a window's byte in the saved partition that holds the copy's team, for a committed copy runs on after its
team has left its cores (19 R307; 21 R337). -/
def State.savedOffset (s : State) (o : CopyOp) (k : Nat) : Option Nat :=
  if keySpace k < 300 || (s.teams.find? o.team).isSome then none
  else (((s.fn o.fn).saved.bind fun x => x.teams.find? o.team).map fun t => k - teamWindowKey (s.fuse.colourBytes t.die) t)

/-- The saved bytes of a team's window. -/
def Saved.window (x : Saved) (team : Nat) : Store Byte :=
  ((List.find? (fun (q : Nat × List (Nat × Byte)) => q.1 == team) x.mortar).map (·.2)).getD []

def Saved.setWindow (x : Saved) (team : Nat) (w : Store Byte) : Saved :=
  { x with mortar := x.mortar.map fun q => if q.1 = team then (team, w) else q }

/-- Bytes of a copy's source or destination. -/
def State.copyRead (s : State) (o : CopyOp) (k n : Nat) : Nat :=
  match s.savedOffset o k with
  | some off =>
    let w := ((s.fn o.fn).saved.getD {}).window o.team
    ofBytes ((List.range n).map fun i => Store.get Memory.unlisted w (off + i))
  | none => s.read o.fn k n

def State.copyWrite (s : State) (o : CopyOp) (k : Nat) (bs : List Byte) : State :=
  match s.savedOffset o k with
  | some off =>
    let put := fun (y : Saved) =>
      y.setWindow o.team (bs.zipIdx.foldl (fun w q => Store.set Memory.unlisted w (off + q.2) q.1) (y.window o.team))
    s.modFn o.fn fun x => { x with saved := x.saved.map put }
  | none => s.store o.fn k bs o.committed

/-- The bits of a move's source: none until another package has sent them; the type's invalid code in every element of a
poisoned sector (08 R199). -/
def State.moveBits (s : State) (o : CopyOp) (m : Move) : Option (Nat × Bool) :=
  match m.src with
  | .zero => some (0, false)
  | .data bs => some (ofBytes bs, false)
  | .wait _ _ => none
  | .key k =>
    if s.poisoned k m.len then
      let codes := ((List.range (256 / o.ty.stride)).map fun e => invalidCode o.ty * 2 ^ (o.ty.stride * e)).sum
      some (codes / 2 ^ (8 * m.at_) % 2 ^ (8 * m.len), true)
    else some (s.copyRead o k m.len, false)

/-- Scale records of the window over 32 bytes at a key: one for each of its blocks there (17 R275). -/
def State.recordsAt (s : State) (k : Nat) : List Word :=
  match (if keySpace k = 0 then s.windowAt k else none) with
  | some w =>
    let block := if w.fmt == 0 || w.sparse then 16 else 32
    if w.twin then (List.range (32 / block)).map fun i => s.rawWord (w.scale + 8 * ((k - w.base) / block + i)) else []
  | none => []

/-- The signed scale of element `i` of a block; a block without a record has the scale that stands for no value. -/
def scaleOf (rec_ : Option Word) (i : Nat) : Int :=
  match rec_ with
  | some w => signedOf 8 (if w.getLsbD (32 + i) then w.field 15 8 else w.field 7 0)
  | none => -128

/-- An element's value, twin-scaled if its operand is marked. -/
def scaled (t : ETy) (marked : Bool) (c : Nat) (rec_ : Option Word) (i : Nat) : Num :=
  if marked then twinValue t c (scaleOf rec_ i) else numOf t c

/-- op(old, source) of element `e` of 32 bytes whose global side, the destination in `out`, is twin-scaled under a record (03
R73; 08 R197). -/
def twinUpdate (t : ETy) (op : Nat) (out : Bool) (rec_ : Option Word) (e old src : Nat) : Nat :=
  let x := scaled t out old rec_ e
  let y := scaled t (!out) src rec_ e
  if op = 0 then roundNum t (x.add y) else extremeNum t (op == 2) x y

/-- The record of the 32 bytes of global memory that a move reads or writes. -/
def State.moveRecord (s : State) (o : CopyOp) (m : Move) : Option Word :=
  match o.kind, m.src with
  | .reduce _ false, _ => (s.recordsAt m.dst).head?
  | .reduce _ true, .key k => (s.recordsAt k).head?
  | _, _ => none

/-- The bytes that a move leaves at its destination, whose old bits are given: bytes with no bit written are not stored. -/
def moveResult (o : CopyOp) (m : Move) (bad : Bool) (rec_ : Option Word) (src old : Nat) : Nat × Nat :=
  let masked := src % 2 ^ m.valid
  match o.kind with
  | .move true => (m.len, masked)
  | .move false =>
    let n := (m.valid + 7) / 8
    (n, masked + old % 2 ^ (8 * n) / 2 ^ m.valid * 2 ^ m.valid)
  | .reduce op pad =>
    let count := if pad then 8 * m.len / o.ty.stride else m.valid / o.ty.stride
    let new := fun e =>
      let x := elem o.ty masked e
      if bad ∧ o.ty.stride * e < m.valid then x
      else if o.twin ∧ o.ty.stride * e < m.valid then twinUpdate o.ty op (!pad) rec_ e (elem o.ty old e) x
      else updateElem o.ty op (elem o.ty old e) x
    (count * o.ty.stride / 8, ((List.range count).map fun e => new e * 2 ^ (o.ty.stride * e)).sum)
  | .fill => (0, 0)

/-- Send a write or an atomic of a copy to another package (22 R356; log 21). -/
def State.sendFor (s : State) (o : CopyOp) (id va kind key mbox : Nat) (ws : List Word) : State :=
  let p := s.request o.fn kind key mbox ws
  s.ask { tag := p.tag.toNat, g := o.g, sp := 0, vdst := [], sdst := none, size := 0, signed := false, write := true
          op := some id, va := va, key := key, packet := p }

/-- The words that carry `n` bytes of a number. -/
def wordsOf (n x : Nat) : List Word := (List.range ((n + 7) / 8)).map fun i => BitVec.ofNat 64 (x / 2 ^ (64 * i))

/-- The low bits of 4 bytes at another package written, or every bit where all 32 are. -/
def State.sendBits (s : State) (o : CopyOp) (id va key bits x : Nat) : State :=
  if bits % 8 = 0 then
    if bits = 0 then s else s.sendFor o id va 2 key (if bits = 64 then 0 else bits / 8) (wordsOf (bits / 8) x)
  else
    let n := bits / 8
    let s := if n = 0 then s else s.sendFor o id va 2 key n (wordsOf n (x % 2 ^ (8 * n)))
    let s := s.sendFor o id va 3 (key + n) (atomicField 0x0DA .b32 0) [BitVec.ofNat 64 (256 - 2 ^ (bits % 8)), 0]
    s.sendFor o id va 3 (key + n) (atomicField 0x0DB .b32 0) [BitVec.ofNat 64 (x / 2 ^ (8 * n)), 0]

/-- One move of a copy whose destination another package holds: each 4-byte word is combined by one request, whose second word
tells how many of its bits hold elements. A twin-scaled destination there has no scale record. -/
def State.moveAway (s : State) (o : CopyOp) (id : Nat) (m : Move) (bad : Bool) (src : Nat) : State :=
  let s := if o.committed then s.commitAway o.fn m.dst m.len else s
  match o.kind with
  | .reduce op _ =>
    if bad ∨ o.twin then
      let codes := ((List.range (m.valid / o.ty.stride)).map fun e => invalidCode o.ty * 2 ^ (o.ty.stride * e)).sum
      s.sendBits o id m.dstVa m.dst m.valid codes
    else (List.range ((m.valid + 31) / 32)).foldl (fun s i =>
      s.sendFor o id m.dstVa 3 (m.dst + 4 * i) (atomicField (0x0D7 + op) o.ty 2)
        [BitVec.ofNat 64 (src / 2 ^ (32 * i) % 2 ^ 32), BitVec.ofNat 64 (min 32 (m.valid - 32 * i))]) s
  | .move true => s.sendBits o id m.dstVa m.dst (8 * m.len) (src % 2 ^ m.valid)
  | _ => s.sendBits o id m.dstVa m.dst m.valid (src % 2 ^ m.valid)

/-- The engine reads the source of a move: others' modified bricks of its line are recalled (17 R270, R276). -/
def State.moveShared (s : State) (o : CopyOp) (m : Move) : State :=
  match m.src with
  | .key k => (s.track false k).shareLine o.fn k
  | _ => s

/-- Perform one move. -/
def State.performMove (s : State) (o : CopyOp) (id : Nat) (m : Move) : State :=
  match (s.moveShared o m).moveBits o m with
  | none => s
  | some (src, bad) =>
    let lid := ((s.launches.find? o.launch).getD {}).lid
    let s := (s.moveShared o m).track false m.dst
    let s := match bad, m.src with
      | true, .key k => s.logImprecise o.fn lid 0x11 (s.poisonUnit k m.len) (keyAddr k)
      | _, _ => s
    if isRemote m.dst then s.moveAway o id m bad src
    else
      let (n, x) := moveResult o m bad (if o.twin then s.moveRecord o m else none) src (s.copyRead o m.dst m.len)
      s.copyWrite o m.dst (bytesOf n x)

/-- A move that cannot be performed yet. -/
def State.moveHeld (s : State) (m : Move) : Bool :=
  (match m.src with
    | .wait _ _ => true
    | .key k => s.heldKey k
    | _ => false)
    || (!isRemote m.dst && s.heldKey m.dst)

/-- A brick is filled: a tensor's replaces the one cached under its tag, with its bytes out of bounds (08 R194). -/
def State.install1 (s : State) (b : Brick) : State :=
  let s := if b.tag.tid = 0 then s else { s with bricks := s.bricks.filter fun x => x.tag != b.tag }
  let s := (s.track false b.key).fillLine b.tag b.key
  if b.oob = [] then s
  else
    let old := (s.brickAt b.tag).getD b
    { s with bricks := (s.bricks.filter fun x => x.tag != b.tag) ++ [{ old with data := b.data, oob := b.oob }] }

def State.install (s : State) (bs : List Brick) : State := bs.foldl State.install1 s

/-- The copy has moved every byte: its counter is lowered, and its engine arrives (08 R199, R202). -/
def State.copyDone (s : State) (id : Nat) (o : CopyOp) : State :=
  let s := { s with copies := s.copies.erase id, gangs := Store.update s.gangs o.g fun G => G.endOp id }
  if o.point < 24 then s.engineArrive o.team o.point else s

/-- Move what is left; the copy is complete once every other package has answered. -/
def execCopyComplete (id : Nat) (s : State) : Outcome :=
  .next <|
    match s.copies.find? id with
    | none => s
    | some o =>
      let away := if o.committed then [] else s.unlogged o.fn (o.moves.map (·.dst))
      if !away.isEmpty then s.askLines o.fn away
      else if o.moves.any s.moveHeld then s
      else
        let t := (o.moves.foldl (fun s m => s.performMove o id m) s).install o.fills
        let whole := o.moves.filterMap fun (m : Move) =>
          if isRemote m.dst ∨ (o.kind ≠ .move true ∧ m.valid < 8 * m.len) then none else some (m.dst, m.len)
        let t := if o.moves.isEmpty then t else t.healPieces whole
        if t.remotes.any fun r => r.op == some id then
          { t with copies := t.copies.put id { o with moves := [], fills := [] } }
        else t.copyDone id o

end Sys2Proof.Machine
end

