-- ==== Sys2Proof/Machine/Bricks.lean ====
section
/-!
DEFINITION. The caches' own events (17 R268 to R278): tensor flushes, format windows and their commits, pinned regions, fills
and evictions; and the processor chiplet's accesses with the tracked ranges (22 R340 to R343).
-/

namespace Sys2Proof.Machine

/-! ### Tensor flushes (17 R271) -/

def execTflush (f tid : Nat) (s : State) : Outcome :=
  .next <|
    let t := tid % 2 ^ 16
    if t = 0 ∨ s.ffield f 0x908 16 16 = 1 ∨ !s.barOpen f then s
    else (s.setFreg f 0x908 ((s.freg f 0x908).put 16 16 1)).modFn f fun x => { x with flush := some t }

/-- What was stored through the tensor's bricks is written back; every brick of the TID is dropped. -/
def execTflushComplete (f : Nat) (s : State) : Outcome :=
  .next <|
    match (s.fn f).flush with
    | none => s
    | some t =>
      let s := s.dropTensor f t
      (s.setFreg f 0x908 ((s.freg f 0x908).put 16 16 0)).modFn f fun x => { x with flush := none }

/-! ### Format windows (17 R272, R273) -/

/-- A window's register words. -/
def State.windowRegs (s : State) (n : Nat) : List Word := (List.range 4).map fun i => s.reg (0x80000 + 32 * n + 8 * i)

/-- The ranges a window is made of: view, scale region, plane storage. -/
def Window.ranges (w : Window) : List (Nat × Nat) := [(w.base, w.size), (w.scale, w.scaleBytes), (w.store, w.storeBytes)]

def rangesMeet (a b : Nat × Nat) : Bool := decide (0 < a.2) && decide (0 < b.2) && decide (a.1 < b.1 + b.2) && decide (b.1 < a.1 + a.2)

/-- WERR of a setting with EN = 1. -/
def State.windowError (s : State) (n : Nat) (w : Window) : Nat :=
  let hbm := fun (lo size : Nat) => decide (lo + size ≤ s.fuse.hbmBytes)
  let others := s.windows.filterMap fun q => if q.1 = n then none else Window.ofWords q.2
  if w.base % 4096 ≠ 0 ∨ w.size % 4096 ≠ 0 ∨ w.size = 0 ∨ (w.isT6 ∧ w.store % 128 ≠ 0) ∨ (w.twin ∧ w.scale % 8 ≠ 0) then 1
  else if 17 < w.fmt ∨ (w.twin ∧ 2 < w.fmt) ∨ (w.sparse ∧ w.fmt ≠ 0 ∧ w.fmt ≠ 2) then 2
  else if (if w.isT6 then !(decide (aperture ≤ w.base) && decide (w.base + w.size ≤ 2 ^ 48) && hbm w.store w.storeBytes)
           else !hbm w.base w.size) || (w.twin && !hbm w.scale w.scaleBytes) then 3
  else if others.any fun x => w.ranges.any fun a => x.ranges.any fun b => rangesMeet a b then 4
  else 0

def State.setWstatus (s : State) (err busy : Nat) : State := s.setReg 0x88008 (BitVec.ofNat 64 (err * 2 ^ 8 + busy))

/-- A commit is accepted: accesses to the ranges are held until it completes. -/
def State.beginCommit (s : State) (n : Nat) : State :=
  { s.setReg 0x88008 ((s.reg 0x88008).put 0 0 1) with wcommit := some (n, s.windowRegs n) }

def execWindowCommit (n : Nat) (s : State) : Outcome :=
  .next <|
    match Window.ofWords (s.windowRegs n) with
    | some w =>
      if 1024 ≤ n ∨ s.wcommit.isSome then s
      else
        let e := s.windowError n w
        if e = 0 then s.beginCommit n else s.setWstatus e 0
    | none => s

def execWindowRemove (n : Nat) (s : State) : Outcome :=
  .next <|
    if 1024 ≤ n ∨ s.wcommit.isSome ∨ (Window.ofWords (s.windowRegs n)).isSome then s else s.beginCommit n

/-! ### Pinned regions (17 R278) -/

/-- Bytes of a range that a slice homes: its granules of the interleaved region, and its own stack region. -/
def Fuse.sliceBytes (f : Fuse) (i base size : Nat) : Nat :=
  let upTo := fun (a : Nat) => (a / 4096 + 11 - i) / 12 * 4096
  let lo := min base f.interleaved
  let hi := min (base + size) f.interleaved
  let own := fun i => (f.channels.getD i 0 - f.cmin) * (3 * 2 ^ 29)
  let start := f.interleaved + ((List.range i).map own).sum
  (upTo hi - upTo lo) + (min (base + size) (start + own i) - max base start)

/-- Regions enabled beside region n. -/
def State.otherPins (s : State) (n : Nat) : List (Nat × Nat) :=
  (List.range 64).filterMap fun m =>
    let r := s.pinRegion m
    if m != n && r.1 then some (r.2.2.1, r.2.2.2) else none

/-- EN is set unless the region overlaps another or pins more than 32 MiB of a slice. -/
def execPinRegionEnable (n : Nat) (s : State) : Outcome :=
  .next <|
    let r := s.pinRegion n
    let mine := (r.2.2.1, r.2.2.2)
    let others := s.otherPins n
    let bytes := fun i => ((mine :: others).map fun q => s.fuse.sliceBytes i q.1 q.2).sum
    if 64 ≤ n ∨ r.1 then s
    else if others.any (rangesMeet mine) ∨ (List.range 12).any (fun i => decide (32 * 2 ^ 20 < bytes i)) then s
    else s.setReg (0x89000 + 16 * n) ((s.reg (0x89000 + 16 * n)).put 63 63 1)

/-- The home address of a brick lies in an enabled region of its owner. -/
def State.pinned (s : State) (t : BrickTag) : Bool :=
  (s.rowKeys t).head?.any (s.pinnedAt t.func)

/-- EN is cleared; the region's modified bricks are written back. -/
def execPinRegionDisable (n : Nat) (s : State) : Outcome :=
  .next <|
    if 64 ≤ n then s
    else
      let t := (s.bricks.filter fun b => b.modified && s.pinned b.tag).foldl State.cleanBrick s
      let t := if (s.pinRegion n).1 then t else s
      t.setReg (0x89000 + 16 * n) ((t.reg (0x89000 + 16 * n)).put 63 63 0)

/-! ### Fills and evictions (17 R270, R275, R276) -/

/-- A fill. -/
def execBrickFill (tag : BrickTag) (s : State) : Outcome :=
  .next <|
    match (s.rowKeys tag).head? with
    | some k => s.fillLine tag k
    | none => s

/-- An eviction: a modified brick goes back through its window; what a fill of a tensor left out of bounds is dropped with its
brick. A brick of a pinned region or in use is never chosen. -/
def execBrickEvict (tag : BrickTag) (s : State) : Outcome :=
  .next <|
    match s.llc.find? fun q => q.1 == tag with
    | some q => if s.pinned tag || s.inUse { tag := tag, key := q.2 } then s else s.evict tag
    | none =>
      match s.brickAt tag with
      | some b => if s.pinned tag || s.inUse b then s else s.dropBrick b
      | none => s

/-! ### The chiplet and the tracked ranges (22 R340 to R343) -/

/-- The contested range from granule `n` on is idle long enough to be tracked again; with RTIDLE = 0 contested ranges stay so. -/
def execRangeIdleReturn (n : Nat) (s : State) : Outcome :=
  .next <| if (s.reg 0x60000).field 31 0 = 0 then s else { s with contested := s.contested.filter fun e => e.lo != 4096 * n }

/-- What an agent's access leaves in its bytes, if it writes. -/
def agentNew (op : AgentOp) (bits old v : Nat) : Option Nat :=
  match op with
  | .load => none
  | .store => some v
  | .amoadd => some ((old + v) % 2 ^ bits)
  | .amoswap => some v
  | .cas e => if old = e.toNat % 2 ^ bits then some v else none

/-- An agent reads or writes package memory, coherent with every cache. -/
def State.agentAccess (s : State) (a : AgentAccess) : State :=
  let k := a.addr.toNat
  let size := a.size
  let s := s.shareLine 0 k
  match agentNew a.op (8 * size) (s.read 0 k size) (a.data.toNat % 2 ^ (8 * size)) with
  | some v => s.overwrite 0 k (bytesOf size v)
  | none => s

/-- An access of a naturally aligned size to HBM that exists. -/
def State.agentOk (s : State) (a : AgentAccess) : Bool :=
  [1, 2, 4, 8].contains a.size && a.addr.toNat % max a.size 1 == 0 && decide (a.addr.toNat + a.size ≤ s.fuse.hbmBytes)

/-- A chiplet core's access; while its bytes are held it waits (22 R351; 24 R368). -/
def State.coreAccess (s : State) (a : AgentAccess) : State :=
  if s.heldKey a.addr.toNat then { s with coreWaits := s.coreWaits ++ [a] } else (s.track true a.addr.toNat).agentAccess a

def execChipletCoreAccess (a : AgentAccess) (s : State) : Outcome :=
  .next (if s.agentOk a ∧ (s.reg 0x70000).field 37 37 = 1 then s.coreAccess a else s)

end Sys2Proof.Machine
end

