-- ==== Sys2Proof/Machine/Issue.lean ====
section
/-!
DEFINITION. From a clause header to the first instruction (02 R39, R42, R43, R46; 09 R220), issue opportunities (04 R84, R386;
16 R261), the ends of holds and waits on memory, and the completion of gathers, host atomics and Hod updates.
-/

namespace Sys2Proof.Machine

/-! ### Clauses -/

/-- A fault at a clause header (02 R42, R46), with its unit (20 R327). No instruction of the clause has issued and its count may not
be known: the record's LEFT is 0 (log 71). -/
def Cx.headerFault (c : Cx) (code addr acc : Nat) : State :=
  c.takeFault { c.faultAt code with
    addr := addr, acc := acc, hdr := c.P.pc, left := 0, elem := c.s.readUnit c.G.fn addr 8 code }

/-- A split that stands at a header and has fetched nothing. -/
def Split.atHeader (P : Split) : Bool :=
  P.clause.isNone && P.parked.isNone && P.wait.isNone && !P.saved && !P.wonly && P.member != 0

/-- The split's clause as fetched; a split at a meet is held there (04 R89), but not in an exit routine, where meet raises XFLT
(09 R224; log 57). -/
def Cx.enterClause (c : Cx) (k : Code) : State :=
  let cl : Clause := { hdr := c.P.pc, header := k.header, words := k.words, pos := 0, stop := k.words.length
                       waited := false, begun := false, desc := k.desc }
  let held := opcodeOf (k.words.headD 0) == 0x01C && c.P.rstate != 1
  { c with P := { c.P with clause := some cl, wait := if held then some .held else none } }.flush

def execClauseFetch (g sp : Nat) (s : State) : Outcome :=
  .next <| s.onSplit g sp fun c =>
    if !c.P.atHeader || c.fetchHeld c.P.pc then c.s
    else match c.fetch c.P.pc with
      | .fault code a acc => c.fetched.headerFault code a acc
      | .ok k =>
        let c := c.fetched
        let marked := k.words.head?.any isMarker
        if clauseDefect k.header k.words then c.headerFault 0x02 0 0
        else if c.G.fresh && !marked then c.headerFault 0x01 0 0
        else if c.P.closed && !marked then c.headerFault 0x02 0 0
        else
          let t := c.enterClause k
          { t with gangs := Store.update t.gangs g fun G => G.regang sp }

/-- Points that a header waits on, and its counter thresholds. -/
def headerPoints (h : Word) : List Nat := (List.range 24).filter fun n => h.getLsbD (16 + n)
def headerThreshold (h : Word) (n : Nat) : Nat := h.field (43 + 4 * n) (40 + 4 * n)

/-- Every wait of the header is satisfied (02 R43; 08 R204, R210). -/
def Cx.headerHolds (c : Cx) (h : Word) : Bool :=
  (List.range 4).all (fun n => headerThreshold h n == 15 || c.G.kHolds n (headerThreshold h n))
    && (headerPoints h).all fun pt =>
      !(Store.get false c.G.flags pt) || (((c.s.teams.find? c.G.team).getD {}).points.get {} pt).phase != Store.get false c.G.ap pt

/-- The split finds every point of its header configured (10 R250). -/
def Cx.findPoints (c : Cx) : List Nat → Cx × Bool
  | [] => (c, true)
  | pt :: r =>
    let (s, found) := c.s.finds c.home c.actor pt
    let (d, rest) := ({ c with s := s } : Cx).findPoints r
    (d, found && rest)

def execHeaderWaitSatisfied (g sp : Nat) (s : State) : Outcome :=
  .next <| s.onSplit g sp fun c =>
    match c.P.clause with
    | some cl =>
      let t := (c.s.teams.find? c.G.team).getD {}
      let (d, found) := c.findPoints (headerPoints cl.header)
      if cl.waited || c.P.parked.isSome then c.s
      else if !found || (headerPoints cl.header).any fun pt => (t.points.get {} pt).expect == 0 then d.headerFault 0x02 0 0
      else if c.headerHolds cl.header then
        let flags := (headerPoints cl.header).foldl (fun m pt => Store.set false m pt false) c.G.flags
        let d := (headerPoints cl.header).foldl Cx.met d
        let k := headerThreshold cl.header 2
        let d := if k = 15 then d else d.covers2 k
        { d with G := { d.G with flags := flags }, P := { d.P with clause := some { cl with waited := true } } }.flush
      else c.s
    | none => c.s

/-- The hold of a split at a meet ends. -/
def execMeetHoldEnd (g sp : Nat) (s : State) : Outcome :=
  .next <| s.onSplit g sp fun c =>
    if c.P.wait = some .held ∧ c.G.holdEnds sp then { c with P := { c.P with wait := none } }.flush else c.s

/-! ### Issue opportunities -/

/-- The splits that may issue: in a partition that is being pre-empted only exit routines go on (09 R221). -/
def Gang.may (G : Gang) (exiting : Bool) (p : Split → Bool) : Store Split :=
  Store.keep G.splits fun _ P => p P && (!exiting || P.rstate == 1)

/-- An issue opportunity of the gang finds no ready split but those a yield holds back: they all become ready (04 R386). -/
def Gang.releases (G : Gang) (exiting : Bool) : Bool := (G.may exiting Split.ready).isEmpty

/-- The splits ready at an issue opportunity of the gang. -/
def Gang.readySplits (G : Gang) (exiting : Bool) : Store Split :=
  if G.releases exiting then G.may exiting Split.readyAt else G.may exiting Split.ready

/-- The split the opportunity goes to: one passed over 1,024 times, else the lowest INDEX (04 R84). -/
def Gang.choose (G : Gang) (exiting : Bool) : Option Nat :=
  let pool := G.readySplits exiting
  match List.find? (fun (q : Nat × Split) => decide (1024 ≤ q.2.passed)) pool with
  | some q => some q.1
  | none => pool.keys.head?

/-- Some split of the function is in its exit routine. -/
def State.inExit (s : State) (f : Nat) : Bool := (s.gangsOf f).any fun q => q.2.splits.any fun r => r.2.rstate == 1

/-- The function keeps checkpoints and has none: a gang about to issue waits for the close (19 R305). -/
def State.awaitsMark (s : State) (f : Nat) : Bool := s.hasLog f && (s.fn f).ckpt.isNone && !s.inExit f

/-- The split that the gang's next issue opportunity goes to. -/
def State.chosen (s : State) (G : Gang) : Option Nat :=
  if s.awaitsMark G.fn || s.stopped G.fn then none else G.choose (s.pstat G.fn == 2)

/-- A stalled clause that can go on: what it waited for is over. -/
def Split.resumes (P : Split) : Bool :=
  P.clause.any (·.begun) && P.stalled && P.wait.isNone && P.parked.isNone && !P.saved

/-- A clause of the gang has stalled; its quarter issues other gangs (02 R44; 08 R212). -/
def Gang.stalls (G : Gang) : Bool :=
  G.splits.any fun q => q.2.clause.any (·.begun) && q.2.stalled && q.2.parked.isNone && !q.2.saved

/-- A stall that is over only when the instruction is tried again. -/
def Split.retries (P : Split) : Bool :=
  P.parked.isNone && !P.saved &&
    match P.wait with
    | some .memory => true
    | some .copyCheck => true
    | some .fence => true
    | some .checkpoint => true
    | some (.faultQueue _) => true
    | some .xret => true
    | _ => false

/-- A list begun elsewhere, so that its members take turns. -/
def rotated {α : Type} (l : List α) (n : Nat) : List α := l.drop (n % max l.length 1) ++ l.take (n % max l.length 1)

/-- A split of a quarter with a stalled clause that a predicate picks. Of several the turn decides (log 7). -/
def State.stalledOn (s : State) (q : Nat) (p : Close → Split → Bool) : Option (Nat × Nat) :=
  (rotated ((s.onQuarter q).flatMap fun r => r.2.splits.map fun x => (r, x)) (s.turn / 4)).findSome? fun (r, x) =>
    if p (s.fn r.2.fn).close x.2 then some (r.1, x.1) else none

/-- A begun clause of a quarter whose stall is over: the quarter goes on with it before it issues a new one (02 R44). -/
def State.resumed (s : State) (q : Nat) : Option (Nat × Nat) := s.stalledOn q fun close P => close == .none && P.resumes

/-- One whose stall is over only when it is tried; during a close only one that waits for it, once its mark stands (19 R305). -/
def State.tried (s : State) (q : Nat) : Option (Nat × Nat) :=
  s.stalledOn q fun close P => P.retries && if P.wait == some .checkpoint then close != .waiting else close == .none

/-- A stalled clause of a quarter that can go on or be tried again. -/
def State.goesOn (s : State) (q : Nat) : Option (Nat × Nat) := (s.resumed q).or (s.tried q)

/-- The gang a quarter selects: unselected longest, the lower slot on a tie (16 R261). -/
def State.selectGang (s : State) (q : Nat) : Option Nat :=
  let cands := Store.keep (s.onQuarter q) fun _ G => !G.stalls && (s.chosen G).isSome
  let better := fun (a b : Nat × Gang) => decide (a.2.lastSel < b.2.lastSel)
    || (a.2.lastSel == b.2.lastSel && decide (a.2.seat.slot < b.2.seat.slot))
  match cands with
  | [] => none
  | x :: r => some (r.foldl (fun a b => if better b a then b else a) x).1

/-- Spawn memory that a gang's records hold is free once its first clause issues (04 R92). -/
def State.freeGroup (s : State) (G : Gang) : State :=
  match G.group.bind fun n => (s.groups.find? n).map fun x => (n, x) with
  | some (n, x) =>
    ({ s with
        spawnUsed := Store.set 0 s.spawnUsed x.die (Store.get 0 s.spawnUsed x.die - recsBytes x.recs)
        groups := s.groups.erase n } : State).drain x.die
  | none => s

/-- The split begins to issue its clause; the gang's other ready splits have been passed over, and where a yield held all of
them back none is held any more. -/
def Cx.begin (c : Cx) : State :=
  let exiting := c.s.pstat c.G.fn == 2
  let ready := (c.G.readySplits exiting).keys
  let release := c.G.releases exiting
  let go := fun (P : Split) =>
    { P with passed := 0, stalled := false, pc := P.pc + 8, clause := P.clause.map fun cl => { cl with begun := true } }
  let free := fun (P : Split) => bif release then { P with yieldTo := [] } else P
  let pass := fun i (P : Split) =>
    free (bif i == c.sp then go P else bif ready.contains i then { P with passed := P.passed + 1 } else P)
  let G := { c.G.unyield c.sp with merged := [] }
  let s := c.G.merged.foldl (fun s m => s.did c.home (.meet m)) (c.s.freeGroup c.G)
  { s with
    cur := some (c.g, c.sp)
    gangs := s.gangs.put c.g { G with splits := Store.mapVals G.splits pass, lastSel := c.s.turn, sels := c.G.sels + 1, fresh := false, group := none } }

/-- The running split is one of the quarter. -/
def State.running (s : State) (q : Nat) : Bool :=
  s.cur.any fun r => (s.gangs.find? r.1).any fun G => G.quarterNo == q

/-- Try a stalled instruction again. -/
def State.retry (s : State) (g sp : Nat) : State :=
  match s.cx? g sp with
  | some c =>
    match c.P.wait with
    | some (.faultQueue i) => { c with P := { c.P with wait := none } }.takeFault i
    | _ => { { c with P := { c.P with wait := none, stalled := false } }.flush with cur := some (g, sp) }
  | none => s

/-- A split of the quarter has reached a boundary and its clause is not fetched, or a wait or hold of it is over and not yet
noticed: which splits are ready (04 R84) is not settled. -/
def State.unsettled (s : State) (q : Nat) : Bool :=
  (s.onQuarter q).any fun r => r.2.splits.any fun x =>
    (x.2.atHeader && !Cx.fetchHeld ⟨s, r.1, x.1, r.2, x.2⟩ x.2.pc) || (x.2.wait == some .held && r.2.holdEnds x.1)
      || (x.2.parked.isNone && x.2.clause.any fun cl => !cl.waited && Cx.headerHolds ⟨s, r.1, x.1, r.2, x.2⟩ cl.header)

/-- A quarter goes on with the clause it has begun, with a stalled one whose stall is over or to be tried again, or selects a
gang and its split; while opportunities are halved, a quarter skips every second of its own (24 R370). -/
def execIssueOpportunity (q : Nat) (s : State) : Outcome :=
  .next <|
    let t := { s with turn := s.turn + 1 }
    let select := match s.selectGang q with
      | some g =>
        match ((t.gangs.find? g).bind t.chosen).bind fun sp => t.cx? g sp with
        | some c => some c.begin
        | none => none
      | none => none
    let again := (s.tried q).map fun r => t.retry r.1 r.2
    if s.running q || s.unsettled q then s
    else if s.halved && !s.skipped.contains q then { t with skipped := s.skipped ++ [q] }
    else
    let t := { t with skipped := s.skipped.filter (· != q) }
    match s.splitOn q Split.midClause with
      | some r => { t with cur := some r }
      | none =>
        match s.resumed q with
        | some r => t.retry r.1 r.2
        | none => ((if s.turn / 2 % 2 = 0 then again.or select else select.or again).getD t)

/-- A ready split passed over 1,024 times takes its gang's next opportunity. -/
def execSplitStarvationBound (g sp : Nat) (s : State) : Outcome :=
  .next <|
    match s.cx? g sp with
    | some c =>
      if c.P.readyAt && decide (1024 ≤ c.P.passed) && s.selectGang c.G.quarterNo == some g && s.chosen c.G == some sp
          && !s.running c.G.quarterNo
          && (s.splitOn c.G.quarterNo Split.midClause).isNone && (s.resumed c.G.quarterNo).isNone && !s.unsettled c.G.quarterNo then
        { c with s := { s with turn := s.turn + 1 } }.begin
      else s
    | none => s

/-! ### Results that return -/

/-- Deliver the results that outstanding loads owe the lanes of a mask; scalar results come with all lanes (07 R163). -/
def execLoadDataReturn (g sp : Nat) (lanes : BitVec 96) (s : State) : Outcome :=
  .next <| s.onSplit g sp fun c =>
    let whole := lanes == allLanes
    let part := fun (r : Late) (take : Bool) =>
      { r with vs := r.vs.filter fun q => lanes.getLsbD (q.1 % 96) == take
               ss := if whole == take then r.ss else []
               ps := if whole == take then r.ps else [] }
    let d := c.P.late.foldl (fun c r => c.deliver (part r true)) c
    { d with P := { d.P with late := c.P.late.map fun r => part r false } }.flush

/-- A gather or scatter is complete once other packages have answered; what a gather still owes is written before k2 falls. -/
def execGatherComplete (id : Nat) (s : State) : Outcome :=
  .next <|
    match s.gathers.find? id with
    | none => s
    | some o =>
      if s.remotes.any fun r => r.op == some id then s
      else if (s.gangs.find? o.g).any fun G => (G.splits.find? o.sp).any fun P => P.wait == some .remote then s
      else
        let s := s.onSplit o.g o.sp fun c => c.settle.flush
        { s with gathers := s.gathers.erase id, gangs := Store.update s.gangs o.g fun G => G.endOp id }

/-! ### Host atomics (07 R172, R173; 22 R352) -/

/-- One request performed by the completer: its lane's old value. -/
def State.performReq (s : State) (o : HostOp) (r : HostReq) : State × Nat :=
  let size := o.ty.size
  let old := s.read o.fn r.key size
  let new := o.at_.new o.ty old r.operand r.newValue
  (if o.at_ = .cas ∧ old ≠ r.operand then s else s.store o.fn r.key (bytesOf size new) true, old)

/-- The lanes of one location in ascending order, adjacent (07 R170): their old values. -/
def State.performReqs (s : State) (o : HostOp) : List HostReq → State × List (HostReq × Nat)
  | [] => (s, [])
  | r :: rs =>
    let (s, old) := s.performReq o r
    let (s, olds) := s.performReqs o rs
    (s, (r, old) :: olds)

/-- A lane's answer: 0 performed, with the lanes of its location that are still open; 1 Unsupported Request, 2 Completer
Abort. -/
def State.hostAnswer (s : State) (id lane ans : Nat) (unsure : Bool) : State :=
  match s.hostOps.find? id with
  | none => s
  | some o =>
    match o.open_.find? fun r => r.lane == lane with
    | none => s
    | some r =>
      let done := if ans = 0 then o.open_.filter fun x => x.key == r.key else []
      let (s, olds) := s.performReqs o done
      let o := { o with
        open_ := o.open_.filter fun x => x.lane != lane && !done.contains x
        failed := if ans = 0 then o.failed else o.failed ++ [(r, ans)]
        unsure := o.unsure || unsure }
      let give := fun (c : Cx) (q : HostReq × Nat) =>
        let c := c.deliver (loadWrites o.dst o.ty q.1.lane q.2)
        if o.acq then c.acquireOf q.1.va 5 c.s.order.length (maskOfList [q.1.lane]) else c
      { s with hostOps := s.hostOps.put id o }.onKept o.g o.sp fun c =>
        if c.P.wait == some (Wait.hostAtomic id) then (olds.foldl give c).finishHost id o else c.s

def execAtomicopCompletion (id lane : Nat) (ans : HostAnswer) (s : State) : Outcome :=
  .next <| s.hostAnswer id lane (match ans with | .accept => 0 | .unsupported => 1 | .abort => 2) false

/-- A timeout counts as Unsupported Request, but that the host must confirm that nothing was performed (22 R352). -/
def execAtomicopCompletionTimeout (id lane : Nat) (s : State) : Outcome := .next (s.hostAnswer id lane 1 true)

/-! ### The Hod (17 R282) -/

/-- Apply a lane's value in HBM; once all are applied, k3 is lowered. -/
def execHodUpdateApply (id lane : Nat) (s : State) : Outcome :=
  .next <|
    match s.hods.find? id with
    | none => s
    | some o =>
      match o.lanes.find? fun q => q.1 == lane with
      | none => s
      | some (_, key, v) =>
        let n := if o.ty.is64 then 8 else 4
        let s := s.recall fun b => b.tag.tid == 0 && brickAddr b.tag == key / 128 * 128
        let from_ := s.order.length
        let s := s.store o.fn key (bytesOf n (updateWord o.ty o.op (s.rawRead key n) v)) true
        let s := match s.gangs.find? o.g with
          | some G => s.did (G.home o.g) (.wrote lane key n from_ s.order.length none none)
          | none => s
        let left := o.lanes.filter fun q => q.1 != lane
        if left.isEmpty then
          let s := s.healPieces o.pieces
          { s with hods := s.hods.erase id, gangs := Store.update s.gangs o.g fun G => G.endOp id }
        else { s with hods := s.hods.put id { o with lanes := left } }

end Sys2Proof.Machine
end

