-- ==== Sys2Proof/Machine/Queues.lean ====
section
/-!
DEFINITION. Queues (18 R286 to R291, R297): the queue table, queue control blocks, the slots that cache them, stopping a
queue, and the ring of a continuation queue.
-/

namespace Sys2Proof.Machine

/-- A virtual function is enabled when VF Enable covers it and its record has EN (21 R329, R330). -/
def State.fnEnabled (s : State) (f : Nat) : Bool :=
  f == 0 || (s.vfEnable && decide (f ≤ s.numVFs) && ((s.partRecord f).getD 0 0).field 63 63 == 1)

def State.qcbWord (s : State) (a i : Nat) : Word := s.rawWord (a + 8 * i)

/-- The device writes a field of a function's control block; no rollback undoes it (19 R306). -/
def State.setQcb (s : State) (f a i hi lo v : Nat) : State :=
  s.plainStore f (a + 8 * i) (bytesOf 8 ((s.qcbWord a i).put hi lo v).toNat)

/-! ### Fields of words 0 to 3 (18 R287) -/

def privBase (w : List Word) : Nat := (w.getD 0 0).toNat
def privFE (w : List Word) : Nat := (w.getD 1 0).field 48 42
def privKind (w : List Word) : Nat := (w.getD 1 0).field 41 40
def privSize (w : List Word) : Nat := 2 ^ ((w.getD 1 0).field 39 36 + 4)
def privPrio (w : List Word) : Nat := (w.getD 1 0).field 35 34
def privWeight (w : List Word) : Nat := (w.getD 1 0).field 33 24

def State.qcbPriv (s : State) (a : Nat) : List Word := (List.range 4).map (s.qcbWord a)

/-! ### Slots -/

def Slot.is (x : Slot) (f q : Nat) : Bool := x.fn == f && x.queue == q

/-- The slot that holds a queue. -/
def State.slot? (s : State) (f q : Nat) : Option Slot := s.slots.find? fun x => x.is f q

def State.setSlot (s : State) (x : Slot) : State :=
  { s with slots := s.slots.map fun y => if y.is x.fn x.queue then x else y }

/-- A queue's words in the shadow table (18 R288). -/
def State.shadowPriv (s : State) (f q : Nat) : List Word :=
  (List.range 4).map (s.qcbWord ((s.reg (0x93000 + 8 * f)).field 47 0 + 32 * q))

/-- A queue's privileged words: the cached ones while it is mapped, and else those of the shadow, which its function cannot
write (18 R287, R288). -/
def State.privOf (s : State) (f q : Nat) : Option (List Word) :=
  match s.slot? f q with
  | some x => some x.priv
  | none => (s.qcbAt f q).map fun _ => s.shadowPriv f q

/-- A number that names a continuation queue of the function. -/
def State.isContinuation (s : State) (f q : Nat) : Bool := (s.qcbAt f q).isSome && (s.privOf f q).any fun w => privKind w == 1

/-- QCB raised to the hypervisor: a record in the physical function's fault log and queue (18 R288). -/
def State.raiseQcb (s : State) (f q : Nat) : State :=
  let ws := recordWords f 0 0 0 0 false false
    { code := 0x10, orig := 0, addr := 0, acc := 0, elem := q, fmask := 0, lane := 127, pc := 0, hdr := 0, left := 0, exts := [] }
  let s := s.log1 0 ws
  match s.queueFault 0 [ws] with
  | some (t, _, _) => t
  | none => { s with qcbWaiting := s.qcbWaiting ++ [ws] }

/-- Write the fields a slot holds back to its control block. -/
def State.writeSlot (s : State) (x : Slot) (a : Nat) : State :=
  ((((s.setQcb x.fn a 4 63 32 x.head).setQcb x.fn a 4 31 0 x.tail).setQcb x.fn a 6 31 0 x.done).setQcb x.fn a 5 2 2 x.closed.toNat)

/-- A slot is free again; of a queue whose teams still wait the run list keeps its weight and turns (18 R300). -/
def State.dropSlot (s : State) (x : Slot) : State :=
  let waits := s.launches.any fun l => l.2.fn == x.fn && l.2.queue == x.queue && !l.2.todo.isEmpty
  { s with
    slots := s.slots.filter fun y => !y.is x.fn x.queue
    waiters := (s.waiters.filter fun y => !y.is x.fn x.queue) ++ if waits then [x] else [] }

/-- The queue's control block says that it has stopped. -/
def State.hasStopped (s : State) (f q : Nat) : Bool := (s.qcbAt f q).any fun a => (s.qcbWord a 5).field 1 1 == 1

/-- The physical function has aborted the queue: STOPPED with STOPCODE 4 in its control block (18 R287, R294; log 66). -/
def State.aborted (s : State) (f q : Nat) : Bool :=
  s.hasStopped f q && (s.qcbAt f q).any fun a => (s.qcbWord a 5).field 39 32 == 4

/-- The stop fields of a queue's control block; an abort stands. -/
def State.setStop (s : State) (f q a : Nat) (stopped : Bool) (code : Nat) : State :=
  if s.aborted f q then s else (s.setQcb f a 5 1 1 stopped.toNat).setQcb f a 5 39 32 code

/-- Write a slot's fields back, of a queue that has not stopped and has no notify pending, and free it (18 R289). Until the
scheduler's next round a notify may find the write-back not complete (18 R291). -/
def State.unmap (s : State) (x : Slot) : State :=
  let s := s.dropSlot x
  match s.qcbAt x.fn x.queue with
  | some a => { ((s.writeSlot x a).setQcb x.fn a 5 0 0 0).setStop x.fn x.queue a false 0 with
                unmapping := s.unmapping ++ [(x.fn, x.queue)] }
  | none => s

/-- Stop a queue with a code: it is unmapped, and QCB is raised. -/
def State.stopQueue (s : State) (f q code : Nat) : State :=
  let s := match s.slot? f q with
    | some x => s.unmap x
    | none => s
  match s.qcbAt f q with
  | some a => (s.setStop f q a true code).raiseQcb f q
  | none => s

/-- Room for a slot on a die: an idle queue without records gives its own up (18 R289). -/
def State.freeSlot (s : State) (die : Nat) : Option State :=
  let mine := s.slots.filter fun x => x.die == die
  if mine.length < 256 then some s
  else (mine.find? fun x => x.head == x.tail && decide (0 < x.idle)).map s.unmap

/-- Records up to TAIL exceed the ring. -/
def overrun (size head tail : Nat) : Bool := decide (size < ringCount tail head)

/-- Of the notifies and drains of a queue that is mapped, those of records that the control block does not hold are no longer
its own (18 R287; 23 R360, R362). -/
def State.ownRecords (s : State) (x : Slot) : State :=
  let held := fun tail => let n := ringCount tail x.head; decide (0 < n) && decide (n ≤ ringCount x.tail x.head)
  { s.modFn x.fn (fun y => { y with
      drains := y.drains.map fun d => if d.queue == x.queue && !held d.upto then { d with spent := true } else d }) with
    covers := s.covers.filter fun v => !(v.fn == x.fn && v.queue == x.queue) || held v.tail }

/-- The slot of a queue that is mapped on a die, from its control block at `a`: TAIL is that of a notify still in a
doorbell-miss table, if there is one (18 R291); the run list goes on with the queue's turns. -/
def State.newSlot (s : State) (f q die a : Nat) (priv : List Word) : Slot :=
  let tail := match s.misses.find? fun m => m.fn == f && m.queue == q with
    | some m => m.tail
    | none => (s.qcbWord a 4).field 31 0
  { fn := f, queue := q, die := die, priv := priv, head := (s.qcbWord a 4).field 63 32, tail := tail
    done := (s.qcbWord a 6).field 31 0, closed := (s.qcbWord a 5).field 2 2 == 1
    others := ((s.waiters.find? fun y => y.is f q).map Slot.others).getD [] }

/-- Map a queue on a die: load its QCB and compare it with the shadow (18 R288). -/
def State.loadQueue (s : State) (f q die : Nat) : State :=
  match s.slot? f q, s.qcbAt f q with
  | none, some a =>
    if s.hasStopped f q then s
    else
      let priv := s.qcbPriv a
      if priv ≠ s.shadowPriv f q then s.stopQueue f q 2
      else match s.freeSlot die with
        | none => s
        | some s =>
          let x := s.newSlot f q die a priv
          let t := { (s.setQcb f a 5 0 0 0).setQcb f a 4 31 0 x.tail with
            misses := s.misses.filter fun m => !(m.fn == f && m.queue == q)
            unmapping := s.unmapping.filter (· != (f, q)) }
          if overrun (privSize priv) x.head x.tail then t.stopQueue f q 3
          else { t.ownRecords x with
            slots := s.slots ++ [x]
            waiters := s.waiters.filter fun y => !y.is f q }
  | _, _ => s

/-- Records not yet taken, modulo 2^32. -/
def Slot.count (x : Slot) : Nat := ringCount x.tail x.head

/-- New HEAD, TAIL or DONE in a slot and in memory. -/
def State.setHead (s : State) (x : Slot) (n : Nat) : State :=
  let s := s.setSlot { x with head := n % 2 ^ 32, idle := 0 }
  match s.qcbAt x.fn x.queue with
  | some a => s.setQcb x.fn a 4 63 32 n
  | none => s

def State.setTail (s : State) (x : Slot) (n : Nat) : State :=
  let s := s.setSlot { x with tail := n % 2 ^ 32, idle := 0 }
  match s.qcbAt x.fn x.queue with
  | some a => s.setQcb x.fn a 4 31 0 n
  | none => s

/-! ### Rings of continuation queues -/

def sentinel (w : Word) : Bool := w == BitVec.allOnes 64 || w == BitVec.allOnes 64 - 1

/-- Virtual address of a ring entry. -/
def Slot.entryAt (x : Slot) (size i : Nat) : Nat := privBase x.priv + size * (i % privSize x.priv)

/-- Append a record whose ring entry lies at a key. -/
def State.pushAt (s : State) (x : Slot) (key : Nat) (rec_ : List Word) : State :=
  (s.plainStore x.fn key (rec_.flatMap fun w => bytesOf 8 w.toNat)).setTail x (x.tail + 1)

end Sys2Proof.Machine
end

