-- ==== Sys2Proof/Machine/Placement.lean ====
section
/-!
DEFINITION. A launch's fields (18 R292), and where teams can be placed: seats, pairs and tiles (06 R133, R134; 16 R260, R265),
Mortar windows (17 R280), front-end ranges and time-slice groups (18 R284; 21 R335).
-/

namespace Sys2Proof.Machine

/-! ### Fields of a launch entry -/

def Launch.w (l : Launch) (i : Nat) : Word := l.entry.getD i 0
def Launch.hasDep (l : Launch) : Bool := (l.w 0).field 50 50 == 1
def Launch.snaps (l : Launch) : Bool := (l.w 0).field 49 49 == 1
def Launch.serial (l : Launch) : Bool := (l.w 0).field 48 48 == 1
def Launch.tag (l : Launch) : Nat := (l.w 0).field 47 32
def Launch.start (l : Launch) : Nat := (l.w 1).toNat
def Launch.args (l : Launch) : Word := l.w 2
def Launch.tx (l : Launch) : Nat := (l.w 3).field 63 48
def Launch.ty (l : Launch) : Nat := (l.w 3).field 47 32
def Launch.threads (l : Launch) : Nat := (l.w 3).field 15 0
def Launch.v (l : Launch) : Nat := (l.w 4).field 63 56
def Launch.tq (l : Launch) : Nat := (l.w 4).field 55 52
def Launch.nmat (l : Launch) : Nat := (l.w 4).field 51 44
def Launch.mwin (l : Launch) : Nat := (l.w 4).field 43 33
def Launch.spawnSb (l : Launch) : Nat := (l.w 4).field 15 0
def Launch.save (l : Launch) : Nat := (l.w 5).toNat
def Launch.cplAddr (l : Launch) : Nat := (l.w 6).toNat
def Launch.cplVal (l : Launch) : Word := l.w 7

/-- Gangs of a team. -/
def Launch.gangs (l : Launch) : Nat := (l.threads + 95) / 96

/-- Bytes of a team's window. -/
def Launch.window (l : Launch) : Nat := 4096 * l.mwin

/-- Role of gang n of a team (18 R292). -/
def Launch.role (l : Launch) (n : Nat) : Role := if n = 0 then .copy else if n ≤ l.nmat then .matrix else .vector

/-- Coordinates of team n (18 R292: x varies fastest). -/
def Launch.xyz (l : Launch) (n : Nat) : Nat × Nat × Nat := (n % l.tx, n / l.tx % l.ty, n / l.tx / l.ty)

/-! ### Front ends -/

/-- The present clusters of a front end's range. -/
def State.feClusters (s : State) (fe : Nat) : List Nat :=
  (List.range s.fuse.clusterCount).filter fun c => decide (s.feBase fe ≤ c) && decide (c ≤ s.feLimit fe)

def State.colours (s : State) (f : Nat) : List Nat :=
  (List.range 16).filter fun k => ((s.partRecord f).getD 0 0).getLsbD k

/-- Time-slice group of a function; 0 for a fixed partition. -/
def State.tsGroup (s : State) (f : Nat) : Nat := ((s.partRecord f).getD 0 0).field 55 48

/-- The function holding a group's clusters (21 R335). -/
def State.holder (s : State) (g : Nat) : Nat := (s.reg (0x42000 + 8 * g)).field 31 24

/-- The turn length of a member, in quanta; 0 acts as 1. -/
def State.turnLength (s : State) (f : Nat) : Nat := max 1 ((s.reg (0x42100 + 8 * f)).field 15 0)

/-- Whether teams of a function are placed at all: its record is enabled, nothing of it is pre-empted, its turn is on. -/
def State.places (s : State) (f : Nat) : Bool :=
  s.fnEnabled f && ((s.partRecord f).getD 0 0).field 63 63 == 1 && decide (s.pstat f ≤ 1)
    && (s.tsGroup f == 0 || s.holder (s.tsGroup f) == f)

/-- A front end takes the records of function `f`'s queues. -/
def State.feServes (s : State) (fe f : Nat) : Bool := s.feOn fe && s.feFunc fe == f

/-! ### Fitting (16 R260, R265) -/

/-- What is to be placed together: the front end, the function, each gang's role, tiles per pair, window bytes; for what is
restored, the colour and line its window must have, the die, and each gang's pair. -/
structure Want where
  fe : Nat
  fn : Nat
  roles : List Role
  tiles : Nat
  window : Nat
  fixed : Option (Nat × Nat × Nat)
  pairs : List Nat
  deriving DecidableEq, Repr

def Launch.want (l : Launch) : Want where
  fe := l.fe
  fn := l.fn
  roles := (List.range l.gangs).map l.role
  tiles := 8 * l.tq
  window := l.window
  fixed := none
  pairs := []

def Want.matrix (w : Want) : Bool := w.roles.contains .matrix

def State.seatFree (s : State) (cl : Nat) (x : Seat) : Bool :=
  decide (x.core < 4) && decide (x.quarter < s.fuse.quarters) && decide (x.slot < 8)
    && !(s.gangs.any fun q => q.2.cluster == cl && q.2.seat == x)

def distinctSeats : List Seat → Bool
  | [] => true
  | x :: r => !r.contains x && distinctSeats r

/-- Pairs a list of seats occupies: 0 and 1 of the cluster. -/
def pairsOf (seats : List Seat) : List Nat := (List.range 2).filter fun p => seats.any fun x => x.core / 2 == p

/-- Tiles that teams own on a pair of a cluster: while a gang of theirs stands there (log 51). -/
def State.tilesUsed (s : State) (cl p : Nat) : Nat :=
  (s.teams.map fun q =>
    if q.2.cluster = cl ∧ (s.gangs.any fun r => r.2.team == q.1 && r.2.seat.core / 2 == p) then q.2.tiles else 0).sum

/-- Lines of a colour taken by the windows of running teams. -/
def State.linesTaken (s : State) (die colour : Nat) : List (Nat × Nat) :=
  s.teams.filterMap fun q =>
    if q.2.die = die ∧ q.2.colour = colour ∧ q.2.window ≠ 0 then some (q.2.line, q.2.line + q.2.window / 128) else none

/-- A window fits at a line of a colour (17 R280). -/
def State.windowFits (s : State) (f die colour line bytes : Nat) : Bool :=
  (s.colours f).contains colour && line % 32 == 0 && decide (line + bytes / 128 ≤ s.fuse.colourLines die)
    && (s.linesTaken die colour).all fun q => decide (q.2 ≤ line) || decide (line + bytes / 128 ≤ q.1)

def leaderRule (roles : List Role) (seats : List Seat) : Bool :=
  (roles.zip seats).all fun q => q.1 != .matrix || q.2.core % 2 == 0

/-- Every pair used has both of its cores occupied, and matrix gangs stand on leaders (06 R133). -/
def pairRule (roles : List Role) (seats : List Seat) : Bool :=
  (pairsOf seats).all (fun p => [2 * p, 2 * p + 1].all fun c => seats.any fun x => x.core == c)
    && leaderRule roles seats

/-- A placement is one the device may choose; what is restored need not occupy both cores of its pairs (log 52). -/
def State.placeOk (s : State) (w : Want) (p : Place) : Bool :=
  let die := s.fuse.dieOf p.cluster
  (s.feClusters w.fe).contains p.cluster
    && (s.reg 0x70000).field (24 + die) (24 + die) == 1
    && p.seats.length == w.roles.length && p.seats.all (s.seatFree p.cluster) && distinctSeats p.seats
    && (s.teams.all fun q => q.2.cluster != p.cluster || (s.launches.find? q.2.launch).all fun l => l.fe == w.fe)
    && (!w.matrix || (if w.fixed.isSome then leaderRule w.roles p.seats else pairRule w.roles p.seats))
    && (pairsOf p.seats).all (fun q => decide (s.tilesUsed p.cluster q + w.tiles ≤ 64))
    && (w.window == 0 || s.windowFits w.fn die p.colour p.line w.window)
    && (match w.fixed with
        | some (d, k, i) => w.window == 0 || (d == die && k == p.colour && i == p.line)
        | none => true)
    && (w.pairs.isEmpty || w.pairs == p.seats.map fun x => x.core / 2)

/-! ### The placement the default order takes (log 20) -/

/-- Free seats of some cores, one of each core first. -/
def State.seatsOf (s : State) (cl : Nat) (cores : List Nat) : List Seat :=
  let free := fun c => ((List.range s.fuse.quarters).flatMap fun q => (List.range 8).map fun i => Seat.mk c q i).filter (s.seatFree cl)
  cores.filterMap (fun c => (free c).head?) ++ cores.flatMap fun c => (free c).drop 1

/-- Seats in gang order, each gang taking the first left that it may have. -/
def takeSeats (free : List Seat) : List (Role × Option Nat) → Option (List Seat)
  | [] => some []
  | (r, pair) :: rest =>
    let ok := fun (x : Seat) => (r != .matrix || x.core % 2 == 0) && pair.all fun p => x.core / 2 == p
    match free.find? ok with
    | some x => (takeSeats (free.filter (· != x)) rest).map fun xs => x :: xs
    | none => none

/-- Lines at which a window could start. -/
def State.lineStarts (s : State) (die colour : Nat) : List Nat :=
  0 :: (s.linesTaken die colour).map fun q => (q.2 + 31) / 32 * 32

def State.findWindow (s : State) (w : Want) (die : Nat) : Option (Nat × Nat) :=
  if w.window = 0 then some (0, 0)
  else match w.fixed with
    | some (d, k, i) => if d = die then some (k, i) else none
    | none => (s.colours w.fn).findSome? fun k =>
        ((s.lineStarts die k).find? fun i => s.windowFits w.fn die k i w.window).map fun i => (k, i)

/-- A placement on one cluster. -/
def State.findOn (s : State) (w : Want) (cl : Nat) : Option Place :=
  match s.findWindow w (s.fuse.dieOf cl) with
  | none => none
  | some (k, i) =>
    let wants := w.roles.zipIdx.map fun q => (q.1, w.pairs[q.2]?)
    let sets := if w.matrix then [[0, 1], [2, 3], [0, 1, 2, 3]] else [[0, 1, 2, 3], [0, 1], [2, 3]]
    sets.findSome? fun cores =>
      -- seats in the order the gangs ask for them: matrix gangs before the others
      let order := (wants.zipIdx.filter fun q => q.1.1 == Role.matrix) ++ wants.zipIdx.filter fun q => q.1.1 != Role.matrix
      match takeSeats (s.seatsOf cl cores) (order.map (·.1)) with
      | none => none
      | some xs =>
        let seats := (List.range wants.length).map fun n =>
          (((order.map (·.2)).zip xs).find? fun q => q.1 == n).map (·.2) |>.getD ⟨0, 0, 0⟩
        let p : Place := { cluster := cl, seats := seats, colour := k, line := i }
        if s.placeOk w p then some p else none

def State.findPlace (s : State) (w : Want) : Option Place := (s.feClusters w.fe).findSome? (s.findOn w)

end Sys2Proof.Machine
end

