-- ==== Sys2Proof/Machine/Launches.lean ====
section
/-!
DEFINITION. Command entries (18 R292 to R295, R298), the placement of teams and their dependences (18 R298 to R300; 23 R363),
Chafer (04 R92 to R95; 18 R293), the end of gangs and teams (04 R98; 18 R298), and completion records (18 R294).
-/

namespace Sys2Proof.Machine

/-! ### Completion records -/

/-- Bytes at a virtual address of a function, each through its own translation. -/
def State.virtualWrite (s : State) (f va : Nat) (bs : List Byte) : Option State :=
  bs.zipIdx.foldl (fun (o : Option State) q => o.bind fun s =>
    match s.translate f (va + q.2) .write with
    | .ok w => some (s.plainStore f w.key [q.1])
    | .fault _ => none) (some s)

/-- A record of words at a virtual address. -/
def State.putRecord (s : State) (f va : Nat) (ws : List Word) : Option State :=
  if va % 32 = 0 then s.deviceWrite f va ws else s.virtualWrite f va (ws.flatMap fun w => bytesOf 8 w.toNat)

/-- Why an access to a range fails: the code of its first address that does. -/
def State.failCode (s : State) (f va n : Nat) (acc : Acc) : Nat :=
  ((List.range n).findSome? fun i =>
    match s.translate f (va + i) acc with
    | .fault c => some c
    | .ok _ => none).getD 0x05

/-- A completed record counts in DONE. -/
def State.countDone (s : State) (f q : Nat) : State :=
  match s.slot? f q, s.qcbAt f q with
  | some x, a =>
    let s := s.setSlot { x with done := (x.done + 1) % 2 ^ 32 }
    match a with
    | some a => s.setQcb f a 6 31 0 (x.done + 1)
    | none => s
  | none, some a => s.setQcb f a 6 31 0 ((s.qcbWord a 6).field 31 0 + 1)
  | none, none => s

/-- The record, or if its page fails a log record in its place; DONE; vector 2. -/
def State.complete (s : State) (n : Nat) (l : Launch) (status code addr : Nat) : State :=
  let ws := [l.cplVal, BitVec.ofNat 64 (status * 2 ^ 48 + code * 2 ^ 40 + l.lid), BitVec.ofNat 64 addr, 0]
  let s := if l.cplAddr = 0 then s
    else match s.putRecord l.fn l.cplAddr ws with
      | some t => t
      | none => s.logImprecise l.fn l.lid (s.failCode l.fn l.cplAddr 32 .write) 0 l.cplAddr
  let s := s.countDone l.fn l.queue
  let s := if l.cplAddr ≠ 0 ∧ l.cplVal.field 63 63 = 1 then s.raiseVector l.fn 2 else s
  let kept := { l with todo := [], completed := true, ended := some (status, code, addr) }
  { s with launches := if l.wantsDep then s.launches.put n kept else s.launches.erase n }

/-- Launches of a queue taken before another and not completed. -/
def State.earlierLaunch (s : State) (n : Nat) (l : Launch) : Bool :=
  s.launches.any fun q => decide (q.1 < n) && q.2.fn == l.fn && q.2.queue == l.queue && !q.2.completed

/-- Some gang or record of a launch is still to run, here or saved. -/
def State.hasWork (s : State) (n : Nat) (f : Nat) : Bool :=
  (s.gangs.any fun q => q.2.launch == n) || (s.groups.any fun q => q.2.launch == n)
    || ((s.fn f).saved.any fun x => x.gangs.any fun q => q.2.launch == n)
    || decide (s.pstat f = 3)

/-- A launch has ended: every team has run, or it was ended; a launch without teams ends in its queue's order. -/
def State.launchOver (s : State) (n : Nat) (l : Launch) : Bool :=
  !l.completed && l.todo.isEmpty && !s.hasWork n l.fn
    && (l.ended.isSome || (!l.wantsDep && (l.teamCount != 0 || !s.earlierLaunch n l)))

def execLaunchCompletion (n : Nat) (s : State) : Outcome :=
  .next <|
    match s.launches.find? n with
    | some l =>
      if s.launchOver n l then
        let e := l.ended.getD (0, 0, 0)
        s.complete n l e.1 e.2.1 e.2.2
      else s
    | none => s

/-! ### Taking command entries -/

/-- The launch whose dependence record must come next in a queue. -/
def State.depWaiter (s : State) (f q : Nat) : Option (Nat × Launch) :=
  List.find? (fun (p : Nat × Launch) => p.2.fn == f && p.2.queue == q && p.2.wantsDep) s.launches

/-- The front end of a queue takes records now; its die is ready (24 R368). -/
def State.takes (s : State) (x : Slot) : Bool :=
  privKind x.priv == 0 && x.count != 0 && s.feServes (privFE x.priv) x.fn && s.fnEnabled x.fn
    && ((s.partRecord x.fn).getD 0 0).field 63 63 == 1 && decide (s.pstat x.fn ≤ 1)
    && s.ready (keyOf (300 + privFE x.priv / 16) 0)

/-- The place of the order at which entry HEAD of a queue was first covered by a notify; the present one where none is known. -/
def State.coverPlace (s : State) (x : Slot) : Nat :=
  let covering := s.covers.find? fun v =>
    let n := ringCount v.tail x.head
    v.fn == x.fn && v.queue == x.queue && decide (0 < n) && decide (n ≤ privSize x.priv)
  match covering with
  | some v => v.place
  | none => s.order.length

/-- The eight words of entry HEAD, at a key: a word written since the notify that covers it is what it was then or at some
time since, a free choice for each word (23 R360; log 68). -/
def State.entryWords (s : State) (x : Slot) (k : Nat) : List Word :=
  (List.range 8).map fun i => s.codeWord x.fn (s.coverPlace x) i (k + 8 * i)

/-- A front end comes to entry HEAD of a queue. An entry that cannot be read or is malformed stops the queue and is not
consumed; `k` has the entry if its TYPE is the event's. -/
def State.takeEntry (s : State) (f q type : Nat) (k : State → Slot → List Word → State) : State :=
  match s.slot? f q with
  | none => s
  | some x =>
    if !s.takes x then s
    else if s.heldVa f (x.entryAt 64 x.head) then s
    else match s.translate f (x.entryAt 64 x.head) .read with
      | .fault _ => s.stopQueue f q 5
      | .ok w =>
        let ws := s.entryWords x w.key
        let ty := (ws.getD 0 0).field 63 56
        if 4 < ty ∨ (ty = 3) ≠ (s.depWaiter f q).isSome then s.stopQueue f q 1
        else if ty ≠ type then s
        else k s x ws

/-- A launch that the drain ended is not complete: it holds those taken after the drain (23 R363). -/
def State.drainHolds (s : State) (d : Drain) : Bool := s.launches.any fun r => !r.2.completed && r.2.drain == some d.since

/-- A drain that HEAD has reached covers no entry any more; one whose launches are all over is forgotten (23 R362, R363). -/
def State.ageDrains (s : State) (f q head : Nat) : State :=
  s.modFn f fun x => { x with
    drains := (x.drains.map fun d => if d.queue = q ∧ d.upto = head then { d with spent := true } else d).filter
      fun d => !d.spent || s.drainHolds d }

/-- The entry is consumed, with the eight choices of its words; a notify whose TAIL HEAD has reached covers none any more. -/
def State.consume (s : State) (x : Slot) : State :=
  let head := (x.head + 1) % 2 ^ 32
  let t := (s.setHead x (x.head + 1)).ageDrains x.fn x.queue head
  { t with
    tick := s.tick + 8
    covers := s.covers.filter fun v => !(v.fn == x.fn && v.queue == x.queue && v.tail == head) }

def execCmdNop (f q : Nat) (s : State) : Outcome := .next (s.takeEntry f q 0 fun s x _ => s.consume x)

/-- A feed writes N words to gp(g) and following. -/
def execCmdFeed (f q : Nat) (s : State) : Outcome :=
  .next <| s.takeEntry f q 2 fun s x ws =>
    let w := ws.getD 0 0
    let n := w.field 55 48
    let g := w.field 47 40
    if n = 0 ∨ 7 < n ∨ 64 < g + n ∨ w.field 39 0 ≠ 0 ∨ (ws.drop (n + 1)).any (· != 0) then s.stopQueue f q 1
    else
      let fe := privFE x.priv
      let s := { s with gp := (List.range n).foldl (fun m i => Store.set 0 m (64 * fe + g + i) (ws.getD (i + 1) 0)) s.gp }
      s.consume x

/-- A push appends its record to a continuation queue, and waits while that queue is full. -/
def execCmdPush (f q : Nat) (s : State) : Outcome :=
  .next <| s.takeEntry f q 4 fun s x ws =>
    let c := (ws.getD 0 0).field 15 0
    let record := (ws.drop 1).take 4
    let s := s.loadQueue f c (privFE x.priv / 16)
    if !s.isContinuation f c || sentinel (record.headD 0) then s.stopQueue f q 1
    else match s.slot? f c with
      | none => s
      | some y =>
        if y.closed then s.stopQueue f q 1
        else if privSize y.priv ≤ y.count then s
        else match s.translate f (y.entryAt 32 y.tail) .write with
          | .fault _ => s.stopQueue f q 5
          | .ok w =>
            let s := s.pushAt y w.key record
            match s.slot? f q with
            | some x => s.consume x
            | none => s

/-! ### Launches -/

/-- Fields a launch must not have (18 R294). -/
def Launch.badField (l : Launch) : Bool :=
  decide (l.v % 8 ≠ 0) || decide (l.v < 8) || decide (128 < l.v) || decide (8 < l.tq)
    || (decide (0 < l.nmat) && l.tq == 0) || decide (l.gangs ≤ l.nmat) || l.threads == 0 || decide (8192 < l.threads)
    || decide (1984 < l.mwin) || (l.spawnSb != 0 && l.save == 0)
    || (l.w 0).field 55 51 != 0 || (l.w 4).field 16 16 != 0 || decide (l.save % 4096 ≠ 0) || decide (l.cplAddr % 32 ≠ 0)

/-- A team of the launch fits no empty cluster of the range (06 R133; 16 R260; 17 R280). -/
def State.unfit (s : State) (l : Launch) : Bool :=
  let q := s.fuse.quarters
  let cls := s.feClusters l.fe
  let others := l.gangs - l.nmat
  let onePair := decide (l.nmat ≤ 8 * q) && decide (1 ≤ others) && decide (l.gangs ≤ 16 * q)
  let twoPairs := decide (l.nmat ≤ 16 * q) && decide (2 ≤ others) && decide (4 ≤ l.gangs) && decide (l.gangs ≤ 32 * q)
  cls.isEmpty || decide (32 * q < l.gangs) || (decide (0 < l.nmat) && !(onePair || twoPairs))
    || (decide (0 < l.mwin) && ((s.colours l.fn).isEmpty
        || cls.all fun c => decide (s.fuse.colourBytes (s.fuse.dieOf c) < l.window)))

/-- Status with which a launch is refused; 0 for one that is taken. -/
def State.refusal (s : State) (l : Launch) : Nat :=
  if l.badField then 1 else if l.teamCount ≠ 0 ∧ s.unfit l then 2 else 0

/-- The drain that covers the launch at a ring index (23 R362). -/
def State.drainOf (s : State) (f q tag idx : Nat) : Option Drain :=
  List.find? (fun (d : Drain) =>
    d.queue == q && d.tag == tag && !d.spent && (let n := ringCount d.upto idx; decide (0 < n) && decide (n ≤ 2 ^ 31))) (s.fn f).drains

def State.drained (s : State) (f q tag idx : Nat) : Bool := (s.drainOf f q tag idx).isSome

/-- Another launch that is not complete has written its snapshot to the same argument block, and its gangs can run beside the
launch's: a SERIAL one waits for the earlier ones of its queue (23 R361). -/
def State.sharesArgs (s : State) (l : Launch) : Bool :=
  s.launches.any fun r => r.2.fn == l.fn && r.2.args == l.args && !r.2.completed && r.2.snaps
    && !(l.serial && r.2.queue == l.queue)

/-- gp0 to gp63 at ARGS (18 R292, R295). A word whose page fails is not written; of two launches that share the block, which
one's snapshot a word holds is a free choice for each (23 R361; log 69). -/
def State.snapGp (s : State) (l : Launch) : State :=
  if l.snaps then
    let shared := s.sharesArgs l
    let n := s.tick
    let t := (List.range 64).foldl (fun s i =>
      if shared && (Config.freeValue (n + i)).getLsbD 0 then s
      else (s.virtualWrite l.fn (l.args.toNat + 8 * i) (bytesOf 8 (Store.get 0 l.gp i).toNat)).getD s) s
    { t with tick := n + 64 }
  else s

/-- What keeps a DEP launch from being taken: its dependence record is not covered yet (none), cannot be read (5), or another
TYPE follows, which makes the launch malformed (1); 0 for nothing (18 R292, R298). -/
def State.depBlock (s : State) (x : Slot) : Option Nat :=
  if x.count < 2 ∨ s.heldVa x.fn (x.entryAt 64 (x.head + 1)) then none
  else match s.translate x.fn (x.entryAt 64 (x.head + 1)) .read with
    | .fault _ => some 5
    | .ok w => some (if s.read x.fn (w.key + 7) 1 = 3 then 0 else 1)

/-- A launch is taken: drained, refused, or its teams wait for placement. -/
def State.takeLaunch (s : State) (f q : Nat) (x : Slot) (ws : List Word) : State :=
  let fe := privFE x.priv
  let n := s.handle
  let l : Launch :=
    { fn := f, queue := q, fe := fe, entry := ws, since := s.order.length
      gp := (s.gp.filter fun p => p.1 / 64 == fe).map fun p => (p.1 % 64, p.2) }
  let l := { l with todo := List.range l.teamCount, wantsDep := l.hasDep, drain := (s.drainOf f q l.tag x.head).map Drain.since }
  let gone := s.drained f q l.tag x.head
  let s : State := { ((s.consume x).modFn f fun y => { y with mode := s.ffield f 0xA28 5 0 }) with handle := n + 1 }
  if gone then s.complete n l 5 0 0
  else if s.refusal l ≠ 0 then s.complete n l (s.refusal l) 0 0
  else { s.snapGp l with launches := s.launches.put n l }

def execCmdLaunch (f q : Nat) (s : State) : Outcome :=
  .next <| s.takeEntry f q 1 fun s x ws =>
    if (ws.getD 0 0).field 50 50 = 0 then s.takeLaunch f q x ws
    else match s.depBlock x with
      | none => s
      | some 0 => s.takeLaunch f q x ws
      | some code => s.stopQueue f q code

/-! ### Dependences (18 R298) -/

def depW (d : List Word) (i : Nat) : Word := d.getD i 0

/-- A dependence record is malformed. -/
def depBad (d : List Word) : Bool :=
  let w := depW d
  (w 0).field 47 0 % 8 != 0 || (w 3).field 47 0 % 8 != 0
    || (w 0).field 55 48 != 0 || (w 1).field 15 0 != 0 || (w 2).field 31 0 != 0 || (w 3).field 63 48 != 0
    || (w 4).field 15 0 != 0 || (w 5).field 15 0 != 0 || w 7 != 0
    || ((w 3).field 47 0 != 0 && (w 5).field 31 16 == 0)

def execCmdDependence (f q : Nat) (s : State) : Outcome :=
  .next <| s.takeEntry f q 3 fun s x ws =>
    match s.depWaiter f q with
    | none => s
    | some (n, l) =>
      if depBad ws then s.stopQueue f q 1
      else
        let s := s.consume x
        { s with launches := if l.completed then s.launches.erase n
                             else s.launches.put n { l with dep := some ws, wantsDep := false } }

/-- A x + B y + C z + D for a team, from word `i` and a constant. -/
def Launch.linear (l : Launch) (w : Word) (const team : Nat) : Nat :=
  let (x, y, z) := l.xyz team
  w.field 63 48 * x + w.field 47 32 * y + w.field 31 16 * z + const

/-- The consumer's bits of a team: whether all are set, and the words that could not be read. -/
def State.consumer (s : State) (l : Launch) (team : Nat) : Bool × List (Nat × Nat) :=
  match l.dep with
  | none => (true, [])
  | some d =>
    let base := (depW d 3).field 47 0
    let c := l.linear (depW d 4) ((depW d 5).field 63 32) team
    let last := min (c + (depW d 5).field 31 16) ((depW d 6).field 31 0)
    if base = 0 ∨ last ≤ c then (true, [])
    else
      let words := (List.range (last - c / 64 * 64)).filter (· % 64 == 0) |>.map fun i => c / 64 + i / 64
      if words.any fun i => s.heldVa l.fn (base + 8 * i) then (false, []) else
      let read := words.map fun i =>
        match s.translate l.fn (base + 8 * i) .read with
        | .fault code => (i, (none : Option Nat), code)
        | .ok w => (i, some (s.read l.fn w.key 8), 0)
      let isSet := fun b => read.any fun r => r.1 == b / 64 && r.2.1.any fun x => x / 2 ^ (b % 64) % 2 == 1
      ((List.range (last - c)).all fun i => isSet (c + i),
        read.filterMap fun r => if r.2.1.isNone then some (r.2.2, base + 8 * r.1) else none)

/-- Set the producer bit of a team that has ended. -/
def State.produce (s : State) (l : Launch) (team : Nat) : State :=
  match l.dep with
  | none => s
  | some d =>
    let base := (depW d 0).field 47 0
    let p := l.linear (depW d 1) ((depW d 2).field 63 32) team
    let va := base + 8 * (p / 64)
    if base = 0 ∨ (depW d 6).field 63 32 ≤ p then s
    else match s.translate l.fn va .write with
      | .fault code => s.logImprecise l.fn l.lid code 0 va
      | .ok w => s.plainStore l.fn w.key (bytesOf 8 (s.read l.fn w.key 8 ||| 2 ^ (p % 64)))

/-! ### Placing teams -/

/-- A launch with teams to place: SERIAL waits for earlier launches, and a drain for those it ended (23 R363). -/
def State.launchReady (s : State) (n : Nat) (l : Launch) : Bool :=
  !l.todo.isEmpty && !l.wantsDep && l.ended.isNone && s.feServes l.fe l.fn
    && !(l.serial && s.earlierLaunch n l)
    && !((s.fn l.fn).drains.any fun d => d.queue == l.queue && decide (d.since ≤ n) && s.drainHolds d)

/-- A launch whose teams may be placed now. -/
def State.launchOpen (s : State) (n : Nat) (l : Launch) : Bool := s.launchReady n l && s.places l.fn

/-- A team the default order would place: the first whose bits are set, with a place. -/
def State.placeable (s : State) (n : Nat) (l : Launch) : Option (Nat × Place) :=
  if s.launchOpen n l then
    match l.todo.find? fun t => (s.consumer l t).1 with
    | some t => (s.findPlace l.want).map fun p => (t, p)
    | none => none
  else none

/-- The launches of a queue that are not over. -/
def State.launchesOf (s : State) (f q : Nat) : Store Launch := Store.keep s.launches fun _ l => l.fn == f && l.queue == q

/-- Effective priority of a mapped queue: 3 while a placeable team of it has waited 16 quanta (18 R300). -/
def State.prio (s : State) (x : Slot) : Nat :=
  if (s.launchesOf x.fn x.queue).any fun q => q.2.waited.any fun w => decide (16 ≤ w.2) then 3 else privPrio x.priv
def Slot.weight (x : Slot) : Nat := max 1 (privWeight x.priv)

/-- Teams that another queue has placed since the slot's queue last placed one. -/
def Slot.passedBy (x y : Slot) : Nat :=
  ((List.find? (fun (q : Nat × Nat × Nat) => q.1 == y.fn && q.2.1 == y.queue) x.others).map (·.2.2)).getD 0

/-- A mapped queue has a team that can be placed. -/
def State.slotReady (s : State) (x : Slot) : Bool :=
  s.launches.any fun q => q.2.fn == x.fn && q.2.queue == x.queue && (s.placeable q.1 q.2).isSome

/-- The run lists: the mapped queues, and those unmapped whose teams wait. -/
def State.runList (s : State) : List Slot := s.slots ++ s.waiters
def State.listed? (s : State) (f q : Nat) : Option Slot := s.runList.find? fun x => x.is f q

/-- Other queues of the slot's die with a team to place. -/
def State.rivals (s : State) (x : Slot) : List Slot :=
  s.runList.filter fun y => y.die == x.die && !y.is x.fn x.queue && s.slotReady y

/-- The queue may place a team: none of higher effective priority is ready, and none of its priority has seen it place WEIGHT
teams since its own last placement, which is the bound of 18 R300. -/
def State.served (s : State) (x : Slot) : Bool :=
  let rs := s.rivals x
  rs.all (fun y => decide (s.prio y ≤ s.prio x))
    && (rs.filter fun y => s.prio y == s.prio x).all fun y => decide (y.passedBy x < x.weight)

/-- Count a placement of its queue with the die's other queues. -/
def State.chargeSlot (s : State) (x : Slot) : State :=
  let count := fun (y : Slot) =>
    if y.is x.fn x.queue then { y with others := [] }
    else if y.die == x.die then
      { y with others := (x.fn, x.queue, y.passedBy x + 1) :: y.others.filter fun q => !(q.1 == x.fn && q.2.1 == x.queue) }
    else y
  { s with slots := s.slots.map count, waiters := s.waiters.map count }

/-- Bytes of a window at team start: undefined (17 R280). -/
def fillFree (m : List Host.Cell) (base n tick : Nat) : List Host.Cell :=
  (List.range n).foldl (fun m i => Store.set Memory.unlisted m (base + i) (BitVec.ofNat 8 (Config.freeValue (tick + i)).toNat)) m

/-- Live lanes 0 to n - 1. -/
def firstLanes (n : Nat) : Mask := BitVec.ofNat 96 (2 ^ n - 1)

/-- A gang at its start (01 R13 to R22). -/
def Launch.newGang (l : Launch) (n team num : Nat) (role : Role) (die cluster : Nat) (seat : Seat) (live : Mask) (save pc : Nat)
    (turn : Nat) : Gang where
  fn := l.fn
  launch := n
  team := team
  num := num
  role := role
  vregs := l.v
  die := die
  cluster := cluster
  seat := seat
  live := live
  splits := [(0, { pc := pc, region := pc, member := live, active := live, s := Store.set 0 [] 1 l.args })]
  lastSel := turn
  save := save

/-- The team's gangs take their seats. -/
def State.placeTeam (s : State) (n : Nat) (l : Launch) (team : Nat) (p : Place) : State :=
  let die := s.fuse.dieOf p.cluster
  let (x, y, z) := l.xyz team
  let id := s.handle
  let t : Team := { fn := l.fn, launch := n, index := some team, x := x, y := y, z := z, die := die, cluster := p.cluster
                    tiles := 8 * l.tq, colour := p.colour, line := p.line, window := l.window }
  let gang := fun i seat =>
    let lanes := min 96 (l.threads - 96 * i)
    let save := if l.save = 0 then 0 else l.save + 0x32000 * (team * l.gangs + i)
    { l.newGang n id i (l.role i) die p.cluster seat (firstLanes lanes) save l.start s.turn with born := s.order.length }
  let gangs := p.seats.zipIdx.foldl (fun (m : Store Gang) q => m.put (id + 1 + q.2) (gang q.2 q.1)) s.gangs
  { s with
    handle := id + 1 + p.seats.length
    tick := s.tick + l.window
    teams := s.teams.put id t
    gangs := gangs
    mem := if l.window = 0 then s.mem else fillFree s.mem (teamWindowKey (s.fuse.colourBytes die) t) l.window s.tick
    launches := s.launches.put n { l with todo := l.todo.filter (· != team), waited := l.waited.erase team } }

/-- Every failed read of a bitmap word is logged (18 R298). -/
def State.logWords (s : State) (l : Launch) (bad : List (Nat × Nat)) : State :=
  bad.foldl (fun s q => s.logImprecise l.fn l.lid q.1 0 q.2) s

def execTeamPlacement (n team : Nat) (place : Place) (s : State) : Outcome :=
  .next <|
    match s.launches.find? n with
    | none => s
    | some l =>
      if !(s.launchOpen n l && l.todo.contains team && s.placeOk l.want place) then s
      else
        let (ok, bad) := s.consumer l team
        if !ok then s.logWords l bad
        else match s.listed? l.fn l.queue with
          | some x => if s.served x then (s.placeTeam n l team place).chargeSlot x else s
          | none => s.placeTeam n l team place

/-! ### Chafer -/

/-- A record joins its open group, which becomes a gang at 96. -/
def State.addRec (s : State) (die : Nat) (r : SpawnRec) : State :=
  let open_ := fun (q : Nat × Group) =>
    q.2.die == die && q.2.launch == r.launch && q.2.dest == r.dest && !q.2.formed
  let put := fun (s : State) n (x : Group) =>
    let recs := x.recs ++ [r]
    { s with groups := s.groups.put n { x with recs := recs, formed := recs.length == 96 } }
  match List.find? open_ s.groups with
  | some (n, x) => put s n x
  | none => put { s with handle := s.handle + 1 } s.handle { die := die, launch := r.launch, dest := r.dest }

def State.formGroups (s : State) (p : Group → Bool) : State :=
  { s with groups := Store.mapVals s.groups fun _ x => if p x then { x with formed := true } else x }

/-- Spawn memory accepts a split's records: SPAWNP is 0, and the split merges with those that stand with it (04 R83). -/
def Cx.accepted (c : Cx) : State :=
  let s := (c.P.spawning.foldl (fun s r => s.addRec c.G.die r) c.s).occupied [c.G.die]
  let G : Gang :=
    if c.P.member = 0 then ({ c.G with splits := c.G.splits.erase c.sp } : Gang).unyield c.sp
    else ({ c.G with splits := c.G.splits.put c.sp { c.P with spawning := [] } } : Gang).regang c.sp
  { s with gangs := s.gangs.put c.g G }

def execSpawnRecordAccept (g sp : Nat) (s : State) : Outcome :=
  .next <| s.onSplit g sp fun c => if c.P.spawning.isEmpty then c.s else c.accepted

def execChaferIdleTimeout (grp : Nat) (s : State) : Outcome :=
  .next { s with groups := Store.update s.groups grp fun x => { x with formed := true } }

/-- A save block number that no gang of Chafer's for the launch holds (18 R293). -/
def State.freeBlock (s : State) (n : Nat) (l : Launch) : Option Nat :=
  (List.range l.spawnSb).find? fun m => !(s.gangs.any fun q => q.2.launch == n && q.2.sbNum == some m)

def Launch.chaferWant (l : Launch) : Want where
  fe := l.fe
  fn := l.fn
  roles := [.none]
  tiles := 0
  window := 0
  fixed := none
  pairs := []

/-- A group is to be placed now. -/
def State.groupOpen (s : State) (x : Group) (l : Launch) : Bool :=
  x.formed && !x.placed && l.ended.isNone && s.places l.fn && s.feServes l.fe l.fn
    && (l.save == 0 || l.spawnSb == 0 || (s.freeBlock x.launch l).isSome)

/-- The group becomes a gang, its lanes filled in the records' order (04 R93, R94). -/
def State.placeGroup (s : State) (grp : Nat) (x : Group) (l : Launch) (cl : Nat) (seat : Seat) : State :=
  let id := s.handle
  let m := if l.save = 0 ∨ l.spawnSb = 0 then none else s.freeBlock x.launch l
  let save := match m with
    | some m => l.save + 0x32000 * (l.teamCount * l.gangs + m)
    | none => 0
  let G := l.newGang x.launch id 0 .none x.die cl seat (firstLanes x.recs.length) save x.dest s.turn
  let lanes := x.recs.zipIdx
  let v := lanes.foldl (fun (m : Store Lane32) q => q.1.regs.foldl (fun m r => Store.set 0 m (96 * r.1 + q.2) r.2) m) []
  let p := (List.range 7).foldl (fun (m : Store Mask) i =>
    Store.set 0 m (i + 1) (maskOfList ((lanes.filter fun q => q.1.preds / 2 ^ i % 2 == 1).map (·.2)))) []
  let t : Team := { fn := l.fn, launch := x.launch, x := 2 ^ 32 - 1, y := 2 ^ 32 - 1, z := 2 ^ 32 - 1, die := x.die, cluster := cl }
  { s with
    handle := id + 2
    teams := s.teams.put id t
    gangs := s.gangs.put (id + 1) { G with v := v, p := p, sbNum := m, group := some grp, born := s.order.length }
    groups := s.groups.put grp { x with placed := true } }

/-- Chafer places a gang it has formed, where a save block number and a seat are free, and while the die's spawn memory is over
its threshold forms the next (log 67). -/
def execChaferFormGang (grp : Nat) (place : Place) (s : State) : Outcome :=
  .next <|
    match s.groups.find? grp with
    | none => s
    | some x =>
      match s.launches.find? x.launch with
      | none => s
      | some l =>
        (if s.groupOpen x l && s.placeOk l.chaferWant place && s.fuse.dieOf place.cluster == x.die then
          s.placeGroup grp x l place.cluster (place.seats.headD ⟨0, 0, 0⟩)
        else s).drain x.die

/-! ### The end of gangs and teams -/

/-- A team whose last gang has ended. -/
def State.teamEnd (s : State) (team : Nat) : State :=
  match s.teams.find? team with
  | none => s
  | some t =>
    let s := { s with teams := s.teams.erase team, tiles := s.tiles.filter fun q => tileTeam q.1 != team }
    match t.index, s.launches.find? t.launch with
    | some i, some l => s.produce l i
    | _, _ => s

/-- The last gang of a launch on a die, other than Chafer's own, has ended: its groups there become gangs. -/
def State.lastOnDie (s : State) (launch die : Nat) : State :=
  if s.gangs.any fun q => q.2.launch == launch && q.2.die == die && q.2.role != .none then s
  else s.formGroups fun x => x.launch == launch && x.die == die

/-- The gang's split table is cleared; its team may be over, and its launch on the die. -/
def State.clearGang (s : State) (g : Nat) (G : Gang) : State :=
  let s := { s.freeGroup G with
    gangs := s.gangs.erase g
    cur := s.cur.filter fun q => q.1 != g }
  let s := if s.gangs.any fun q => q.2.team == G.team then s else s.teamEnd G.team
  let s := if G.role = .none then s else s.lastOnDie G.launch G.die
  s.leave G.fn

/-- A gang is over: no live lane, no operation and no record outstanding (04 R98), and other packages have answered its accesses
too (22 R356). -/
def State.gangOver (s : State) (g : Nat) (G : Gang) : Bool :=
  G.live == 0 && G.ops.isEmpty && (G.splits.all fun q => q.2.spawning.isEmpty) && s.remotes.all fun r => r.g != g

/-- It ends at a checkpoint close: one of its own, which may have to wait, or the one under way (19 R305). -/
def State.endGang (s : State) (g : Nat) (G : Gang) : State :=
  match (s.fn G.fn).close with
  | .waiting => s
  | .performing => s.clearGang g G
  | .none => if s.closeWaits G.fn then s.startClose G.fn else (((s.closing G.fn).mark G.fn).closed G.fn).clearGang g G

def execGangEnd (g : Nat) (s : State) : Outcome :=
  .next <|
    match s.gangs.find? g with
    | some G => if s.gangOver g G then s.endGang g G else s
    | none => s

end Sys2Proof.Machine
end

