-- ==== Sys2Proof/Machine/Matrix.lean ====
section
/-!
DEFINITION. Matrix instructions on core pairs (06): operand blocks, the checks, the pair's engine queue, what its operations
write, and the accumulator instructions.
-/

namespace Sys2Proof.Machine

/-! ### Tiles (01 R21; 06 R134) -/

/-- Logical pair of a gang's core (06 R150). -/
def Gang.pair (G : Gang) : Nat := 2 * G.cluster + G.seat.core / 2

/-- Bits of an element of a tile; before anything writes it, bits the model does not know (log 5). -/
def State.tileElem (s : State) (team pair tile e : Nat) : Lane32 :=
  (s.tiles.find? (tileKey team pair tile e)).getD (Config.tileBits team pair tile e)

/-- The tag of a tile as a type. -/
def State.tileTag (s : State) (team pair tile : Nat) : ETy :=
  match s.tiles.find? (tileKey team pair tile 1024) with
  | some t => if t = 1 then .t32 else .fp32
  | none => if Config.tileIsT32 team pair tile then .t32 else .fp32

def State.setTileElem (s : State) (team pair tile e : Nat) (x : Lane32) : State :=
  { s with tiles := s.tiles.put (tileKey team pair tile e) x }

def State.setTileTag (s : State) (team pair tile : Nat) (t32 : Bool) : State :=
  s.setTileElem team pair tile 1024 (if t32 then 1 else 0)

/-- Write every element of a tile. -/
def State.setTile (s : State) (team pair tile : Nat) (xs : List Nat) : State :=
  xs.zipIdx.foldl (fun s q => s.setTileElem team pair tile q.2 (BitVec.ofNat 32 q.1)) s

/-- The tiles an operation names. -/
def MatOp.tiles (o : MatOp) : List Nat :=
  match o.kind with
  | .azero n _ => (List.range n).map (o.tile + ·)
  | .acvt src _ | .aadd src => [o.tile, src]
  | _ => [o.tile]

/-- An operation accepted earlier, by a key below `id`, that names one of the tiles of the team on the pair. -/
def State.earlier (s : State) (id team pair : Nat) (tiles : List Nat) (p : MatOp → Bool) : Bool :=
  s.mats.any fun q => decide (q.1 < id) && q.2.team == team && q.2.pair == pair && p q.2
    && q.2.tiles.any tiles.contains

/-! ### Checks shared by the forms (06 R143) -/

/-- Steps 2 and 3: the role and the tiles. -/
def Cx.matRole (c : Cx) (matrixOnly : Bool) (tiles : List Nat) (k : State) : State :=
  if !(c.G.role == .matrix || (!matrixOnly && c.G.role == .vector)) then c.fault 0x08
  else if tiles.any fun t => decide (c.team.tiles ≤ t) then c.illop
  else k

/-- Steps 2 to 4: those, and an empty ACTIVE, with which the instruction does nothing. -/
def Cx.matChecks (c : Cx) (matrixOnly : Bool) (tiles : List Nat) (k : State) : State :=
  c.matRole matrixOnly tiles (if c.P.active = 0 then c.retire else k)

/-- A precise fault of the elected lane. -/
def Cx.matFault (c : Cx) (code addr : Nat) (acc : Acc) (unit : Nat := 0) : State :=
  c.faultLanes code acc unit [⟨elected c.P.active, addr⟩]

/-- Room in k1 and in the pair's queue, which holds 16 operations. -/
def Cx.pairCount (c : Cx) : Nat := (Store.keep c.s.mats fun _ o => o.pair == c.G.pair).length

/-- Ask other packages for the rows they hold. -/
def Cx.askRows (c : Cx) (id : Nat) : List MatRow → Cx × List MatRow
  | [] => (c, [])
  | r :: rs =>
    let (c, m) := c.askMove id { src := r.src, dst := 0, len := 32, valid := 256, srcVa := r.va, dstVa := 0 }
    let (c, rest) := c.askRows id rs
    (c, { r with src := m.src } :: rest)

/-- Accept an operation into the queue; k1 counts it. -/
def Cx.accept (c : Cx) (kind : MatKind) (tile : Nat) (rowsA rowsB : List MatRow) : State :=
  if 63 ≤ c.G.k 1 then c.waitFor (.counter 1)
  else if 16 ≤ c.pairCount then c.waitFor .matrixRoom
  else
    let id := c.s.handle
    let c := { c with s := { c.s with handle := id + 1 }, G := c.G.addOp 1 id }
    let (c, a) := if kind = .astore then (c, rowsA) else c.askRows id rowsA
    let (c, b) := c.askRows id rowsB
    let op : MatOp := { g := c.g, fn := c.G.fn, team := c.G.team, launch := c.G.launch, pair := c.G.pair, kind := kind
                        tile := tile, rowsA := a, rowsB := b, started := false, since := c.s.order.length }
    { c with s := { c.s with mats := c.s.mats.put id op } }.retire

/-- An unreachable package ends the launch (22 R356). -/
def Cx.rowsReachable (c : Cx) (rows : List MatRow) (k : State) : State :=
  match rows.find? fun r => match r.src with
      | .key q => isRemote q && !c.s.reachable (keySpace q - 3)
      | _ => false with
  | some r => c.refuse r.va
  | none => k

def execMatrixQueueRoom (g sp : Nat) (s : State) : Outcome :=
  s.wake g sp (· == .matrixRoom) fun c => decide (c.pairCount < 16)

/-! ### Operand blocks (06 R137 to R139) -/

/-- 32 bytes of an operand before translation: their virtual address, and the brick's tag with the place in it. -/
structure Chunk where
  va : Nat
  brick : Option BrickTag
  pos : Nat
  deriving DecidableEq, Repr

/-- Row `r` of brick (`bc`, `br`) of a tensor; none outside its extents. -/
def State.tensorChunk (s : State) (f tid bc br pos : Nat) : Option Chunk :=
  let e := s.tensorEntry f tid
  if entryValid e && decide (br < entryRows e) && decide (bc < entryCols e) then
    some { va := brickByte e br bc pos, brick := some ⟨f, tid, br, bc⟩, pos := pos }
  else none

/-- Chunk `i` of a block's row `r`, of C bricks across; `line`: a sparse row, one whole brick (06 R138, R139). -/
def State.operandChunk (s : State) (f : Nat) (d : Word) (cols : Nat) (line : Bool) (r i : Nat) : Option Chunk :=
  let tid := d.field 63 48
  if tid = 0 then
    let addr := d.field 47 0
    some { va := if line then addr + 128 * r + 32 * i else addr + 128 * (cols * (r / 4) + i) + 32 * (r % 4)
           brick := none, pos := 0 }
  else if line then s.tensorChunk f tid (d.field 23 0) (d.field 47 24 + r) (32 * i)
  else s.tensorChunk f tid (d.field 23 0 + i) (d.field 47 24 + r / 4) (32 * (r % 4))

/-- Every chunk of a block, row by row. -/
def State.operandChunks (s : State) (f : Nat) (d : Word) (cols : Nat) (line : Bool) : List (Option Chunk) :=
  (List.range 32).flatMap fun r => (List.range (if line then 4 else cols)).map fun i => s.operandChunk f d cols line r i

/-- Translate pages in ascending order, without charge. -/
def State.translatePages (s : State) (f : Nat) : List (Nat × Nat) → (Nat × Nat) ⊕ Store Nat
  | [] => .inr []
  | (page, va) :: r =>
    match s.translate f va .read with
    | .fault code => .inl (code, va)
    | .ok w =>
      match s.translatePages f r with
      | .inl e => .inl e
      | .inr m => .inr (Store.put m page (w.key - va % 4096))

def rowsOf (cs : List Chunk) (m : Store Nat) : List MatRow :=
  cs.map fun q => { src := .key (pageKey m q.va), va := q.va, brick := q.brick, pos := q.pos }

/-- The N of a sparse A (06 R141). -/
def sparseN (ta : ETy) (sprs : Nat) : Nat := (if ta = .t4 then 8 else 4) * sprs

/-- Brick columns of B (06 R138). -/
def colsB (ta : ETy) (sprs : Nat) : Nat := if sprs = 0 then 3 else if ta = .t4 then 4 else 8

/-- mma and mmaz: the checks of 06 R143, then acceptance. A fault of step 6 reports the descriptor word as ADDR (log 65). -/
def Cx.multiply (c : Cx) (f : Mat) (zero : Bool) : State :=
  c.matChecks true [f.tile.toNat] <|
    let fn := c.G.fn
    let da := c.sreg f.a.sNum
    let db := c.sreg f.b.sNum
    let crooked := fun (d : Word) => d.field 63 48 == 0 && d.field 6 0 != 0
    let as_ := c.s.operandChunks fn da 3 (f.sprs != 0)
    let bs := c.s.operandChunks fn db (colsB f.ta f.sprs.toNat) false
    if crooked da then c.matFault 0x03 (da.field 47 0) .read
    else if crooked db then c.matFault 0x03 (db.field 47 0) .read
    else if as_.any Option.isNone then c.matFault 0x04 da.toNat .read
    else if bs.any Option.isNone then c.matFault 0x04 db.toNat .read
    else
      let as_ := as_.filterMap id
      let bs := bs.filterMap id
      if (as_ ++ bs).any fun q => c.s.heldVa fn q.va then c.stall
      else match c.s.translatePages fn (pageFirsts (as_.map (·.va))) with
      | .inl (code, va) => c.matFault code va .read (walkUnit code)
      | .inr ma =>
        match c.s.translatePages fn (pageFirsts (bs.map (·.va))) with
        | .inl (code, va) => c.matFault code va .read (walkUnit code)
        | .inr mb =>
          let ra := rowsOf as_ ma
          let rb := rowsOf bs mb
          c.rowsReachable (ra ++ rb) <|
            c.accept (.mma zero (f.mod.getLsbD 0) f.ta f.tb (sparseN f.ta f.sprs.toNat) f.scl.toNat) f.tile.toNat ra rb

def execMma (f : Mat) (s : State) : Outcome := s.issue fun c => c.multiply f false
def execMmaz (f : Mat) (s : State) : Outcome := s.issue fun c => c.multiply f true

/-- MOD bit 0 gives the tag, bits 6:1 the count less 1. -/
def execAzero (f : Mat) (s : State) : Outcome :=
  s.issue fun c =>
    let n := bitsN f.mod.toNat 6 1 + 1
    c.matChecks false ((List.range n).map (f.tile.toNat + ·)) (c.accept (.azero n (f.mod.getLsbD 0)) f.tile.toNat [] [])

/-- aload and astore: 4 KiB at x, 128-aligned, in the window or in pages admitted in ascending order (06 R147). -/
def Cx.tileMove (c : Cx) (f : Mem) (acc : Acc) (kind : MatKind) : State :=
  let tile := f.data.vNum
  c.matChecks false [tile] <|
    let x := offset (c.sreg f.base.sNum).toNat f.offs
    let vas := (List.range 128).map fun i => x + 32 * i
    if x % 128 ≠ 0 then c.matFault 0x03 x acc
    else if f.space = 2 then
      if c.team.window < x + 4096 then c.matFault 0x04 x acc
      else c.accept kind tile (vas.map fun a => { src := .key (c.windowKey a), va := 0, brick := none, pos := 0 }) []
    else if vas.any (c.s.heldVa c.G.fn) then c.stall
    else match c.s.admitPages c.G.fn (c.s.launchOf c.G).agent acc (pageFirsts vas) with
      | .inl (code, va, s) => { c with s := s }.matFault code va acc (s.eccUnit c.G.fn (c.s.launchOf c.G).agent va acc code)
      | .inr (s, m) =>
        let rows : List MatRow := vas.map fun a => { src := .key (pageKey m a), va := a, brick := none, pos := 0 }
        let c := { c with s := s }
        c.rowsReachable rows (c.accept kind tile rows [])

def execAload (f : Mem) (s : State) : Outcome := s.issue fun c => c.tileMove f .read (.aload (f.ty == .t32))
def execAstore (f : Mem) (s : State) : Outcome := s.issue fun c => c.tileMove f .write .astore

def execAcvt (f : Mat) (s : State) : Outcome :=
  s.issue fun c =>
    c.matChecks false [f.tile.toNat, f.a.vNum] (c.accept (.acvt f.a.vNum (f.mod.getLsbD 0)) f.tile.toNat [] [])

def execAadd (f : Mat) (s : State) : Outcome :=
  s.issue fun c => c.matChecks false [f.tile.toNat, f.a.vNum] (c.accept (.aadd f.a.vNum) f.tile.toNat [] [])

/-! ### aread and awrite (06 R148) -/

/-- The element a lane names. -/
def Cx.tileIndex (c : Cx) (f : Mat) (l : Nat) : Nat :=
  c.vsrc f.b .n32 l + if f.mod.getLsbD 0 then l else 0

/-- The lanes of ACTIVE that name an element of the tile. -/
def Cx.tileLanes (c : Cx) (f : Mat) : List Nat := (lanesOf c.P.active).filter fun l => decide (c.tileIndex f l ≤ 1023)

/-- The checks, registers first (log 50), and the wait for the gang's own earlier operations on the tile. -/
def Cx.tileAccess (c : Cx) (f : Mat) (k : State) : State :=
  if !(c.fits f.a .n32 && c.fits f.b .n32) then c.illop
  else c.matRole false [f.tile.toNat] <|
    if c.s.earlier c.s.handle c.G.team c.G.pair [f.tile.toNat] (fun o => o.g == c.g && o.kind != .astore) then c.stall
    else k

def execAread (f : Mat) (s : State) : Outcome :=
  s.issue fun c => c.tileAccess f <|
    let vs := (c.tileLanes f).map fun l =>
      (96 * f.a.vNum + l, c.s.tileElem c.G.team c.G.pair f.tile.toNat (c.tileIndex f l))
    (c.results f.ctl { left := 0, vs := vs, ss := [], ps := [] }).retire

def execAwrite (f : Mat) (s : State) : Outcome :=
  s.issue fun c => c.tileAccess f <|
    let s := (c.tileLanes f).foldl (fun s l =>
      s.setTileElem c.G.team c.G.pair f.tile.toNat (c.tileIndex f l) (c.vreg f.a.vNum l)) c.s
    { c with s := s }.retire

def execPairq (f : Sys) (s : State) : Outcome :=
  s.issue fun c => c.scalarWord f.dst <| BitVec.ofNat 64 <|
    match f.imm.toNat with
    | 0 => c.G.pair
    | 1 => if c.G.seat.core % 2 = 0 then 1 else 0
    | 2 => c.team.tiles
    | _ => c.pairCount

/-! ### Operand values (06 R138 to R140) -/

/-- The access by which the engine reads a row. -/
def MatRow.access (r : MatRow) (k : Nat) : Admitted := { lane := 0, addr := r.pos, va := none, brick := r.brick, key := k }

/-- The values a byte of a row has had since a place of the order, the present one last. -/
def State.rowByte (s : State) (f since : Nat) (q : Admitted) (i : Nat) : List Byte :=
  (if (s.outside q i).isSome then [] else (olderValues (q.key + i) since s.order).map (·.2)) ++ [s.getByte f q i]

/-- A row as an operation accepted at a place reads it: a byte written since may be seen as before or after, each by a free choice
(06 R145). -/
def State.seeRow (s : State) (o : MatOp) (n : Nat) (r : MatRow) : MatRow :=
  match r.src with
  | .key k =>
    let bytes := (List.range 32).map (s.rowByte o.fn o.since (r.access k))
    if bytes.all fun b => b.length == 1 then r
    else { r with seen := some (bytes.zipIdx.map fun b => b.1.getD ((Config.freeValue (s.tick + 32 * n + b.2)).toNat % b.1.length) 0) }
  | _ => r

/-- Every row of the operands. -/
def State.seeRows (s : State) (o : MatOp) : MatOp :=
  if o.kind = .astore then o
  else { o with rowsA := o.rowsA.zipIdx.map fun q => s.seeRow o q.2 q.1
                rowsB := o.rowsB.zipIdx.map fun q => s.seeRow o (o.rowsA.length + q.2) q.1 }

/-- The bits of 32 bytes of an operand as function `f` reads them; none until another package has sent them. -/
def State.rowBits (s : State) (f : Nat) (r : MatRow) : Nat :=
  match r.seen, r.src with
  | some bs, _ => ofBytes bs
  | none, .key k => s.get f (r.access k) 32
  | none, .data bs => ofBytes bs
  | none, _ => 0

/-- Scale records of the window over 32 bytes. The window's own block size counts: an operand type with another block size
takes the first of a row's two records, or finds none (log 64). -/
def State.rowRecords (s : State) (r : MatRow) : List Word :=
  match r.src with
  | .key k => s.recordsAt k
  | _ => []

/-- The elements of 32 bytes of a dense row. -/
def State.chunkValues (s : State) (f : Nat) (t : ETy) (marked : Bool) (r : MatRow) : List Num :=
  let x := s.rowBits f r
  let recs := if marked then s.rowRecords r else []
  (List.range (256 / t.stride)).map fun e =>
    scaled t marked (x / 2 ^ (t.stride * e) % 2 ^ t.width) (recs[e / 32]?) (e % 32)

/-- A dense row of C chunks. -/
def State.denseRow (s : State) (f : Nat) (t : ETy) (marked : Bool) (rows : List MatRow) (cols r : Nat) : List Num :=
  ((rows.drop (cols * r)).take cols).flatMap (s.chunkValues f t marked)

/-- The tag under which the fetch unit reads a row. -/
def MatRow.tag (r : MatRow) (f k : Nat) : BrickTag := r.brick.getD (linTag f k)

/-- The fetch unit fills the bricks of the rows (06 R145; 17 R275). -/
def State.touchRows (s : State) (f : Nat) (rows : List MatRow) : State :=
  rows.foldl (fun s r => match r.src with
    | .key k =>
      let s := s.track false k
      if r.pos = 0 then s.fillLine (r.tag f k) (if r.brick.isSome then k else k / 128 * 128) else s
    | _ => s) s

/-- A sparse row: its kept positions with their values, or none if it is malformed (06 R139, 17 R275). -/
def State.sparseRow (s : State) (f : Nat) (t : ETy) (marked : Bool) (n : Nat) (rows : List MatRow) (r : Nat) :
    Option (List (Nat × Num)) :=
  let mine := (rows.drop (4 * r)).take 4
  let x := (mine.zipIdx.map fun q => s.rowBits f q.1 * 2 ^ (256 * q.2)).sum
  let recs := if marked then mine.flatMap s.rowRecords else []
  let kept := (List.range 256).filter fun p => x.testBit p
  let count := mine.head?.bind fun (q : MatRow) =>
    match q.src with
    | .key k => (s.brickAt (q.tag f k)).bind fun b => b.kept
    | _ => none
  if (List.range 8).all (fun g => (kept.filter fun p => p / 32 == g).length == n) && count.all (· == n) then
    some (kept.zipIdx.map fun q =>
      (q.1, scaled t marked (x / 2 ^ (256 + t.stride * q.2) % 2 ^ t.width) (recs[q.1 / 32]?) (q.1 % 32)))
  else none

/-! ### The engine (06 R142, R144 to R149) -/

def tagTy (t32 : Bool) : ETy := if t32 then .t32 else .fp32

/-- The 1,024 results of a multiplication in a format, from the tile's old values. -/
def State.products (s : State) (o : MatOp) (fmt : ETy) (zero : Bool) (ta tb : ETy) (n scl : Nat) (old : Nat → Nat) : List Nat :=
  let colsOfB := o.rowsB.length / 32
  let markA := scl.testBit 0
  let markB := scl.testBit 1
  let bRows := (List.range 32).map fun j => s.denseRow o.fn tb markB o.rowsB colsOfB j
  (List.range 32).flatMap fun i =>
    let row : Option (List (Nat × Num)) :=
      if n = 0 then some ((s.denseRow o.fn ta markA o.rowsA 3 i).zipIdx.map fun q => (q.2, q.1))
      else s.sparseRow o.fn ta markA n o.rowsA i
    (List.range 32).map fun j =>
      match row with
      | none => invalidCode fmt
      | some vs =>
        let b := bRows.getD j []
        exactSum fmt (if zero then .fin false 0 0 else numOf fmt (old (32 * i + j)))
          (vs.map fun q => (q.2, b.getD q.1 (.fin false 0 0)))

/-- aadd of one element: d in the destination's format, s in the source's (06 R149). In fp32 two negative zeros give a negative zero
(log 73). -/
def tileAdd (dt st : ETy) (d s : Nat) : Nat :=
  match numOf dt d, numOf st s with
  | .nan, _ => invalidCode dt
  | _, .nan => invalidCode dt
  | .inf a, .inf b => if dt = .t32 ∨ a ≠ b then invalidCode dt else roundNum dt (.inf a)
  | .inf a, _ => if dt = .t32 then invalidCode dt else roundNum dt (.inf a)
  | _, .inf b => if dt = .t32 then invalidCode dt else roundNum dt (.inf b)
  | x, y => roundNum dt (x.add y)

/-- Whether a row is poisoned. -/
def State.rowPoisoned (s : State) (r : MatRow) : Option Nat :=
  match r.src with
  | .key k => if s.poisoned k 32 then some k else none
  | _ => none

/-- A row the engine cannot touch yet. -/
def State.rowHeld (s : State) (r : MatRow) : Bool :=
  match r.src with
  | .wait _ _ => true
  | .key k => !isRemote k && s.heldKey k
  | _ => false

/-- The tiles whose elements an operation reads, and those it writes whole. -/
def MatOp.readsTiles (o : MatOp) : List Nat :=
  match o.kind with
  | .mma zero _ _ _ _ _ => if zero then [] else [o.tile]
  | .astore => [o.tile]
  | .acvt src _ => [src]
  | .aadd src => [o.tile, src]
  | _ => []

def MatOp.writesTiles (o : MatOp) : List Nat :=
  match o.kind with
  | .azero n _ => (List.range n).map (o.tile + ·)
  | .astore => []
  | _ => [o.tile]

/-- The uncorrectable errors that an operation meets: unit and address of each (06 R145; 20 R327; log 61). -/
def State.matErrors (s : State) (o : MatOp) : List (Nat × Nat) :=
  ((o.rowsA ++ o.rowsB).filterMap s.rowPoisoned).map (fun k => (s.poisonUnit k 32, keyAddr k))
    ++ (o.readsTiles.filter fun t => s.badTiles.contains (tileNumber o.team o.pair t)).map fun _ => (6, 0)

/-- Four bytes of each element of a tile go to memory; a remote row by a packet. -/
def State.storeTile (s : State) (o : MatOp) (id : Nat) (out : List Nat) : State :=
  o.rowsA.zipIdx.foldl (fun t q =>
    let x := ((List.range 8).map fun i => out.getD (8 * q.2 + i) 0 * 2 ^ (32 * i)).sum
    match q.1.src with
    | .key k =>
      if isRemote k then
        let p := t.request o.fn 2 k 32 (wordsOf 32 x)
        t.ask { tag := p.tag.toNat, g := o.g, sp := 0, vdst := [], sdst := none, size := 0, signed := false, write := true
                op := some id, va := q.1.va, key := k, packet := p }
      else (t.track false k).store o.fn k (bytesOf 32 x) false
    | _ => t) s

/-- The tile or memory after an operation: with an uncorrectable error among what it reads, the invalid code in every element
it writes. -/
def State.matResult (s : State) (o : MatOp) (id : Nat) : State :=
  let team := o.team
  let pair := o.pair
  let at_ := fun tile e => (s.tileElem team pair tile e).toNat
  let errs := if o.kind = .astore then (s.matErrors { o with rowsA := [] }) else s.matErrors o
  let lid := ((s.launches.find? o.launch).getD {}).lid
  let result := fun (fmt : ETy) (f : Nat → Nat) => (List.range 1024).map fun e => if errs.isEmpty then f e else invalidCode fmt
  let t := errs.foldl (fun (t : State) q => t.logImprecise o.fn lid 0x11 q.1 q.2) s
  let t := { t with badTiles := t.badTiles.filter fun n => !(o.writesTiles.any fun i => tileNumber team pair i == n) }
  match o.kind with
  | .mma zero t32 ta tb n scl =>
    let fmt := if zero then tagTy t32 else s.tileTag team pair o.tile
    let t := t.setTile team pair o.tile
      (if errs.isEmpty then s.products o fmt zero ta tb n scl (at_ o.tile) else List.replicate 1024 (invalidCode fmt))
    if zero then t.setTileTag team pair o.tile t32 else t
  | .azero n t32 =>
    (List.range n).foldl
      (fun t i => (t.setTile team pair (o.tile + i) (List.replicate 1024 0)).setTileTag team pair (o.tile + i) t32) t
  | .aload t32 =>
    let words := o.rowsA.flatMap fun r => let x := s.rowBits o.fn r; (List.range 8).map fun i => x / 2 ^ (32 * i) % 2 ^ 32
    (t.setTile team pair o.tile (result (tagTy t32) fun e => words.getD e 0)).setTileTag team pair o.tile t32
  | .astore => t.storeTile o id (result (s.tileTag team pair o.tile) (at_ o.tile))
  | .acvt src t32 =>
    let from_ := s.tileTag team pair src
    let fmt := tagTy t32
    (t.setTile team pair o.tile (result fmt fun e => if from_ = fmt then at_ src e else convCode fmt from_ (at_ src e))).setTileTag
      team pair o.tile t32
  | .aadd src =>
    let fmt := s.tileTag team pair o.tile
    t.setTile team pair o.tile (result fmt fun e => tileAdd fmt (s.tileTag team pair src) (at_ o.tile e) (at_ src e))

/-- An operation starts once every earlier one that names one of its tiles has retired. -/
def execMatrixOpStart (id : Nat) (s : State) : Outcome :=
  let start := fun (o : MatOp) =>
    if s.earlier id o.team o.pair o.tiles (fun _ => true) then o else { o with started := true }
  .next { s with mats := Store.update s.mats id start }

/-- Write the results and lower k1; an astore to another package first waits for its answers. -/
def execMatrixOpRetire (id : Nat) (s : State) : Outcome :=
  .next <|
    match s.mats.find? id with
    | none => s
    | some o =>
      let keys := o.rowsA.filterMap fun (r : MatRow) => match r.src with
        | .key k => some k
        | _ => none
      let away := if o.kind = .astore then s.unlogged o.fn keys else []
      if !away.isEmpty then s.askLines o.fn away
      else if !o.started || (o.rowsA ++ o.rowsB).any s.rowHeld then s
      else
        let u := s.touchRows o.fn (if o.kind = .astore then [] else o.rowsA ++ o.rowsB)
        let t := { u with tick := u.tick + 32 * (o.rowsA.length + o.rowsB.length) }.matResult (u.seeRows o) id
        if t.remotes.any fun r => r.op == some id then
          { t with mats := t.mats.put id { o with kind := .astore, rowsA := [] } }
        else { t with mats := t.mats.erase id, gangs := Store.update t.gangs o.g fun G => G.endOp id }

end Sys2Proof.Machine
end

