-- ==== Sys2Proof/Machine/System.lean ====
section
/-!
DEFINITION. Regions and their routines (09 R216 to R228), traps (09 R232), service calls (09 R233, R234; 15 R255),
continuation queues and joins (09 R238, R239), mailboxes (09 R241 to R243), network sends (22 R358), queries (09 R245 to
R247; 16 R266, R267), and unassigned opcodes (02 R56).
-/

namespace Sys2Proof.Machine

/-! ### Regions -/

/-- The marker enters its region once the descriptor passes its checks. -/
def execRegion (f : Sys) (s : State) : Outcome :=
  s.issue fun c =>
    if c.P.rstate = 1 then c.fault 0x00
    else match c.P.clause with
      | some cl =>
        if descOk c.G.vregs (wrapInt 64 ((cl.hdr : Int) + 8 * f.imm.toInt)) cl.desc then
          { c with P := { c.P with region := cl.hdr, closed := false
                                   exitDesc := if c.P.rstate = 2 then cl.desc else c.P.exitDesc } }.retire
        else c.illop
      | none => c.illop

/-- Bytes from `at_` of a save area are all written. -/
def Split.wrote (P : Split) (at_ n : Nat) : Bool := (List.range n).all fun i => P.covered.contains (at_ + i)

/-- Slots covered (09 R223): of sn, of p(i + 1), of vn. -/
def Split.coversS (P : Split) (n : Nat) : Bool := decide (1 ≤ n) && decide (n ≤ 60) && P.wrote (8 * (n - 1)) 8
def Split.coversP (P : Split) (i : Nat) : Bool := decide (i < 7) && P.wrote (0x200 + 16 * i) 12
def Split.coversV (P : Split) (n : Nat) : Bool := (lanesOf P.member).all fun l => P.wrote (0x280 + 384 * n + 4 * l) 4

def bitsWord (n : Nat) (f : Nat → Bool) : Word := BitVec.ofNat 64 (((List.range n).map fun i => if f i then 2 ^ i else 0).sum)

/-- The coverage record. -/
def Split.coverage (P : Split) : List Word :=
  [bitsWord 64 P.coversS, bitsWord 64 P.coversP, bitsWord 64 P.coversV, bitsWord 64 fun i => P.coversV (64 + i)]

/-- Every live-in slot is covered. -/
def Split.covers (P : Split) (d : List Word) : Bool :=
  (List.range 64).all (fun n => !descLiveS d n || P.coversS n)
    && (List.range 7).all (fun i => !descLiveP d i || P.coversP i)
    && (descVRegs d).all P.coversV

/-- Write a split's entry and its pending-spawn descriptor to the gang's save block, if it has one (09 R222). The spec gives
the descriptor no layout: its words are free values (log 62). -/
def Cx.writeEntry (c : Cx) (pc rstate : Nat) : Cx :=
  if c.G.save = 0 then c
  else
    let s := (c.s.deviceWrite c.G.fn (c.G.save + 64 * c.sp) (c.P.entryWords c.sp pc rstate)).getD c.s
    let pending := (List.range 8).map fun i => Config.freeValue (s.tick + i)
    let s := (s.deviceWrite c.G.fn (c.G.save + 0x100 + 64 * c.sp) pending).getD s
    { c with s := { s with tick := s.tick + 8 } }

/-- The end of an exit routine: the coverage record, SAVESHORT, or the saved entry. -/
def execXret (_f : Sys) (s : State) : Outcome :=
  s.issue fun c =>
    if c.P.rstate ≠ 1 then c.illop
    else if !c.G.ops.isEmpty then c.waitFor .xret
    else
      let c := c.settle
      let s := (c.s.deviceWrite c.G.fn (c.G.save + 0x200 + 32 * c.sp) c.P.coverage).getD c.s
      let c := { c with s := s }
      if !c.P.covers c.P.exitDesc then c.exitFailure 0x0F
      else
        let c := c.writeEntry (descEntry c.P.exitDesc) 2
        let P := { c.P with pc := descEntry c.P.exitDesc, rstate := 2, saved := true, restart := true, clause := none, wait := none }
        { { c with P := P }.flush with cur := none }.leave c.G.fn

/-- The end of an entry routine: ACTIVE is restored and the marker runs again. -/
def execEret (_f : Sys) (s : State) : Outcome :=
  s.issue fun c =>
    if c.P.rstate = 1 then c.fault 0x00
    else if c.P.rstate ≠ 2 then c.illop
    else
      let act := (c.P.savedActive.getD c.P.member) &&& c.P.member
      { c with P := { c.P with active := act, rstate := 0, savedActive := none, covered := [], exitDesc := [] } }.endClause c.P.region

/-! ### Traps -/

def execTrap (f : Sys) (s : State) : Outcome :=
  s.issue fun c =>
    if c.P.rstate = 1 then c.fault 0x00 else c.takeFault { c.faultAt 0x20 with elem := f.imm.toNat }

def execBrk (_f : Sys) (s : State) : Outcome :=
  s.issue fun c =>
    if c.P.rstate = 1 then c.fault 0x00
    else if c.s.ffield c.G.fn 0xD80 0 0 = 1 then c.fault 0x21
    else { c with s := c.s.count c.G.fn 0xD38 }.retire

/-- An unassigned opcode raises ILLOP when its turn comes. -/
def execUnassignedOpcode (_w : BitVec 64) (s : State) : Outcome := s.issue Cx.illop

/-! ### Accesses of the elected lane -/

/-- A precise fault at an address of the elected lane; of an uncorrectable error, in a unit (20 R321, R327). -/
def Cx.sysFault (c : Cx) (code addr : Nat) (acc : Acc) (unit : Nat := 0) : State :=
  if c.P.active = 0 then c.takeFault { c.faultAt code with addr := addr, acc := acc.code, elem := unit }
  else c.faultLanes code acc unit [⟨(lanesOf c.P.active).headD 0, addr⟩]

/-- Step 4 of 07 R161 on one address; `k` with its key. -/
def Cx.reach (c : Cx) (va : Nat) (acc : Acc) (k : Cx → Nat → State) : State :=
  if c.s.heldVa c.G.fn va then c.stall
  else match c.s.permit c.G.fn (c.s.launchOf c.G).agent va acc with
  | .inl code => c.sysFault code va acc (c.s.eccUnit c.G.fn (c.s.launchOf c.G).agent va acc code)
  | .inr (key, s) => k { c with s := s } key

/-- The same of an entry of a queue's ring, which no access charges (20 R325). -/
def Cx.reachEntry (c : Cx) (va : Nat) (acc : Acc) (k : Nat → State) : State :=
  if c.s.heldVa c.G.fn va then c.stall
  else match c.s.translate c.G.fn va acc with
  | .fault code => c.sysFault code va acc (walkUnit code)
  | .ok w => k w.key

/-! ### Service calls -/

/-- SVC, the argument words less 1, the result words, the status predicate. -/
def Sys.svc (f : Sys) : Nat := bitsN f.imm.toNat 11 0
def Sys.nargs (f : Sys) : Nat := bitsN f.imm.toNat 14 12
def Sys.nres (f : Sys) : Nat := bitsN f.imm.toNat 17 15

/-- A lane's request entry (09 R234). -/
def Cx.requestEntry (c : Cx) (f : Sys) (callid lanes : Nat) (tag : Word) (l : Nat) : List Word :=
  let arg := fun j => if j ≤ Sys.nargs f then (c.vreg (f.a.vNum + j) l).toNat else 0
  [ BitVec.ofNat 64 (Sys.nargs f * 2 ^ 60 + Sys.svc f * 2 ^ 48 + lanes * 2 ^ 40 + l * 2 ^ 32 + callid), tag
  , BitVec.ofNat 64 c.P.pc, 0 ] ++ (List.range 4).map fun i => BitVec.ofNat 64 (arg (2 * i) + arg (2 * i + 1) * 2 ^ 32)

/-- Entries of the request ring, and room in it (15 R255). -/
def State.srqSize (s : State) (f : Nat) : Nat := 2 ^ (s.ffield f 0x810 3 0 + 6)
def State.srqRoom (s : State) (f lanes : Nat) : Bool :=
  decide (ringCount (s.ffield f 0x818 31 0) (s.ffield f 0x818 63 32) + lanes ≤ s.srqSize f)

/-- The first page of a range that fails translation or write permission: code and address. -/
def State.unwritable (s : State) (f base bytes : Nat) : Option (Nat × Nat) :=
  ((List.range ((bytes + 4095) / 4096)).findSome? fun i =>
    let va := base + 4096 * i
    match s.translate f va .write with
    | .fault code => some (code, va)
    | .ok _ => none)

/-- Write one entry per lane, advance SRQPI, park the split. -/
def Cx.call (c : Cx) (f : Sys) (lanes : List Nat) : State :=
  let fn := c.G.fn
  let callid := (c.s.fn fn).callid
  let base := (c.s.freg fn 0x800).toNat
  let pi := c.s.ffield fn 0x818 31 0
  let tags := lanes.zipIdx.map fun q => (q.1, Config.freeValue (c.s.tick + q.2))
  let s := tags.zipIdx.foldl (fun s q =>
    (s.deviceWrite fn (base + 64 * ((pi + q.2) % c.s.srqSize fn)) (c.requestEntry f callid lanes.length q.1.2 q.1.1)).getD s) c.s
  let s := s.setFreg fn 0x818 ((s.freg fn 0x818).put 31 0 ((pi + lanes.length) % 2 ^ 32))
  let s := { s.modFn fn (fun x => { x with callid := (callid + 1) % 2 ^ 32 }) with tick := s.tick + lanes.length }
  let p : CallPark :=
    { callid := callid, tags := tags, dst := f.dst.vNum, results := Sys.nres f, pred := f.sub.toNat
      waiting := maskOfList lanes, answers := [] }
  c.park (s.raiseVector fn 1) (.call p)

def execScall (f : Sys) (s : State) : Outcome :=
  s.issue fun c => c.outsideExit <|
    let fn := c.G.fn
    let lanes := lanesOf c.P.active
    if !(c.fitsN f.a (Sys.nargs f + 1) && (Sys.nres f == 0 || c.fitsN f.dst (Sys.nres f))) then c.illop
    else if c.P.active = 0 then c.retire
    else if c.s.ffield fn 0x810 8 8 = 0 ∨ c.s.srqSize fn < lanes.length then c.fault 0x04
    else match c.s.unwritable fn (c.s.freg fn 0x800).toNat (64 * c.s.srqSize fn) with
      | some (code, va) => c.sysFault code va .write (walkUnit code)
      | none => if c.s.srqRoom fn lanes.length then c.commit fun c => c.call f lanes else c.waitFor .scallRoom

def execScallRingRoom (g sp : Nat) (s : State) : Outcome :=
  s.wake g sp (· == .scallRoom) fun c => c.s.srqRoom c.G.fn (laneCount c.P.active)

/-! ### Continuation queues -/

def emptyWord : Word := BitVec.allOnes 64 - 1
def closedWord : Word := BitVec.allOnes 64

/-- A queue handle names a continuation queue of the function, or PROT. -/
def Cx.onQueue (c : Cx) (h : Word) (k : Nat → State) : State :=
  let q := h.field 15 0
  if h.field 63 16 ≠ 0 || !c.s.isContinuation c.G.fn q then c.fault 0x04 else k q

/-- The queue's slot, mapped on the gang's die if it was not; none while it is stopped or no slot is free. -/
def Cx.slotOf (c : Cx) (q : Nat) : Cx × Option Slot :=
  let s := c.s.loadQueue c.G.fn q c.G.die
  ({ c with s := s }, s.slot? c.G.fn q)

/-- Give four words to sD and following. -/
def Cx.giveRecord (c : Cx) (f : Sys) (ws : List Word) : State := (c.setSs f.dst.sNum ws).retire

def execCpop (f : Sys) (s : State) : Outcome :=
  s.issue fun c => c.outsideExit <| c.onQueue (c.src64 f.a) fun q =>
    let nowait := f.sub == 1
    match c.slotOf q with
    | (c, none) =>
      if nowait && c.s.hasStopped c.G.fn q then c.commit fun c => c.giveRecord f [emptyWord, 0, 0, 0] else c.waitFor .cpop
    | (c, some x) =>
      if x.count = 0 then
        if x.closed then c.commit fun c => c.giveRecord f [closedWord, 0, 0, 0]
        else if nowait then c.commit fun c => c.giveRecord f [emptyWord, 0, 0, 0]
        else c.waitFor .cpop
      else c.reachEntry (x.entryAt 32 x.head) .read fun key => c.commit fun c =>
        let ws := (List.range 4).map fun i => BitVec.ofNat 64 (c.s.read c.G.fn (key + 8 * i) 8)
        (({ c with s := c.s.setHead x (x.head + 1) } : Cx).did (.take (.record c.G.fn q x.head) c.P.member)).giveRecord f ws

/-- A waiting cpop: its queue has a record, is closed, or has been destroyed, which returns the closed word; with NOWAIT it waits
for a slot alone. -/
def execCpopRecordTaken (g sp : Nat) (s : State) : Outcome :=
  match s.cx? g sp with
  | some c =>
    match c.P.wait, c.instr? with
    | some .cpop, some (.cpop f) =>
      let q := (c.src64 f.a).field 15 0
      if !s.isContinuation c.G.fn q then
        let close := (s.fn c.G.fn).close
        .next (if close == .waiting then s
          else if close == .none && s.closeWaits c.G.fn then s.startClose c.G.fn
          else s.onSplit g sp fun c =>
            ({ c with P := { c.P with wait := none } } : Cx).commit fun c => c.giveRecord f [closedWord, 0, 0, 0])
      else
        let t := s.loadQueue c.G.fn q c.G.die
        t.wake g sp (· == .cpop) fun _ => (t.slot? c.G.fn q).any (fun x => x.count != 0 || x.closed || f.sub == 1)
          || (f.sub == 1 && t.hasStopped c.G.fn q)
    | _, _ => .next s
  | none => .next s

def execCpush (f : Sys) (s : State) : Outcome :=
  s.issue fun c => c.outsideExit <|
    let ws := c.sregs f.a.sNum 4
    if sentinel (ws.headD 0) then c.illop
    else c.onQueue (c.sreg f.dst.sNum) fun q =>
      match c.slotOf q with
      | (c, none) => c.waitFor .cpush
      | (c, some x) =>
        if x.closed then c.fault 0x04
        else if privSize x.priv ≤ x.count then c.waitFor .cpush
        else c.reachEntry (x.entryAt 32 x.tail) .write fun key => c.commit fun c =>
          (({ c with s := c.s.pushAt x key ws } : Cx).hand (.record c.G.fn q x.tail) c.P.active).retire

/-- A queue a waiter of cpush or cjoin goes on with: it has room, is closed or no longer exists. -/
def State.queueMoves (s : State) (f q : Nat) : Bool :=
  !s.isContinuation f q || (s.slot? f q).any fun x => x.closed || decide (x.count < privSize x.priv)

def execCpushQueueRoom (g sp : Nat) (s : State) : Outcome :=
  match s.cx? g sp with
  | some c =>
    match c.instr? with
    | some (.cpush f) =>
      let q := (c.sreg f.dst.sNum).field 15 0
      let t := s.loadQueue c.G.fn q c.G.die
      t.wake g sp (· == .cpush) fun c => t.queueMoves c.G.fn q
    | _ => .next s
  | none => .next s

/-- cjoin once the descriptor (at key `d`) and the bitmap word (at key `b`) are reached. -/
def Cx.join (c : Cx) (f : Sys) (va d b i : Nat) (w : List Word) : State :=
  let fn := c.G.fn
  let w1 := w.getD 1 0
  let w2 := w.getD 2 0
  let q := w2.field 15 0
  let bits := BitVec.ofNat 64 (c.s.read fn b 8)
  let isSet := bits.getLsbD (i % 64)
  let done := (w1.field 63 32 + 1) % 2 ^ 32
  let fire := !isSet && done == w1.field 31 0 && w2.field 63 63 == 0
  let record := (List.range 4).map fun j => w.getD (4 + j) 0
  let effect := fun (c : Cx) =>
    let s := c.s
    let s := if isSet then s else
      (s.store fn b (bytesOf 8 (bits.toNat ||| 2 ^ (i % 64))) true).store fn (d + 8) (bytesOf 8 (w1.put 63 32 done).toNat) true
    let s := if fire then s.store fn (d + 16) (bytesOf 8 (w2.put 63 63 1).toNat) true else s
    let c : Cx := { c with s := s }
    (if isSet then c else c.did (.give (.join d) c.P.active)).setS f.dst.sNum (if fire then 1 else 0)
  if w1.field 31 0 ≤ i then c.sysFault 0x04 va .atomic
  else if !c.s.isContinuation fn q || w2.field 62 16 != 0 || w.getD 3 0 != 0 then c.sysFault 0x04 va .atomic
  else if !fire then c.commit fun c => (effect c).retire
  else if sentinel (record.headD 0) then c.illop
  else match c.slotOf q with
    | (c, none) => c.waitFor .cjoin
    | (c, some x) =>
      if x.closed then c.sysFault 0x04 va .atomic
      else if privSize x.priv ≤ x.count then c.waitFor .cjoin
      else c.reachEntry (x.entryAt 32 x.tail) .write fun key => c.commit fun c =>
        let m := c.P.active
        let c := effect c
        let link := Link.record fn q x.tail
        ((({ c with s := c.s.pushAt x key record } : Cx).did (.carry link (.join d))).hand link m).retire

def execCjoin (f : Sys) (s : State) : Outcome :=
  s.issue fun c => c.outsideExit <|
    let va := (c.sreg f.a.sNum).toNat
    let i := (c.sreg (f.a.sNum + 1)).toNat
    if va % 64 ≠ 0 then c.sysFault 0x03 va .atomic
    else c.reach va .atomic fun c d =>
      let w : List Word := (List.range 8).map fun j => BitVec.ofNat 64 (c.s.read c.G.fn (d + 8 * j) 8)
      let map : Word := w.getD 0 0
      if map.field 47 0 % 8 ≠ 0 then c.sysFault 0x03 (map.field 47 0) .atomic
      else if map.field 63 48 ≠ 0 then c.sysFault 0x04 map.toNat .atomic
      else c.reach (map.field 47 0 + 8 * (i / 64)) .atomic fun c b => c.join f va d b i w

/-- A waiting cjoin repeats its whole step. -/
def execCjoinRetry (g sp : Nat) (s : State) : Outcome :=
  match s.cx? g sp with
  | some c =>
    match c.instr? with
    | some (.cjoin f) =>
      match s.translate c.G.fn (c.sreg f.a.sNum).toNat .atomic with
      | .ok w =>
        let q := s.read c.G.fn (w.key + 16) 2
        let t := s.loadQueue c.G.fn q c.G.die
        t.wake g sp (· == .cjoin) fun c => t.queueMoves c.G.fn q
      | .fault _ => s.wake g sp (· == .cjoin) fun _ => true
    | _ => .next s
  | none => .next s

/-! ### Mailboxes -/

/-- A mailbox as its descriptor says: where the descriptor lies, its words. -/
structure Mailbox where
  fn : Nat
  key : Nat
  words : List Word
  deriving DecidableEq, Repr

def Mailbox.w (b : Mailbox) (i : Nat) : Word := b.words.getD i 0
def Mailbox.on (b : Mailbox) : Bool := (b.w 1).field 8 8 == 1
def Mailbox.granted (b : Mailbox) : Bool := (b.w 1).field 9 9 == 1
def Mailbox.depth (b : Mailbox) : Nat := 2 ^ ((b.w 1).field 3 0 + 1)
def Mailbox.head (b : Mailbox) : Nat := (b.w 2).field 31 0
def Mailbox.tail (b : Mailbox) : Nat := (b.w 2).field 63 32
def Mailbox.count (b : Mailbox) : Nat := ringCount b.tail b.head
def Mailbox.slotVa (b : Mailbox) (t : Nat) : Nat := (b.w 0).field 47 0 + 64 * (t % b.depth)

/-- The mailbox whose descriptor lies at a key. -/
def State.mailboxAt (s : State) (f key : Nat) : Mailbox where
  fn := f
  key := key
  words := (List.range 8).map fun i => BitVec.ofNat 64 (s.read f (key + 8 * i) 8)

/-- Virtual address of a mailbox table entry (21 R338). -/
def State.mailboxVa (s : State) (f n : Nat) : Nat := s.ffield f 0xE00 47 0 + 64 * n

/-- Deliver a message whose slot lies at a key: the header with TAIL, seven words, TAIL plus 1 (09 R242). -/
def State.deliverMessage (s : State) (b : Mailbox) (slot : Nat) (header : Nat) (ws : List Word) : State :=
  let h := BitVec.ofNat 64 (header + b.tail % 65536 * 2 ^ 32)
  let s := s.store b.fn slot ((h :: ws).flatMap fun w => bytesOf 8 w.toNat) true
  s.plainStore b.fn (b.key + 16) (bytesOf 8 ((b.w 2).put 63 32 (b.tail + 1)).toNat)

/-- Function `r` has granted sends to `f` (21 R338). -/
def State.grants (s : State) (r f : Nat) : Bool :=
  if f < 64 then s.ffield r 0xE08 f f == 1 else s.ffield r 0xE10 (f - 64) (f - 64) == 1

/-- The receiver a mailbox handle names. -/
def receiver (h : Word) (own : Nat) : Nat := if h.field 22 16 = 127 then own else h.field 22 16

/-- Reserved bits of a mailbox handle are zero. -/
def handleOk (h : Word) : Bool := h.field 63 23 == 0 && h.field 15 12 == 0

/-- Another function's mailbox, a place of it translated without charge; a failure is PROT. -/
def Cx.reachOther (c : Cx) (r va : Nat) (acc : Acc) (k : Cx → Nat → State) : State :=
  if c.s.heldVa r va then c.stall
  else match c.s.translate r va acc with
  | .fault _ => c.sysFault 0x04 va acc
  | .ok w => k c w.key

/-- mbsend's checks up to MBXFULL; `k` with the mailbox and its message slot. -/
def Cx.sendTo (c : Cx) (h : Word) (k : Cx → Mailbox → Nat → State) : State :=
  let fn := c.G.fn
  let r := receiver h fn
  let go := fun (acc : Acc) (c : Cx) va k => if r = fn then c.reach va acc k else c.reachOther r va acc k
  if !handleOk h || decide (96 < r) || !c.s.fnEnabled r then c.fault 0x04
  else go .atomic c (c.s.mailboxVa r (h.field 11 0)) fun c key =>
    let b := c.s.mailboxAt r key
    if !b.on || (r != fn && !(b.granted && c.s.grants r fn)) then c.fault 0x04
    else go .write c (b.slotVa b.tail) fun c slot => k c b slot

def execMbsend (f : Sys) (s : State) : Outcome :=
  s.issue fun c => c.outsideExit <| c.sendTo (c.sreg f.dst.sNum) fun c b slot =>
    if b.depth ≤ b.count then (if f.sub = 1 then c.waitFor .mbsend else c.fault 0x0B)
    else if 63 ≤ c.G.k 3 then c.waitFor (.counter 3)
    else c.commit fun c =>
      let ws := c.sregs f.a.sNum 7
      let id := c.s.handle
      let s := c.s.deliverMessage b slot (c.G.fn * 2 ^ 56) ws
      (({ c with s := { s with handle := id + 1 }, G := (c.G.addOp 3 id).endOp id } : Cx).hand (.message b.key b.tail)
        c.P.active).retire

/-- Messages in the mailbox that a handle names, if its descriptor can be read. -/
def Cx.peek (c : Cx) (h : Word) : Option Mailbox :=
  let r := receiver h c.G.fn
  match c.s.translate r (c.s.mailboxVa r (h.field 11 0)) .atomic with
  | .ok w => some (c.s.mailboxAt r w.key)
  | .fault _ => none


def execMbrecv (f : Sys) (s : State) : Outcome :=
  s.issue fun c => c.outsideExit <|
    let fn := c.G.fn
    let h := c.sreg f.a.sNum
    if !handleOk h || receiver h fn != fn then c.fault 0x04
    else c.reach (c.s.mailboxVa fn (h.field 11 0)) .atomic fun c key =>
      let b := c.s.mailboxAt fn key
      if !b.on then c.fault 0x04
      else if b.count = 0 then
        if f.sub = 1 then c.commit fun c => (c.setSs f.dst.sNum (BitVec.allOnes 64 :: List.replicate 7 0)).retire
        else c.waitFor .mbrecv
      else c.reach (b.slotVa b.head) .read fun c slot => c.commit fun c =>
        let ws := (List.range 8).map fun i => BitVec.ofNat 64 (c.s.read fn (slot + 8 * i) 8)
        let s := c.s.plainStore fn (key + 16) (bytesOf 8 ((b.w 2).put 31 0 (b.head + 1)).toNat)
        ((({ c with s := s } : Cx).did (.take (.message key b.head) c.P.member)).setSs f.dst.sNum ws).retire

/-- A waiting mbrecv goes on: a message has come, or its mailbox is disabled, which raises PROT. -/
def execMbrecvMessageTaken (g sp : Nat) (s : State) : Outcome :=
  s.wake g sp (· == .mbrecv) fun c =>
    match c.instr? with
    | some (.mbrecv f) => (c.peek (c.sreg f.a.sNum)).all fun b => !b.on || b.count != 0
    | _ => false

/-! ### Network sends (22 R358) -/

/-- The destination function's NETPKG mask has a package's bit. -/
def State.netAllows (s : State) (r pkg : Nat) : Bool := s.ffield r (0xE18 + 8 * (pkg / 64)) (pkg % 64) (pkg % 64) == 1

/-- Deliver a network message to a mailbox of this package, or refuse it. -/
def State.receiveNet (s : State) (spkg sfunc r mbox : Nat) (ws : List Word) : State × NetAnswer :=
  if 96 < r ∨ !s.fnEnabled r ∨ !s.netAllows r spkg then (s, .refuseDenied)
  else match s.translate r (s.mailboxVa r mbox) .atomic with
    | .fault _ => (s, .refuseDenied)
    | .ok w =>
      let b := s.mailboxAt r w.key
      if !(b.on && b.granted) then (s, .refuseDenied)
      else match s.translate r (b.slotVa b.tail) .write with
        | .fault _ => (s, .refuseDenied)
        | .ok slot =>
          if b.depth ≤ b.count then (s, .refuseFull)
          else (s.deliverMessage b slot.key (2 ^ 31 + sfunc * 2 ^ 56 + spkg * 2 ^ 48) ws, .accept)

/-- The packet of a network send. -/
def Cx.netPacket (c : Cx) (f : Sys) : Packet :=
  let h := c.sreg f.dst.sNum
  { dpkg := BitVec.ofNat 8 (h.field 47 40), spkg := BitVec.ofNat 8 c.s.umid, kind := 0, sfunc := BitVec.ofNat 7 c.G.fn
    dfunc := BitVec.ofNat 7 (receiver h c.G.fn), len := 7, tag := BitVec.ofNat 24 c.s.handle
    mbox := BitVec.ofNat 16 (h.field 11 0), addr := 0, payload := c.sregs f.a.sNum 7 }

/-- What the sending split's .sys fences have ordered before a message goes with it to a mailbox of this package (22 R359). -/
def Cx.network (c : Cx) (p : Packet) : List (Home × Act) :=
  match c.s.translate p.dfunc.toNat (c.s.mailboxVa p.dfunc.toNat p.mbox.toNat) .atomic with
  | .ok w =>
    let link := Link.message w.key (c.s.mailboxAt p.dfunc.toNat w.key).tail
    ((c.did (.send link c.P.active)).did (.pass link)).s.acts
  | .fault _ => c.s.acts

/-- Send, or deliver locally; the answer of a local delivery is taken at once. -/
def Cx.netSend (c : Cx) (f : Sys) : State :=
  let p := c.netPacket f
  let id := c.s.handle
  if p.dpkg.toNat = c.s.umid then
    let (s, ans) := c.s.receiveNet p.spkg.toNat p.sfunc.toNat p.dfunc.toNat p.mbox.toNat p.payload
    match ans with
    | .accept => { c with s := { s with handle := id + 1, acts := c.network p }, G := (c.G.addOp 3 id).endOp id }.retire
    | .refuseFull =>
      if f.sub = 1 then
        let op : NetOp := { g := c.g, sp := c.sp, fn := c.G.fn, wait := true, packet := p }
        { c with s := { s with handle := id + 1, nets := s.nets.put id op }, G := c.G.addOp 3 id }.waitFor (.net id)
      else c.fault 0x0B
    | .refuseDenied => c.fault 0x04
  else if !c.s.reachable p.dpkg.toNat then c.fault 0x04
  else
    let op : NetOp := { g := c.g, sp := c.sp, fn := c.G.fn, wait := f.sub == 1, packet := p }
    { c with
      s := { c.s with handle := id + 1, nets := c.s.nets.put id op, outbox := c.s.outbox ++ [p] }
      G := c.G.addOp 3 id }.waitFor (.net id)

/-- netsend. A packet for another package waits until the Umermash block is ready (24 R368). -/
def execNetsend (f : Sys) (s : State) : Outcome :=
  s.issue fun c => c.outsideExit <|
    let h := c.sreg f.dst.sNum
    if h.field 63 48 ≠ 0 ∨ h.field 39 23 ≠ 0 ∨ h.field 15 12 ≠ 0 then c.fault 0x04
    else if 63 ≤ c.G.k 3 then c.waitFor (.counter 3)
    else if h.field 47 40 ≠ c.s.umid ∧ (c.s.reg 0x70000).field 40 40 = 0 then c.waitFor .memory
    else c.commit fun c => c.netSend f

/-- A send is over: its counter is lowered, and the split goes on as `k` says. -/
def State.endSend (s : State) (id : Nat) (o : NetOp) (k : Cx → State) : State :=
  let s := { s with nets := s.nets.erase id }
  s.onKept o.g o.sp fun c =>
    if c.P.wait = some (.net id) then k { c with G := c.G.endOp id, P := { c.P with wait := none } } else c.s

/-- The response to a send: accepted, sent again, MBXFULL, or PROT. -/
def State.netAnswer (s : State) (id : Nat) (o : NetOp) (ans : NetAnswer) : State :=
  match ans with
  | .refuseFull => if o.wait then { s with outbox := s.outbox ++ [o.packet] } else s.endSend id o fun c => c.fault 0x0B
  | .refuseDenied => s.endSend id o fun c => c.fault 0x04
  | .accept => s.endSend id o Cx.retire

/-- The send goes to the package itself and is performed by it. -/
def NetOp.stays (o : NetOp) (s : State) : Bool := o.packet.dpkg.toNat == s.umid

def execNetsendResponse (id : Nat) (ans : NetAnswer) (s : State) : Outcome :=
  .next <|
    match s.nets.find? id with
    | none => s
    | some o => if o.stays s then s else s.netAnswer id o ans

/-- An mbsend finds its mailbox full, and nothing else against it. -/
def Cx.sendWaits (c : Cx) (f : Sys) : Bool :=
  let h := c.sreg f.dst.sNum
  let r := receiver h c.G.fn
  c.s.fnEnabled r && (c.peek h).any fun b =>
    b.on && (r == c.G.fn || (b.granted && c.s.grants r c.G.fn)) && decide (b.depth ≤ b.count)

/-- A waiting send to a mailbox of the package: an mbsend is tried again once it no longer waits, a netsend is sent again. -/
def execMbsendRoom (g sp : Nat) (s : State) : Outcome :=
  match s.cx? g sp with
  | some c =>
    match c.P.wait with
    | some (.net id) =>
      match s.nets.find? id with
      | some o =>
        if o.stays s then
          let p := o.packet
          let (t, ans) := s.receiveNet p.spkg.toNat p.sfunc.toNat p.dfunc.toNat p.mbox.toNat p.payload
          let t := if ans = .accept then { t with acts := c.network p } else t
          .next (if ans = .refuseFull then s else t.netAnswer id o ans)
        else .next s
      | none => .next s
    | _ => s.wake g sp (· == .mbsend) fun c =>
      match c.instr? with
      | some (.mbsend f) => !c.sendWaits f
      | _ => false
  | none => .next s

/-! ### Queries -/

def execQuotaq (f : Sys) (s : State) : Outcome :=
  s.issue fun c =>
    let agent := (c.s.launchOf c.G).agent
    let e := c.s.ffield c.G.fn 0xC50 47 0 + 16 * agent
    let quota := (c.s.rawWord e).field 31 0
    let charged := (c.s.rawWord (e + 8)).field 31 0
    c.scalarWord f.dst <| BitVec.ofNat 64 <|
      match f.imm.toNat with
      | 0 => agent
      | 1 => quota
      | 2 => charged
      | _ => quota - charged

/-- Cycle counts are free values (log 4, 16). -/
def execCycq (f : Sys) (s : State) : Outcome :=
  s.issue fun c =>
    let free := fun (c : Cx) => { c with s := { c.s with tick := c.s.tick + 1 } }.scalarWord f.dst (Config.freeValue c.s.tick)
    match f.imm.toNat with
    | 0 => free c
    | 1 => c.scalarWord f.dst (BitVec.ofNat 64 c.G.sels)
    | _ => if c.P.rstate = 1 then free c else c.scalarWord f.dst (BitVec.allOnes 64)

/-- Capability register n (16 R267). -/
def Fuse.cap (f : Fuse) (n : Nat) : Nat :=
  let cl := f.clusterCount
  match n with
  | 0 => 9 * 2 ^ 48 + f.step * 2 ^ 40
  | 1 => 4 * cl * 2 ^ 32 + 2 * cl * 2 ^ 16 + cl
  | 2 => 128 * 2 ^ 48 + 96 * 2 ^ 32 + 8 * f.quarters * (4 * cl) * 2 ^ 16 + f.quarters
  | 3 => 393216 * 2 ^ 32 + 64 * 2 ^ 16 + 1200
  | 4 => 24 * 2 ^ 8 + 2
  | 5 => 256 * 2 ^ 32 + 128 * 2 ^ 16 + 96
  | n =>
    if 8 ≤ n ∧ n < 16 then f.banks.getD (n - 8) 0 * 2 ^ 40 + f.dieClusters (n - 8) * 2 ^ 32 + f.clusters.getD (n - 8) 0
    else if 16 ≤ n ∧ n < 28 then
      64 * 2 ^ 56 + 1536 * f.channels.getD (n - 16) 0 * 2 ^ 16 + f.channels.getD (n - 16) 0
    else 0

def execCapq (f : Sys) (s : State) : Outcome :=
  s.issue fun c =>
    let l := c.s.launchOf c.G
    let n := f.imm.toNat
    c.scalarWord f.dst <|
      if n < 64 then BitVec.ofNat 64 (c.s.fuse.cap n)
      else if n = 64 then BitVec.ofNat 64 c.G.fn
      else if n = 65 then BitVec.ofNat 64 c.G.save
      else if n = 66 then BitVec.ofNat 64 (if c.G.save = 0 then 0 else c.G.save + 0x400 + 0xC400 * c.sp)
      else if n = 67 then BitVec.ofNat 64 l.lid
      else l.gp.get 0 (n - 128)

end Sys2Proof.Machine
end

