-- ==== Sys2Proof/Machine/Preempt.lean ====
section
/-!
DEFINITION. Pre-emption: the vectoring of splits into their exit routines (09 R221 to R227), checkpoint closes (19 R305),
PREQ, PRESUME and ROLLDONE (19 R313 to R315), restoration (01 R17, R28; 09 R228; 19 R310), and the rotation of a time-slice
group (21 R335 to R337).
-/

namespace Sys2Proof.Machine

/-! ### Vectoring -/

/-- An instruction that waits, in which a pre-emption finds the split interrupted inside its region (08 R212; 15 R255). -/
def Wait.interruptible : Wait → Bool
  | .rendezvous _ => true
  | .ringPut => true
  | .ringTake => true
  | .kwait => true
  | .copyRoom => true
  | .matrixRoom => true
  | .scallRoom => true
  | .cpop => true
  | .cpush => true
  | .cjoin => true
  | .mbsend => true
  | .mbrecv => true
  | .lpnext => true
  | .copyCheck => true
  | .held => true
  | .faultQueue _ => true
  | _ => false

/-- A fault not yet taken by a handler, which counts as an interruption (09 R231). -/
def State.untaken (s : State) (f : Nat) (p : FaultPark) : Bool :=
  [0x05, 0x06, 0x0A, 0x0B, 0x11].contains p.info.code &&
    match p.queued with
    | some i => decide (ringCount i (s.ffield f 0xC18 63 32) < 2 ^ 31)
    | none => true

/-- Whether a request reaches the split where it stands. -/
def Split.reachable (P : Split) : Bool :=
  match P.wait with
  | some w => w.interruptible
  | none =>
    match P.clause with
    | some cl => !cl.begun
    | none => true

/-- The header whose marker opens the region the split is in: its PC names a marker's header, or it has entered one. -/
def Cx.regionHeader (c : Cx) : Nat :=
  let boundary := match c.P.clause with
    | some cl => !cl.begun
    | none => true
  match c.s.fetchWord c.G.fn (some (c.s.launchOf c.G).since) 1 (c.P.pc + 8) .exec with
  | .ok w => if boundary && isMarker w then c.P.pc else c.P.region
  | .fault _ _ _ => c.P.region

/-- Vector the split into the exit routine of the region that a header opens. Where its marker or descriptor can no longer be
fetched, or fails its checks, the split raises XFLT (log 77). -/
def Cx.vectorTo (c : Cx) (hdr : Nat) : State :=
  match c.fetch hdr with
  | .fault _ _ _ => c.exitFailure 0x0E
  | .ok k =>
    let at_ := descAddr hdr (k.words.headD 0)
    if !(k.words.head?.any isMarker) || !descOk c.G.vregs at_ k.desc then c.exitFailure 0x0E
    else
      let c := { c with P := { c.P with region := hdr, parked := none } }.writeEntry c.P.pc 0
      let P := { c.P with
        rstate := 1, pc := descExit k.desc, active := c.P.member, savedActive := some c.P.active, exitDesc := k.desc
        closed := false, covered := [], stcFrom := 0, reads := [], clause := none, wait := none, stalled := false, passed := 0
        yielding := false, yieldTo := [] }
      { c with P := P, G := { c.G.unyield c.sp with fresh := false } }.flush

/-- Vector the split into the exit routine of its region. An irrevocable instruction has closed the region it was in: only a
marker at its PC opens one, and without it the split raises ILLCLAUSE there (09 R220). -/
def Cx.vectorOut (c : Cx) : State :=
  let c := c.settle
  if c.fetchHeld c.P.pc || c.fetchHeld c.P.region then c.s
  else if !c.P.closed then c.vectorTo c.regionHeader
  else match c.fetch c.P.pc with
    | .fault code a acc => c.fetched.headerFault code a acc
    | .ok k => if k.words.head?.any isMarker then c.fetched.vectorTo c.P.pc else c.fetched.headerFault 0x02 0 0

/-- The split is saved where it is, without an exit routine. -/
def Cx.saveHere (c : Cx) (pc rstate : Nat) : State :=
  let c := c.writeEntry pc rstate
  { c with P := { c.P with pc := pc, saved := true, clause := if c.P.parked.isSome || c.P.wonly then c.P.clause else none } }.flush

/-- A split in its entry routine is saved to start it again. -/
def Cx.saveEntry (c : Cx) : State :=
  let c := c.settle
  { c with P := { c.P with parked := none, wait := none, restart := true } }.saveHere (descEntry c.P.exitDesc) 2

/-- The treatment of one split (09 R221), once the gang's counters are zero (01 R28). -/
def Cx.preempt (c : Cx) : State :=
  if c.P.saved || c.P.rstate == 1 || !c.G.ops.isEmpty || c.s.pstat c.G.fn != 2 then c.s
  else if c.P.wonly ∨ c.P.member = 0 then c.saveHere c.P.pc c.P.rstate
  else match c.P.parked with
    | some (.call _) => c.saveHere c.P.pc 3
    | some (.fault p) =>
      if c.s.untaken c.G.fn p && !c.P.closed then
        if c.P.rstate = 2 then c.saveEntry else c.vectorOut
      else c.saveHere c.P.pc 3
    | none =>
      if !c.P.reachable then c.s
      else if c.P.rstate = 2 then c.saveEntry
      else c.vectorOut

def execPreemptVectorExit (g sp : Nat) (s : State) : Outcome :=
  .next <|
    match s.gangs.find? g with
    | some G => if s.cur = some (g, sp) then s else (s.onSplit g sp Cx.preempt).leave G.fn
    | none => s

/-- The gang overruns its exit bound (09 R225). -/
def execExitBoundOverrun (g : Nat) (s : State) : Outcome :=
  .next <|
    match s.gangs.find? g with
    | some G =>
      match (Store.keep G.splits fun _ P => P.rstate == 1).keys.head? with
      | some sp => s.onSplit g sp fun c => c.exitFailure 0x0D
      | none => s
    | none => s

/-! ### Checkpoint closes -/

/-- A close may begin: none is under way, no exit routine runs, the partition is on its cores. -/
def State.closable (s : State) (f : Nat) : Bool :=
  s.hasLog f && !s.inExit f && !s.stopped f && decide (s.pstat f < 3)

/-- A close that an event asks for is due: one was deferred, the log is short, or running gangs have no checkpoint. -/
def State.closeDue (s : State) (f : Nat) : Bool :=
  (s.fn f).ckDue || ((s.fn f).ckpt.isNone && !(s.gangsOf f).isEmpty)

/-- A close: at once if nothing is in progress. -/
def State.closeNow (s : State) (f : Nat) : State :=
  if s.closeWaits f then s.startClose f else ((s.closing f).mark f).closed f

/-- The pre-emption of a partition: by rollback if PMODE says so or a gang has no save block; without a checkpoint to return
to, its launches end (19 R308). A close under way comes first (19 R314). -/
def State.preempt (s : State) (f : Nat) : State :=
  let gangs := s.gangsOf f
  if s.pstat f ≠ 0 ∧ s.pstat f ≠ 1 then s
  else if s.stopped f then s.modFn f fun x => { x with preqDue := true }
  else if s.ffield f 0xB28 32 32 = 1 ∨ gangs.any (fun q => q.2.save == 0) then
    if s.hasLog f ∧ (s.fn f).ckpt.isSome then s.rollback f true
    else (s.endAll f 4 0 0).putAside f {}
  else (s.setPstat f 2).leave f

/-- An instruction or a gang's end of the partition performs at the close, or is to. -/
def State.joined (s : State) (f : Nat) : Bool :=
  (s.gangsOf f).any fun q => s.cur.any (fun r => r.1 == q.1) || s.gangOver q.1 q.2
    || q.2.splits.any fun r => r.2.wait == some .checkpoint

/-- The close is over; what met it follows. -/
def State.endClose (s : State) (f : Nat) : State :=
  let x := s.fn f
  let s := (s.modFn f fun x => { x with close := .none, preqDue := false, rollDue := none }).closed f
  match x.rollDue with
  | some (code, addr) => s.rollbackFor f code addr
  | none => if x.preqDue then s.preempt f else s

/-- A close that waited appends its mark, lets the instructions that joined it perform, and ends; one that is due begins. -/
def execCheckpointClose (f : Nat) (s : State) : Outcome :=
  .next <|
    match (s.fn f).close with
    | .waiting => if s.closeWaits f then s else (s.mark f).modFn f fun x => { x with close := .performing }
    | .performing => if s.joined f then s else s.endClose f
    | .none => if s.closable f && s.closeDue f then s.closeNow f else s

/-- A periodic close; in an exit routine it is deferred. -/
def execCkperiodExpiry (f : Nat) (s : State) : Outcome :=
  .next <|
    if s.ffield f 0xB20 31 0 = 0 ∨ !s.hasLog f ∨ s.stopped f then s
    else if s.closable f then s.closeNow f
    else s.modFn f fun x => { x with ckDue := true }

/-! ### PREQ -/

/-- The member does not hold its group's clusters (21 R337). -/
def State.offTurn (s : State) (f : Nat) : Bool := s.tsGroup f != 0 && s.holder (s.tsGroup f) != f

def execPreq (f : Nat) (s : State) : Outcome :=
  .next <|
    if s.offTurn f ∧ (s.gangsOf f).isEmpty then s
    else s.preempt f

/-! ### Service calls that have been answered (09 R236) -/

/-- A lane's result word j. -/
def CallPark.word (p : CallPark) (lane j : Nat) : Lane32 :=
  match List.find? (fun (a : CallAnswer) => a.lane == lane) p.answers with
  | some a => a.words.getD j 0
  | none => 0

/-- Every lane has been answered: results and status are written, and the split goes on at the next clause. -/
def Cx.finishCall (c : Cx) (p : CallPark) : State :=
  let lanes := p.tags.map (·.1)
  let c := lanes.foldl (fun c l => (List.range p.results).foldl (fun (c : Cx) j => c.setV (p.dst + j) l (p.word l j)) c) c
  let ok := maskOfList ((p.answers.filter fun a => a.status == 0).map (·.lane))
  let c := c.setP p.pred ok (maskOfList lanes)
  { c with P := { c.P with parked := none } }.retire

/-- A restored split whose call has been answered goes on. -/
def Cx.finishIfAnswered (c : Cx) : State :=
  match c.P.parked with
  | some (.call p) => if p.waiting = 0 then { c.finishCall p with cur := c.s.cur } else c.s
  | _ => c.s

/-! ### Restoration -/

def lanesWithin (m : Mask) (l : Nat) : Bool := m.getLsbD l

/-- A saved split on restoration (09 R228): one saved for it starts its entry routine, the others are as they were. -/
def Split.restored (P : Split) (args : Word) : Split :=
  let Q := { P with saved := false, restart := false, stalled := true, late := [] }
  if P.restart then
    { Q with s := Store.set 0 [] 1 args, active := P.member, clause := none, wait := none, stalled := false, closed := false, stcFrom := 0, reads := [] }
  else Q

/-- A gang saved by its exit routines. -/
def Gang.restored (G : Gang) (args : Word) : Gang :=
  let m := G.splits.foldl (fun (m : Mask) q => if q.2.restart then m ||| q.2.member else m) 0
  { G with
    splits := Store.mapVals G.splits fun _ P => P.restored args
    v := Store.keep G.v fun k _ => !lanesWithin m (k % 96)
    p := (List.range 7).foldl (fun (p : Store Mask) i => Store.set 0 p (i + 1) (Store.get 0 G.p (i + 1) &&& ~~~m)) [] }

/-- What the gang's placement changes; the restoration acquires every earlier write (09 R229; 19 R311). -/
def Gang.reseat (G : Gang) (die cluster : Nat) (seat : Seat) (turn now : Nat) : Gang :=
  { G with
    die := die, cluster := cluster, seat := seat, sels := 0, lastSel := turn, born := now, merged := [], ro := [], acquired := []
    roFrom := (List.range 96).foldl (fun m l => Store.set 0 m l now) [] }

/-- What a saved team asks of a place: its window on the same lines, its gangs on the pairs whose tiles they hold. -/
def Saved.want (x : Saved) (fe f tid : Nat) (t : Team) : Want :=
  let gangs := x.gangs.filter fun q => q.2.team == tid
  { fe := fe, fn := f, roles := gangs.map fun q => q.2.role, tiles := t.tiles, window := t.window
    fixed := some (t.die, t.colour, t.line)
    pairs := if t.tiles = 0 then [] else gangs.map fun q => q.2.seat.core / 2 }

/-- A tile's key on the pair of the same half of another cluster. -/
def moveTile (cluster k : Nat) : Nat :=
  let pair := k / (64 * 1025) % 512
  tileKey (tileTeam k) (2 * cluster + pair % 2) 0 0 + k % (64 * 1025)

/-- Bytes of a window put back. -/
def putWindow (m : List Host.Cell) (base n : Nat) (bytes : List (Nat × Byte)) : List Host.Cell :=
  bytes.foldl (fun m q => Store.set Memory.unlisted m (base + q.1) q.2)
    (m.filter fun q => decide (q.1 < base) || decide (base + n ≤ q.1))

/-- One saved team takes its place. -/
def State.restoreTeam (s : State) (f : Nat) (x : Saved) (tid : Nat) (t : Team) (p : Place) : Option State :=
  let l := (s.launches.find? t.launch).getD {}
  let want := x.want l.fe f tid t
  if s.placeOk want p then
    let die := s.fuse.dieOf p.cluster
    let t' := { t with die := die, cluster := p.cluster }
    let gangs : Store Gang := x.gangs.filter fun q => q.2.team == tid
    let seated := gangs.zipIdx.foldl (fun (m : Store Gang) q =>
      let G := q.1.2.reseat die p.cluster (p.seats.getD q.2 ⟨0, 0, 0⟩) s.turn s.order.length
      let G := if x.hardware then { G with splits := Store.mapVals G.splits fun _ P => { P with saved := false, stalled := true } }
        else G.restored l.args
      m.put q.1.1 G) s.gangs
    let base := teamWindowKey (s.fuse.colourBytes die) t'
    let bytes := ((List.find? (fun (q : Nat × List (Nat × Byte)) => q.1 == tid) x.mortar).map (·.2)).getD []
    let tiles : Store Lane32 := x.tiles.filter fun q => tileTeam q.1 == tid
    some { s with
      teams := s.teams.put tid t'
      gangs := seated
      tiles := tiles.foldl (fun (m : Store Lane32) q => m.put (moveTile p.cluster q.1) q.2) s.tiles
      mem := if t.window = 0 then s.mem else putWindow s.mem base t.window bytes }
  else none

/-- The teams take the places given, in order; without places, those the default order finds. -/
def State.restoreTeams (s : State) (f : Nat) (x : Saved) : List (Nat × Team) → List Place → Option State
  | [], _ => some s
  | (tid, t) :: rest, p :: ps => (s.restoreTeam f x tid t p).bind fun s => s.restoreTeams f x rest ps
  | (tid, t) :: rest, [] =>
    match s.findPlace (x.want ((s.launches.find? t.launch).getD {}).fe f tid t) with
    | some p => (s.restoreTeam f x tid t p).bind fun s => s.restoreTeams f x rest []
    | none => none

/-- A saved move whose bytes another package still owes is asked for again. -/
def MoveSrc.again : MoveSrc → MoveSrc
  | .wait _ k => .key k
  | m => m

/-- The recorded operations are issued again (19 R310). -/
def State.reissue (s : State) (x : Saved) : State :=
  let on := fun (s : State) g (k : Cx → State) =>
    match s.gangs.find? g with
    | some G => k ⟨s, g, 0, G, {}⟩
    | none => s
  let s := x.copies.foldl (fun s q => on s q.2.g fun c =>
    let (c, ms) := c.askMoves q.1 (q.2.moves.map fun m => { m with src := m.src.again })
    { c.s with copies := c.s.copies.put q.1 { q.2 with cluster := c.G.cluster, moves := ms } }) s
  let s := x.mats.foldl (fun s q => on s q.2.g fun c =>
    let (c, a) := c.askRows q.1 (q.2.rowsA.map fun r => { r with src := r.src.again })
    let (c, b) := c.askRows q.1 (q.2.rowsB.map fun r => { r with src := r.src.again })
    let o : MatOp := { q.2 with pair := 2 * c.G.cluster + q.2.pair % 2, rowsA := a, rowsB := b, started := false, since := c.s.order.length }
    { c.s with mats := c.s.mats.put q.1 o }) s
  let s := { s with gathers := x.gathers.foldl (fun (m : Store GatherOp) q => m.put q.1 q.2) s.gathers }
  x.remotes.foldl (fun s r =>
    let p := s.request r.packet.sfunc.toNat r.packet.kind.toNat r.key r.packet.mbox.toNat r.packet.payload
    s.ask { r with tag := p.tag.toNat, packet := p }) s

/-- Operations that still run, by which a restored gang's counters start (19 R310). -/
def State.keepOps (s : State) (G : Gang) : Gang :=
  let runs := fun id => (s.copies.find? id).isSome || (s.mats.find? id).isSome || (s.gathers.find? id).isSome
    || (s.hods.find? id).isSome || (s.nets.find? id).isSome
  { G with ops := G.ops.filter fun q => runs q.2.2 }

/-- Of a tile: its elements and its tag. -/
def State.loadTile (s : State) (f : Nat) (cls : List Nat) (tiles : Store Lane32) (n : Nat) : Store Lane32 :=
  let pair := n / 64 % 512
  let at_ := s.pairPlace f cls pair + 4096 * (n % 64)
  let m := (List.range 1024).foldl (fun (m : Store Lane32) i => m.put (n * 1025 + i) (BitVec.ofNat 32 (s.rawRead (at_ + 4 * i) 4))) tiles
  m.put (n * 1025 + 1024) (BitVec.ofNat 32 (s.rawRead (s.tagPlace f cls pair + n % 64) 1))

/-- What a slot holds beside a gang's registers: its flags, the operations to reissue, its team's state. -/
def State.loadExtra (s : State) (f : Nat) (x : Saved) (G : Gang) : Gang × List Nat × List Word :=
  let at_ := s.slotPlace f x.clusters G.cluster G.seat + 0xCD00
  let n := min 192 (s.rawWord (at_ + 16)).toNat
  ({ G with flags := flagsOf (s.rawWord at_), ap := flagsOf (s.rawWord (at_ + 8)) }
  , (s.rawWords (at_ + 24) n).map (·.toNat), s.rawWords (at_ + 24 + 8 * n) 192)

/-- What is restored: of a full save, what the region holds. A team is as its first gang's slot holds it; an operation is reissued
if its gang's slot names it. -/
def State.loadSaved (s : State) (f : Nat) : Saved :=
  let x := (s.fn f).saved.getD {}
  let ops := x.gangs.flatMap fun q => (s.loadExtra f x q.2).2.1
  let team := fun (t : Nat) (T : Team) =>
    match List.find? (fun (q : Nat × Gang) => q.2.team == t) x.gangs with
    | some q => T.ofWords (s.loadExtra f x q.2).2.2
    | none => T
  if x.hardware then
    { x with
      gangs := Store.mapVals x.gangs fun _ G => s.loadGang f x.clusters (s.loadExtra f x G).1
      teams := Store.mapVals x.teams team
      copies := x.copies.filter fun q => ops.contains q.1
      mats := x.mats.filter fun q => ops.contains q.1
      gathers := x.gathers.filter fun q => ops.contains q.1
      tiles := (tilesHeld x.gangs x.teams).foldl (s.loadTile f x.clusters) x.tiles }
  else x

/-- Restore a saved partition, if places for all of it are free. -/
def State.restore (s : State) (f : Nat) (places : List Place) : State :=
  if s.pstat f ≠ 4 then s
  else
    let x := s.loadSaved f
    match s.restoreTeams f x x.teams places with
    | none => s
    | some t =>
      let t := t.reissue x
      let ids := x.gangs.keys
      let t := { t with gangs := Store.mapVals t.gangs fun g G => if ids.contains g then t.keepOps G else G }
      let t := (t.modFn f fun y => { y with saved := none, turnedOut := false }).recount
      -- pending spawns are accepted before any split of the gang issues (01 R17); answered calls go on
      let each := fun (t : State) (k : Cx → State) =>
        x.gangs.foldl (fun t q => q.2.splits.keys.foldl (fun t sp => t.onSplit q.1 sp k) t) t
      let t := each t fun c => if c.P.spawning.isEmpty then c.s else c.accepted
      (((each t Cx.finishIfAnswered).setPstat f 5).setPstat f 0)

/-- PRESUME; a member that does not hold its group's clusters is placed when its turn comes (21 R336). -/
def execPresume (f : Nat) (places : List Place) (s : State) : Outcome :=
  .next <|
    if s.pstat f = 4 ∧ s.offTurn f then s.modFn f fun x => { x with turnedOut := true } else s.restore f places

/-- The host has undone the lines; the device does the rest of the rollback (19 R315). -/
def execRolldone (f : Nat) (s : State) : Outcome :=
  .next <|
    match (s.fn f).ckpt with
    | some k => if (s.fn f).rolling then s.finishRollback f k else s
    | none => s

/-! ### Time-slicing -/

/-- Enabled members of a group, ascending. -/
def State.members (s : State) (grp : Nat) : List Nat :=
  (List.range 97).filter fun f =>
    s.tsGroup f == grp && s.fnEnabled f && ((s.partRecord f).getD 0 0).field 63 63 == 1

/-- A member with a saved partition that the rotation put aside, or a team waiting (21 R336). -/
def State.wantsTurn (s : State) (f : Nat) : Bool :=
  (s.pstat f == 4 && (s.fn f).turnedOut)
    || (s.pstat f == 0 && s.launches.any fun q =>
        q.2.fn == f && s.launchReady q.1 q.2 && q.2.todo.any fun t => (s.consumer q.2 t).1)

/-- The member whose turn comes after `h`, or after the member that left the group's clusters last where none holds them. -/
def State.nextMember (s : State) (grp h : Nat) : Option Nat :=
  let h := if h = 0xFF then Store.get h s.vacated grp else h
  let ms := (s.members grp).filter fun f => f != h && s.wantsTurn f
  ((ms.filter fun f => decide (h < f)) ++ ms).head?

/-- A turn begins. -/
def State.newTurn (s : State) (grp : Nat) : State := { s with turnsUsed := s.turnsUsed.erase grp }

/-- The holder's turn is over: its length has elapsed, its switch has begun, or no member holds the clusters. -/
def State.turnOver (s : State) (grp : Nat) : Bool :=
  let h := s.holder grp
  !(s.members grp).contains h || (s.fn h).turnedOut || decide (s.turnLength h ≤ Store.get 0 s.turnsUsed grp)

/-- The end of a turn: the holder is pre-empted, and once it is saved the next member holds the clusters; where no other
member qualifies, the holder begins a new turn. -/
def State.endTurn (s : State) (grp : Nat) : State :=
  let h := s.holder grp
  let was := (s.members grp).contains h
  match s.nextMember grp h with
  | none =>
    if was && (s.fn h).turnedOut then (if s.pstat h = 4 then (s.restore h []).newTurn grp else s) else s.newTurn grp
  | some f =>
    let s := if was ∧ s.pstat h ≤ 1 then (s.preempt h).modFn h fun x => { x with turnedOut := true } else s
    if was ∧ s.pstat h ≠ 4 then s
    else
      let s := (s.setReg (0x42000 + 8 * grp) ((s.reg (0x42000 + 8 * grp)).put 31 24 f)).newTurn grp
      if s.pstat f = 4 then s.restore f [] else s

def execTimesliceTurnEnd (grp : Nat) (s : State) : Outcome :=
  .next (if grp = 0 ∨ 31 < grp ∨ !s.turnOver grp then s else s.endTurn grp)

end Sys2Proof.Machine
end

