-- ==== Sys2Proof/Machine/Service.lean ====
section
/-!
DEFINITION. Fault service and what it needs: FRESUME, the waiting records, the work of the service and scheduler cores (20
R322 to R324), invalidations (20 R320), QREL (20 R325), service completions (09 R235; 15 R256), soft errors (20 R327).
-/

namespace Sys2Proof.Machine

/-! ### Parked splits by token (20 R322) -/

/-- The split of a function among some gangs that is parked under a token. -/
def parkedIn (gangs : Store Gang) (f token : Nat) : Option (Nat × Nat × FaultPark) :=
  gangs.findSome? fun q =>
    if q.2.fn != f then none
    else q.2.splits.findSome? fun r =>
      match r.2.parked with
      | some (.fault p) => if p.token == token then some (q.1, r.1, p) else none
      | _ => none

/-- The parked split that a token names: on its core, saved, or in the checkpoint of a rollback that the host completes. -/
def State.parkedAt (s : State) (f token : Nat) : Option (Nat × Nat × FaultPark) :=
  let x := s.fn f
  (parkedIn s.gangs f token).or <|
    (x.saved.bind fun y => parkedIn y.gangs f token).or <|
      if x.rolling || !x.undoing.isEmpty then x.ckpt.bind fun y => parkedIn y.gangs f token else none

/-- The launch of the gang that holds a parked split. -/
def State.launchKept (s : State) (g : Nat) : Nat :=
  match s.gangs.find? g, s.keeper g with
  | some G, _ => G.launch
  | none, some (_, x) =>
    match (x.saved.bind fun y => y.gangs.find? g).or (x.ckpt.bind fun y => y.gangs.find? g) with
    | some G => G.launch
    | none => 0
  | none, none => 0

/-- The instruction of a memory form that the split stands at. -/
def Cx.atomicForm? (c : Cx) : Option Mem :=
  match c.instr? with
  | some (.atadd f) | some (.atmin f) | some (.atmax f) | some (.atand f) | some (.ator f) | some (.atxor f)
  | some (.atswp f) | some (.atcas f) => some f
  | _ => none

/-- Lane of an extension record. -/
def extLane (x : List Word) : Nat := (x.getD 0 0).field 38 32

/-- Resume the split a token names (09 R230); an ATOMNS split first takes its lanes' old values, and
then acquires if its KIND says so (07 R171). -/
def State.resumeParked (s : State) (g sp token : Nat) (olds : List (Nat × Nat)) : State :=
  s.onKept g sp fun c =>
    match c.P.parked with
    | some (.fault p) =>
      if p.token ≠ token then c.s
      else
        let c := match c.atomicForm? with
          | some f =>
            let c := olds.foldl (fun (c : Cx) (q : Nat × Nat) => c.deliver (loadWrites f.data f.ty q.1 (q.2 % 2 ^ (8 * f.ty.size)))) c
            if olds.isEmpty || !acquires f then c
            else p.info.exts.foldl (fun (c : Cx) (x : List Word) => c.acquireOf (x.getD 1 0).toNat 5 c.s.order.length (maskOfList [extLane x])) c
          | none => c
        c.returnFault p.info
    | _ => c.s

/-- What word 4 of each extension record in the fault queue holds; a record that cannot be read any more leaves a free value. -/
def State.extOlds (s : State) (f : Nat) (p : FaultPark) : List (Nat × Nat) :=
  let base := s.ffield f 0xC08 47 0
  let ring := 64 * 2 ^ (s.ffield f 0xC10 3 0 + 6)
  match p.extAt with
  | none => []
  | some a => p.info.exts.zipIdx.map fun q =>
    let va := base + (a - base + 64 * q.2) % ring
    (extLane q.1, match s.translate f (va + 32) .read with
      | .ok w => s.read f w.key 8
      | .fault _ => (Config.freeValue (s.tick + q.2)).toNat)

/-- FRESUME with a token: a token that names no parked split is dropped and counted. -/
def State.fresume (s : State) (f : Nat) (token : BitVec 32) (k : Nat → Nat → FaultPark → State) : State :=
  if !s.barOpen f then s
  else match s.parkedAt f token.toNat with
  | some (g, sp, p) => k g sp p
  | none => s.count f 0xD20

/-- The operation that an extension record names (20 R321). -/
def extOp (x : List Word) : AtOp :=
  match (x.getD 0 0).field 63 56 with
  | 0 => .add
  | 1 => .swap
  | 2 => .cas
  | _ => .ofCode ((x.getD 0 0).field 55 46)

/-- The atomic at which a split stands, which names its type: on its core, saved or in a checkpoint. -/
def State.atomicAt (s : State) (g sp : Nat) : Option Mem :=
  match s.cx? g sp with
  | some c => c.atomicForm?
  | none =>
    match s.keeper g with
    | none => none
    | some (_, x) =>
      let gangs := match x.saved, x.ckpt with
        | some y, _ => y.gangs
        | none, some y => y.gangs
        | none, none => []
      match (gangs.find? g).bind fun G => (G.splits.find? sp).map fun P => (⟨s, g, sp, G, P⟩ : Cx) with
      | some c => c.atomicForm?
      | none => none

/-- What the host's own operation on a lane's location left there, from the old value it reports: its result. Where the location has
another value by now, the two operations have met, and whether the host's write stays is a free choice (14 R254; log 78). -/
def State.hostDid (s : State) (f : Nat) (t : ETy) (x : List Word) (old : Nat) : State :=
  let op := extOp x
  let v := (x.getD 2 0).toNat % 2 ^ (8 * t.size)
  let old := old % 2 ^ (8 * t.size)
  match s.translate f (x.getD 1 0).toNat .atomic with
  | .fault _ => s
  | .ok w =>
    if op = .cas ∧ old ≠ v ∨ (s.read f w.key t.size ≠ old ∧ (Config.freeValue s.tick).toNat % 2 = 1) then s
    else s.store f w.key (bytesOf t.size (op.new t old v (x.getD 3 0).toNat)) true

def execFresumeResume (f : Nat) (token : BitVec 32) (s : State) : Outcome :=
  .next <| s.fresume f token fun g sp p =>
    let olds := if p.info.code = 0x0C then s.extOlds f p else []
    let t := match s.atomicAt g sp with
      | some m => (p.info.exts.zip olds).foldl (fun (s : State) (q : List Word × Nat × Nat) =>
          { s.hostDid f m.ty q.1 q.2.2 with tick := s.tick + 1 }) { s with tick := s.tick + olds.length }
      | none => { s with tick := s.tick + olds.length }
    t.resumeParked g sp p.token olds

def execFresumeEndLaunch (f : Nat) (token : BitVec 32) (s : State) : Outcome :=
  .next <| s.fresume f token fun g _ p => s.endLaunch (s.launchKept g) 3 p.info.code p.logAt

/-- Records that wait for the fault queue of a function are written if they can be now. -/
def execFaultQueueRetry (f : Nat) (s : State) : Outcome :=
  .next <|
    let waits := (s.gangsOf f).flatMap fun q => (Store.keep q.2.splits fun _ P =>
      P.parked.isNone && (match P.wait with | some (.faultQueue _) => true | _ => false)).keys.map fun sp => (q.1, sp)
    let t := waits.foldl (fun s q => s.retry q.1 q.2) s
    let t := if f ≠ 0 then t else
      match t.qcbWaiting with
      | [] => t
      | ws :: rest =>
        match t.queueFault 0 [ws] with
        | some (u, _, _) => { u with qcbWaiting := rest }
        | none => t
    { t with cur := s.cur.filter fun q => (t.cx? q.1 q.2).any fun c => c.P.parked.isNone && c.P.wait.isNone }

/-! ### Service in hardware (20 R323, R324) -/

/-- A serviced split: the fault is the device's to service. -/
def State.inHardware (s : State) (f : Nat) (token : BitVec 32) (codes : List Nat) (k : Nat → Nat → FaultPark → State) : State :=
  match s.parkedAt f token.toNat with
  | some (g, sp, p) => if p.hardware && codes.contains p.info.code then k g sp p else s
  | none => s

/-- Send a serviced fault to the fault queue after all. -/
def State.toQueue (s : State) (f g sp : Nat) (p : FaultPark) : State :=
  let lid := ((s.launches.find? (s.launchKept g)).getD {}).lid
  let slot := match s.gangs.find? g with
    | some G => G.slotNumber
    | none => 0
  match s.queueFault f (recordWords f lid slot sp p.token true true p.info :: p.info.exts) with
  | none => s
  | some (t, n, e) => t.onKept g sp fun c =>
      match c.P.parked with
      | some (.fault q) =>
        if q.token ≠ p.token then c.s
        else { c with P := { c.P with parked := some (.fault { q with hardware := false, queued := some n, extAt := some e }) } }.flush
      | _ => c.s

/-- A demand-zero page: the top of the pool, zeroed, mapped with V, R and W, and Q as the entry has it. A page mapped since
is resumed at once; with an empty pool the record goes to the fault queue. -/
def execDemandZeroService (f : Nat) (token : BitVec 32) (s : State) : Outcome :=
  .next <| s.inHardware f token [0x05] fun g sp p =>
    let n := s.ffield f 0xC68 31 0
    match s.demandZero f p.info.addr with
    | none => s.resumeParked g sp p.token []
    | some leaf =>
      if n = 0 then s.toQueue f g sp p
      else
        let page := (s.rawWord (s.ffield f 0xC60 47 0 + 8 * (n - 1))).toNat / 4096 * 4096 % 2 ^ 48
        let t := s.setFreg f 0xC68 ((s.freg f 0xC68).put 31 0 (n - 1))
        let t := t.rawWrite page (List.replicate 4096 0)
        let t := { t with poison := Store.keep t.poison fun x _ => !(decide (page ≤ 32 * x) && decide (32 * x < page + 4096)) }
        let t := t.plainWord f leaf (BitVec.ofNat 64 (page + (s.rawWord leaf).field 11 11 * 2 ^ 11 + 7))
        t.resumeParked g sp p.token []

/-- Perform an extension record's operation on its host line, owned: the state, the old value. -/
def State.performExt (s : State) (f : Nat) (t : ETy) (x : List Word) : State × Nat :=
  let op := extOp x
  let v := (x.getD 2 0).toNat
  let new := (x.getD 3 0).toNat
  match s.translate f (x.getD 1 0).toNat .atomic with
  | .fault _ => (s, (Config.freeValue s.tick).toNat)
  | .ok w =>
    let old := s.read f w.key t.size
    if op = .cas ∧ old ≠ v % 2 ^ (8 * t.size) then (s, old)
    else (s.store f w.key (bytesOf t.size (op.new t old v new)) true, old)

/-- The service core completes every failing lane of a host atomic and resumes the split. -/
def execAtomnsDeviceCompletion (f : Nat) (token : BitVec 32) (s : State) : Outcome :=
  .next <| s.inHardware f token [0x0C] fun g sp p =>
    match s.atomicAt g sp with
    | none => s
    | some m =>
      let (t, olds) := p.info.exts.foldl (fun (q : State × List (Nat × Nat)) x =>
        let (s, old) := q.1.performExt f m.ty x
        ({ s with tick := s.tick + 1 }, q.2 ++ [(extLane x, old)])) (s, [])
      t.resumeParked g sp p.token olds

/-- Whether space has freed for a split that failed for want of it. -/
def Cx.spaceFreed (c : Cx) (code : Nat) : Bool :=
  if code = 0x0A then decide (Store.get 0 c.s.spawnUsed c.G.die < 0x400000)
  else match c.instr? with
    | some (.mbsend f) => (c.peek (c.sreg f.dst.sNum)).all fun b => decide (b.count < b.depth)
    | some (.netsend f) =>
      let h := c.sreg f.dst.sNum
      h.field 47 40 != c.s.umid || (c.peek h).all fun b => decide (b.count < b.depth)
    | _ => true

/-- The scheduler core resumes a split whose spawn memory or mailbox has room now. -/
def execSpaceFreedResume (f : Nat) (token : BitVec 32) (s : State) : Outcome :=
  .next <| s.inHardware f token [0x0A, 0x0B] fun g sp p =>
    match s.cx? g sp with
    | some c => if c.spaceFreed p.info.code then s.resumeParked g sp p.token [] else s
    | none => s.resumeParked g sp p.token []

/-! ### Invalidations (20 R320) and quotas (20 R325) -/

/-- An invalidation starts; while one is in progress another is ignored. -/
def State.invalidate (s : State) (f : Nat) : State :=
  if s.ffield f 0xC40 0 0 = 1 ∨ !s.barOpen f then s
  else (s.setFreg f 0xC40 1).modFn f fun x => { x with inval := some s.handle }

def execInvalidatePage (f : Nat) (_va : BitVec 64) (_size : BitVec 2) (s : State) : Outcome := .next (s.invalidate f)
def execInvalidateAll (f : Nat) (s : State) : Outcome := .next (s.invalidate f)

/-- No access of the function that was accepted before handle `n` is still to perform; what a saved partition or a checkpoint
may issue again uses its translations still. -/
def State.performedBefore (s : State) (f n : Nat) : Bool :=
  let later := fun (copies : Store CopyOp) (mats : Store MatOp) (gathers : Store GatherOp) =>
    (copies.keys ++ mats.keys ++ gathers.keys).all fun id => decide (n ≤ id)
  ((s.fn f).saved.all fun x => later x.copies x.mats x.gathers) && ((s.fn f).ckpt.all fun x => later x.copies x.mats x.gathers) &&
  (s.copies.all fun q => q.2.fn != f || decide (n ≤ q.1)) && (s.mats.all fun q => q.2.fn != f || decide (n ≤ q.1))
    && (s.gathers.all fun q => q.2.fn != f || decide (n ≤ q.1)) && (s.hods.all fun q => q.2.fn != f || decide (n ≤ q.1))
    && (s.hostOps.all fun q => q.2.fn != f || decide (n ≤ q.1))
    && s.remotes.all fun r => r.packet.sfunc.toNat != f || r.op.any fun id => decide (n ≤ id)

def execInvalidateComplete (f : Nat) (s : State) : Outcome :=
  .next <|
    match (s.fn f).inval with
    | none => s
    | some n =>
      if s.performedBefore f n then (s.setFreg f 0xC40 0).modFn f fun x => { x with inval := none } else s

def execQrel (f : Nat) (n : BitVec 32) (agent : BitVec 16) (s : State) : Outcome :=
  .next <|
    let e := s.ffield f 0xC50 47 0 + 16 * agent.toNat + 8
    let w := s.rawWord e
    s.plainWord f e (w.put 31 0 (w.field 31 0 - n.toNat))

/-! ### Service completions (09 R235, R236; 15 R256) -/

/-- The lane of a call among some gangs still waits for this record. -/
def CallPark.awaits (p : CallPark) (callid lane : Nat) (tag : Word) : Bool :=
  p.callid % 2 ^ 32 == callid && p.waiting.getLsbD lane && p.tags.contains (lane, tag)

def Gang.awaits (G : Gang) (callid lane : Nat) (tag : Word) : Bool :=
  G.splits.any fun r =>
    match r.2.parked with
    | some (.call p) => p.awaits callid lane tag
    | _ => false

/-- Hold a record with the split it answers. -/
def Gang.answer (G : Gang) (callid : Nat) (tag : Word) (a : CallAnswer) : Gang :=
  { G with splits := Store.mapVals G.splits fun _ P =>
      match P.parked with
      | some (.call p) =>
        if p.awaits callid a.lane tag then
          { P with parked := some (.call { p with waiting := p.waiting &&& ~~~(maskOfList [a.lane]), answers := p.answers ++ [a] }) }
        else P
      | _ => P }

/-- The gangs of a function answered wherever they are kept: on cores, saved, in its checkpoint. -/
def State.answer (s : State) (f callid : Nat) (tag : Word) (a : CallAnswer) : State :=
  let on := fun (gangs : Store Gang) => Store.mapVals gangs fun _ G => if G.fn == f then G.answer callid tag a else G
  let onSaved := fun (y : Saved) => { y with gangs := on y.gangs }
  let onCkpt := fun (y : Ckpt) => { y with gangs := on y.gangs }
  { s with gangs := on s.gangs }.modFn f fun x => { x with saved := x.saved.map onSaved, ckpt := x.ckpt.map onCkpt }

def State.someAwaits (s : State) (f callid lane : Nat) (tag : Word) : Bool :=
  let on := fun (gangs : Store Gang) => gangs.any fun q => q.2.fn == f && q.2.awaits callid lane tag
  let x := s.fn f
  on s.gangs || (x.saved.any fun y => on y.gangs) || ((x.rolling || !x.undoing.isEmpty) && x.ckpt.any fun y => on y.gangs)

/-- Splits on cores whose calls are answered whole go on. -/
def State.finishCalls (s : State) (f : Nat) : State :=
  (s.gangsOf f).foldl (fun s q => q.2.splits.keys.foldl (fun s sp =>
    s.onSplit q.1 sp fun c => if c.P.saved then c.s else c.finishIfAnswered) s) s

/-- One completion record. -/
def State.takeCompletion (s : State) (f key : Nat) : State :=
  let w : Nat → Word := fun i => BitVec.ofNat 64 (s.read f (key + 8 * i) 8)
  let lane := (w 0).field 38 32
  let callid := (w 0).field 31 0
  let res : List Lane32 := (List.range 4).map fun j => BitVec.ofNat 32 (s.read f (key + 16 + 4 * j) 4)
  if (w 0).field 47 39 = 0 ∧ s.someAwaits f callid lane (w 1) then
    s.answer f callid (w 1) { lane := lane, status := (w 0).field 63 48, words := res }
  else s.count f 0xD18

/-- Consume up to `n` records from SCQCI; a slot that cannot be read is logged once and stops the consumption. -/
def State.consumeCompletions (s : State) (f : Nat) : Nat → State
  | 0 => s
  | n + 1 =>
    let ci := s.ffield f 0x820 63 32
    let va := (s.freg f 0x808).toNat + 32 * (ci % 2 ^ (s.ffield f 0x810 7 4 + 6))
    if s.heldVa f va then s
    else match s.translate f va .read with
    | .fault code =>
      if (s.fn f).scqFault = some ci then s
      else (s.logImprecise f 0 code 0 va).modFn f fun x => { x with scqFault := some ci }
    | .ok w =>
      let t := s.takeCompletion f w.key
      let t := t.setFreg f 0x820 ((t.freg f 0x820).put 63 32 ((ci + 1) % 2 ^ 32))
      (t.modFn f fun x => { x with scqFault := none }).consumeCompletions f n

/-- Records the completer has written and the device has not consumed. -/
def State.completions (s : State) (f : Nat) : Nat :=
  ringCount (s.ffield f 0x820 31 0) (s.ffield f 0x820 63 32)

def State.takeCompletions (s : State) (f : Nat) : State := (s.consumeCompletions f (s.completions f)).finishCalls f

def execScqpiWrite (f : Nat) (v : BitVec 32) (s : State) : Outcome :=
  .next (if s.barOpen f then (s.setFreg f 0x820 ((s.freg f 0x820).put 31 0 v.toNat)).takeCompletions f else s)

def execScqSlotRetry (f : Nat) (s : State) : Outcome := .next (s.takeCompletions f)

/-! ### Soft errors (20 R327) -/

def State.poisonSectors (s : State) (unit first n : Nat) : State :=
  { s with poison := (List.range n).foldl (fun p i => if (p.find? (first + i)).isSome then p else p.put (first + i) unit) s.poison }

/-- An operation in a queue of the function is to read a tile. -/
def State.tileRead (s : State) (f n : Nat) : Bool :=
  s.mats.any fun q => q.2.fn == f && q.2.readsTiles.any fun t => tileNumber q.2.team q.2.pair t == n

/-- A corrected error is counted; an uncorrectable one has the effect of its unit; in a tile that an operation is to read, that
operation meets it (06 R145; log 61). -/
def execEccError (e : EccError) (s : State) : Outcome :=
  .next <|
    if e.corrected then s.count e.func 0xD28
    else if e.unit = 6 ∧ s.tileRead e.func e.key then
      { s with badTiles := if s.badTiles.contains e.key then s.badTiles else s.badTiles ++ [e.key] }
    else if e.unit = 5 ∨ e.unit = 6 ∨ e.unit = 7 then
      let at_ := s.logAddr e.func
      (s.logImprecise e.func 0 0x11 e.unit 0).rollbackFor e.func 0x11 at_
    else if e.unit = 8 then s.poisonSectors e.unit (e.key / 128 * 4) 4
    else if e.unit = 9 then s.modFn e.func fun x => { x with logBad := x.ckpt.isSome }
    else s.poisonSectors e.unit (e.key / 32) 1

end Sys2Proof.Machine
end

