-- ==== Sys2Proof/Machine/Fabric.lean ====
section
/-!
DEFINITION. The host ports and the bias of HDM pages (22 R345 to R352; 24 R367), and Umermash: links, packets, export windows,
and the answers to the device's own requests (22 R353 to R359).
-/

namespace Sys2Proof.Machine

/-! ### Host ports -/

/-- The regime of 00 R6: true is the bias regime. -/
def State.biasRegime (s : State) : Bool :=
  let w := s.reg 0x70008
  let pkgs := w.field 10 8
  let trained := s.ports.filter fun p => p == some .pcie || p == some .cxl
  pkgs != 0 && !trained.isEmpty && w.field 12 12 == 0 && trained.all (· == some .cxl) && decide (pkgs ≤ 4)

/-- A port has trained in a mode or is declared absent; once both have trained or one is absent, the regime is fixed (24 R366, R367).
One that has failed can only be absent. -/
def execHostPortTrained (port : Nat) (mode : PortMode) (s : State) : Outcome :=
  .next <|
    if 2 ≤ port ∨ (s.failed.contains (38 + port) ∧ mode ≠ .absent) then s
    else
      let s := { s with ports := s.ports.set port (some mode) }
      let s := if mode = .absent then s else s.setReg 0x70000 ((s.reg 0x70000).put (38 + port) (38 + port) 1)
      let w := s.reg 0x70008
      if w.field 1 1 = 0 ∧ ((s.ports.all fun p => p.isSome) ∨ s.ports.contains (some .absent)) then
        s.setReg 0x70008 ((w.put 1 1 1).put 0 0 (!s.biasRegime).toNat)
      else s

/-- Launches with a request outstanding on a port: a host atomic sent, or an engine operation that is to move bytes of its
memory. -/
def State.onPort (s : State) (port : Nat) : List Nat :=
  let here := fun k => keySpace k == port + 1
  let launch := fun g => match s.gangs.find? g with
    | some G => [G.launch]
    | none => []
  let ops : Store HostOp := s.hostOps.filter fun q => q.2.open_.any fun r => here r.key
  let copies : Store CopyOp := s.copies.filter fun q => q.2.moves.any fun m =>
    here m.dst || (match m.src with | .key k => here k | _ => false)
  let mats : Store MatOp := s.mats.filter fun q => (q.2.rowsA ++ q.2.rowsB).any fun r => match r.src with
    | .key k => here k
    | _ => false
  ops.flatMap (fun q => launch q.2.g) ++ copies.map (fun q => q.2.launch) ++ mats.map fun q => q.2.launch

/-- A link goes down: those launches end with PROT, which is imprecise. -/
def execHostLinkDown (port : Nat) (s : State) : Outcome :=
  .next <|
    let s' := (s.onPort port).foldl (fun (t : State) l =>
      match t.launches.find? l with
      | some x =>
        if x.ended.isSome then t
        else
          let at_ := t.logAddr x.fn
          (t.logImprecise x.fn x.lid 0x04 0 0).endLaunch l 3 0x04 at_
      | none => t) s
    let lost := fun (q : Nat × HostOp) => (s'.gangs.find? q.2.g).isNone && q.2.open_.any fun r => keySpace r.key == port + 1
    { s' with hostOps := s'.hostOps.filter fun q => !lost q }

/-! ### Bias (22 R349 to R351) -/

/-- Pages of the HDM range. -/
def State.hdmPages (s : State) : Nat := (s.reg 0x58010).field 47 0 / 65536

/-- Address of a page's byte of the bias table. -/
def State.biasByte (s : State) (page : Nat) : Nat := (s.reg 0x58000).field 47 0 + page / 8

/-- Device bias. -/
def State.deviceBias (s : State) (page : Nat) : Bool := (s.byte (s.biasByte page)).getLsbD (page % 8)

/-- The flip in progress completes: the losing side is drained, the bit is written and vector 5 is raised. To host bias that is the
device, whose modified bricks of the page are written back and whose copies are dropped, pinned ones too; to device bias the host,
whose bytes lie in memory (log 17). What waited for it is performed apart. -/
def State.completeFlip (s : State) : State :=
  match s.flip with
  | none => s
  | some (page, dev) =>
    let lo := (s.reg 0x58008).field 47 0 + 65536 * page
    let s := if dev then s else s.recall fun b => s.brickMeets b.tag lo 65536
    let at_ := s.biasByte page
    let b := (s.byte at_).toNat
    let new := b - b / 2 ^ (page % 8) % 2 * 2 ^ (page % 8) + dev.toNat * 2 ^ (page % 8)
    ({ s.rawWrite at_ [BitVec.ofNat 8 new] with flip := none }.setReg 0x58020 0).raiseVector 0 5

/-- A flip starts; one of the same page merges with it and the later target wins; another is completed first. -/
def State.startFlip (s : State) (page : Nat) (dev : Bool) : State :=
  match s.flip with
  | some (p, _) => if p = page then { s with flip := some (page, dev) } else { s.completeFlip with flip := some (page, dev) }
  | none => { s with flip := some (page, dev) }

/-- The bias a page has, or is to have once its flip is over. -/
def State.biasTo (s : State) (page : Nat) : Bool :=
  match s.flip with
  | some (p, dev) => if p = page then dev else s.deviceBias page
  | none => s.deviceBias page

/-- A host access to a byte of an HDM page: one in device bias is flipped to host bias first; the access waits for a flip, and while
its bytes are held. -/
def State.hostAccess (s : State) (a : AgentAccess) : State :=
  match s.hdmPage a.addr.toNat with
  | none => s
  | some page =>
    let s := if s.biasTo page then (s.startFlip page false).setReg 0x58028 (s.reg 0x58028 + 1) else s
    if s.heldKey a.addr.toNat then { s with hostWaits := s.hostWaits ++ [a] } else s.agentAccess a

def execBiasFlip (page : BitVec 36) (dev : Bool) (s : State) : Outcome :=
  .next <|
    let p := page.toNat
    if s.hdmPages ≤ p ∨ (s.reg 0x58020).field 0 0 = 1 then s
    else if s.deviceBias p = dev ∧ !(s.flip.any fun q => q.1 == p) then s.raiseVector 0 5
    else (s.startFlip p dev).setReg 0x58020 1

def execHostCxlMemAccess (a : AgentAccess) (s : State) : Outcome :=
  .next (if !(s.ports.contains (some .cxl)) || !s.agentOk a then s else s.hostAccess a)

/-- A snoop of a line of host memory: its bytes lie where the host keeps them, and no copy of the device differs (log 17). -/
def execCxlCacheSnoop (_a : BitVec 48) (_port : Nat) (_kind : SnoopKind) (s : State) : Outcome := .next s

/-! ### Umermash links (22 R353, R354) -/

def portReg (port : Nat) : Nat := 0x50100 + 8 * port

/-- ERRCNT counts. -/
def State.portError (s : State) (port : Nat) : State :=
  let w := s.reg (portReg port)
  if 24 ≤ port then s else s.setReg (portReg port) (w.put 63 32 (w.field 63 32 + 1))

def execFlitCrcFailure (port : Nat) (s : State) : Outcome := .next (s.portError port)

def execUmermashLinkUp (port : Nat) (peer : BitVec 8) (s : State) : Outcome :=
  .next <|
    let w := s.reg (portReg port)
    if 24 ≤ port ∨ w.field 1 1 = 0 then s else s.setReg (portReg port) ((w.put 0 0 1).put 15 8 peer.toNat)

/-- The register a remote access writes gets a value: lanes of one or two vector registers, or a scalar register. -/
def Cx.giveRemote (c : Cx) (r : Remote) (x : Nat) : Cx :=
  let wide := fun n => if r.signed then wrapInt n (signedOf (8 * r.size) x) else x
  let vs : List (Nat × Lane32) :=
    match r.vdst with
    | [k] => [(k, BitVec.ofNat 32 (wide 32))]
    | [k, l] => [(k, BitVec.ofNat 32 x), (l, BitVec.ofNat 32 (x / 2 ^ 32))]
    | _ => []
  let ss := match r.sdst with
    | some n => [(n, BitVec.ofNat 64 (wide 64))]
    | none => []
  c.deliver { left := 0, vs := vs, ss := ss, ps := [] }

/-- Bytes that an engine's move or row was waiting for. -/
def MoveSrc.fill (m : MoveSrc) (tag : Nat) (bs : List Byte) : MoveSrc :=
  match m with
  | .wait t k => if t = tag then .data bs else .wait t k
  | m => m

/-- What an answer gives the instruction that waits for it: its registers, the acquire after its read (07 R171, R178), bytes that
a copy's checks read. -/
def Cx.takeAnswer (c : Cx) (r : Remote) (x : Nat) : State :=
  let got := (c.giveRemote r x).acquireOf r.va 5 c.s.order.length r.acq
  if r.op.isSome then (c.giveRemote r x).flush
  else match c.P.wait with
    | some .remote => if c.s.answered r.g r.sp then { got with P := { got.P with wait := none } }.retire else got.flush
    | some (.hostAtomic id) =>
      match c.s.hostOps.find? id with
      | some o => got.finishHost id o
      | none => got.flush
    | some .copyCheck => { c with P := { c.P with reads := c.P.reads ++ [(r.key, bytesOf r.size x)] } }.flush
    | _ => c.s

/-- The answer to a read or an atomic: the value goes where the request says, and an instruction with every answer goes on.
What a line of another package held is logged (19 R306). -/
def State.giveAnswer (s : State) (r : Remote) (x : Nat) (refused : Bool := false) : State :=
  let s := { s with remotes := s.remotes.filter fun q => q.tag != r.tag }
  let bs := bytesOf r.size x
  match s.lineAsks.find? fun q => q.1 == r.tag with
  | some (_, f, line) =>
    ({ s with lineAsks := s.lineAsks.filter fun q => q.1 != r.tag } : State).logOld f line (if refused then [] else bs)
  | none =>
    let move := fun (m : Move) => { m with src := m.src.fill r.tag bs }
    let row := fun (m : MatRow) => { m with src := m.src.fill r.tag bs }
    let s := { s with
      copies := Store.mapVals s.copies fun _ o => { o with moves := o.moves.map move }
      mats := Store.mapVals s.mats fun _ o => { o with rowsA := o.rowsA.map row, rowsB := o.rowsB.map row } }
    let now := s.cur
    let t := s.onKept r.g r.sp fun c => Cx.takeAnswer { c with s := { c.s with cur := none } } r x
    { t with cur := now.filter fun q => (t.cx? q.1 q.2).isSome }

/-- A write has been performed or refused; a rollback that waited for the last of its lines goes on (19 R309). -/
def State.writeAnswered (s : State) (r : Remote) : State :=
  let f := r.packet.sfunc.toNat
  let s := { s with remotes := s.remotes.filter fun q => q.tag != r.tag }
  let x := s.fn f
  if x.undoing.contains r.tag then
    let left := x.undoing.filter (· != r.tag)
    let s := s.modFn f fun x => { x with undoing := left }
    match left, x.ckpt with
    | [], some k => s.finishRollback f k
    | _, _ => s
  else s

/-- The split in its exit routine that issued a request, if one did; an engine's request names none. -/
def State.exitIssuer (s : State) (r : Remote) : Option Cx :=
  (s.cx? r.g r.sp).filter fun c => c.P.rstate == 1 && r.op.all fun id => (s.gathers.find? id).isSome

/-- A refused access (22 R356): a write is not performed, a read gives 0; PROT is logged and the launch ends. One that an exit
routine issued is XFLT (09 R224). -/
def State.refuse (s : State) (r : Remote) : State :=
  let l := s.launchKept r.g
  match s.exitIssuer r with
  | some _ => { s with remotes := s.remotes.filter fun q => q.tag != r.tag }.onSplit r.g r.sp fun c => c.refuse r.va
  | none =>
    let s := if r.write then s.writeAnswered r else s.giveAnswer r 0 true
    if l = 0 then s else s.refused r.packet.sfunc.toNat l r.va

/-- A link goes down: its flows move to other ports and what was in flight is sent again; what can reach its package no
longer is refused (22 R354, R356, R358). -/
def execUmermashLinkDown (port : Nat) (s : State) : Outcome :=
  .next <|
    if 24 ≤ port then s
    else
      let s := s.setReg (portReg port) ((s.reg (portReg port)).put 0 0 0)
      let far := fun (p : Packet) => !s.reachable p.dpkg.toNat
      let again := (s.remotes.map (·.packet) ++ (s.nets.map (·.2.packet)).filter (·.dpkg.toNat != s.umid) ++ s.umSeen.map (·.2)).filter fun p => !far p
      let s := { s with outbox := s.outbox ++ again }
      let s := (s.remotes.filter fun r => far r.packet).foldl State.refuse s
      (s.nets.filter fun q => far q.2.packet && q.2.packet.dpkg.toNat != s.umid).foldl (fun s q => s.endSend q.1 q.2 fun c => c.fault 0x04) s

/-! ### Packets received (22 R355 to R358) -/

/-- A packet for another package goes on toward it (22 R353); one for this package is taken by `k` once the block is ready; one
with LEN above 16 is dropped (22 R355). -/
def State.receive (s : State) (p : Packet) (kinds : List Nat) (k : State) : State :=
  if !kinds.contains p.kind.toNat || decide (16 < p.len.toNat) || (s.reg 0x70000).field 40 40 == 0 then s
  else if p.dpkg.toNat ≠ s.umid then { s with outbox := s.outbox ++ [p] }
  else k

/-- The response to a packet. -/
def State.response (s : State) (p : Packet) (kind : Nat) (payload : List Word) : Packet :=
  { dpkg := p.spkg, spkg := BitVec.ofNat 8 s.umid, kind := BitVec.ofNat 4 kind, sfunc := p.dfunc
    dfunc := p.sfunc, len := BitVec.ofNat 6 payload.length, tag := p.tag, mbox := 0, addr := 0, payload := payload }

def State.respond (s : State) (p : Packet) (kind : Nat) (payload : List Word) : State :=
  { s with outbox := s.outbox ++ [s.response p kind payload] }

/-- A request that has been performed before, sent again: its response. -/
def State.seen (s : State) (p : Packet) : Option Packet := (s.umSeen.find? fun q => q.1 == p).map (·.2)

/-- Answer a request performed and remember the answer, until its sender has used its TAG again or half their number of its later
requests have been performed (log 21). -/
def State.answer1 (s : State) (p : Packet) (kind : Nat) (payload : List Word) : State :=
  let mine := fun (q : Packet × Packet) => q.1.spkg == p.spkg
  let kept := s.umSeen.filter fun q => !(mine q && q.1.tag == p.tag)
  let full := decide (2 ^ 23 ≤ (kept.filter mine).length)
  { s.respond p kind payload with umSeen := (if full then kept.eraseP mine else kept) ++ [(p, s.response p kind payload)] }

/-- A request is performed once: sent again, it is answered again, or still waits. -/
def State.once (s : State) (p : Packet) (k : State) : State :=
  match s.seen p with
  | some r => { s with outbox := s.outbox ++ [r] }
  | none => if (s.umWaits ++ s.umParts).contains p then s else k

/-- A network message is accepted, refused for want of room, or denied. -/
def execUmMessage (p : Packet) (s : State) : Outcome :=
  .next <| s.receive p [0] <| s.once p <|
    match s.receiveNet p.spkg.toNat p.sfunc.toNat p.dfunc.toNat p.mbox.toNat p.payload with
    | (t, .accept) => (t.raiseVector p.dfunc.toNat 7).answer1 p 5 []
    | (t, .refuseFull) => t.respond p 6 []
    | (t, .refuseDenied) => t.answer1 p 7 []

/-- The function of an enabled export window that allows an access of `n` bytes. -/
def State.exported (s : State) (p : Packet) (n : Nat) (rd wr : Bool) : Option Nat :=
  let a := p.addr.toNat
  (List.range 32).findSome? fun i =>
    let w := s.reg (0x52000 + 16 * i)
    let x := s.reg (0x52008 + 16 * i)
    let f := w.field 40 34
    if w.field 63 63 == 1 && (w.field 62 62 == 1 || w.field 55 48 == p.spkg.toNat)
        && decide (x.field 31 0 * 65536 ≤ a) && decide (a + n ≤ x.field 63 32 * 65536)
        && (!wr || w.field 61 61 == 1) && (!rd || w.field 60 60 == 1) && s.withinRanges f a n && s.exists_ a then some f
    else none

/-- Bytes of a read or write (log 21). -/
def packetBytes (p : Packet) (whole : Nat) : Nat := if p.mbox = 0 then whole else p.mbox.toNat

/-- The payload as one number. -/
def packetValue (p : Packet) : Nat := ofBytes (p.payload.flatMap fun w => bytesOf 8 w.toNat)

/-- A request waits while its bytes are held (22 R351; 24 R368); else the slice tracks and shares its line. -/
def State.umAccess (s : State) (p : Packet) (f : Nat) (k : State → State) : State :=
  if s.heldKey p.addr.toNat then { s with umWaits := s.umWaits ++ [p] }
  else k ((s.track false p.addr.toNat).shareLine f p.addr.toNat)

def State.umRead (s : State) (p : Packet) : State :=
  let n := packetBytes p 8
  match s.exported p n true false with
  | none => s.answer1 p 7 []
  | some f => s.umAccess p f fun s => s.answer1 p 4 (wordsOf n (s.read f p.addr.toNat n))

def State.umWrite (s : State) (p : Packet) : State :=
  let n := packetBytes p (8 * p.payload.length)
  match s.exported p n false true with
  | none => s.answer1 p 7 []
  | some f => s.umAccess p f fun s => (s.overwrite f p.addr.toNat (bytesOf n (packetValue p))).answer1 p 8 []

/-- The new value of an atomic's location: elements narrower than it, as many as the second word has bits, are each combined
(08 R197; log 21). -/
def packetNew (op : AtOp) (t : ETy) (n old v w : Nat) : Nat :=
  if t.stride < 8 * n ∧ op ∈ [AtOp.add, .min, .max] then
    ((List.range (8 * n / t.stride)).map fun e =>
      (if t.stride * e < w then op.new t (elem t old e) (elem t v e) 0 else elem t old e) * 2 ^ (t.stride * e)).sum
  else op.new t old v w

/-- An atomic of `n` bytes on the memory of function `f`, performed and answered. -/
def State.umAtomicDo (s : State) (f : Nat) (p : Packet) : State :=
  let m := p.mbox.toNat
  let n := 2 ^ (m % 8)
  let t := (ETy.ofCode? (m / 8 % 32)).getD .b32
  let op := AtOp.ofCode (m / 256)
  let v := (p.payload.getD 0 0).toNat
  let w := (p.payload.getD 1 0).toNat
  let old := s.read f p.addr.toNat n
  let t := if op = .cas ∧ old ≠ v % 2 ^ (8 * n) then s else s.overwrite f p.addr.toNat (bytesOf n (packetNew op t n old v w))
  t.answer1 p 4 [BitVec.ofNat 64 old]

/-- Of a lane's request (log 21): its place among the lanes of its location, how many there are, and what all of them share. -/
def partIndex (p : Packet) : Nat := Word.field (p.payload.getD 2 0) 7 0
def partCount (p : Packet) : Nat := Word.field (p.payload.getD 2 0) 15 8
def partGroup (p : Packet) : BitVec 8 × BitVec 7 × BitVec 16 × BitVec 48 × Nat :=
  (p.spkg, p.sfunc, p.mbox, p.addr, Word.field (p.payload.getD 2 0) 63 16)

/-- An atomic; the lanes of one location are performed together, in ascending order, once all have come (07 R170). -/
def State.umAtomic (s : State) (p : Packet) : State :=
  match s.exported p (2 ^ (p.mbox.toNat % 8)) true true with
  | none => s.answer1 p 7 []
  | some f =>
    let mine := fun (q : Packet) => partGroup q == partGroup p
    let all := (s.umParts.filter mine) ++ [p]
    s.umAccess p f fun s =>
      if partCount p ≤ 1 then s.umAtomicDo f p
      else if all.length < partCount p then { s with umParts := s.umParts ++ [p] }
      else
        let sorted := (List.range (partCount p)).filterMap fun i => all.find? fun q => partIndex q == i
        sorted.foldl (fun s q => s.umAtomicDo f q) { s with umParts := s.umParts.filter fun q => !mine q }

def execUmRead (p : Packet) (s : State) : Outcome := .next (s.receive p [1] (s.once p (s.umRead p)))
def execUmWrite (p : Packet) (s : State) : Outcome := .next (s.receive p [2] (s.once p (s.umWrite p)))
def execUmAtomic (p : Packet) (s : State) : Outcome := .next (s.receive p [3] (s.once p (s.umAtomic p)))

/-! ### What waited while bytes were held -/

/-- Accesses of the host, the chiplet and other packages that waited are performed where nothing holds their bytes any more. -/
def State.release (s : State) : State :=
  let t := s.hostWaits.foldl State.hostAccess { s with hostWaits := [] }
  let t := s.coreWaits.foldl State.coreAccess { t with coreWaits := [] }
  s.umWaits.foldl (fun t p => if p.kind = 1 then t.umRead p else if p.kind = 2 then t.umWrite p else t.umAtomic p) { t with umWaits := [] }

def execBiasFlipComplete (page : Nat) (s : State) : Outcome :=
  .next (if s.flip.any fun q => q.1 == page then s.completeFlip.release else s)

/-- Modified bricks go back through the old setting, every brick of the ranges is dropped, the new setting stands. -/
def execWindowCommitComplete (s : State) : Outcome :=
  .next <|
    match s.wcommit with
    | none => s
    | some (n, new) =>
      let ranges := (((s.windows.find? n).bind Window.ofWords).toList ++ (Window.ofWords new).toList).flatMap Window.ranges
      let t := s.recall fun b => ranges.any fun r => s.brickMeets b.tag r.1 r.2
      let t := { t with
        windows := match Window.ofWords new with
          | some _ => t.windows.put n new
          | none => t.windows.erase n
        llc := t.llc.filter fun q => !(ranges.any fun r => s.brickMeets q.1 r.1 r.2)
        malformed := t.malformed.erase n
        wcommit := none }
      (t.setWstatus 0 0).release

/-- The request that a response answers. -/
def State.requestOf (s : State) (p : Packet) : Option Remote :=
  s.remotes.find? fun r => r.tag == p.tag.toNat && r.packet.dpkg == p.spkg

/-- Read data, or an atomic's old value. -/
def execUmReadData (p : Packet) (s : State) : Outcome :=
  .next <| s.receive p [4] <|
    match s.requestOf p with
    | some r => if r.write then s.writeAnswered r else s.giveAnswer r (packetValue p % 2 ^ (8 * r.size))
    | none => s

def execUmWriteDone (p : Packet) (s : State) : Outcome :=
  .next <| s.receive p [8] <|
    match s.requestOf p with
    | some r => if r.write then s.writeAnswered r else s
    | none => s

/-- Refusals, and the responses to messages (5 accept, 6 refuse-full), which NETSEND_RESPONSE brings to the sender too. -/
def execUmRefuseDenied (p : Packet) (s : State) : Outcome :=
  .next <| s.receive p [5, 6, 7] <|
    match (if p.kind = 7 then s.requestOf p else none) with
    | some r => s.refuse r
    | none =>
      match List.find? (fun (q : Nat × NetOp) => q.2.packet.tag == p.tag && q.2.packet.dpkg == p.spkg) s.nets with
      | some (id, o) => s.netAnswer id o (if p.kind = 5 then .accept else if p.kind = 6 then .refuseFull else .refuseDenied)
      | none => s

/-- A packet that is never sent is dropped and counted. -/
def execUmInvalidPacket (port : Nat) (p : Packet) (s : State) : Outcome :=
  .next (if 9 ≤ p.kind.toNat ∨ 16 < p.len.toNat then s.portError port else s)

end Sys2Proof.Machine
end

