-- ==== Sys2Proof/Machine/Vector.lean ====
section
/-!
DEFINITION. The vector integer instructions (05 R108, R110, R111, R114, R116 to R118), element by element in each included
lane; excluded lanes keep every destination.
-/

namespace Sys2Proof.Machine

/-- a + b. -/
def execVadd (f : Tri) (s : State) : Outcome :=
  s.issue fun c => c.elems2 f (addW f.ty.width)

/-- a − b. -/
def execVsub (f : Tri) (s : State) : Outcome :=
  s.issue fun c => c.elems2 f (subW f.ty.width)

/-- Low w bits of a × b. -/
def execVmul (f : Tri) (s : State) : Outcome :=
  s.issue fun c => c.elems2 f (mulW f.ty.width)

/-- High w bits of a × b. -/
def execVmulh (f : Tri) (s : State) : Outcome :=
  s.issue fun c => c.elems2 f (mulHigh f.ty)

/-- a + b clamped to the type. -/
def execVaddsat (f : Tri) (s : State) : Outcome :=
  s.issue fun c => c.elems2 f (addSat f.ty)

/-- a − b clamped to the type. -/
def execVsubsat (f : Tri) (s : State) : Outcome :=
  s.issue fun c => c.elems2 f (subSat f.ty)

/-- a AND b. -/
def execVand (f : Tri) (s : State) : Outcome :=
  s.issue fun c => c.elems2 f (andW)

/-- a OR b. -/
def execVor (f : Tri) (s : State) : Outcome :=
  s.issue fun c => c.elems2 f (orW)

/-- a XOR b. -/
def execVxor (f : Tri) (s : State) : Outcome :=
  s.issue fun c => c.elems2 f (xorW)

/-- a AND NOT b. -/
def execVandn (f : Tri) (s : State) : Outcome :=
  s.issue fun c => c.elems2 f (andnW f.ty.width)

/-- Shift left by the element of b. -/
def execVshl (f : Tri) (s : State) : Outcome :=
  s.issue fun c => c.elems2 f (shlW f.ty.width)

/-- Logical shift right. -/
def execVshr (f : Tri) (s : State) : Outcome :=
  s.issue fun c => c.elems2 f (shrW f.ty.width)

/-- Arithmetic shift right. -/
def execVsra (f : Tri) (s : State) : Outcome :=
  s.issue fun c => c.elems2 f (sraW f.ty.width)

/-- The lesser. -/
def execVmin (f : Tri) (s : State) : Outcome :=
  s.issue fun c => c.elems2 f (minW f.ty)

/-- The greater. -/
def execVmax (f : Tri) (s : State) : Outcome :=
  s.issue fun c => c.elems2 f (maxW f.ty)

/-- Low w bits of a × b + c. -/
def execVmad (f : Tri) (s : State) : Outcome :=
  s.issue fun c => c.elems3 f (madW f.ty.width)

/-- |a|, wrapping. -/
def execVabs (f : Tri) (s : State) : Outcome :=
  s.issue fun c => c.elems1 f (absW f.ty.width)

/-- −a. -/
def execVneg (f : Tri) (s : State) : Outcome :=
  s.issue fun c => c.elems1 f (negW f.ty.width)

/-- Count of leading zero bits. -/
def execVclz (f : Tri) (s : State) : Outcome :=
  s.issue fun c => c.elems1 f (clzW f.ty.width)

/-- Count of one bits. -/
def execVpopc (f : Tri) (s : State) : Outcome :=
  s.issue fun c => c.elems1 f (popW f.ty.width)

/-- Field extract, position from b, length from c (05 R114). -/
def execVbfx (f : Tri) (s : State) : Outcome :=
  s.issue fun c => c.elems3 f (bfxW f.ty)

/-- Field insert into the old vD (05 R114). -/
def execVbfi (f : Tri) (s : State) : Outcome :=
  s.issue fun c => c.vector f.ctl f.ty f.dst [(f.a, f.ty), (f.b, f.ty), (f.c, f.ty)] fun l =>
    ofElems f.ty fun e =>
      bfiW f.ty.width (elem f.ty (c.vsrc f.a f.ty l) e) (elem f.ty (c.vsrc f.b f.ty l) e) (elem f.ty (c.vsrc f.c f.ty l) e)
        (elem f.ty (c.vsrc f.dst f.ty l) e)

/-- pD of each included lane from a condition over its elements; MOD bit 3 is any (05 R111). -/
def execVcmp (f : Tri) (s : State) : Outcome :=
  s.issue fun c => c.predicate f.ctl f.dst [(f.a, f.ty), (f.b, f.ty)] fun l =>
    overElems f.ty (bitsN f.mod.toNat 3 3 == 1) fun e =>
      condElem f.ty (bitsN f.mod.toNat 2 0) (elem f.ty (c.vsrc f.a f.ty l) e) (elem f.ty (c.vsrc f.b f.ty l) e)

/-- The whole register or pair: vA where the predicate in MOD holds, else vB. -/
def execVsel (f : Tri) (s : State) : Outcome :=
  s.issue fun c => c.vector f.ctl f.ty f.dst [(f.a, f.ty), (f.b, f.ty)] fun l =>
    if (c.G.pred f.mod.toNat).getLsbD l then c.vsrc f.a f.ty l else c.vsrc f.b f.ty l

/-- The part rule of 05 R117: destination elements from source elements under a part, the others kept. -/
def partPlace (dst src : ETy) (p : Nat) (old : Nat) (f : Nat → Nat) : Nat :=
  if dst.count ≤ src.count then ofElems dst fun e => f (p * dst.count + e)
  else (List.range src.count).foldl (fun x i => setElem dst x (p * src.count + i) (f i)) old

/-- A conversion: TYPE is the destination, MOD bits 4:0 the source, bits 7:6 the part (05 R117, R123). -/
def Cx.convert (c : Cx) (f : Tri) (conv : ETy → Nat → Nat) : State :=
  match ETy.ofCode? (bitsN f.mod.toNat 4 0) with
  | none => c.illop
  | some src =>
    c.vector f.ctl f.ty f.dst [(f.a, src)] fun l =>
      partPlace f.ty src (bitsN f.mod.toNat 7 6) (c.vsrc f.dst f.ty l) fun e => conv src (elem src (c.vsrc f.a src l) e)

/-- Between integer types, clamped with sat, else modulo (05 R117). -/
def execVcvti (f : Tri) (s : State) : Outcome :=
  s.issue fun c => c.convert f fun src => cvtInt f.ty src (bitsN f.mod.toNat 5 5 == 1)

/-- The immediate in every included lane. -/
def execVmovi (f : Imm) (s : State) : Outcome :=
  s.issue fun c => c.vector f.ctl f.ty f.dst [] fun _ => immValue f.ty f.imm

/-- a + imm. -/
def execVaddi (f : Imm) (s : State) : Outcome :=
  s.issue fun c => c.elemsImm f (addW f.ty.width)

/-- a AND imm. -/
def execVandi (f : Imm) (s : State) : Outcome :=
  s.issue fun c => c.elemsImm f (andW)

/-- a OR imm. -/
def execVori (f : Imm) (s : State) : Outcome :=
  s.issue fun c => c.elemsImm f (orW)

end Sys2Proof.Machine
end

