-- ==== Sys2Proof/Machine/FloatOps.lean ====
section
/-!
DEFINITION. The float and taper instructions (05 R119 to R129), rounding once per element under 03 R65 and R66.
-/

namespace Sys2Proof.Machine

/-- a + b. -/
def execFadd (f : Tri) (s : State) : Outcome :=
  s.issue fun c => c.elems2 f (addCode f.ty)

/-- a − b. -/
def execFsub (f : Tri) (s : State) : Outcome :=
  s.issue fun c => c.elems2 f (subCode f.ty)

/-- a × b. -/
def execFmul (f : Tri) (s : State) : Outcome :=
  s.issue fun c => c.elems2 f (mulCode f.ty)

/-- The lesser (05 R121). -/
def execFmin (f : Tri) (s : State) : Outcome :=
  s.issue fun c => c.elems2 f (minCode f.ty)

/-- The greater. -/
def execFmax (f : Tri) (s : State) : Outcome :=
  s.issue fun c => c.elems2 f (maxCode f.ty)

/-- a × b + c. -/
def execFma (f : Tri) (s : State) : Outcome :=
  s.issue fun c => c.elems3 f (fmaCode f.ty false false)

/-- a × b − c. -/
def execFms (f : Tri) (s : State) : Outcome :=
  s.issue fun c => c.elems3 f (fmaCode f.ty false true)

/-- −(a × b) + c. -/
def execFnma (f : Tri) (s : State) : Outcome :=
  s.issue fun c => c.elems3 f (fmaCode f.ty true false)

/-- −(a × b) − c. -/
def execFnms (f : Tri) (s : State) : Outcome :=
  s.issue fun c => c.elems3 f (fmaCode f.ty true true)

/-- |a|. -/
def execFabs (f : Tri) (s : State) : Outcome :=
  s.issue fun c => c.elems1 f (absCode f.ty)

/-- −a. -/
def execFneg (f : Tri) (s : State) : Outcome :=
  s.issue fun c => c.elems1 f (negCode f.ty)

/-- To an integer under MOD bits 1:0 (05 R125). -/
def execFrnd (f : Tri) (s : State) : Outcome :=
  s.issue fun c => c.elems1 f (rndCode f.ty f.mod.toNat)

/-- Scale or fraction-bit count of each code (05 R127). -/
def execFregime (f : Tri) (s : State) : Outcome :=
  s.issue fun c => c.elems1 f (if f.mod == 0 then regimeScale f.ty else regimeFrac f.ty)

/-- pD from a condition over the elements (05 R111). -/
def execFcmp (f : Tri) (s : State) : Outcome :=
  s.issue fun c => c.predicate f.ctl f.dst [(f.a, f.ty), (f.b, f.ty)] fun l =>
    overElems f.ty (bitsN f.mod.toNat 3 3 == 1) fun e =>
      condElem f.ty (bitsN f.mod.toNat 2 0) (elem f.ty (c.vsrc f.a f.ty l) e) (elem f.ty (c.vsrc f.b f.ty l) e)

/-- vA where the predicate holds, else vB: the elements of the type, so that bits 7:6 of a .t6 container are zero (log 58). -/
def execFsel (f : Tri) (s : State) : Outcome :=
  s.issue fun c => c.vector f.ctl f.ty f.dst [(f.a, f.ty), (f.b, f.ty)] fun l =>
    ofElems f.ty (elem f.ty (c.vsrc (if (c.G.pred f.mod.toNat).getLsbD l then f.a else f.b) f.ty l))

/-- pD from the class mask in MOD bits 6:0; bit 7 is any. -/
def execFclass (f : Tri) (s : State) : Outcome :=
  s.issue fun c => c.predicate f.ctl f.dst [(f.a, f.ty)] fun l =>
    overElems f.ty (bitsN f.mod.toNat 7 7 == 1) fun e =>
      classMask f.ty (elem f.ty (c.vsrc f.a f.ty l) e) &&& bitsN f.mod.toNat 6 0 != 0

/-- Between float types. -/
def execFcvt (f : Tri) (s : State) : Outcome := s.issue fun c => c.convert f fun src => convCode f.ty src

/-- Float to integer; MOD bit 5 is trunc. -/
def execFcvti (f : Tri) (s : State) : Outcome :=
  s.issue fun c => c.convert f fun src => toIntCode f.ty src (bitsN f.mod.toNat 5 5 == 1)

/-- Integer to float. -/
def execIcvtf (f : Tri) (s : State) : Outcome :=
  s.issue fun c => c.convert f fun src x => ofIntCode f.ty (valueOf src x)

/-- a × 2^n with n the lane's vB read as .i32 (05 R125). -/
def execFscale (f : Tri) (s : State) : Outcome :=
  s.issue fun c => c.vector f.ctl f.ty f.dst [(f.a, f.ty), (f.b, .i32)] fun l =>
    ofElems f.ty fun e => scaleCode f.ty (elem f.ty (c.vsrc f.a f.ty l) e) (signedOf 32 (c.vsrc f.b .i32 l))

/-- Result format of fdot2 and fdot4. -/
def dotFmt (f : Tri) : ETy := if f.mod == 0 then .fp32 else .t32

/-- The dot product of a lane's elements by the exact sum (05 R126, 03 R76). -/
def Cx.dot (c : Cx) (f : Tri) : State :=
  let fmt := dotFmt f
  c.vector f.ctl fmt f.dst [(f.a, f.ty), (f.b, f.ty), (f.c, fmt)] fun l =>
    exactSum fmt (numOf fmt (c.vsrc f.c fmt l)) ((List.range f.ty.count).map fun e =>
      (numOf f.ty (elem f.ty (c.vsrc f.a f.ty l) e), numOf f.ty (elem f.ty (c.vsrc f.b f.ty l) e)))

/-- Two terms. -/
def execFdot2 (f : Tri) (s : State) : Outcome := s.issue fun c => c.dot f

/-- Four terms. -/
def execFdot4 (f : Tri) (s : State) : Outcome := s.issue fun c => c.dot f

/-- Elements of vA, then of vB, rounded into one register (05 R124). -/
def execFpack (f : Tri) (s : State) : Outcome :=
  s.issue fun c =>
    match ETy.ofCode? f.mod.toNat with
    | none => c.illop
    | some src =>
      c.vector f.ctl f.ty f.dst [(f.a, src), (f.b, src)] fun l =>
        ofElems f.ty fun e =>
          if e < src.count then convCode f.ty src (elem src (c.vsrc f.a src l) e)
          else convCode f.ty src (elem src (c.vsrc f.b src l) (e - src.count))

/-- Elements of vA widened into the pair vD, vD + 1 (05 R124). -/
def execFunpack (f : Tri) (s : State) : Outcome :=
  s.issue fun c =>
    match ETy.ofCode? f.mod.toNat with
    | none => c.illop
    | some src =>
      if !(c.fitsN f.dst 2 && c.fits f.a src) then c.illop
      else
        let half := fun l base => ofElems f.ty fun e => convCode f.ty src (elem src (c.vsrc f.a src l) (base + e))
        (c.deliver
          { left := 0, ss := [], ps := []
            vs := laneWrites (c.included f.ctl) f.dst.vNum true fun l => half l 0 + 2 ^ 32 * half l f.ty.count }).retire

/-- One twin-scaled element of each lane into t32 or fp32 (05 R128). -/
def execFtwin (f : Tri) (s : State) : Outcome :=
  s.issue fun c =>
    let p := bitsN f.mod.toNat 2 0
    let fmt : ETy := if bitsN f.mod.toNat 3 3 = 0 then .t32 else .fp32
    c.vector f.ctl fmt f.dst [(f.a, f.ty), (f.b, .i32)] fun l =>
      let w := c.vsrc f.b .i32 l
      let scale := if w / 2 ^ (16 + p) % 2 = 1 then signedOf 8 (w / 256) else signedOf 8 w
      roundNum fmt (twinValue f.ty (elem f.ty (c.vsrc f.a f.ty l) p) scale)

/-- a + imm. -/
def execFaddi (f : Imm) (s : State) : Outcome :=
  s.issue fun c => c.elemsImm f (addCode f.ty)

/-- a × imm. -/
def execFmuli (f : Imm) (s : State) : Outcome :=
  s.issue fun c => c.elemsImm f (mulCode f.ty)

/-- The lesser of a and imm. -/
def execFmini (f : Imm) (s : State) : Outcome :=
  s.issue fun c => c.elemsImm f (minCode f.ty)

/-- The greater of a and imm. -/
def execFmaxi (f : Imm) (s : State) : Outcome :=
  s.issue fun c => c.elemsImm f (maxCode f.ty)

/-- a × imm + d, d the old vD. -/
def execFmai (f : Imm) (s : State) : Outcome :=
  s.issue fun c => c.vector f.ctl f.ty f.dst [(f.a, f.ty)] fun l =>
    ofElems f.ty fun e =>
      fmaCode f.ty false false (elem f.ty (c.vsrc f.a f.ty l) e) (immElem f.ty f.imm e) (elem f.ty (c.vsrc f.dst f.ty l) e)

/-- As fcmp with b the immediate; the condition in MOD bits 3:0. -/
def execFcmpi (f : Imm) (s : State) : Outcome :=
  s.issue fun c => c.predicate f.ctl f.dst [(f.a, f.ty)] fun l =>
    overElems f.ty (bitsN f.mod.toNat 3 3 == 1) fun e =>
      condElem f.ty (bitsN f.mod.toNat 2 0) (elem f.ty (c.vsrc f.a f.ty l) e) (immElem f.ty f.imm e)

end Sys2Proof.Machine
end

