-- ==== Sys2Proof/Machine/Ordering.lean ====
section
/-!
DEFINITION. Hints (07 R177), fences (07 R179, R182), bindings (07 R183 to R185), acquire and release (07 R178). A
fence waits only for Hod sends and writes to other packages; what it orders is in Machine/Views.lean (log 9).
-/

namespace Sys2Proof.Machine

/-! ### Hints -/

/-- A hint that cannot be followed is dropped and counted. -/
def Cx.hint (c : Cx) (good : Bool) : State := if good then c.retire else { c with s := c.s.count c.G.fn 0xD00 }.retire

/-- A byte can be read; hints never charge (20 R325). The spec gives hints no alignment, so none is misaligned (log 54). -/
def Cx.hintByte (c : Cx) (space a : Nat) : Bool :=
  match c.target space a 1 with
  | some (.virt va _) => match c.s.translate c.G.fn va .read with
    | .ok _ => true
    | .fault _ => false
  | _ => false

/-- Where a byte that a hint names lies, with the brick it names. -/
def Cx.hintPlace (c : Cx) (space : Nat) (x : LaneAcc) : Option Admitted :=
  match c.target space x.addr 1 with
  | some (.virt va b) =>
    match c.s.translate c.G.fn va .read with
    | .ok w => some ⟨x.lane, x.addr, some va, b, w.key⟩
    | .fault _ => none
  | _ => none

/-- The bricks are fetched, but for those whose bytes are held. -/
def Cx.prefetch (c : Cx) (space : Nat) (xs : List LaneAcc) : Cx :=
  { c with s := c.s.touchAll c.G.fn ((xs.filterMap (c.hintPlace space)).filter fun q => !c.s.heldVa c.G.fn (q.va.getD 0)) }

def execPref (f : Mem) (s : State) : Outcome :=
  s.issue fun c => c.memory f false fun m =>
    let xs := c.accesses f true 0 1 m
    if xs.all fun x => c.hintByte f.space.toNat x.addr then (c.prefetch f.space.toNat xs).retire else c.hint false

/-- A residency hint over lines of the package: 0 keep, 1 evict, 2 normal treatment again. -/
def State.setHints (s : State) (action step : Nat) (keys : List Nat) : State :=
  { s with hints := (keys.map fun k => (k, step, action)) ++
      s.hints.filter fun h => !(keys.any fun k => decide (k ≤ h.1) && decide (h.1 + h.2.1 ≤ k + step)) }

/-- Every page, or every brick of a tensor-brick range, is checked; the hint is kept for each of them. -/
def execResid (f : Mem) (s : State) : Outcome :=
  s.issue fun c => c.memory f false fun _ =>
    let a := offset (c.sreg f.base.sNum).toNat f.offs
    let n := (c.sreg f.data.sNum).toNat
    let step := if f.space = 0 then 4096 else 128
    let first := a / step * step
    let at_ := fun i => first + step * i
    let parts := if n = 0 then [] else List.range ((a + n - first + step - 1) / step)
    if decide (a + n ≤ 2 ^ 64) && parts.all fun i => c.hintByte f.space.toNat (at_ i) then
      let keys := parts.filterMap fun i => (c.hintPlace f.space.toNat ⟨0, at_ i⟩).map fun q => q.key
      { c with s := c.s.setHints f.kind.toNat step keys }.retire
    else c.hint false

/-! ### Fences -/

/-- A fence that orders earlier Hod sends waits until they are applied. -/
def execFence (f : Mem) (s : State) : Outcome :=
  s.issue fun c =>
    if c.P.active = 0 then c.retire
    else if f.kind = 2 || c.settled then (c.did (.fence f.kind.toNat f.scope.toNat c.P.active)).retire
    else c.waitFor .fence

/-- A full fence after which the read-only path returns nothing older. -/
def execFencero (f : Mem) (s : State) : Outcome :=
  s.issue fun c =>
    if c.P.active = 0 then c.retire
    else if !c.settled then c.waitFor .fence
    else
      let from_ := (lanesOf c.P.active).foldl (fun m l => Store.set 0 m l c.s.order.length) c.G.roFrom
      ({ c with G := { c.G with roFrom := from_ } }.did (.fence 0 f.scope.toNat c.P.active)).retire

/-! ### Bindings -/

/-- The object address and the range of bind and unbind, checked: the range's ends, or a fault. No check bounds the object
address (log 55). -/
def Cx.bindRange (c : Cx) (f : Mem) (k : Nat → Nat → Nat → State) : State :=
  if c.P.active = 0 then c.retire
  else
    let obj := offset (c.sreg f.base.sNum).toNat f.offs
    let lo := (c.sreg f.data.sNum).toNat
    let n := (c.sreg (f.data.sNum + 1)).toNat
    let lane := elected c.P.active
    if obj % 8 ≠ 0 then c.faultLanes 0x03 .read 0 [⟨lane, obj⟩]
    else if lo % 128 ≠ 0 ∨ n % 128 ≠ 0 ∨ n < 128 then c.faultLanes 0x03 .read 0 [⟨lane, lo⟩]
    else if 2 ^ 48 < lo + n then c.faultLanes 0x04 .read 0 [⟨lane, lo⟩]
    else k obj lo (lo + n)

/-- Keep a function's new bound ranges; beyond 4,096 the object becomes wide (07 R185). -/
def State.setBounds (s : State) (f obj : Nat) (bs : List Bound) : State :=
  let x := s.fn f
  let past := decide (4096 < bs.length) && decide (x.bounds.length < bs.length)
  let wide := (if past then obj :: x.wide else x.wide).filter fun o => bs.any fun b => b.obj == o
  let s := s.setFn f { x with bounds := bs, wide := wide }
  if past then s.count f 0xD08 else s

def Bound.meets (b : Bound) (lo hi : Nat) : Bool := decide (b.lo < hi) && decide (lo < b.hi)

def execBind (f : Mem) (s : State) : Outcome :=
  s.issue fun c => c.bindRange f fun obj lo hi =>
    let bs := (c.s.fn c.G.fn).bounds
    if bs.any fun b => b.obj != obj && b.meets lo hi then c.faultLanes 0x04 .read 0 [⟨elected c.P.active, lo⟩]
    else
      let same := bs.filter fun b => b.obj == obj && b.meets lo hi
      let merged : Bound :=
        { obj := obj, lo := same.foldl (fun m b => min m b.lo) lo, hi := same.foldl (fun m b => max m b.hi) hi }
      let rest := bs.filter fun b => !(b.obj == obj && b.meets lo hi)
      { c with s := c.s.setBounds c.G.fn obj (rest ++ [merged]) }.retire

/-- What remains of a range outside [lo, hi). -/
def Bound.cut (b : Bound) (lo hi : Nat) : List Bound :=
  (if b.lo < lo then [{ b with hi := min b.hi lo }] else []) ++ (if hi < b.hi then [{ b with lo := max b.lo hi }] else [])

def execUnbind (f : Mem) (s : State) : Outcome :=
  s.issue fun c => c.bindRange f fun obj lo hi =>
    let bs := (c.s.fn c.G.fn).bounds.flatMap fun b => if b.obj == obj && b.meets lo hi then b.cut lo hi else [b]
    { c with s := c.s.setBounds c.G.fn obj bs }.retire

/-! ### Acquire and release -/

/-- The one access of acq and rel. -/
def Cx.sync (c : Cx) (f : Mem) (acc : Acc) (k : Cx → Admitted → State) : State :=
  if c.P.active = 0 then c.retire
  else
    let l := elected c.P.active
    c.access 0 8 8 acc (acc == .read) [⟨l, offset (c.sreg f.base.sNum).toNat f.offs⟩] fun c ks =>
      let q := ks.headD ⟨l, 0, none, none, 0⟩
      if q.va.any c.wideWaits then c.waitFor .fence else k c q

def execAcq (f : Mem) (s : State) : Outcome :=
  s.issue fun c => c.sync f .read fun c q =>
    if isRemote q.key then c.loadAway f c.P.active [q] fun _ => 0
    else
      let (d, x, place) := if c.contended 8 q then c.see 8 none q else (c, c.s.get c.G.fn q 8, c.s.order.length)
      ((d.deliver (lateOf f [q] fun _ => x)).acquireOf (q.va.getD 0) f.scope.toNat place c.P.active).retire

def execRel (f : Mem) (s : State) : Outcome :=
  s.issue fun c => c.sync f .write fun c q =>
    c.withLines [q.key] (c.reaching [q] fun ks => 
      (((c.storeAll { f with space := 7 } none ks fun _ => (c.sreg f.data.sNum).toNat).releaseOf (q.va.getD 0) f.scope.toNat
        c.P.active).retire))

end Sys2Proof.Machine
end

