-- ==== Sys2Proof/Machine/Partitions.lean ====
section
/-!
DEFINITION. Partition records and their commits, front-end writes, and the disabling of functions (21 R330 to R332, R339).
-/

namespace Sys2Proof.Machine

/-! ### Commits (21 R330, R331) -/

/-- A partition record's registers as last written. -/
def State.recordRegs (s : State) (f : Nat) : List Word := (List.range 8).map fun i => s.reg (0x40000 + 64 * f + 8 * i)

/-- Fields of a partition record. -/
def recEn (r : List Word) : Bool := (r.getD 0 0).field 63 63 == 1
def recGroup (r : List Word) : Nat := (r.getD 0 0).field 55 48
def recLlcMax (r : List Word) : Nat := (r.getD 0 0).field 39 32
def recLlcMin (r : List Word) : Nat := (r.getD 0 0).field 31 24
def recHbmMin (r : List Word) : Nat := (r.getD 0 0).field 23 16
def recColours (r : List Word) : Nat := (r.getD 0 0).field 15 0

/-- The physical ranges that cover a granule, as first granule and limit. -/
def recRanges (r : List Word) : List (Nat × Nat) :=
  (List.range 4).filterMap fun i =>
    let w := r.getD (2 + i) 0
    if w.field 63 32 ≤ w.field 31 0 then none else some (w.field 31 0, w.field 63 32)

/-- A reserved bit of the record is set. -/
def recReserved (r : List Word) : Bool :=
  (r.getD 0 0).field 62 56 != 0 || (r.getD 0 0).field 47 40 != 0 || (r.getD 1 0).field 63 42 != 0
    || (r.getD 1 0).field 31 10 != 0 || r.getD 6 0 != 0 || r.getD 7 0 != 0

/-- Two functions whose groups differ; a function with TSGRP 0 is a group of its own. -/
def apart (g h : Nat) : Bool := g == 0 || g != h

def State.diesOf (s : State) (f : Nat) : List Nat := (s.clustersOf f).map s.fuse.dieOf

/-- Granules of a range that lie in none of some ranges. -/
def uncovered (rs : List (Nat × Nat)) (q : Nat × Nat) : Bool :=
  let cut := rs.foldl (fun (left : List (Nat × Nat)) r =>
    left.flatMap fun x => [(x.1, min x.2 r.1), (max x.1 r.2, x.2)].filter fun y => decide (y.1 < y.2)) [q]
  cut.any fun x => decide (x.1 < x.2)

/-- PERR of a commit: the lowest code among its defects. -/
def State.commitError (s : State) (f : Nat) (r : List Word) : Nat :=
  let old := s.partRecord f
  let others := s.parts.filter fun q => q.1 != f && recEn q.2
  let all := others.map (·.2) ++ if recEn r then [r] else []
  let sharesDie := fun g => (s.diesOf f).any fun d => (s.diesOf g).contains d
  let meets := fun (a b : Nat × Nat) => decide (max a.1 b.1 < min a.2 b.2)
  if 96 < f then 4
  else if others.any fun q =>
      apart (recGroup r) (recGroup q.2) && (recColours r &&& recColours q.2) != 0 && sharesDie q.1 then 1
  else if 256 < (all.map recLlcMin).sum ∨ 240 < (all.map recHbmMin).sum
      ∨ (recLlcMax r ≠ 0 ∧ recLlcMax r < recLlcMin r) then 2
  else if (recRanges r).any fun x => decide (s.fuse.hbmBytes < 65536 * x.2)
      || (others.any fun q => q.1 != 0 && (recRanges q.2).any (meets x)) then 3
  else if 32 ≤ recGroup r ∨ recReserved r then 4
  else if (s.launches.any fun q => q.2.fn == f && !q.2.completed)
      && (recColours r != recColours old || recGroup r != recGroup old || (recRanges old).any (uncovered (recRanges r))) then 5
  else 0

def State.setPerr (s : State) (code : Nat) : State := s.setReg 0x41C08 (BitVec.ofNat 64 (code * 2 ^ 8))

/-! ### Disabling a function (21 R339) -/

/-- Bytes in flight land or are dropped, each as the machine chooses (log 20); those for another package by packets. -/
def State.landSome (s : State) (f key : Nat) (bs : List Byte) : State :=
  bs.zipIdx.foldl (fun (s : State) q =>
    let t := { s with tick := s.tick + 1 }
    if !(Config.freeValue s.tick).getLsbD 0 then t
    else if isRemote key then t.askPlain (t.request f 2 (key + q.2) 1 [BitVec.ofNat 64 q.1.toNat]) (key + q.2) 1 true
    else t.store f (key + q.2) [q.1] true) s

/-- A move of a copy in flight. Another package combines the words of a cpyred itself: each of those requests has been sent or
not. -/
def State.landMove (s : State) (o : CopyOp) (id : Nat) (m : Move) : State :=
  match s.moveBits o m with
  | none => s
  | some (src, bad) =>
    if s.moveHeld m then s
    else if !isRemote m.dst then
      let (n, x) := moveResult o m bad (if o.twin then s.moveRecord o m else none) src (s.copyRead o m.dst m.len)
      s.landSome o.fn m.dst (bytesOf n x)
    else match o.kind with
      | .reduce _ _ =>
        let t := { s with tick := s.tick + 1 }
        if (Config.freeValue s.tick).getLsbD 0 then t.moveAway o id m bad src else t
      | _ => s.landSome o.fn m.dst (bytesOf (m.valid / 8) (src % 2 ^ m.valid))

/-- What is in flight of the function: copies, stores of tiles that have started, Hod updates. -/
def State.quiesce (s : State) (f : Nat) : State :=
  let s := s.copies.foldl (fun (s : State) q => if q.2.fn == f then q.2.moves.foldl (fun t m => t.landMove q.2 q.1 m) s else s) s
  let s := s.mats.foldl (fun (s : State) q =>
    let o := q.2
    if o.fn != f || o.kind != .astore || !o.started then s
    else o.rowsA.zipIdx.foldl (fun (s : State) r =>
      match r.1.src with
      | .key k =>
        if !isRemote k && s.heldKey k then s
        else s.landSome f k ((List.range 8).flatMap fun i => bytesOf 4 (s.tileElem o.team o.pair o.tile (8 * r.2 + i)).toNat)
      | _ => s) s) s
  s.hods.foldl (fun (s : State) q =>
    if q.2.fn != f then s
    else q.2.lanes.foldl (fun (s : State) x =>
      let n := if q.2.ty.is64 then 8 else 4
      let t := s.recall fun b => b.tag.tid == 0 && brickAddr b.tag == x.2.1 / 128 * 128
      t.landSome f x.2.1 (bytesOf n (updateWord q.2.ty q.2.op (t.rawRead x.2.1 n) x.2.2))) s) s

/-- The function's registers return to their reset values. -/
def State.resetRegs (s : State) (f : Nat) : State :=
  { s with mmio := Store.keep s.mmio fun k _ => !(decide (fnBase f ≤ k) && decide (k < 0x40000 + fnBase f)) }

/-- A function that leaves a time-slice group holds its clusters no longer (21 R335, R337). -/
def State.vacate (s : State) (g f : Nat) : State :=
  if g ≠ 0 ∧ s.holder g = f then
    { s.setReg (0x42000 + 8 * g) ((s.reg (0x42000 + 8 * g)).put 31 24 0xFF) with vacated := Store.put s.vacated g f }
  else s

/-- Everything of the function ends: slots go without write-back, gangs without saving, its launches complete as discarded in
the order they were taken, its registers are reset; the partition record and the bindings stay (01 R36; log 25). -/
def State.disable (s : State) (f : Nat) : State :=
  let s := { s with
    slots := s.slots.filter fun x => x.fn != f
    misses := s.misses.filter fun m => m.fn != f
    covers := s.covers.filter fun v => v.fn != f
    unmapping := s.unmapping.filter fun q => q.1 != f
    waiters := s.waiters.filter fun x => x.fn != f }
  let s := s.quiesce f
  let mine := fun l => (s.launches.find? l).any fun (x : Launch) => x.fn == f
  let x := s.fn f
  let s := s.setFn f { x with ckpt := none, saved := none, rolling := false }
  let s := s.killLaunches mine
  let s := { s with
    copies := s.copies.filter fun q => q.2.fn != f
    mats := s.mats.filter fun q => q.2.fn != f
    gathers := s.gathers.filter fun q => q.2.fn != f
    hods := s.hods.filter fun q => q.2.fn != f
    nets := s.nets.filter fun q => q.2.fn != f
    remotes := s.remotes.filter fun r => r.packet.sfunc.toNat != f
    lineAsks := s.lineAsks.filter fun q => q.2.1 != f
    bricks := s.bricks.filter fun b => !(b.tag.func == f && b.tag.tid != 0)
    llc := s.llc.filter fun q => !(q.1.func == f && q.1.tid != 0) }
  let s := (s.launches.filter fun q => q.2.fn == f && !q.2.completed).foldl (fun s q =>
    s.complete q.1 { q.2 with wantsDep := false } 6 0 0) s
  let s := { s with launches := s.launches.filter fun q => q.2.fn != f }
  let s := (s.resetRegs f).setFn f { mf := x.mf, bounds := x.bounds, wide := x.wide }
  let s := if x.attesting then s.setFreg f 0xF38 (2 * 2 ^ 8) else s
  s.vacate (s.tsGroup f) f

def execFunctionDisable (f : Nat) (s : State) : Outcome := .next (if 1 ≤ f ∧ f ≤ 96 then s.disable f else s)

def execFunctionLevelReset (f : Nat) (s : State) : Outcome := .next (if f ≤ 96 then s.disable f else s)

/-- VF Enable is cleared: every virtual function it covered is disabled. -/
def State.clearVfs (s : State) : State :=
  if s.vfEnable then { (List.range s.numVFs).foldl (fun s i => s.disable (i + 1)) s with vfEnable := false } else s

def execVfEnableClear (s : State) : Outcome := .next s.clearVfs

/-- A commit: refused with a code, or the record takes effect; with EN = 0 the function is disabled. -/
def execPcommit (f : Nat) (s : State) : Outcome :=
  .next <|
    let r := s.recordRegs f
    let e := s.commitError f r
    if e ≠ 0 then s.setPerr e
    else
      let t := if !recEn r && (f != 0 || recEn (s.partRecord f)) then s.disable f else s
      let t := if recGroup r = s.tsGroup f then t else t.vacate (s.tsGroup f) f
      { t with parts := t.parts.put f r }.setPerr 0

/-! ### Front ends (21 R332; 18 R284, R285) -/

/-- A write with EN = 1 is refused. -/
def State.frontEndBad (s : State) (fe : Nat) (v : Word) : Bool :=
  let f := v.field 56 50
  let lo := v.field 16 1
  let hi := v.field 32 17
  decide (hi < lo) || decide (s.fuse.clusterCount ≤ hi) || !recEn (s.partRecord f) || decide (96 < f)
    || (List.range 128).any fun e =>
      e != fe && s.feOn e && s.feFunc e != f && apart (s.tsGroup f) (s.tsGroup (s.feFunc e))
        && decide (lo ≤ s.feLimit e) && decide (s.feBase e ≤ hi)

/-- A front end's block is written, or the write is refused with PERR 6; setting EN anew clears gp0 to gp63. -/
def execFrontEndWrite (fe : Nat) (v : BitVec 64) (s : State) : Outcome :=
  .next <|
    let w : Word := BitVec.ofNat 64 (Word.field v 56 49 * 2 ^ 49 + Word.field v 32 1 * 2)
    let on := w.field 49 49 == 1
    if 128 ≤ fe then s
    else if on && s.frontEndBad fe w then s.setPerr 6
    else
      let gp := if on && !s.feOn fe then Store.keep s.gp fun k _ => k / 64 != fe else s.gp
      { s.setReg (0x90000 + 64 * fe) w with gp := gp }.setPerr 0

end Sys2Proof.Machine
end

