-- ==== Sys2Proof/Machine/Sha.lean ====
section
/-!
DEFINITION. SHA-384, by which the device measures its firmware (24 R374, R375); the spec names the function and leaves its
definition to FIPS 180-4.
-/

namespace Sys2Proof.Machine.Sha

/-! ### The constants: fractions of roots of primes -/

/-- The greatest r with r^k ≤ x, bit by bit from bit n - 1 down. -/
def root (k x : Nat) : Nat → Nat → Nat
  | 0, r => r
  | n + 1, r => root k x n (if (r + 2 ^ n) ^ k ≤ x then r + 2 ^ n else r)

/-- The first 64 bits of the fraction of the k-th root of p. -/
def fraction (k p : Nat) : Word := BitVec.ofNat 64 (root k (p * 2 ^ (64 * k)) 72 0)

/-- The primes below 410, 80 of them. -/
def primes : List Nat := (List.range 410).filter fun p => decide (2 ≤ p) && (List.range 19).all fun d => d + 2 == p || p % (d + 2) != 0

/-- One constant for each round, from cube roots. -/
def roundKeys : List Word := primes.map (fraction 3)

/-- What the eight words of a digest start from: square roots of the ninth prime and following. -/
def initial : List Word := ((primes.drop 8).take 8).map (fraction 2)

/-! ### Compression -/

/-- Three turns of a word to the right, added bitwise; where `cut`, the last is a shift. -/
def turns (a b c : Nat) (cut : Bool) (x : Word) : Word :=
  x.rotateRight a ^^^ x.rotateRight b ^^^ (if cut then x >>> c else x.rotateRight c)

/-- The next word of the schedule, from the latest 16. -/
def nextWord (w : List Word) : Word :=
  w.getD 0 0 + turns 1 8 7 true (w.getD 1 0) + w.getD 9 0 + turns 19 61 6 true (w.getD 14 0)

/-- One round on the eight words, with a word of the schedule and its key already added. -/
def mixIn (x : Word) : List Word → List Word
  | [a, b, c, d, e, f, g, h] =>
    let pick := g ^^^ (e &&& (f ^^^ g))
    let most := (a &&& b) ||| (c &&& (a ||| b))
    let new := h + turns 14 18 41 false e + pick + x
    [new + turns 28 34 39 false a + most, a, b, c, d + new, e, f, g]
  | v => v

/-- The rounds of a block, one for each key; `w` slides along the schedule. -/
def rounds : List Word → List Word → List Word → List Word
  | [], _, v => v
  | key :: keys, w, v => rounds keys (w.tail ++ [nextWord w]) (mixIn (w.headD 0 + key) v)

/-! ### Bytes -/

/-- A number from its bytes, the most significant first. -/
def bigEndian (bs : List Byte) : Nat := ofBytes bs.reverse

/-- The `n` bytes of a number, most significant first. -/
def beBytes (n v : Nat) : List Byte := (bytesOf n v).reverse

/-- The blocks of a message, 128 bytes each, into the digest. -/
def absorb : Nat → List Byte → List Word → List Word
  | 0, _, v => v
  | n + 1, bs, v =>
    let w := (List.range 16).map fun i => BitVec.ofNat 64 (bigEndian ((bs.drop (8 * i)).take 8))
    absorb n (bs.drop 128) (List.zipWith (· + ·) v (rounds roundKeys w v))

/-- The digest as a number whose most significant byte is the digest's first: of the message, a one bit, zeros up to a whole
block, and its length in bits. -/
def sha384 (bs : List Byte) : BitVec 384 :=
  let blocks := (bs.length + 17 + 127) / 128
  let zeros := List.replicate (128 * blocks - 17 - bs.length) 0
  let v := absorb blocks (bs ++ [0x80] ++ zeros ++ beBytes 16 (8 * bs.length)) initial
  BitVec.ofNat 384 (bigEndian ((v.take 6).flatMap fun w => beBytes 8 w.toNat))

/-- The bytes of a digest, first byte first. -/
def digestBytes (d : BitVec 384) : List Byte := beBytes 48 d.toNat

end Sys2Proof.Machine.Sha
end

