-- ==== Sys2Proof/Machine/Ecdsa.lean ====
section
/-!
DEFINITION. The verification of an ECDSA P-384 signature (24 R373): the curve y² = x³ - 3x + b over the integers modulo a prime, as
the signature standard that the spec names gives it (log 79).
-/

namespace Sys2Proof.Machine.Ecdsa

/-- The field's prime, the order of the base point, b, and the base point. -/
def prime : Nat := 2 ^ 384 - 2 ^ 128 - 2 ^ 96 + 2 ^ 32 - 1
def order : Nat := 0xFFFFFFFFFFFFFFFFFFFFFFFFFFFFFFFFFFFFFFFFFFFFFFFFC7634D81F4372DDF581A0DB248B0A77AECEC196ACCC52973
def coeff : Nat := 0xB3312FA7E23EE7E4988E056BE3F82D19181D9C6EFE8141120314088F5013875AC656398D8A2ED19D2A85C8EDD3EC2AEF
def baseX : Nat := 0xAA87CA22BE8B05378EB1C71EF320AD746E1D3B628BA79B9859F741E082542A385502F25DBF55296C3A545E3872760AB7
def baseY : Nat := 0x3617DE4A96262C6F5D9E98BF9292DC29F8F41DBD289A147CE9DA3113B5F0B8C00A60B1CE1D7E819D7A431D7C90EA0E5F

/-- A difference modulo the prime. -/
def minus (a b : Nat) : Nat := (a + prime - b % prime) % prime

/-- A point (x / z², y / z³); z = 0 is the point at infinity. -/
structure Point where
  x : Nat
  y : Nat
  z : Nat
  deriving DecidableEq, Repr

def Point.double (a : Point) : Point :=
  let d := a.z * a.z % prime
  let g := a.y * a.y % prime
  let b := a.x * g % prime
  let m := 3 * (minus a.x d * (a.x + d)) % prime
  let x := minus (m * m % prime) (8 * b)
  { x := x, y := minus (m * minus (4 * b) x % prime) (8 * g * g), z := 2 * a.y * a.z % prime }

def Point.add (a b : Point) : Point :=
  if a.z = 0 then b
  else if b.z = 0 then a
  else
    let aa := a.z * a.z % prime
    let bb := b.z * b.z % prime
    let u := a.x * bb % prime
    let h := minus (b.x * aa % prime) u
    let t := a.y * b.z % prime * bb % prime
    let r := minus (b.y * a.z % prime * aa % prime) t
    if h = 0 then (if r = 0 then a.double else ⟨1, 1, 0⟩)
    else
      let hh := h * h % prime
      let hhh := h * hh % prime
      let x := minus (minus (r * r % prime) hhh) (2 * u * hh)
      { x := x, y := minus (r * minus (u * hh % prime) x % prime) (t * hhh), z := h * a.z % prime * b.z % prime }

/-- u times one point plus v times another, by the low `n` bits of u and v. -/
def combine (p q both : Point) (u v : Nat) : Nat → Point → Point
  | 0, r => r
  | n + 1, r =>
    let r := r.double
    combine p q both u v n
      (match u.testBit n, v.testBit n with
        | true, true => r.add both
        | true, false => r.add p
        | false, true => r.add q
        | false, false => r)

/-- A power modulo the order, by the low `n` bits of the exponent. -/
def power (a e : Nat) : Nat → Nat → Nat
  | 0, r => r
  | n + 1, r => power a e n (if e.testBit n then r * r % order * a % order else r * r % order)

/-- The signature (r, s) of a digest by the key (x, y) is valid. -/
def valid (x y digest r s : Nat) : Bool :=
  let onCurve := decide (x < prime) && decide (y < prime) && (y * y % prime == (x * x % prime * x + coeff + minus 0 (3 * x)) % prime)
  let w := power s (order - 2) 384 1
  let p : Point := ⟨baseX, baseY, 1⟩
  let q : Point := ⟨x, y, 1⟩
  let t := combine p q (p.add q) (digest * w % order) (r * w % order) 384 ⟨1, 1, 0⟩
  let zz := t.z * t.z % prime
  onCurve && decide (0 < r) && decide (r < order) && decide (0 < s) && decide (s < order) && t.z != 0
    && (t.x == r * zz % prime || (decide (r + order < prime) && t.x == (r + order) * zz % prime))

end Sys2Proof.Machine.Ecdsa
end

