-- ==== Sys2Proof/Machine/Platform.lean ====
section
/-!
DEFINITION. Plain register writes (00 R9; 21 R329), resets, bring-up and readiness (24 R365 to R368), power and heat (24 R369 to
R372), firmware, measurements and attestation (24 R373 to R377).
-/

namespace Sys2Proof.Machine

/-! ### Writes to registers without behaviour of their own (00 R9) -/

/-- The fields of a word of a function's space that a write stores: those RW for the function, and those RW in the physical
function's view. Fields whose write does something are events of their own. -/
def fnFields (off : Nat) : List (Nat × Nat) × List (Nat × Nat) :=
  match off with
  | 0x800 | 0x808 => ([(63, 12)], [])
  | 0x810 => ([(8, 0)], [])
  | 0x818 => ([(63, 32)], [])
  | 0x900 => ([], [(47, 21)])
  | 0xA00 | 0xC00 | 0xC50 => ([], [(47, 12)])
  | 0xB00 => ([], [(47, 20)])
  | 0xB10 => ([], [(47, 16)])
  | 0xC60 => ([], [(47, 0)])
  | 0xA08 => ([], [(12, 0)])
  | 0xA28 => ([], [(5, 0)])
  | 0xB08 | 0xB18 => ([], [(15, 0)])
  | 0xB20 | 0xC68 => ([], [(31, 0)])
  | 0xB28 => ([], [(32, 0)])
  | 0xC08 | 0xC20 => ([(47, 12)], [])
  | 0xE00 => ([(47, 18)], [])
  | 0xC10 => ([(8, 8), (3, 0)], [])
  | 0xC18 => ([(63, 32)], [])
  | 0xC28 => ([(3, 0)], [])
  | 0xD80 => ([], [(0, 0)])
  | 0xE08 | 0xE18 | 0xE20 | 0xE28 | 0xE30 => ([], [(63, 0)])
  | 0xE10 => ([], [(32, 0)])
  | 0xF00 | 0xF08 | 0xF10 | 0xF18 | 0xF20 | 0xF28 => ([(63, 0)], [])
  | 0xF30 => ([(47, 10)], [])
  | _ => if 0x3E000 ≤ off ∧ off < 0x3E080 ∧ off % 8 = 0 then ([(63, 0)], []) else ([], [])

/-- The RW fields of a word of the blocks that only the physical function has. -/
def pfFields (off : Nat) : List (Nat × Nat) :=
  if off % 8 ≠ 0 then []
  else if 0x40000 ≤ off ∧ off < 0x41840 then [(63, 0)]
  else if 0x42008 ≤ off ∧ off < 0x42100 then [(15, 0)]
  else if 0x42100 ≤ off ∧ off < 0x42408 then [(15, 0)]
  else if off = 0x50000 then [(7, 0)]
  else if 0x50100 ≤ off ∧ off < 0x501C0 then [(1, 1)]
  else if 0x51000 ≤ off ∧ off < 0x51800 then [(23, 0)]
  else if 0x52000 ≤ off ∧ off < 0x52200 then (if off % 16 = 0 then [(63, 60), (55, 48), (40, 34)] else [(63, 0)])
  else if off = 0x58000 then [(47, 12)]
  else if off = 0x58008 ∨ off = 0x58010 then [(47, 28)]
  else if off = 0x60000 ∨ off = 0x92000 then [(31, 0)]
  else if off = 0x71010 then [(15, 0)]
  else if off = 0x72100 then [(7, 0)]
  else if 0x80000 ≤ off ∧ off < 0x88000 then
    (if off % 32 = 0 then [(63, 0)] else if off % 32 = 8 then [(54, 0)] else [(47, 0)])
  else if 0x89000 ≤ off ∧ off < 0x89400 then (if off % 16 = 0 then [(47, 16)] else [(54, 48), (47, 16)])
  else if 0x93000 ≤ off ∧ off < 0x93308 then [(47, 0)]
  else []

/-- Store some fields of a written value in a register. -/
def State.storeFields (s : State) (off : Nat) (fields : List (Nat × Nat)) (v : Word) : State :=
  s.setReg off (fields.foldl (fun w q => w.put q.1 q.2 (v.field q.1 q.2)) (s.reg off))

/-- What a read of a word of BAR0 gives: CAPn in every function's space (16 R266), the counts of the range tables (22 R343), zero
in the reserved bits of a partition record (21 R330), all ones of a function that is not there (log 33). -/
def State.busRead (s : State) (f : Nat) (pf : Bool) (off : Nat) : Word :=
  if 96 < f ∨ !(pf || s.barOpen f) then BitVec.allOnes 64
  else if off < 0x200 ∧ off % 8 = 0 then BitVec.ofNat 64 (s.fuse.cap (off / 8))
  else if off < 0x40000 then s.freg f off
  else if !pf then 0
  else if 0x74000 ≤ off ∧ off < 0x75000 then
    BitVec.ofNat 64 (ofBytes ((List.range 8).map fun i => Config.certificate (Store.get 0 s.meas 0) (off - 0x74000 + i)))
  else if off = 0x60008 then BitVec.ofNat 64 s.rtSplit
  else if off = 0x60010 then BitVec.ofNat 64 s.rtEvict
  else if 0x40000 ≤ off ∧ off < 0x41840 then
    let w := s.reg off
    match off % 64 / 8 with
    | 0 => (w.put 62 56 0).put 47 40 0
    | 1 => (w.put 63 42 0).put 31 10 0
    | 6 => 0
    | 7 => 0
    | _ => w
  else s.reg off

/-- Unmasking an entry sends the message that is pending (22 R347; log 32). -/
def State.sendPending (s : State) (f v : Nat) : State :=
  if (s.freg f 0x3F000).getLsbD v && !s.masked f v then
    { s.setFreg f 0x3F000 ((s.freg f 0x3F000).put v v 0) with messages := s.messages ++ [(f, v)] }
  else s

/-- A write to a function's space. The log's place is fixed while the partition is neither running nor saved, and changing it
discards the checkpoint (19 R312); MODE takes effect at the next launch if one is running (18 R303). -/
def State.writeFn (s : State) (f : Nat) (pf : Bool) (off : Nat) (v : Word) : State :=
  let q := fnFields off
  let t := s.storeFields (fnBase f + off) (q.1 ++ if pf then q.2 else []) v
  if off = 0xB00 ∨ off = 0xB08 ∨ off = 0xB10 ∨ off = 0xB18 then
    if s.pstat f ≠ 0 ∧ s.pstat f ≠ 4 then s
    else if t.freg f off = s.freg f off then t
    else t.modFn f fun x => { x with ckpt := none, logBad := false }
  else if off = 0xA28 ∧ !(s.launches.any fun l => l.2.fn == f && !l.2.completed) then
    t.modFn f fun x => { x with mode := t.ffield f 0xA28 5 0 }
  else if 0x3E000 ≤ off ∧ off < 0x3E080 then t.sendPending f ((off - 0x3E000) / 16)
  else t

/-- The HDM decoder of a port is committed, refused with its error bit if the range meets the other port's (22 R348). -/
def State.commitDecoder (s : State) (port base size : Nat) : State :=
  let meets := s.decoders.any fun q => q.1 != port && decide (base < q.2.1 + q.2.2) && decide (q.2.1 < base + size)
  let errs := s.decoderErr.filter (· != port)
  if size = 0 then { s with decoders := s.decoders.erase port, decoderErr := errs }
  else if meets then { s with decoderErr := errs ++ [port] }
  else { s with decoders := s.decoders.put port (base, size), decoderErr := errs }

/-- Standard configuration registers that the spec names without a place (log 33): VF Enable and VF MSE, NumVFs, AtomicOp
Requester Enable, the ports' HDM decoders in units of 256 MiB. -/
def State.writeConfig (s : State) (f off : Nat) (v : Word) : State :=
  match off with
  | 0 =>
    if f ≠ 0 then s
    else
      let s := { s with vfMse := v.field 3 3 == 1 }
      if v.field 0 0 = 0 then s.clearVfs else { s with vfEnable := true }
  | 8 =>
    let n := v.field 15 0
    if f ≠ 0 ∨ s.vfEnable ∨ 96 < n then s
    else { (List.range (s.numVFs - n)).foldl (fun s i => s.disable (n + i + 1)) s with numVFs := n }
  | 16 => s.modFn f fun x => { x with atomReq := v.field 6 6 == 1 }
  | 40 => if f = 0 then s.commitDecoder 0 (v.field 31 0 * 2 ^ 28) (v.field 63 32 * 2 ^ 28) else s
  | 48 => if f = 0 then s.commitDecoder 1 (v.field 31 0 * 2 ^ 28) (v.field 63 32 * 2 ^ 28) else s
  | _ => s

/-- What a read of one gives: beside those, TotalVFs and InitialVFs 96, First VF Offset 1, VF Stride 1 (21 R329), the decoders'
error bits; the capability bits of a feature that 22 R344 does not list read 0. -/
def State.configRead (s : State) (f off : Nat) : Word :=
  let decoder := fun port =>
    let q := (s.decoders.find? port).getD (0, 0)
    BitVec.ofNat 64 (q.1 / 2 ^ 28 + q.2 / 2 ^ 28 * 2 ^ 32)
  if off = 16 then BitVec.ofNat 64 ((s.fn f).atomReq.toNat * 2 ^ 6)
  else if f ≠ 0 then 0
  else
    match off with
    | 0 => BitVec.ofNat 64 (s.vfEnable.toNat + 8 * s.vfMse.toNat)
    | 8 => BitVec.ofNat 64 s.numVFs
    | 24 => BitVec.ofNat 64 (96 + 96 * 2 ^ 16)
    | 32 => BitVec.ofNat 64 (1 + 2 ^ 16)
    | 40 => decoder 0
    | 48 => decoder 1
    | 56 => BitVec.ofNat 64 ((s.decoderErr.map fun p => 2 ^ p).sum)
    | _ => 0

/-- A write to the physical function's blocks. -/
def State.writePf (s : State) (off : Nat) (v : Word) : State :=
  let t := s.storeFields off (pfFields off) v
  if off = 0x50000 then
    if (List.range 24).any fun p => (s.reg (portReg p)).field 0 0 == 1 then s else t
  else if 0x50100 ≤ off ∧ off < 0x501C0 ∧ (t.reg off).field 1 1 = 0 then t.setReg off ((t.reg off).put 0 0 0)
  else t

def execRegisterWrite (f : Nat) (pf : Bool) (off : Nat) (v : BitVec 64) (s : State) : Outcome :=
  .next <|
    if 96 < f then s
    else if 2 ^ 32 ≤ off then s.writeConfig f (off - 2 ^ 32) v
    else if off < 0x40000 then (if pf || s.barOpen f then s.writeFn f pf off v else s)
    else if pf then s.writePf off v
    else s

/-! ### Firmware (24 R373, R374) -/

/-- An image is signed with the key whose digest is fused (24 R373; log 79). -/
def imageSigned (i : FwImage) (vendor : BitVec 384) : Bool :=
  Sha.sha384 (Sha.beBytes 96 i.key.toNat) == vendor
    && Ecdsa.valid (i.key.toNat / 2 ^ 384) (i.key.toNat % 2 ^ 384) i.digest.toNat i.r.toNat i.s.toNat

/-- ECODE of an image: its signature, then its version against the fused counter. -/
def State.imageError (s : State) (i : FwImage) : Nat :=
  if !imageSigned i s.fuse.vendor then 2 else if i.version.toNat < s.fwCounter then 3 else 0

/-- The units that run an image or wait for it, by ready bit: every die's scheduler core for the first stage, the monitor and
the scheduler image; the slices' service cores; the chiplet. -/
def fwUnits (stage : Nat) : List Nat :=
  let dies := (List.range 8).map (24 + ·)
  let slices := (List.range 12).map (12 + ·)
  if stage ≤ 1 then dies ++ slices ++ [37]
  else if stage = 2 then dies
  else if stage = 3 then slices
  else if stage = 4 then [37]
  else []

/-- M extended by a digest. -/
def extendBy (m d : BitVec 384) : BitVec 384 := Sha.sha384 (Sha.digestBytes m ++ Sha.digestBytes d)

/-- A unit fails to come up; the first failure is reported, each is logged (24 R366, R377). -/
def State.failUnit (s : State) (unit code : Nat) : State :=
  let s := { s with failed := s.failed ++ [unit], bmcLog := s.bmcLog ++ [(unit, code)] }
  if (s.reg 0x70010).field 7 0 = 0 then s.setReg 0x70010 (BitVec.ofNat 64 (unit * 2 ^ 56 + code)) else s

/-- Load the images at a reset: an accepted one runs and is measured; the counter advances to the highest version. Where no
first stage runs, nothing that it verifies does: every image but the management controller's (24 R373). -/
def State.loadFirmware (s : State) (images : List FwImage) : State :=
  let first := images.any fun i => i.stage == 0 && s.imageError i == 0
  let run := images.filter fun i => (first || i.stage == 5) && s.imageError i == 0
  let bad := images.filter fun i => s.imageError i != 0
  let s' := { s with
    loaded := images, staged := []
    meas := run.foldl (fun (m : Store (BitVec 384)) i => Store.set 0 m i.stage (extendBy (Store.get 0 m i.stage) i.digest)) s.meas
    fwCounter := run.foldl (fun n i => max n i.version.toNat) s.fwCounter }
  bad.foldl (fun t i => (fwUnits i.stage).foldl (fun t u => if t.failed.contains u then t else t.failUnit u (s.imageError i)) t) s'

/-- The staged images in place of those loaded for their stages, by stage. -/
def State.images (s : State) : List FwImage :=
  (List.range 6).filterMap fun st =>
    ((s.staged.reverse.find? fun i => i.stage == st).or (s.loaded.find? fun i => i.stage == st))

def execFirmwareStaging (img : FwImage) (s : State) : Outcome :=
  .next (if img.stage < 6 then { s with staged := s.staged ++ [img] } else s)

/-! ### Resets (24 R365, R367) -/

/-- What a reset leaves: the fuses, the controller's log, memory of the host; staged firmware is loaded. -/
def State.afterReset (s : State) (hostpkgs : BitVec 3) (splithost : Bool) : State :=
  let host := fun k => keySpace k == 1 || keySpace k == 2
  let t := { State.reset with
    tick := s.tick
    handle := s.handle
    fuse := s.fuse
    fwCounter := s.fwCounter
    bmcLog := s.bmcLog
    loaded := s.loaded
    staged := s.staged
    mem := Store.keep s.mem fun k _ => host k }
  (t.setReg 0x70008 (BitVec.ofNat 64 (splithost.toNat * 2 ^ 12 + hostpkgs.toNat * 2 ^ 8))).loadFirmware s.images

def execColdReset (hostpkgs : BitVec 3) (splithost : Bool) (s : State) : Outcome := .next (s.afterReset hostpkgs splithost)

/-- HBM training results survive. -/
def execWarmReset (hostpkgs : BitVec 3) (splithost : Bool) (s : State) : Outcome :=
  let t := s.afterReset hostpkgs splithost
  .next (t.setReg 0x70000 ((t.reg 0x70000).put 11 0 ((s.reg 0x70000).field 11 0)))

/-! ### Readiness (24 R366, R368) -/

/-- A bit of the readiness register that a unit sets when it comes up; a host port's comes with its training. -/
def unitBit (b : Nat) : Bool := decide (b < 24) || (decide (24 ≤ b) && decide (b < 36)) || b == 37 || b == 40

def execUnitReady (bit : Nat) (s : State) : Outcome :=
  .next (if unitBit bit && !s.failed.contains bit then (s.setReg 0x70000 ((s.reg 0x70000).put bit bit 1)).release else s)

def execUnitBringupFailure (unit code : BitVec 8) (s : State) : Outcome :=
  .next <|
    let u := unit.toNat
    if (unitBit u || u == 38 || u == 39) && (s.reg 0x70000).field u u == 0 && !s.failed.contains u then s.failUnit u code.toNat
    else s

/-! ### Power and current (24 R369, R370) -/

/-- The package's power limit. -/
def State.powerLimit (s : State) : Nat := min ((s.reg 0x71000).field 13 0) ((s.reg 0x71008).field 13 0)

/-- FREQ of every compute die: the controller's clock, or the floor for one that is hot. -/
def State.setFreqs (s : State) : State :=
  (List.range 8).foldl (fun (s : State) d => s.setReg (0x71040 + 8 * d) (BitVec.ofNat 64 (if s.hot.contains d then 300 else s.clock))) s

def State.throttled (s : State) : State := s.setReg 0x71080 (s.reg 0x71080 + 1)

/-- The end of an averaging window: above the limit in this window and the one before, the clock goes down by 25 MHz to 300;
below 95 % of it, up by 25 to 1200. -/
def execPowerWindowEnd (watts : BitVec 14) (s : State) : Outcome :=
  .next <|
    let limit := s.powerLimit
    let before := (s.reg 0x71020).field 13 0
    let s := s.setReg 0x71020 (BitVec.ofNat 64 watts.toNat)
    if limit < before ∧ limit < watts.toNat ∧ 300 < s.clock then
      { s with clock := max 300 (s.clock - 25) }.setFreqs.throttled
    else if 100 * watts.toNat < 95 * limit ∧ s.clock < 1200 then { s with clock := min 1200 (s.clock + 25) }.setFreqs
    else s

def execCurrentLimitExceeded (amps : BitVec 15) (s : State) : Outcome :=
  .next <|
    let s := s.setReg 0x71028 (BitVec.ofNat 64 amps.toNat)
    if (s.reg 0x71018).field 14 0 < amps.toNat then { s with halved := true } else s

def execCurrentBelowIlim (amps : BitVec 15) (s : State) : Outcome :=
  .next <|
    let s := s.setReg 0x71028 (BitVec.ofNat 64 amps.toNat)
    if amps.toNat < (s.reg 0x71018).field 14 0 then { s with halved := false } else s

def execPlimWrite (v : BitVec 64) (s : State) : Outcome :=
  .next (s.setReg 0x71000 (BitVec.ofNat 64 (min (Word.field v 13 0) (min ((s.reg 0x71008).field 13 0) 10000))))

def execIlimWrite (v : BitVec 64) (s : State) : Outcome :=
  .next (s.setReg 0x71018 (BitVec.ofNat 64 (min (Word.field v 14 0) 20000)))

def execPlimcapWrite (v : BitVec 14) (s : State) : Outcome := .next (s.setReg 0x71008 (BitVec.ofNat 64 v.toNat))

/-! ### Heat (24 R371, R372): eighths of a degree -/

def State.setTemp (s : State) (u : Nat) (t : BitVec 16) : State := s.setReg (0x72000 + 8 * u) (BitVec.ofNat 64 t.toNat)

/-- A compute or hub die at 105 °C runs at the floor; a compute die's clock is in FREQ. -/
def execDieOvertemp (u : Nat) (t : BitVec 16) (s : State) : Outcome :=
  .next <|
    if 12 ≤ u then s
    else
      let s := s.setTemp u t
      if t.toInt < 8 * 105 ∨ s.hot.contains u then s
      else
        let s := { s with hot := s.hot ++ [u] }
        if u < 8 ∧ 300 < s.clock then s.setFreqs.throttled else s

def execDieTemperatureRecovered (u : Nat) (t : BitVec 16) (s : State) : Outcome :=
  .next <|
    if 12 ≤ u then s
    else
      let s := s.setTemp u t
      if t.toInt ≤ 8 * 100 then { s with hot := s.hot.filter (· != u) }.setFreqs else s

/-- A stack at 85 °C or above refreshes at double rate, below it no longer. -/
def execHbmOvertemp (u : Nat) (t : BitVec 16) (s : State) : Outcome :=
  .next <|
    if u < 12 ∨ 24 ≤ u then s
    else
      let s := s.setTemp u t
      if t.toInt < 8 * 85 then { s with hot := s.hot.filter (· != u) }
      else if s.hot.contains u then s
      else { s with hot := s.hot ++ [u] }

def isColdReset (i : Instr) : Bool :=
  match i with
  | .coldReset _ _ => true
  | _ => false

/-- At 115 °C power is removed: all state is lost but the fuses and the controller's log. Nothing happens until the cold reset that
follows, which the management controller raises (log 80). -/
def execThermalTrip (u : Nat) (t : BitVec 16) (s : State) : Outcome :=
  .next <|
    if 25 ≤ u ∨ t.toInt < 8 * 115 then s
    else
      { State.reset with
        tick := s.tick, handle := s.handle, fuse := s.fuse, fwCounter := s.fwCounter, loaded := s.loaded, staged := s.staged
        mem := Store.keep s.mem fun k _ => keySpace k == 1 || keySpace k == 2
        agenda := s.agenda.dropWhile fun i => !isColdReset i
        tripped := some (BitVec.ofNat 3 ((s.reg 0x70008).field 10 8), (s.reg 0x70008).field 12 12 == 1)
        bmcLog := s.bmcLog ++ [(u, 0)] }

/-- A unit at or above TWARN raises the management controller's warning. -/
def execTwarnCrossed (u : Nat) (t : BitVec 16) (s : State) : Outcome :=
  .next <|
    if 25 ≤ u then s
    else
      let s := s.setTemp u t
      if 8 * ((s.reg 0x72100).field 7 0 : Int) ≤ t.toInt then { s with warned := s.warned ++ [u] } else s

/-! ### Measurements and attestation (24 R374 to R376) -/

/-- A report in progress meets an extend of register `i`, which held `m` (24 R376). -/
def Fn.meets (i : Nat) (m : BitVec 384) (x : Fn) : Fn := if x.attesting then { x with extended := x.extended ++ [(i, m)] } else x

/-- MEXT of M6 or M7; 8 + f: MF of function f, by the monitor when it loads the function's plug-in. -/
def execMeasurementExtend (i : Nat) (d : BitVec 384) (s : State) : Outcome :=
  .next <|
    if i = 6 ∨ i = 7 then
      let m := Store.get 0 s.meas i
      { s with meas := Store.set 0 s.meas i (extendBy m d), fns := Store.mapVals s.fns fun _ => Fn.meets i m }
    else if 8 ≤ i ∧ i ≤ 104 then s.modFn (i - 8) fun x => { Fn.meets i x.mf x with mf := extendBy x.mf d }
    else s

/-- A report is asked for. Under ATTEST, as it is in effect (18 R303), the request raises vector 6 instead, and is pending until the
host's driver relays it to the physical function's block: the next request for the function (log 46). -/
def execAttestGo (f : Nat) (s : State) : Outcome :=
  .next <|
    if s.ffield f 0xF38 0 0 = 1 ∨ !s.barOpen f then s
    else if (s.fn f).mode / 16 % 2 = 1 ∧ !(s.fn f).attestAsked then
      (s.modFn f fun x => { x with attestAsked := true }).raiseVector f 6
    else (s.setFreg f 0xF38 1).modFn f fun x => { x with attesting := true, attestAsked := false, extended := [] }

/-- What a report says of register `i`, which holds `m`: that, or what it held before an extend that the report in progress has
met, a free choice for each register (24 R376; log 70). -/
def State.reported (s : State) (f i : Nat) (m : BitVec 384) : BitVec 384 :=
  let olds := ((s.fn f).extended.filter fun q => q.1 == i).map (·.2)
  (olds[(Config.freeValue (s.tick + i)).toNat % (olds.length + 1)]?).getD m

/-- The 512 bytes of a report that are signed. -/
def State.reportBody (s : State) (f : Nat) : List Byte :=
  [BitVec.ofNat 8 f, BitVec.ofNat 8 s.fuse.step] ++ List.replicate 14 0
    ++ ((List.range 6).flatMap fun i => bytesOf 8 (s.freg f (0xF00 + 8 * i)).toNat)
    ++ bytesOf 8 (s.fuse.cap 1) ++ bytesOf 8 (s.fuse.cap 2)
    ++ ((List.range 8).flatMap fun i => Sha.digestBytes (s.reported f i (Store.get 0 s.meas i)))
    ++ Sha.digestBytes (s.reported f (8 + f) (s.fn f).mf)

/-- The signed report (log 15). -/
def State.report (s : State) (f : Nat) : List Byte :=
  let body := s.reportBody f
  body ++ Sha.beBytes 96 (Config.signature (Store.get 0 s.meas 0) (Sha.sha384 body)).toNat

def execAttestDone (f : Nat) (s : State) : Outcome :=
  .next <|
    if !(s.fn f).attesting then s
    else
      let past := fun (s : State) => { s.modFn f fun x => { x with attesting := false, extended := [] } with tick := s.tick + 128 }
      if s.heldVa f (s.ffield f 0xF30 47 10 * 1024) then s
      else match s.translate f (s.ffield f 0xF30 47 10 * 1024) .write with
      | .fault _ => (past s).setFreg f 0xF38 (2 ^ 8)
      | .ok w => ((past s).store f w.key (s.report f) true).setFreg f 0xF38 2

end Sys2Proof.Machine
end

