-- ==== Sys2Proof/Machine/RunLists.lean ====
section
/-!
DEFINITION. Notifies and the doorbell-miss tables (18 R290, R291), the run lists of the scheduler cores: quanta and stealing
(18 R300 to R302), the control registers of queues (18 R296, R297), and host queue scheduling (18 R303).
-/

namespace Sys2Proof.Machine

/-! ### Notifies -/

/-- The queue is scheduled by the host (18 R303). -/
def State.hostQueues (s : State) (f : Nat) : Bool := (s.fn f).mode / 2 % 2 == 1

/-- The die on which a queue that is not mapped is served: its front end's, or die 0 for a continuation queue. -/
def State.homeDie (s : State) (f q : Nat) : Nat :=
  match s.privOf f q with
  | some w => if privKind w = 1 then 0 else privFE w / 16
  | none => 0

/-- A new TAIL for a queue that is not mapped; more than a ring of records stops it. -/
def State.tailInMemory (s : State) (f q tail : Nat) : State :=
  match s.qcbAt f q with
  | none => s
  | some a =>
    if overrun (privSize (s.shadowPriv f q)) ((s.qcbWord a 4).field 63 32) tail then s.stopQueue f q 3
    else s.setQcb f a 4 31 0 tail

/-- A notify that finds the queue's write-back not complete: TAIL and NPEND are written back with it (18 R291). -/
def State.pendNotify (s : State) (f q tail : Nat) : State :=
  match s.qcbAt f q with
  | some a => (s.tailInMemory f q tail).setQcb f a 5 0 0 1
  | none => s

/-- An entry of a doorbell-miss table; entries of one queue merge, and a full table sets its overflow bit, the TAIL being
written to the QCB. -/
def State.missed (s : State) (f q tail : Nat) : State :=
  let die := s.homeDie f q
  let same := fun (m : Miss) => m.die == die && m.fn == f && m.queue == q
  if s.misses.any same then { s with misses := s.misses.map fun m => if same m then { m with tail := tail } else m }
  else if (s.misses.filter fun m => m.die == die).length < 512 then
    { s with misses := s.misses ++ [{ die := die, fn := f, queue := q, tail := tail }] }
  else
    let s := s.tailInMemory f q tail
    { s with overflow := if s.overflow.contains die then s.overflow else s.overflow ++ [die] }

/-- Notifies forwarded and not yet mapped; NTFYQ shows the oldest, 0xFFFF for none (22 R347). -/
def State.setNotifies (s : State) (f : Nat) (qs : List Nat) : State :=
  (s.modFn f fun x => { x with ntfyq := qs }).setFreg f 0xA38 (BitVec.ofNat 64 (qs.headD 0xFFFF))

/-- A notify covers entries from here on in the order (23 R360). -/
def State.covered (s : State) (f q tail : Nat) : State :=
  { s with covers := s.covers ++ [{ fn := f, queue := q, tail := tail, place := s.order.length }] }

/-- A notify: TAIL of a mapped queue, TAIL with NPEND of one being unmapped, an entry of a miss table, or an event for the
host. -/
def State.notify (s : State) (f q tail : Nat) : State :=
  if !s.fnEnabled f then s
  else if (s.qcbAt f q).isNone then s.count f 0xD10
  else
    let t := match s.slot? f q with
      | some x => if overrun (privSize x.priv) x.head tail then s.stopQueue f q 3 else (s.covered f q tail).setTail x tail
      | none =>
        let s := s.covered f q tail
        if s.hostQueues f then s.tailInMemory f q tail
        else if s.unmapping.contains (f, q) then s.pendNotify f q tail
        else s.missed f q tail
    if s.hostQueues f then (t.setNotifies f ((t.fn f).ntfyq ++ [q])).raiseVector f 4 else t

def execNotify (f q : Nat) (v : BitVec 64) (s : State) : Outcome :=
  .next (if s.barOpen f then s.notify f q (v.toNat % 2 ^ 32) else s)

/-- Under host scheduling the host maps a queue. -/
def execMapq (f q : Nat) (s : State) : Outcome :=
  .next <|
    if s.hostQueues f ∧ s.fnEnabled f then
      (s.loadQueue f q (s.homeDie f q)).setNotifies f ((s.fn f).ntfyq.erase q)
    else s

/-- Queues of the functions that have front ends on a die, not mapped, that a predicate of the QCB picks. -/
def State.unmappedOn (s : State) (die : Nat) (p : Nat → Bool) : List (Nat × Nat) :=
  (List.range 97).flatMap fun f =>
    if s.hostQueues f then []
    else (List.range (s.ffield f 0xA08 12 0)).filterMap fun q =>
      match s.qcbAt f q with
      | some a => if (s.slot? f q).isNone && s.homeDie f q == die && p a then some (f, q) else none
      | none => none

/-- A queue's control block does not say that it has stopped. -/
def State.startable (s : State) (f q : Nat) : Bool := (s.qcbAt f q).isSome && !s.hasStopped f q

/-- The scheduler serves its miss table: the oldest entry, which stays while no slot is free; or after an overflow, and for
queues with NPEND, every queue with work (18 R291). Of a queue mapped meanwhile the slot has that TAIL or a later one. -/
def execDoorbellMissService (die : Nat) (s : State) : Outcome :=
  .next <|
    let s := { s with unmapping := s.unmapping.filter fun q => s.homeDie q.1 q.2 != die }
    match s.misses.find? fun m => m.die == die with
    | some m =>
      let t := { s with misses := s.misses.filter fun x => !(x.die == die && x.fn == m.fn && x.queue == m.queue) }
      match s.slot? m.fn m.queue with
      | some x =>
        if ringCount m.tail x.head ≤ x.count then t
        else if overrun (privSize x.priv) x.head m.tail then t.stopQueue m.fn m.queue 3 else t.setTail x m.tail
      | none =>
        let t := t.tailInMemory m.fn m.queue m.tail
        if t.startable m.fn m.queue && (t.freeSlot die).isNone then s else t.loadQueue m.fn m.queue die
    | none =>
      let work := fun (s : State) a => (s.qcbWord a 4).field 31 0 != (s.qcbWord a 4).field 63 32
      let pend := fun a => (s.qcbWord a 5).field 0 0 == 1
      let full := s.overflow.contains die
      let qs := s.unmappedOn die fun a => pend a || (full && work s a)
      let t := qs.foldl (fun s q => s.loadQueue q.1 q.2 die) s
      if (t.unmappedOn die (work t)).any fun q => t.startable q.1 q.2 then t
      else { t with overflow := t.overflow.filter (· != die) }

/-! ### Quanta -/

/-- The plug-in of a function may set its queues' weights, between 1 and WCAP; whether and to what is its own (log 19). -/
def State.plugin (s : State) (x : Slot) (n : Nat) : Slot :=
  let v := (Config.freeValue (s.tick + n)).toNat
  let cap := max 1 (((s.partRecord x.fn).getD 1 0).field 41 32)
  if s.hostQueues x.fn ∨ v % 2 = 0 then x
  else
    let w := v / 2 % cap + 1
    { x with priv := x.priv.zipIdx.map fun q => if q.2 = 1 then q.1.put 33 24 w else q.1 }

/-- Launches that a predicate picks end with a status. -/
def State.endWhere (s : State) (status : Nat) (p : Nat → Launch → Bool) : State :=
  (s.launches.filter fun q => p q.1 q.2 && q.2.ended.isNone).foldl (fun s q => s.endLaunch q.1 status 0 0) s

/-- An aborted queue leaves its slot, and its launches end as ABORTED. -/
def State.takeAborts (s : State) (die : Nat) : State :=
  let t := (s.slots.filter fun x => x.die == die && s.aborted x.fn x.queue).foldl (fun (t : State) x =>
    t.unmap x) s
  t.endWhere 4 fun _ l => s.aborted l.fn l.queue && s.homeDie l.fn l.queue == die

/-- A quantum of waiting for the placeable teams of a launch. -/
def State.ageTeams (s : State) (n : Nat) (l : Launch) : Store Nat :=
  let place := s.launchOpen n l && (s.findPlace l.want).isSome
  (l.todo.filter fun t => place && (s.consumer l t).1).foldl
    (fun (m : Store Nat) t => m.put t ((l.waited.find? t).getD 0 + 1)) []

/-- A member of a group has no work: its holder gives up its turn (21 R336). -/
def State.idleMember (s : State) (f : Nat) : Bool :=
  (s.gangsOf f).isEmpty && !(s.launches.any fun q => q.2.fn == f && !q.2.completed)
    && s.slots.all fun x => x.fn != f || x.count == 0

/-- A quantum of the home scheduler core of a group's holder, counted in its turn while it is not switched out; one that the
physical function has pre-empted keeps its turn's length. -/
def State.countTurns (s : State) (die : Nat) : State :=
  let here := fun g =>
    let h := s.holder g
    s.tsGroup h == g && !(s.fn h).turnedOut && (s.clustersOf h).head?.any fun c => s.fuse.dieOf c == die
  { s with turnsUsed := (((List.range 31).map (· + 1)).filter here).foldl (fun (m : Store Nat) g =>
      Store.put m g (if s.idleMember (s.holder g) then s.turnLength (s.holder g) else Store.get 0 m g + 1)) s.turnsUsed }

/-- A quantum of a die's scheduler: waiting teams age, queues without records are idle, plug-ins run, aborted queues are
noticed, and bitmap words that cannot be read are read again (18 R298, R300, R302). -/
def execSchedulerQuantum (die : Nat) (s : State) : Outcome :=
  .next <|
    let here := fun (x : Slot) => x.die == die
    let busy := fun (x : Slot) => x.count != 0 || s.launches.any fun q => q.2.fn == x.fn && q.2.queue == x.queue
    let works := fun f => s.slots.any fun x => here x && x.fn == f && busy x
    -- whether a plug-in is stopped by the monitor is its own (log 19)
    let stopped := fun f => !s.hostQueues f && (Config.freeValue (s.tick + s.slots.length + f)).getLsbD 0
    let calls := (List.range 97).filter fun f => works f && stopped f
    let slots := s.slots.zipIdx.map fun q =>
      let x := q.1
      let y := if works x.fn && !stopped x.fn then s.plugin x q.2 else x
      { y with idle := if !here x then x.idle else if x.count = 0 then x.idle + 1 else 0 }
    let mine := fun (l : Launch) => (s.slot? l.fn l.queue).any here
    let launches := Store.mapVals s.launches fun n l => if mine l then { l with waited := s.ageTeams n l } else l
    let t := calls.foldl (fun t f => t.count f 0xD30)
      { s with unmapping := s.unmapping.filter fun q => s.homeDie q.1 q.2 != die, slots := slots, launches := launches, lapped := s.lapped.filter (· != die), tick := s.tick + s.slots.length + 97 }
    let t := t.launches.foldl (fun (t : State) q =>
      if q.2.fe / 16 = die ∧ t.launchOpen q.1 q.2 then
        q.2.todo.foldl (fun t team => t.logWords q.2 (t.consumer q.2 team).2) t
      else t) t
    let t := (t.takeAborts die).countTurns die
    -- queue faults that wait for room in the hypervisor's fault queue (20 R322)
    match t.qcbWaiting with
    | [] => t
    | ws :: rest =>
      match t.queueFault 0 [ws] with
      | some (u, _, _) => { u with qcbWaiting := rest }
      | none => t

/-! ### Stealing (18 R301) -/

def nextDie (d : Nat) : Nat := (d + 1) % 8

/-- Messages on their way to a die; a link holds 16. -/
def State.linkRoom (s : State) (die : Nat) : Bool := decide ((s.ring.filter fun m => m.1 == die).length < 16)

def RingMsg.thief : RingMsg → Nat
  | .steal t _ => t
  | .handover t _ _ => t

/-- The scheduler of a die finds a team of its queues to place on its own clusters. -/
def State.findsTeam (s : State) (die : Nat) : Bool :=
  s.launches.any fun q =>
    (s.slot? q.2.fn q.2.queue).any (fun x => x.die == die) && s.launchOpen q.1 q.2
      && (q.2.todo.any fun t => (s.consumer q.2 t).1)
      && (((s.feClusters q.2.fe).filter fun c => s.fuse.dieOf c == die).findSome? (s.findOn q.2.want)).isSome

/-- A die that finds no team for its clusters asks the next die for a queue, one request at a time, and after a full lap waits
for its next quantum. -/
def execStealRequest (die : Nat) (s : State) : Outcome :=
  .next <|
    if 8 ≤ die ∨ s.findsTeam die ∨ (s.ring.any fun m => m.2.thief == die) ∨ s.lapped.contains die
        ∨ !s.linkRoom (nextDie die) then s
    else { s with ring := s.ring ++ [(nextDie die, .steal die 0)] }

/-- A queue that may be handed to a thief: a command queue with records whose front end reaches a cluster of its die. -/
def State.stealable (s : State) (die thief : Nat) (x : Slot) : Bool :=
  x.die == die && privKind x.priv == 0 && x.count != 0 && !s.hostQueues x.fn
    && (s.feClusters (privFE x.priv)).any fun c => s.fuse.dieOf c == thief

/-- The stealable queue with the most untaken records. -/
def State.victim (s : State) (die thief : Nat) : Option Slot :=
  match s.slots.filter (s.stealable die thief) with
  | [] => none
  | x :: r => some (r.foldl (fun a b => if a.count < b.count then b else a) x)

/-- The die's oldest message of the ring: a request is answered or passed on, a handover reaches its thief or is passed on. -/
def execStealHandover (die : Nat) (s : State) : Outcome :=
  .next <|
    match s.ring.find? fun m => m.1 == die with
    | none => s
    | some m =>
      let rest := s.ring.erase m
      let next := nextDie die
      match m.2 with
      | .handover t f q =>
        if t = die then
          if (s.slot? f q).isNone && s.startable f q && (s.freeSlot die).isNone then s
          else { s with ring := rest }.loadQueue f q die
        else if s.linkRoom next then { s with ring := rest ++ [(next, m.2)] } else s
      | .steal t laps =>
        if t = die then { s with ring := rest, lapped := die :: s.lapped }
        else if !s.linkRoom next then s
        else match s.victim die t with
          | some x => { s.unmap x with ring := rest ++ [(next, .handover t x.fn x.queue)] }
          | none => { s with ring := rest ++ [(next, .steal t (laps + 1))] }

/-! ### Control of queues and launches (18 R296, R297; 23 R362) -/

def execLabort (f : Nat) (lid : BitVec 64) (s : State) : Outcome :=
  .next (s.endWhere 4 fun _ l => l.fn == f && l.lid == lid.toNat)

/-- Launches of the tag end if taken, and hold the queue's later ones (23 R363); what TAIL covers of them now is consumed when it
is reached. -/
def execDrain (f : Nat) (v : BitVec 64) (s : State) : Outcome :=
  .next <|
    let q := bitsN v.toNat 15 0
    let tag := bitsN v.toNat 47 32
    let tail := match s.slot? f q, s.qcbAt f q with
      | some x, _ => x.tail
      | none, some a => (s.qcbWord a 4).field 31 0
      | none, none => 0
    if (s.qcbAt f q).isNone then s
    else
      let head := match s.slot? f q, s.qcbAt f q with
        | some x, _ => x.head
        | none, some a => (s.qcbWord a 4).field 63 32
        | none, none => 0
      let d := s.handle
      let mine := fun (l : Launch) => l.fn == f && l.queue == q && l.tag == tag && l.ended.isNone
      let ids := (Store.keep s.launches fun _ l => mine l).keys
      let t := { s.modFn f (fun x =>
        { x with drains := x.drains ++ [{ queue := q, tag := tag, upto := tail, since := d, spent := tail == head }] }) with handle := d + 1 }
      let t := t.endWhere 5 fun _ l => mine l
      { t with launches := Store.mapVals t.launches fun n l => if ids.contains n then { l with drain := some d } else l }

/-- STOPPED and STOPCODE are cleared, and the queue is mapped again. -/
def execQrestart (f q : Nat) (s : State) : Outcome :=
  .next <|
    match s.qcbAt f q with
    | none => s
    | some a =>
      let s := (s.setQcb f a 5 1 1 0).setQcb f a 5 39 32 0
      if s.hostQueues f then s else s.loadQueue f q (s.homeDie f q)

/-- CLOSED of a continuation queue; any other number is ignored and counted. -/
def State.setClosed (s : State) (f q : Nat) (closed : Bool) : State :=
  if !s.barOpen f then s
  else if !s.isContinuation f q then s.count f 0xD10
  else
    let s := match s.slot? f q with
      | some x => s.setSlot { x with closed := closed }
      | none => s
    match s.qcbAt f q with
    | some a => s.setQcb f a 5 2 2 closed.toNat
    | none => s

def execQueueClose (f q : Nat) (s : State) : Outcome := .next (s.setClosed f q true)
def execQueueReopen (f q : Nat) (s : State) : Outcome := .next (s.setClosed f q false)

end Sys2Proof.Machine
end

