-- ==== Sys2Proof/Machine/Scalar.lean ====
section
/-!
DEFINITION. The scalar integer and address instructions (05 R109 to R115). Each runs once per issue, whether or not ACTIVE
holds a lane, on w bits of its sources, and writes its split's scalar file.
-/

namespace Sys2Proof.Machine

/-- a + b. -/
def execSadd (f : Tri) (s : State) : Outcome :=
  s.issue fun c => c.scalar f.ty f.dst (addW f.ty.width (c.ssrc f.a f.ty) (c.ssrc f.b f.ty))

/-- a − b. -/
def execSsub (f : Tri) (s : State) : Outcome :=
  s.issue fun c => c.scalar f.ty f.dst (subW f.ty.width (c.ssrc f.a f.ty) (c.ssrc f.b f.ty))

/-- Low w bits of a × b. -/
def execSmul (f : Tri) (s : State) : Outcome :=
  s.issue fun c => c.scalar f.ty f.dst (mulW f.ty.width (c.ssrc f.a f.ty) (c.ssrc f.b f.ty))

/-- High w bits of the double-width product. -/
def execSmulh (f : Tri) (s : State) : Outcome :=
  s.issue fun c => c.scalar f.ty f.dst (mulHigh f.ty (c.ssrc f.a f.ty) (c.ssrc f.b f.ty))

/-- Quotient, truncated toward zero (05 R113). -/
def execSdiv (f : Tri) (s : State) : Outcome :=
  s.issue fun c => c.scalar f.ty f.dst (divW f.ty (c.ssrc f.a f.ty) (c.ssrc f.b f.ty))

/-- Remainder (05 R113). -/
def execSrem (f : Tri) (s : State) : Outcome :=
  s.issue fun c => c.scalar f.ty f.dst (remW f.ty (c.ssrc f.a f.ty) (c.ssrc f.b f.ty))

/-- a AND b. -/
def execSand (f : Tri) (s : State) : Outcome :=
  s.issue fun c => c.scalar f.ty f.dst (andW (c.ssrc f.a f.ty) (c.ssrc f.b f.ty))

/-- a OR b. -/
def execSor (f : Tri) (s : State) : Outcome :=
  s.issue fun c => c.scalar f.ty f.dst (orW (c.ssrc f.a f.ty) (c.ssrc f.b f.ty))

/-- a XOR b. -/
def execSxor (f : Tri) (s : State) : Outcome :=
  s.issue fun c => c.scalar f.ty f.dst (xorW (c.ssrc f.a f.ty) (c.ssrc f.b f.ty))

/-- a AND NOT b. -/
def execSandn (f : Tri) (s : State) : Outcome :=
  s.issue fun c => c.scalar f.ty f.dst (andnW f.ty.width (c.ssrc f.a f.ty) (c.ssrc f.b f.ty))

/-- Shift left (05 R113). -/
def execSshl (f : Tri) (s : State) : Outcome :=
  s.issue fun c => c.scalar f.ty f.dst (shlW f.ty.width (c.ssrc f.a f.ty) (c.ssrc f.b f.ty))

/-- Logical shift right. -/
def execSshr (f : Tri) (s : State) : Outcome :=
  s.issue fun c => c.scalar f.ty f.dst (shrW f.ty.width (c.ssrc f.a f.ty) (c.ssrc f.b f.ty))

/-- Arithmetic shift right. -/
def execSsra (f : Tri) (s : State) : Outcome :=
  s.issue fun c => c.scalar f.ty f.dst (sraW f.ty.width (c.ssrc f.a f.ty) (c.ssrc f.b f.ty))

/-- The lesser. -/
def execSmin (f : Tri) (s : State) : Outcome :=
  s.issue fun c => c.scalar f.ty f.dst (minW f.ty (c.ssrc f.a f.ty) (c.ssrc f.b f.ty))

/-- The greater. -/
def execSmax (f : Tri) (s : State) : Outcome :=
  s.issue fun c => c.scalar f.ty f.dst (maxW f.ty (c.ssrc f.a f.ty) (c.ssrc f.b f.ty))

/-- 1 if the condition in MOD holds, else 0 (05 R111). -/
def execScmp (f : Tri) (s : State) : Outcome :=
  s.issue fun c => c.scalar f.ty f.dst ((condElem f.ty f.mod.toNat (c.ssrc f.a f.ty) (c.ssrc f.b f.ty)).toNat)

/-- a if c ≠ 0, else b. -/
def execSsel (f : Tri) (s : State) : Outcome :=
  s.issue fun c => c.scalar f.ty f.dst (if (c.ssrc f.c f.ty) ≠ 0 then (c.ssrc f.a f.ty) else (c.ssrc f.b f.ty))

/-- Low w bits of a × b + c. -/
def execSmad (f : Tri) (s : State) : Outcome :=
  s.issue fun c => c.scalar f.ty f.dst (madW f.ty.width (c.ssrc f.a f.ty) (c.ssrc f.b f.ty) (c.ssrc f.c f.ty))

/-- Count of leading zero bits. -/
def execSclz (f : Tri) (s : State) : Outcome :=
  s.issue fun c => c.scalar f.ty f.dst (clzW f.ty.width (c.ssrc f.a f.ty))

/-- Count of one bits. -/
def execSpopc (f : Tri) (s : State) : Outcome :=
  s.issue fun c => c.scalar f.ty f.dst (popW f.ty.width (c.ssrc f.a f.ty))

/-- Field extract (05 R114). -/
def execSbfx (f : Tri) (s : State) : Outcome :=
  s.issue fun c => c.scalar f.ty f.dst (bfxW f.ty (c.ssrc f.a f.ty) (c.ssrc f.b f.ty) (c.ssrc f.c f.ty))

/-- Field insert into the old sD (05 R114). -/
def execSbfi (f : Tri) (s : State) : Outcome :=
  s.issue fun c => c.scalar f.ty f.dst (bfiW f.ty.width (c.ssrc f.a f.ty) (c.ssrc f.b f.ty) (c.ssrc f.c f.ty) ((c.sreg f.dst.sNum).toNat % 2 ^ f.ty.width))

/-- a + imm. -/
def execSaddi (f : Imm) (s : State) : Outcome :=
  s.issue fun c => c.scalar f.ty f.dst (addW f.ty.width (c.ssrc f.a f.ty) (immElem f.ty f.imm 0))

/-- a AND imm. -/
def execSandi (f : Imm) (s : State) : Outcome :=
  s.issue fun c => c.scalar f.ty f.dst (andW (c.ssrc f.a f.ty) (immElem f.ty f.imm 0))

/-- a OR imm. -/
def execSori (f : Imm) (s : State) : Outcome :=
  s.issue fun c => c.scalar f.ty f.dst (orW (c.ssrc f.a f.ty) (immElem f.ty f.imm 0))

/-- a XOR imm. -/
def execSxori (f : Imm) (s : State) : Outcome :=
  s.issue fun c => c.scalar f.ty f.dst (xorW (c.ssrc f.a f.ty) (immElem f.ty f.imm 0))

/-- imm. -/
def execSmovi (f : Imm) (s : State) : Outcome :=
  s.issue fun c => c.scalar f.ty f.dst ((immElem f.ty f.imm 0))

/-- a with bits 16h + 15 : 16h replaced by IMM16. -/
def execSmovhi (f : Imm) (s : State) : Outcome :=
  s.issue fun c => c.scalar f.ty f.dst ((Word.put (BitVec.ofNat 64 (c.ssrc f.a f.ty)) (16 * f.mod.toNat + 15) (16 * f.mod.toNat) f.imm.toNat).toNat)

/-- The address of this instruction + 8 × sext(IMM16). -/
def execSaddpc (f : Imm) (s : State) : Outcome :=
  s.issue fun c => c.scalar f.ty f.dst (addW 64 c.P.pc (wrapInt 64 (8 * signedOf 16 f.imm.toNat)))

/-- 1 if the condition holds for a against imm, else 0. -/
def execScmpi (f : Imm) (s : State) : Outcome :=
  s.issue fun c => c.scalar f.ty f.dst ((condElem f.ty f.mod.toNat (c.ssrc f.a f.ty) (immElem f.ty f.imm 0)).toNat)

end Sys2Proof.Machine
end

