-- ==== Sys2Proof/Machine/Special.lean ====
section
/-!
DEFINITION. The special functions (05 R130, R131). Each computes the magnitude of the exact value as m * 2^e with 900
fraction bits and a mark that more follows; a format of 16 bits or fewer rounds it, a 32-bit format returns the exact value
where it is representable and else a neighbour that Config.upperNeighbour picks (log 6).
-/

namespace Sys2Proof.Machine

/-- Fraction bits of the fixed-point numbers below. -/
def fracBits : Nat := 900

def one : Nat := 2 ^ fracBits

/-- floor(π * 2^900), floor(ln 2 * 2^900) and floor(2/√π * 2^900). -/
def piFix : Nat := 0x3243f6a8885a308d313198a2e03707344a4093822299f31d0082efa98ec4e6c89452821e638d01377be5466cf34e90c6cc0ac29b7c97c50dd3f84d5b5b54709179216d5d98979fb1bd1310ba698dfb5ac2ffd72dbd01adfb7b8e1afed6a267e96ba7c9045f12c7f9924a19947b3916cf70
def ln2Fix : Nat := 0xb17217f7d1cf79abc9e3b39803f2f6af40f343267298b62d8a0d175b8baafa2be7b876206debac98559552fb4afa1b10ed2eae35c138214427573b291169b8253e96ca16224ae8c51acbda11317c387eb9ea9bc3b136603b256fa0ec7657f74b72ce87b19d6548caf5dfa6bd383032486
def twoOverSqrtPi : Nat := 0x120dd750429b6d11ae3a914fed7fd8688281341d7587cea2e7342b06199cc416180eb39f0b24e1e2281806c12d98f35d77a3e9ddc91c394f0e9eedf0efffd84a2a4ac3b98489b8cbd3845e8fef6ff6af92a45e5f27c2d6547a4f46505b5b4e62dd73fd6486de5e4e5585911777503638ea

/-- A magnitude m * 2^e; `more`: the exact value lies strictly above it, below (m + 1) * 2^e. -/
structure Approx where
  m : Nat
  e : Int
  more : Bool

/-- A fixed-point result; a transcendental value is never exact. -/
def Approx.fix (m : Nat) : Approx := ⟨m, -(fracBits : Int), true⟩

/-- m * 2^e as a fixed-point number, cut off below. -/
def toFix (m : Nat) (e : Int) : Nat :=
  let k := e + fracBits
  if 0 ≤ k then m * 2 ^ k.toNat else m / 2 ^ (-k).toNat

/-! ### Series -/

/-- The terms t, t*y/1, t*y*y/2, ... of the exponential series. -/
def expSum (y : Nat) : Nat → Nat → Nat → Nat
  | 0, _, _ => 0
  | fuel + 1, i, t => if t = 0 then 0 else t + expSum y fuel (i + 1) (t * y / one / (i + 1))

/-- e^y for a fixed-point y below 1. -/
def expFix (y : Nat) : Nat := expSum y 400 0 one

/-- Alternating sum of t, t*y/((i+1)(i+2)), ...: sine from i = 1 and t = r, cosine from i = 0 and t = 1, y = r². -/
def trigSum (y : Nat) : Nat → Nat → Nat → Int
  | 0, _, _ => 0
  | fuel + 1, i, t => if t = 0 then 0 else (t : Int) - trigSum y fuel (i + 2) (t * y / one / ((i + 1) * (i + 2)))

/-- Sum of z^(2i+1)/(2i+1), the inverse hyperbolic tangent; `p` is the power, `y` is z². -/
def atanhSum (y : Nat) : Nat → Nat → Nat → Nat
  | 0, _, _ => 0
  | fuel + 1, i, p => if p = 0 then 0 else p / (2 * i + 1) + atanhSum y fuel (i + 1) (p * y / one)

/-- Alternating sum of x^(2n+1)/(n! (2n+1)), the error function's series; `t` is x^(2n+1)/n!. -/
def erfSum (y : Nat) : Nat → Nat → Nat → Int
  | 0, _, _ => 0
  | fuel + 1, n, t => if t = 0 then 0 else (t / (2 * n + 1) : Nat) - erfSum y fuel (n + 1) (t * y / one / (n + 1))

/-- 2^n * f with f in [1, 2) for e^(s*y), y = m * 2^e below 2^20, s a sign: the exponent and the fixed-point f. -/
def expParts (neg : Bool) (y : Nat) : Int × Nat :=
  let k := y / ln2Fix
  let r := y % ln2Fix
  if neg then (-(k : Int) - 1, expFix (ln2Fix - r)) else ((k : Int), expFix r)

/-! ### The functions on a positive magnitude m * 2^e -/

/-- Beyond 2^20 the exponential functions are at their limits. -/
def isHuge (m : Nat) (e : Int) : Bool := decide (20 < (Nat.log2 m : Int) + e)

def rcpApprox (m : Nat) (e : Int) : Approx :=
  let k := Nat.log2 m + fracBits
  ⟨2 ^ k / m, -(e + k), 2 ^ k % m != 0⟩

/-- Integer square root by bits, from bit n down. -/
def isqrt (x : Nat) : Nat → Nat → Nat
  | 0, r => r
  | n + 1, r => let c := r + 2 ^ n; if c * c ≤ x then isqrt x n c else isqrt x n r

def sqrtApprox (m : Nat) (e : Int) : Approx :=
  let odd := e % 2 = 1
  let x := m * 2 ^ (2 * fracBits) * (if odd then 2 else 1)
  let r := isqrt x (Nat.log2 x / 2 + 1) 0
  ⟨r, (if odd then e - 1 else e) / 2 - fracBits, r * r != x⟩

def rsqApprox (m : Nat) (e : Int) : Approx :=
  let odd := e % 2 = 1
  let d := m * (if odd then 2 else 1)
  let k := 2 * fracBits + 2 * Nat.log2 d
  let x := 2 ^ k / d
  let r := isqrt x (Nat.log2 x / 2 + 1) 0
  ⟨r, -((if odd then e - 1 else e) / 2) - (k / 2 : Nat), r * r * d != 2 ^ k⟩

def exp2Approx (neg : Bool) (m : Nat) (e : Int) : Approx :=
  if isHuge m e then ⟨1, if neg then -2 ^ 21 else 2 ^ 21, true⟩
  else
    let x := toFix m e
    let n := x / one
    let r := x % one
    if r = 0 then ⟨1, if neg then -(n : Int) else n, false⟩
    else if neg then
      let f := expFix ((one - r) * ln2Fix / one)
      ⟨f, -(n : Int) - 1 - fracBits, true⟩
    else ⟨expFix (r * ln2Fix / one), (n : Int) - fracBits, true⟩

/-- log2 with its sign. -/
def log2Approx (m : Nat) (e : Int) : Bool × Approx :=
  let L := Nat.log2 m
  let n := (L : Int) + e
  let f := toFix m (-(L : Int))
  if f = one then (decide (n < 0), ⟨n.natAbs, 0, false⟩)
  else
    let z := (f - one) * one / (f + one)
    let ln := 2 * atanhSum (z * z / one) 400 0 z
    let y : Int := n * one + (ln * one / ln2Fix : Nat)
    (decide (y < 0), .fix y.natAbs)

/-- sin and cos of a magnitude, with the sign: quadrant and remainder by π/2. -/
def trigApprox (cosine : Bool) (m : Nat) (e : Int) : Bool × Approx :=
  let x := 2 * toFix m e
  let k := x / piFix
  let r := x % piFix / 2
  let q := (k + if cosine then 1 else 0) % 4
  let y := r * r / one
  let v := if q % 2 = 1 then trigSum y 400 0 one else trigSum y 400 1 r
  (decide (2 ≤ q), .fix (min v.natAbs (one - 1)))

def tanhApprox (m : Nat) (e : Int) : Approx :=
  if isHuge m e then .fix (one - 1)
  else
    let (n, f) := expParts true (2 * toFix m e)
    let u := f / 2 ^ (-n).toNat
    .fix (min ((one - u) * one / (one + u)) (one - 1))

def sigmApprox (neg : Bool) (m : Nat) (e : Int) : Approx :=
  if isHuge m e then (if neg then ⟨1, -2 ^ 21, true⟩ else .fix (one - 1))
  else
    let (n, f) := expParts true (toFix m e)
    let t := f / 2 ^ (-n).toNat
    if neg then ⟨f * one / (one + t), n - fracBits, true⟩
    else .fix (min (one * one / (one + t)) (one - 1))

def erfApprox (m : Nat) (e : Int) : Approx :=
  if 3 ≤ (Nat.log2 m : Int) + e then .fix (one - 1)
  else
    let x := toFix m e
    let v := (erfSum (x * x / one) 900 0 x).toNat * twoOverSqrtPi / one
    .fix (min v (one - 1))

/-! ### Results -/

/-- The greatest code of a format at or below a magnitude (a tapered one at least minpos). -/
def floorCode (t : ETy) (m : Nat) (e : Int) : Nat :=
  let w := t.width
  let m := m * 2 ^ 40
  let e := e - 40
  let L := Nat.log2 m
  let scale := (L : Int) + e
  if t.isTapered then
    let es := taperEs t
    let top : Int := ((w - 2) * 2 ^ es : Nat)
    if top ≤ scale then 2 ^ (w - 1) - 1
    else if scale < -top then 1
    else
      let k := scale.fdiv (2 ^ es)
      let x := (scale.fmod (2 ^ es)).toNat
      let rlen := if 0 ≤ k then k.toNat + 2 else (-k).toNat + 1
      let regime := if 0 ≤ k then 2 ^ (k.toNat + 2) - 2 else 1
      max 1 (((regime * 2 ^ es + x) * 2 ^ L + (m - 2 ^ L)) / 2 ^ (rlen + es + L - (w - 1)))
  else
    let p := ieeeP t
    let emin : Int := 1 - (ieeeBias t : Int)
    let q := max (scale - p) (emin - p)
    (q + p + ieeeBias t - 1).toNat * 2 ^ p + m / 2 ^ (q - e).toNat

/-- The faithful result of a 32-bit format: the exact value if representable, else one of its two neighbours (05 R130).
Values outside the format's finite nonzero range round as 03 R60 and R66 do. -/
def faithful (op : Nat) (t : ETy) (x : Nat) (neg : Bool) (a : Approx) : Nat :=
  let w := t.width
  let near := roundParts t neg a.m a.e a.more
  let mag := near % 2 ^ w
  let sign := fun c => if !neg then c else if t.isTapered then 2 ^ w - c else 2 ^ (w - 1) + c
  if a.m = 0 then near
  else if !a.more && numOf t mag == numOf t (roundParts t neg a.m a.e false) && (numOf t near).eq (.fin neg a.m a.e) then near
  else
    let scale := (Nat.log2 a.m : Int) + a.e
    if t.isTapered then
      let c := floorCode t a.m a.e
      let top : Int := ((w - 2) * 2 ^ taperEs t : Nat)
      if scale < -top then sign 1
      else sign (if Config.upperNeighbour op t.code x then min (c + 1) (2 ^ (w - 1) - 1) else c)
    else if (ieeeBias t : Int) + 1 ≤ scale ∨ scale < 1 - (ieeeBias t : Int) - ieeeP t then near
    else
      let c := floorCode t a.m a.e
      sign (if Config.upperNeighbour op t.code x then c + 1 else c)

/-- The result of function `op` at operand code `x`. -/
def specialResult (op : Nat) (t : ETy) (x : Nat) (neg : Bool) (a : Approx) : Nat :=
  if t.width = 32 then faithful op t x neg a else roundParts t neg a.m a.e a.more

def zeroCode (t : ETy) (neg : Bool) : Nat := roundParts t neg 0 0 false
def infCode (t : ETy) (neg : Bool) : Nat := roundNum t (.inf neg)

def rcpCode (t : ETy) (x : Nat) : Nat :=
  match numOf t x with
  | .nan => invalidCode t
  | .inf neg => zeroCode t neg
  | .fin neg m e => if m = 0 then infCode t neg else specialResult 0 t (absCode t x) neg (rcpApprox m e)

def rsqCode (t : ETy) (x : Nat) : Nat :=
  match numOf t x with
  | .nan => invalidCode t
  | .inf neg => if neg then invalidCode t else zeroCode t false
  | .fin neg m e =>
    if m = 0 then infCode t neg else if neg then invalidCode t else specialResult 1 t x false (rsqApprox m e)

def sqrtCode (t : ETy) (x : Nat) : Nat :=
  match numOf t x with
  | .nan => invalidCode t
  | .inf neg => if neg then invalidCode t else infCode t false
  | .fin neg m e =>
    if m = 0 then zeroCode t neg else if neg then invalidCode t else specialResult 2 t x false (sqrtApprox m e)

def exp2Code (t : ETy) (x : Nat) : Nat :=
  match numOf t x with
  | .nan => invalidCode t
  | .inf neg => if neg then zeroCode t false else infCode t false
  | .fin neg m e => if m = 0 then ofIntCode t 1 else specialResult 3 t x false (exp2Approx neg m e)

def log2Code (t : ETy) (x : Nat) : Nat :=
  match numOf t x with
  | .nan => invalidCode t
  | .inf neg => if neg then invalidCode t else infCode t false
  | .fin neg m e =>
    if m = 0 then infCode t true else if neg then invalidCode t
    else let (n, a) := log2Approx m e; if a.m = 0 then zeroCode t false else specialResult 4 t x n a

def sinCode (t : ETy) (x : Nat) : Nat :=
  match numOf t x with
  | .nan => invalidCode t
  | .inf _ => invalidCode t
  | .fin neg m e =>
    if m = 0 then zeroCode t neg else let (n, a) := trigApprox false m e; specialResult 5 t (absCode t x) (n != neg) a

def cosCode (t : ETy) (x : Nat) : Nat :=
  match numOf t x with
  | .nan => invalidCode t
  | .inf _ => invalidCode t
  | .fin _ m e =>
    if m = 0 then ofIntCode t 1 else let (n, a) := trigApprox true m e; specialResult 6 t (absCode t x) n a

def tanhCode (t : ETy) (x : Nat) : Nat :=
  match numOf t x with
  | .nan => invalidCode t
  | .inf neg => ofIntCode t (if neg then -1 else 1)
  | .fin neg m e => if m = 0 then zeroCode t neg else specialResult 7 t (absCode t x) neg (tanhApprox m e)

def sigmCode (t : ETy) (x : Nat) : Nat :=
  match numOf t x with
  | .nan => invalidCode t
  | .inf neg => if neg then zeroCode t false else ofIntCode t 1
  | .fin neg m e => if m = 0 then roundParts t false 1 (-1) false else specialResult 8 t x false (sigmApprox neg m e)

def erfCode (t : ETy) (x : Nat) : Nat :=
  match numOf t x with
  | .nan => invalidCode t
  | .inf neg => ofIntCode t (if neg then -1 else 1)
  | .fin neg m e => if m = 0 then zeroCode t neg else specialResult 9 t (absCode t x) neg (erfApprox m e)

/-- A special function of each element; a long-latency form. -/
def Cx.special (c : Cx) (f : Tri) (op : Nat → Nat) : State :=
  c.vectorL f.ctl f.ty f.dst [(f.a, f.ty)] fun l => ofElems f.ty fun e => op (elem f.ty (c.vsrc f.a f.ty l) e)

/-- 1/x. -/
def execFrcp (f : Tri) (s : State) : Outcome := s.issue fun c => c.special f (rcpCode f.ty)

/-- 1/√x. -/
def execFrsq (f : Tri) (s : State) : Outcome := s.issue fun c => c.special f (rsqCode f.ty)

/-- √x. -/
def execFsqrt (f : Tri) (s : State) : Outcome := s.issue fun c => c.special f (sqrtCode f.ty)

/-- 2^x. -/
def execFexp2 (f : Tri) (s : State) : Outcome := s.issue fun c => c.special f (exp2Code f.ty)

/-- log2 x. -/
def execFlog2 (f : Tri) (s : State) : Outcome := s.issue fun c => c.special f (log2Code f.ty)

/-- sin x. -/
def execFsin (f : Tri) (s : State) : Outcome := s.issue fun c => c.special f (sinCode f.ty)

/-- cos x. -/
def execFcos (f : Tri) (s : State) : Outcome := s.issue fun c => c.special f (cosCode f.ty)

/-- tanh x. -/
def execFtanh (f : Tri) (s : State) : Outcome := s.issue fun c => c.special f (tanhCode f.ty)

/-- 1 / (1 + e^−x). -/
def execFsigm (f : Tri) (s : State) : Outcome := s.issue fun c => c.special f (sigmCode f.ty)

/-- erf x. -/
def execFerf (f : Tri) (s : State) : Outcome := s.issue fun c => c.special f (erfCode f.ty)

end Sys2Proof.Machine
end

