-- ==== Sys2Proof/Machine/Dispatch.lean ====
section
/-! DEFINITION. The meaning of every row of spec/opcode_table.json, one arm per constructor. -/

namespace Sys2Proof.Machine

def exec (i : Instr) (s : State) : Host.Outcome State Fault Refusal :=
  match i with
  | .clauseFetch g sp => Sys2Proof.Machine.execClauseFetch g sp s
  | .headerWaitSatisfied g sp => Sys2Proof.Machine.execHeaderWaitSatisfied g sp s
  | .issueOpportunity q => Sys2Proof.Machine.execIssueOpportunity q s
  | .splitStarvationBound g sp => Sys2Proof.Machine.execSplitStarvationBound g sp s
  | .counterStallRelease g sp => Sys2Proof.Machine.execCounterStallRelease g sp s
  | .loadDataReturn g sp lanes => Sys2Proof.Machine.execLoadDataReturn g sp lanes s
  | .unassignedOpcode w => Sys2Proof.Machine.execUnassignedOpcode w s
  | .br f => Sys2Proof.Machine.execBr f s
  | .brs f => Sys2Proof.Machine.execBrs f s
  | .brz f => Sys2Proof.Machine.execBrz f s
  | .bra f => Sys2Proof.Machine.execBra f s
  | .brl f => Sys2Proof.Machine.execBrl f s
  | .brd f => Sys2Proof.Machine.execBrd f s
  | .brsp f => Sys2Proof.Machine.execBrsp f s
  | .brx f => Sys2Proof.Machine.execBrx f s
  | .brxd f => Sys2Proof.Machine.execBrxd f s
  | .call f => Sys2Proof.Machine.execCall f s
  | .callx f => Sys2Proof.Machine.execCallx f s
  | .ret f => Sys2Proof.Machine.execRet f s
  | .meet f => Sys2Proof.Machine.execMeet f s
  | .meetHoldEnd g sp => Sys2Proof.Machine.execMeetHoldEnd g sp s
  | .endLanes f => Sys2Proof.Machine.execEndLanes f s
  | .nop f => Sys2Proof.Machine.execNop f s
  | .yield f => Sys2Proof.Machine.execYield f s
  | .gwidth f => Sys2Proof.Machine.execGwidth f s
  | .gsplits f => Sys2Proof.Machine.execGsplits f s
  | .gmember f => Sys2Proof.Machine.execGmember f s
  | .gactive f => Sys2Proof.Machine.execGactive f s
  | .lrank f => Sys2Proof.Machine.execLrank f s
  | .lfirst f => Sys2Proof.Machine.execLfirst f s
  | .pand f => Sys2Proof.Machine.execPand f s
  | .por f => Sys2Proof.Machine.execPor f s
  | .pxor f => Sys2Proof.Machine.execPxor f s
  | .pandn f => Sys2Proof.Machine.execPandn f s
  | .pmov f => Sys2Proof.Machine.execPmov f s
  | .pfroms f => Sys2Proof.Machine.execPfroms f s
  | .ptos f => Sys2Proof.Machine.execPtos f s
  | .vany f => Sys2Proof.Machine.execVany f s
  | .vall f => Sys2Proof.Machine.execVall f s
  | .ballot f => Sys2Proof.Machine.execBallot f s
  | .pcount f => Sys2Proof.Machine.execPcount f s
  | .pfind f => Sys2Proof.Machine.execPfind f s
  | .sadd f => Sys2Proof.Machine.execSadd f s
  | .ssub f => Sys2Proof.Machine.execSsub f s
  | .smul f => Sys2Proof.Machine.execSmul f s
  | .smulh f => Sys2Proof.Machine.execSmulh f s
  | .sdiv f => Sys2Proof.Machine.execSdiv f s
  | .srem f => Sys2Proof.Machine.execSrem f s
  | .sand f => Sys2Proof.Machine.execSand f s
  | .sor f => Sys2Proof.Machine.execSor f s
  | .sxor f => Sys2Proof.Machine.execSxor f s
  | .sandn f => Sys2Proof.Machine.execSandn f s
  | .sshl f => Sys2Proof.Machine.execSshl f s
  | .sshr f => Sys2Proof.Machine.execSshr f s
  | .ssra f => Sys2Proof.Machine.execSsra f s
  | .smin f => Sys2Proof.Machine.execSmin f s
  | .smax f => Sys2Proof.Machine.execSmax f s
  | .scmp f => Sys2Proof.Machine.execScmp f s
  | .ssel f => Sys2Proof.Machine.execSsel f s
  | .smad f => Sys2Proof.Machine.execSmad f s
  | .sclz f => Sys2Proof.Machine.execSclz f s
  | .spopc f => Sys2Proof.Machine.execSpopc f s
  | .sbfx f => Sys2Proof.Machine.execSbfx f s
  | .sbfi f => Sys2Proof.Machine.execSbfi f s
  | .saddi f => Sys2Proof.Machine.execSaddi f s
  | .sandi f => Sys2Proof.Machine.execSandi f s
  | .sori f => Sys2Proof.Machine.execSori f s
  | .sxori f => Sys2Proof.Machine.execSxori f s
  | .smovi f => Sys2Proof.Machine.execSmovi f s
  | .smovhi f => Sys2Proof.Machine.execSmovhi f s
  | .saddpc f => Sys2Proof.Machine.execSaddpc f s
  | .scmpi f => Sys2Proof.Machine.execScmpi f s
  | .vadd f => Sys2Proof.Machine.execVadd f s
  | .vsub f => Sys2Proof.Machine.execVsub f s
  | .vmul f => Sys2Proof.Machine.execVmul f s
  | .vmulh f => Sys2Proof.Machine.execVmulh f s
  | .vmad f => Sys2Proof.Machine.execVmad f s
  | .vaddsat f => Sys2Proof.Machine.execVaddsat f s
  | .vsubsat f => Sys2Proof.Machine.execVsubsat f s
  | .vand f => Sys2Proof.Machine.execVand f s
  | .vor f => Sys2Proof.Machine.execVor f s
  | .vxor f => Sys2Proof.Machine.execVxor f s
  | .vandn f => Sys2Proof.Machine.execVandn f s
  | .vshl f => Sys2Proof.Machine.execVshl f s
  | .vshr f => Sys2Proof.Machine.execVshr f s
  | .vsra f => Sys2Proof.Machine.execVsra f s
  | .vmin f => Sys2Proof.Machine.execVmin f s
  | .vmax f => Sys2Proof.Machine.execVmax f s
  | .vabs f => Sys2Proof.Machine.execVabs f s
  | .vneg f => Sys2Proof.Machine.execVneg f s
  | .vcmp f => Sys2Proof.Machine.execVcmp f s
  | .vsel f => Sys2Proof.Machine.execVsel f s
  | .vclz f => Sys2Proof.Machine.execVclz f s
  | .vpopc f => Sys2Proof.Machine.execVpopc f s
  | .vbfx f => Sys2Proof.Machine.execVbfx f s
  | .vbfi f => Sys2Proof.Machine.execVbfi f s
  | .vcvti f => Sys2Proof.Machine.execVcvti f s
  | .vmovi f => Sys2Proof.Machine.execVmovi f s
  | .vaddi f => Sys2Proof.Machine.execVaddi f s
  | .vandi f => Sys2Proof.Machine.execVandi f s
  | .vori f => Sys2Proof.Machine.execVori f s
  | .fadd f => Sys2Proof.Machine.execFadd f s
  | .fsub f => Sys2Proof.Machine.execFsub f s
  | .fmul f => Sys2Proof.Machine.execFmul f s
  | .fma f => Sys2Proof.Machine.execFma f s
  | .fms f => Sys2Proof.Machine.execFms f s
  | .fnma f => Sys2Proof.Machine.execFnma f s
  | .fnms f => Sys2Proof.Machine.execFnms f s
  | .fmin f => Sys2Proof.Machine.execFmin f s
  | .fmax f => Sys2Proof.Machine.execFmax f s
  | .fabs f => Sys2Proof.Machine.execFabs f s
  | .fneg f => Sys2Proof.Machine.execFneg f s
  | .fcmp f => Sys2Proof.Machine.execFcmp f s
  | .fsel f => Sys2Proof.Machine.execFsel f s
  | .fclass f => Sys2Proof.Machine.execFclass f s
  | .fcvt f => Sys2Proof.Machine.execFcvt f s
  | .fcvti f => Sys2Proof.Machine.execFcvti f s
  | .icvtf f => Sys2Proof.Machine.execIcvtf f s
  | .fscale f => Sys2Proof.Machine.execFscale f s
  | .frnd f => Sys2Proof.Machine.execFrnd f s
  | .fdot2 f => Sys2Proof.Machine.execFdot2 f s
  | .fdot4 f => Sys2Proof.Machine.execFdot4 f s
  | .fpack f => Sys2Proof.Machine.execFpack f s
  | .funpack f => Sys2Proof.Machine.execFunpack f s
  | .fregime f => Sys2Proof.Machine.execFregime f s
  | .ftwin f => Sys2Proof.Machine.execFtwin f s
  | .faddi f => Sys2Proof.Machine.execFaddi f s
  | .fmuli f => Sys2Proof.Machine.execFmuli f s
  | .fmai f => Sys2Proof.Machine.execFmai f s
  | .fcmpi f => Sys2Proof.Machine.execFcmpi f s
  | .fmini f => Sys2Proof.Machine.execFmini f s
  | .fmaxi f => Sys2Proof.Machine.execFmaxi f s
  | .frcp f => Sys2Proof.Machine.execFrcp f s
  | .frsq f => Sys2Proof.Machine.execFrsq f s
  | .fsqrt f => Sys2Proof.Machine.execFsqrt f s
  | .fexp2 f => Sys2Proof.Machine.execFexp2 f s
  | .flog2 f => Sys2Proof.Machine.execFlog2 f s
  | .fsin f => Sys2Proof.Machine.execFsin f s
  | .fcos f => Sys2Proof.Machine.execFcos f s
  | .ftanh f => Sys2Proof.Machine.execFtanh f s
  | .fsigm f => Sys2Proof.Machine.execFsigm f s
  | .ferf f => Sys2Proof.Machine.execFerf f s
  | .xshfl f => Sys2Proof.Machine.execXshfl f s
  | .xbcast f => Sys2Proof.Machine.execXbcast f s
  | .xup f => Sys2Proof.Machine.execXup f s
  | .xdown f => Sys2Proof.Machine.execXdown f s
  | .xxor f => Sys2Proof.Machine.execXxor f s
  | .xscan f => Sys2Proof.Machine.execXscan f s
  | .xscanx f => Sys2Proof.Machine.execXscanx f s
  | .xred f => Sys2Proof.Machine.execXred f s
  | .mma f => Sys2Proof.Machine.execMma f s
  | .mmaz f => Sys2Proof.Machine.execMmaz f s
  | .azero f => Sys2Proof.Machine.execAzero f s
  | .aload f => Sys2Proof.Machine.execAload f s
  | .astore f => Sys2Proof.Machine.execAstore f s
  | .aread f => Sys2Proof.Machine.execAread f s
  | .awrite f => Sys2Proof.Machine.execAwrite f s
  | .acvt f => Sys2Proof.Machine.execAcvt f s
  | .aadd f => Sys2Proof.Machine.execAadd f s
  | .pairq f => Sys2Proof.Machine.execPairq f s
  | .matrixQueueRoom g sp => Sys2Proof.Machine.execMatrixQueueRoom g sp s
  | .matrixOpStart id => Sys2Proof.Machine.execMatrixOpStart id s
  | .matrixOpRetire id => Sys2Proof.Machine.execMatrixOpRetire id s
  | .ld f => Sys2Proof.Machine.execLd f s
  | .st f => Sys2Proof.Machine.execSt f s
  | .ldro f => Sys2Proof.Machine.execLdro f s
  | .ldg f => Sys2Proof.Machine.execLdg f s
  | .stg f => Sys2Proof.Machine.execStg f s
  | .gatherComplete id => Sys2Proof.Machine.execGatherComplete id s
  | .ldx f => Sys2Proof.Machine.execLdx f s
  | .stc f => Sys2Proof.Machine.execStc f s
  | .atadd f => Sys2Proof.Machine.execAtadd f s
  | .atmin f => Sys2Proof.Machine.execAtmin f s
  | .atmax f => Sys2Proof.Machine.execAtmax f s
  | .atand f => Sys2Proof.Machine.execAtand f s
  | .ator f => Sys2Proof.Machine.execAtor f s
  | .atxor f => Sys2Proof.Machine.execAtxor f s
  | .atswp f => Sys2Proof.Machine.execAtswp f s
  | .atcas f => Sys2Proof.Machine.execAtcas f s
  | .atomicopCompletion id lane ans => Sys2Proof.Machine.execAtomicopCompletion id lane ans s
  | .mwupd f => Sys2Proof.Machine.execMwupd f s
  | .hsend f => Sys2Proof.Machine.execHsend f s
  | .hodUpdateApply id lane => Sys2Proof.Machine.execHodUpdateApply id lane s
  | .pref f => Sys2Proof.Machine.execPref f s
  | .resid f => Sys2Proof.Machine.execResid f s
  | .fence f => Sys2Proof.Machine.execFence f s
  | .fencero f => Sys2Proof.Machine.execFencero f s
  | .bind f => Sys2Proof.Machine.execBind f s
  | .unbind f => Sys2Proof.Machine.execUnbind f s
  | .acq f => Sys2Proof.Machine.execAcq f s
  | .rel f => Sys2Proof.Machine.execRel f s
  | .cpy f => Sys2Proof.Machine.execCpy f s
  | .cpyg f => Sys2Proof.Machine.execCpyg f s
  | .cpys f => Sys2Proof.Machine.execCpys f s
  | .cpyc f => Sys2Proof.Machine.execCpyc f s
  | .cpyred f => Sys2Proof.Machine.execCpyred f s
  | .copyQueueRoom g sp => Sys2Proof.Machine.execCopyQueueRoom g sp s
  | .copyComplete id => Sys2Proof.Machine.execCopyComplete id s
  | .lpinit f => Sys2Proof.Machine.execLpinit f s
  | .lpstart f => Sys2Proof.Machine.execLpstart f s
  | .lpnext f => Sys2Proof.Machine.execLpnext f s
  | .lpnextRecordTaken g sp => Sys2Proof.Machine.execLpnextRecordTaken g sp s
  | .lpdone f => Sys2Proof.Machine.execLpdone f s
  | .lpstop f => Sys2Proof.Machine.execLpstop f s
  | .lpq f => Sys2Proof.Machine.execLpq f s
  | .weevilPush team => Sys2Proof.Machine.execWeevilPush team s
  | .jinit f => Sys2Proof.Machine.execJinit f s
  | .jarrive f => Sys2Proof.Machine.execJarrive f s
  | .jwait f => Sys2Proof.Machine.execJwait f s
  | .jarwait f => Sys2Proof.Machine.execJarwait f s
  | .rendezvousWaitSatisfied g sp => Sys2Proof.Machine.execRendezvousWaitSatisfied g sp s
  | .ringinit f => Sys2Proof.Machine.execRinginit f s
  | .ringput f => Sys2Proof.Machine.execRingput f s
  | .ringtake f => Sys2Proof.Machine.execRingtake f s
  | .ringputProceeds g sp => Sys2Proof.Machine.execRingputProceeds g sp s
  | .ringtakeProceeds g sp => Sys2Proof.Machine.execRingtakeProceeds g sp s
  | .kwait f => Sys2Proof.Machine.execKwait f s
  | .kwaitSatisfied g sp => Sys2Proof.Machine.execKwaitSatisfied g sp s
  | .region f => Sys2Proof.Machine.execRegion f s
  | .xret f => Sys2Proof.Machine.execXret f s
  | .eret f => Sys2Proof.Machine.execEret f s
  | .trap f => Sys2Proof.Machine.execTrap f s
  | .brk f => Sys2Proof.Machine.execBrk f s
  | .scall f => Sys2Proof.Machine.execScall f s
  | .scallRingRoom g sp => Sys2Proof.Machine.execScallRingRoom g sp s
  | .cpop f => Sys2Proof.Machine.execCpop f s
  | .cpopRecordTaken g sp => Sys2Proof.Machine.execCpopRecordTaken g sp s
  | .cpush f => Sys2Proof.Machine.execCpush f s
  | .cpushQueueRoom g sp => Sys2Proof.Machine.execCpushQueueRoom g sp s
  | .cjoin f => Sys2Proof.Machine.execCjoin f s
  | .cjoinRetry g sp => Sys2Proof.Machine.execCjoinRetry g sp s
  | .mbsend f => Sys2Proof.Machine.execMbsend f s
  | .mbsendRoom g sp => Sys2Proof.Machine.execMbsendRoom g sp s
  | .mbrecv f => Sys2Proof.Machine.execMbrecv f s
  | .mbrecvMessageTaken g sp => Sys2Proof.Machine.execMbrecvMessageTaken g sp s
  | .quotaq f => Sys2Proof.Machine.execQuotaq f s
  | .cycq f => Sys2Proof.Machine.execCycq f s
  | .capq f => Sys2Proof.Machine.execCapq f s
  | .netsend f => Sys2Proof.Machine.execNetsend f s
  | .netsendResponse id ans => Sys2Proof.Machine.execNetsendResponse id ans s
  | .spawnRecordAccept g sp => Sys2Proof.Machine.execSpawnRecordAccept g sp s
  | .chaferFormGang grp place => Sys2Proof.Machine.execChaferFormGang grp place s
  | .chaferIdleTimeout grp => Sys2Proof.Machine.execChaferIdleTimeout grp s
  | .gangEnd g => Sys2Proof.Machine.execGangEnd g s
  | .launchCompletion l => Sys2Proof.Machine.execLaunchCompletion l s
  | .preemptVectorExit g sp => Sys2Proof.Machine.execPreemptVectorExit g sp s
  | .exitBoundOverrun g => Sys2Proof.Machine.execExitBoundOverrun g s
  | .checkpointClose f => Sys2Proof.Machine.execCheckpointClose f s
  | .ckperiodExpiry f => Sys2Proof.Machine.execCkperiodExpiry f s
  | .preq f => Sys2Proof.Machine.execPreq f s
  | .presume f places => Sys2Proof.Machine.execPresume f places s
  | .rolldone f => Sys2Proof.Machine.execRolldone f s
  | .notify f q v => Sys2Proof.Machine.execNotify f q v s
  | .doorbellMissService die => Sys2Proof.Machine.execDoorbellMissService die s
  | .cmdNop f q => Sys2Proof.Machine.execCmdNop f q s
  | .cmdLaunch f q => Sys2Proof.Machine.execCmdLaunch f q s
  | .cmdFeed f q => Sys2Proof.Machine.execCmdFeed f q s
  | .cmdDependence f q => Sys2Proof.Machine.execCmdDependence f q s
  | .cmdPush f q => Sys2Proof.Machine.execCmdPush f q s
  | .teamPlacement l team place => Sys2Proof.Machine.execTeamPlacement l team place s
  | .schedulerQuantum die => Sys2Proof.Machine.execSchedulerQuantum die s
  | .stealRequest die => Sys2Proof.Machine.execStealRequest die s
  | .stealHandover die => Sys2Proof.Machine.execStealHandover die s
  | .labort f lid => Sys2Proof.Machine.execLabort f lid s
  | .drain f v => Sys2Proof.Machine.execDrain f v s
  | .qrestart f q => Sys2Proof.Machine.execQrestart f q s
  | .queueClose f q => Sys2Proof.Machine.execQueueClose f q s
  | .queueReopen f q => Sys2Proof.Machine.execQueueReopen f q s
  | .mapq f q => Sys2Proof.Machine.execMapq f q s
  | .timesliceTurnEnd grp => Sys2Proof.Machine.execTimesliceTurnEnd grp s
  | .tflush f tid => Sys2Proof.Machine.execTflush f tid s
  | .tflushComplete f => Sys2Proof.Machine.execTflushComplete f s
  | .windowCommit n => Sys2Proof.Machine.execWindowCommit n s
  | .windowRemove n => Sys2Proof.Machine.execWindowRemove n s
  | .windowCommitComplete => Sys2Proof.Machine.execWindowCommitComplete s
  | .pinRegionEnable n => Sys2Proof.Machine.execPinRegionEnable n s
  | .pinRegionDisable n => Sys2Proof.Machine.execPinRegionDisable n s
  | .brickFill tag => Sys2Proof.Machine.execBrickFill tag s
  | .brickEvict tag => Sys2Proof.Machine.execBrickEvict tag s
  | .rangeIdleReturn n => Sys2Proof.Machine.execRangeIdleReturn n s
  | .pcommit f => Sys2Proof.Machine.execPcommit f s
  | .frontEndWrite fe v => Sys2Proof.Machine.execFrontEndWrite fe v s
  | .functionDisable f => Sys2Proof.Machine.execFunctionDisable f s
  | .functionLevelReset f => Sys2Proof.Machine.execFunctionLevelReset f s
  | .vfEnableClear => Sys2Proof.Machine.execVfEnableClear s
  | .fresumeResume f token => Sys2Proof.Machine.execFresumeResume f token s
  | .fresumeEndLaunch f token => Sys2Proof.Machine.execFresumeEndLaunch f token s
  | .faultQueueRetry f => Sys2Proof.Machine.execFaultQueueRetry f s
  | .demandZeroService f token => Sys2Proof.Machine.execDemandZeroService f token s
  | .atomnsDeviceCompletion f token => Sys2Proof.Machine.execAtomnsDeviceCompletion f token s
  | .spaceFreedResume f token => Sys2Proof.Machine.execSpaceFreedResume f token s
  | .invalidatePage f va size => Sys2Proof.Machine.execInvalidatePage f va size s
  | .invalidateAll f => Sys2Proof.Machine.execInvalidateAll f s
  | .invalidateComplete f => Sys2Proof.Machine.execInvalidateComplete f s
  | .qrel f n agent => Sys2Proof.Machine.execQrel f n agent s
  | .scqpiWrite f v => Sys2Proof.Machine.execScqpiWrite f v s
  | .scqSlotRetry f => Sys2Proof.Machine.execScqSlotRetry f s
  | .eccError e => Sys2Proof.Machine.execEccError e s
  | .hostLinkDown port => Sys2Proof.Machine.execHostLinkDown port s
  | .hostPortTrained port mode => Sys2Proof.Machine.execHostPortTrained port mode s
  | .hostCxlMemAccess a => Sys2Proof.Machine.execHostCxlMemAccess a s
  | .biasFlip page dev => Sys2Proof.Machine.execBiasFlip page dev s
  | .biasFlipComplete page => Sys2Proof.Machine.execBiasFlipComplete page s
  | .umermashLinkUp port peer => Sys2Proof.Machine.execUmermashLinkUp port peer s
  | .umermashLinkDown port => Sys2Proof.Machine.execUmermashLinkDown port s
  | .umMessage p => Sys2Proof.Machine.execUmMessage p s
  | .umRead p => Sys2Proof.Machine.execUmRead p s
  | .umWrite p => Sys2Proof.Machine.execUmWrite p s
  | .umAtomic p => Sys2Proof.Machine.execUmAtomic p s
  | .umReadData p => Sys2Proof.Machine.execUmReadData p s
  | .umWriteDone p => Sys2Proof.Machine.execUmWriteDone p s
  | .umRefuseDenied p => Sys2Proof.Machine.execUmRefuseDenied p s
  | .umInvalidPacket port p => Sys2Proof.Machine.execUmInvalidPacket port p s
  | .coldReset hostpkgs splithost => Sys2Proof.Machine.execColdReset hostpkgs splithost s
  | .warmReset hostpkgs splithost => Sys2Proof.Machine.execWarmReset hostpkgs splithost s
  | .unitReady bit => Sys2Proof.Machine.execUnitReady bit s
  | .powerWindowEnd watts => Sys2Proof.Machine.execPowerWindowEnd watts s
  | .currentLimitExceeded amps => Sys2Proof.Machine.execCurrentLimitExceeded amps s
  | .plimWrite v => Sys2Proof.Machine.execPlimWrite v s
  | .ilimWrite v => Sys2Proof.Machine.execIlimWrite v s
  | .dieOvertemp u t => Sys2Proof.Machine.execDieOvertemp u t s
  | .hbmOvertemp u t => Sys2Proof.Machine.execHbmOvertemp u t s
  | .thermalTrip u t => Sys2Proof.Machine.execThermalTrip u t s
  | .twarnCrossed u t => Sys2Proof.Machine.execTwarnCrossed u t s
  | .measurementExtend m d => Sys2Proof.Machine.execMeasurementExtend m d s
  | .attestGo f => Sys2Proof.Machine.execAttestGo f s
  | .attestDone f => Sys2Proof.Machine.execAttestDone f s
  | .registerWrite f pf off v => Sys2Proof.Machine.execRegisterWrite f pf off v s
  | .atomicopCompletionTimeout id lane => Sys2Proof.Machine.execAtomicopCompletionTimeout id lane s
  | .flitCrcFailure port => Sys2Proof.Machine.execFlitCrcFailure port s
  | .chipletCoreAccess a => Sys2Proof.Machine.execChipletCoreAccess a s
  | .cxlCacheSnoop a port kind => Sys2Proof.Machine.execCxlCacheSnoop a port kind s
  | .plimcapWrite v => Sys2Proof.Machine.execPlimcapWrite v s
  | .firmwareStaging img => Sys2Proof.Machine.execFirmwareStaging img s
  | .dieTemperatureRecovered u t => Sys2Proof.Machine.execDieTemperatureRecovered u t s
  | .currentBelowIlim amps => Sys2Proof.Machine.execCurrentBelowIlim amps s
  | .unitBringupFailure unit code => Sys2Proof.Machine.execUnitBringupFailure unit code s

end Sys2Proof.Machine
end

