-- ==== Sys2Proof/Machine/Log.lean ====
section
/-!
DEFINITION. What every step of the machine must satisfy to be taken: no byte it writes is held (17 R273; 22 R350, R351; 24
R368), and what it overwrites of a partition with a checkpoint is in the undo log, with room for it there (19 R306 to R308; log
59).
-/

namespace Sys2Proof.Machine

/-! ### The entries of items that are no lines (19 R306, R308) -/

def LogItem.kind : LogItem → Nat
  | .vreg _ _ => 2
  | .sreg _ _ _ => 3
  | .preds _ => 4
  | .entry _ _ => 5
  | .tile _ => 6
  | .team _ => 7
  | .operation _ => 8

/-- Register, tile or entry number. -/
def LogItem.number : LogItem → Nat
  | .vreg _ n => n
  | .sreg _ _ n => n
  | .entry _ sp => sp
  | .tile n => n % 64
  | _ => 0

/-- Gang slot and split, or team, in a view of the partition, of a gang that it lacks in a later view. -/
def Ckpt.who (k later : Ckpt) (i : LogItem) : Nat :=
  let slot := fun g sp => (((k.gangs.find? g).or (later.gangs.find? g)).map Gang.slotNumber).getD 0 + sp * 2 ^ 32
  match i with
  | .vreg g _ => slot g 0
  | .sreg g sp _ => slot g sp
  | .preds g => slot g 0
  | .entry g sp => slot g sp
  | .tile n => n / (512 * 64)
  | .team t => t
  | .operation _ => 0

/-- What an item holds in a view. The layouts of team state and of an issue descriptor are the device's own: free bytes. -/
def Ckpt.payload (k : Ckpt) (tick : Nat) (i : LogItem) : List Byte :=
  let free := fun n => (List.range n).map fun j => BitVec.ofNat 8 (Config.freeValue (tick + j)).toNat
  let G := fun g => (k.gangs.find? g).getD {}
  let P := fun g sp => ((G g).splits.find? sp).getD {}
  match i with
  | .vreg g n => (List.range 96).flatMap fun l => bytesOf 4 ((G g).vreg n l).toNat
  | .sreg g sp n => bytesOf 8 ((P g sp).sreg n).toNat
  | .preds g => (G g).predBytes ++ List.replicate 12 0
  | .entry g sp => match (G g).splits.find? sp with
    | some Q => (Q.entryNow sp).flatMap fun w => bytesOf 8 w.toNat
    | none => List.replicate 64 0
  | .tile n => ((List.range 1025).flatMap fun e => bytesOf 4 (tileWord k.tiles n e).toNat) ++ List.replicate 28 0
  | .team _ => free 256
  | .operation _ => free 64

/-! ### What two views of a partition differ in -/

/-- Items of a split. -/
def splitChanges (g sp : Nat) (P Q : Option Split) : List LogItem :=
  let s := fun (P : Option Split) => (P.map (·.s)).getD []
  (if P.map (·.entryNow sp) = Q.map (·.entryNow sp) then [] else [.entry g sp])
    ++ (if s P = s Q ∨ Q.isNone then []
        else ((List.range 60).filter fun n => Store.get 0 (s P) (n + 1) != Store.get 0 (s Q) (n + 1)).map fun n => .sreg g sp (n + 1))

/-- Items of a gang. -/
def gangChanges (g : Nat) (G H : Gang) : List LogItem :=
  (if G.v = H.v then []
    else ((List.range 128).filter fun n => (List.range 96).any fun l => G.vreg n l != H.vreg n l).map fun n => .vreg g n)
    ++ (if G.p = H.p then [] else [.preds g])
    ++ if G.splits = H.splits then []
      else (List.range 4).flatMap fun i => splitChanges g i (G.splits.find? i) (H.splits.find? i)

/-- Team state has changed: points, rings, Weevil, the gangs' flags. -/
def teamChanged (a b : Ckpt) (t : Nat) (T U : Team) : Bool :=
  T.points != U.points || T.rings != U.rings || T.nest != U.nest
    || a.gangs.any fun q => q.2.team == t && (b.gangs.find? q.1).any fun H => q.2.flags != H.flags || q.2.ap != H.ap

/-- Items of the gangs: a gang placed is compared with a slot without valid entries, one that has ended leaves such a slot. -/
def slotChanges (a b : Store Gang) (g : Nat) : List LogItem :=
  match a.find? g, b.find? g with
  | some G, some H => gangChanges g G H
  | some G, none => gangChanges g { G with v := [], p := [] } { G with v := [], p := [], splits := [] }
  | none, some H => gangChanges g { H with v := [], p := [], splits := [] } H
  | none, none => []

/-- The items of the partition that two views hold differently. -/
def Ckpt.changes (a b : Ckpt) : List LogItem :=
  ((a.gangs.keys ++ b.gangs.keys).eraseDups.flatMap (slotChanges a.gangs b.gangs))
    ++ ((b.teams.filter fun q => match a.teams.find? q.1 with
        | some T => teamChanged a b q.1 T q.2
        | none => true).map fun q => .team q.1)
    ++ if a.tiles = b.tiles then []
      else (((a.tiles ++ b.tiles).map fun q => q.1 / 1025).eraseDups.filter fun n => (b.teams.find? (n / (512 * 64))).isSome &&
        (List.range 1025).any fun e => tileWord a.tiles n e != tileWord b.tiles n e).map fun n => .tile n

/-! ### Items that a step writes, with whatever value (19 R306) -/

/-- Scalar registers from `n` on; s0 and s61 to s63 are no items of their own. -/
def scalarItems (g sp n count : Nat) : List LogItem :=
  ((List.range count).map (n + ·)).filterMap fun i => if 1 ≤ i ∧ i ≤ 60 then some (.sreg g sp i) else none

def predItems (g n : Nat) : List LogItem := if n = 0 then [] else [.preds g]

/-- A result in `count` registers: of the included lanes, or a scalar one. -/
def Cx.resultItems (c : Cx) (k : Ctl) (o : Operand) (count : Nat) : List LogItem :=
  match o with
  | .s n => scalarItems c.g c.sp n.toNat count
  | .v n => if c.included k = 0 then [] else (List.range count).map fun j => .vreg c.g (n.toNat + j)
  | .x _ => []

/-- The registers, the tile or the team state that an instruction writes at its issue where it closes no region and declares no
window. -/
def Cx.writtenItems (c : Cx) (i : Instr) : List LogItem :=
  let lanes := fun (k : Ctl) (o : Operand) (t : ETy) => if c.window k = 0 then c.resultItems k o (if t.is64 then 2 else 1) else []
  let pred := fun (k : Ctl) (o : Operand) => if c.included k = 0 then [] else predItems c.g o.vNum
  match i with
  | .pand f | .por f | .pxor f | .pandn f | .pmov f | .pfroms f | .vany f | .vall f | .vcmp f | .fcmp f | .fclass f => pred f.ctl f.dst
  | .fcmpi f => pred f.ctl f.dst
  | .funpack f => lanes f.ctl f.dst .b64
  | .fdot2 f | .fdot4 f | .ftwin f => lanes f.ctl f.dst .b32
  | .xshfl f | .xbcast f | .xup f | .xdown f | .xxor f =>
    lanes f.ctl f.dst f.ty ++ if c.window f.ctl = 0 ∧ c.included f.ctl ≠ 0 then predItems c.g (f.mod.toNat % 8) else []
  | .ptos f | .ballot f | .pcount f | .pfind f => c.resultItems f.ctl f.dst 1
  | .sadd f | .ssub f | .smul f | .smulh f | .sdiv f | .srem f | .sand f | .sor f | .sxor f | .sandn f | .sshl f | .sshr f
  | .ssra f | .smin f | .smax f | .scmp f | .ssel f | .smad f | .sclz f | .spopc f | .sbfx f | .sbfi f => c.resultItems f.ctl f.dst 1
  | .saddi f | .sandi f | .sori f | .sxori f | .smovi f | .smovhi f | .saddpc f | .scmpi f => c.resultItems f.ctl f.dst 1
  | .vadd f | .vsub f | .vmul f | .vmulh f | .vmad f | .vaddsat f | .vsubsat f | .vand f | .vor f | .vxor f | .vandn f
  | .vshl f | .vshr f | .vsra f | .vmin f | .vmax f | .vabs f | .vneg f | .vsel f | .vclz f | .vpopc f | .vbfx f | .vbfi f
  | .vcvti f | .fadd f | .fsub f | .fmul f | .fma f | .fms f | .fnma f | .fnms f | .fmin f | .fmax f | .fabs f | .fneg f
  | .fsel f | .fcvt f | .fcvti f | .icvtf f | .fscale f | .frnd f | .fpack f | .fregime f
  | .frcp f | .frsq f | .fsqrt f | .fexp2 f | .flog2 f | .fsin f | .fcos f | .ftanh f | .fsigm f | .ferf f
  | .xscan f | .xscanx f | .xred f => lanes f.ctl f.dst f.ty
  | .vmovi f | .vaddi f | .vandi f | .vori f | .faddi f | .fmuli f | .fmai f | .fmini f | .fmaxi f => lanes f.ctl f.dst f.ty
  | .call f | .callx f => c.resultItems f.ctl f.cond 1
  | .gwidth f | .gsplits f | .gmember f | .gactive f | .lfirst f | .lrank f | .pairq f | .quotaq f | .cycq f | .capq f =>
    c.resultItems f.ctl f.dst 1
  | .lpnext f | .lpq f => c.resultItems f.ctl f.dst 1
  | .ld f | .ldro f | .ldg f | .ldx f => if c.included f.ctl = 0 then [] else lanes f.ctl f.data f.ty
  | .acq f => if c.P.active = 0 then [] else c.resultItems f.ctl f.data 1
  | .aread f => if (c.tileLanes f).isEmpty ∨ c.window f.ctl ≠ 0 then [] else [.vreg c.g f.a.vNum]
  | .awrite f => if (c.tileLanes f).isEmpty then [] else [.tile (tileNumber c.G.team c.G.pair f.tile.toNat)]
  | .jinit _ | .ringinit _ => [.team c.G.team]
  | _ => []

/-- Of results that are owed: the registers they go to. -/
def Late.items (r : Late) (g sp : Nat) : List LogItem :=
  (r.vs.map fun q => LogItem.vreg g (q.1 / 96)) ++ (r.ss.flatMap fun q => scalarItems g sp q.1 1) ++ r.ps.flatMap fun q => predItems g q.1

/-- What a step from `s` to `t` writes of a partition, changed or not: the running instruction's results, if its split has gone on;
results that were owed, or that another package has sent; the tiles of matrix operations that have retired. -/
def State.rewritten (s t : State) (f : Nat) : List LogItem :=
  let stays := fun g => (t.gangs.find? g).any fun G => G.fn == f
  let split := fun g sp => (t.gangs.find? g).bind fun G => G.splits.find? sp
  let ran := match s.cur.bind fun q => s.cx? q.1 q.2 with
    | some c => if stays c.g ∧ (split c.g c.sp).all fun Q => Q.pc != c.P.pc then c.instr?.elim [] c.writtenItems else []
    | none => []
  let owed := (s.gangsOf f).flatMap fun q => if stays q.1 then q.2.splits.flatMap fun r =>
      (((split q.1 r.1).elim [] (·.late)).flatMap fun x => x.items q.1 r.1).foldl List.erase (r.2.late.flatMap fun x => x.items q.1 r.1) else []
  let sent := (s.remotes.filter fun r => stays r.g && !t.remotes.contains r).flatMap fun r =>
    (r.vdst.map fun k => LogItem.vreg r.g (k / 96)) ++ r.sdst.elim [] fun n => scalarItems r.g r.sp n 1
  let retired := (Store.keep s.mats fun id o => stays o.g && (t.mats.find? id).isNone).flatMap fun q =>
    q.2.writesTiles.map fun n => LogItem.tile (tileNumber q.2.team q.2.pair n)
  ran ++ owed ++ sent ++ retired

/-- The engine operations outstanding at a mark, but for committed ones. -/
def Ckpt.operations (k : Ckpt) : List LogItem :=
  ((Store.keep k.copies fun _ o => !o.committed).keys ++ k.mats.keys ++ k.gathers.keys).map .operation

/-- Log what an item held in a view. -/
def State.logItem (s : State) (f : Nat) (view later : Ckpt) (i : LogItem) : State :=
  match (s.fn f).ckpt with
  | none => s
  | some k =>
    let (t, k) := s.logEntry f k i.kind i.number (view.who later i) false 0 (view.payload s.tick i)
    ({ t with tick := t.tick + 256 } : State).setCkpt f { k with items := i :: k.items }

/-- The log of a function after a step from `s` to `t`: marks of what is committed, the operations of a new mark, and what the
other items held that the step is the first to write. -/
def State.logStep (s t : State) (f : Nat) : State :=
  match (t.fn f).ckpt with
  | none => t
  | some k =>
    let fresh := (s.fn f).ckpt.all fun o => o.seq != k.seq
    -- what a launch that is over leaves is no write, nor is leaving the cores or coming back
    let ended := fun l => (t.launches.find? l).all fun x => x.ended.isSome
    let moved := decide (3 ≤ s.pstat f) || decide (3 ≤ t.pstat f)
    let before := (if fresh then (s.settleAll f).snapshot f {} else (s.fn f).ckpt.getD {}).without ended
    let committed := if moved then [] else before.changes k
    let base := (if fresh then k else s.snapshot f {}).without ended
    let now := t.snapshot f {}
    let all := (base.changes now ++ if fresh then [] else s.rewritten t f).eraseDups
    let written := if moved then [] else all.filter fun i => !committed.contains i && !k.items.contains i
    let t := committed.foldl (fun t i => t.logCommit f i.kind i.number (before.who k i) 0) t
    (written ++ if fresh then k.operations else []).foldl (fun t i => t.logItem f (if fresh then k else base) now i) t

/-! ### Steps that can be taken -/

/-- A byte that the step from `s` to `t` writes is held, before and after it. -/
def State.writesHeld (s t : State) : Bool :=
  (t.order.take (t.order.length - s.order.length)).any fun q => s.heldKey q.key && t.heldKey q.key

/-- The functions that keep a checkpoint. -/
def State.logged (s : State) : List Nat := (Store.keep s.fns fun _ x => x.ckpt.isSome).keys

/-- A step from `s` to `t` with its log entries, if it can be taken. -/
def State.lands (s t : State) : Option State :=
  let u := t.logged.foldl (State.logStep s) t
  if s.writesHeld t || t.logged.any u.logFull then none else some u

/-- An instruction whose step cannot be taken stalls; where the log is full, one of an exit routine overruns (19 R308). -/
def State.stalls (s t : State) : State :=
  match s.cur.bind fun q => s.cx? q.1 q.2 with
  | some c => if c.P.rstate = 1 ∧ !s.writesHeld t then c.exitFailure 0x0D else c.waitFor .memory
  | none => s

/-- The running instruction's step. -/
def State.landed (s t : State) : State := (s.lands t).getD (s.stalls t)

end Sys2Proof.Machine
end

