-- ==== Sys2Proof/Machine/Schedule.lean ====
section
/-!
DEFINITION. What the machine does when no event is listed and no split is running (log 7), and how a word is placed to be
fetched next (log 8).
-/

namespace Sys2Proof.Machine

/-! ### The default order -/

/-- An event that the machine may bring about by itself, by its effect. -/
abbrev Step := State → Outcome

/-- The event's step, if it can be taken and changes anything but the count of turns. -/
def State.progress (s : State) (e : Step) : Option State :=
  match e s with
  | .next t => if { t with turn := s.turn } = s then none else s.lands t
  | _ => none

/-- Every split on a core. -/
def State.splits (s : State) : List (Nat × Nat) := s.gangs.flatMap fun q => q.2.splits.keys.map fun sp => (q.1, sp)

/-- Quarters on which an opportunity would lead to something, each once. -/
def State.quarters (s : State) : List Nat :=
  let qs := (s.gangs.map fun q => q.2.quarterNo).foldl (fun l q => if l.contains q then l else l ++ [q]) []
  qs.filter fun q => (s.splitOn q Split.midClause).isSome || (s.goesOn q).isSome || (s.selectGang q).isSome

/-- Clauses are fetched, their waits and holds end. -/
def State.clauseEvents (s : State) : List Step :=
  s.splits.flatMap fun q => [execClauseFetch q.1 q.2, execHeaderWaitSatisfied q.1 q.2, execMeetHoldEnd q.1 q.2]

/-- Waiting instructions go on. -/
def State.wakeEvents (s : State) : List Step :=
  s.splits.flatMap fun q =>
    [ execCounterStallRelease q.1 q.2, execRendezvousWaitSatisfied q.1 q.2, execRingputProceeds q.1 q.2
    , execRingtakeProceeds q.1 q.2, execKwaitSatisfied q.1 q.2, execCopyQueueRoom q.1 q.2, execMatrixQueueRoom q.1 q.2
    , execScallRingRoom q.1 q.2, execCpopRecordTaken q.1 q.2, execCpushQueueRoom q.1 q.2, execCjoinRetry q.1 q.2
    , execMbsendRoom q.1 q.2, execMbrecvMessageTaken q.1 q.2, execLpnextRecordTaken q.1 q.2 ]

/-- Engines complete, Weevil pushes, records are accepted, gangs and launches end. -/
def State.engineEvents (s : State) : List Step :=
  s.copies.keys.map execCopyComplete ++ s.mats.keys.map execMatrixOpStart ++ s.mats.keys.map execMatrixOpRetire
    ++ s.gathers.keys.map execGatherComplete
    ++ s.hods.flatMap (fun q => q.2.lanes.map fun l => execHodUpdateApply q.1 l.1)
    ++ s.teams.keys.map execWeevilPush
    ++ s.splits.map (fun q => execSpawnRecordAccept q.1 q.2)
    ++ s.gangs.keys.map execGangEnd ++ s.launches.keys.map execLaunchCompletion

/-- Entries are taken, teams and Chafer's gangs are placed, missed doorbells are served. -/
def State.commandEvents (s : State) : List Step :=
  let teams : List Step := s.launches.filterMap fun q => (s.placeable q.1 q.2).map fun p => execTeamPlacement q.1 p.1 p.2
  let chafer : List Step := s.groups.filterMap fun q =>
    match s.launches.find? q.2.launch with
    | some l =>
      (((s.feClusters l.fe).filter fun c => s.fuse.dieOf c == q.2.die).findSome? (s.findOn l.chaferWant)).map fun p =>
        execChaferFormGang q.1 p
    | none => none
  let entries : List Step := s.slots.flatMap fun x =>
    [execCmdNop, execCmdFeed, execCmdPush, execCmdLaunch, execCmdDependence].map fun e => e x.fn x.queue
  teams ++ chafer ++ entries ++ (List.range 8).map execDoorbellMissService

/-- Services, pre-emptions, checkpoints and what else completes by itself. -/
def State.serviceEvents (s : State) : List Step :=
  let fns := 0 :: s.fns.keys.filter (· != 0)
  let tokens := s.gangs.flatMap fun q => (tokensOf [q]).map fun t => (q.2.fn, BitVec.ofNat 32 t)
  s.splits.map (fun q => execPreemptVectorExit q.1 q.2)
    ++ fns.map execCheckpointClose ++ fns.map execInvalidateComplete ++ fns.map execTflushComplete
    ++ fns.map execFaultQueueRetry ++ fns.map execScqSlotRetry ++ fns.map execAttestDone
    ++ [execWindowCommitComplete] ++ (s.flip.map fun q => execBiasFlipComplete q.1).toList
    ++ (((List.range 32).filter fun g => g != 0 && !(s.members g).isEmpty && s.turnOver g).map execTimesliceTurnEnd)
    ++ tokens.flatMap fun q => [execDemandZeroService q.1 q.2, execAtomnsDeviceCompletion q.1 q.2, execSpaceFreedResume q.1 q.2]

/-- What the passing of time alone brings: incomplete groups of records become gangs (04 R93), an exit routine that waits for
ever overruns its bound (09 R225), each die that has queues has its quantum. -/
def State.quantumEvents (s : State) : List Step :=
  s.groups.keys.map execChaferIdleTimeout ++ s.gangs.keys.map execExitBoundOverrun ++ ((List.range 8).filter fun d => s.slots.any fun x => x.die == d).map execSchedulerQuantum

/-- The next event of the default order: the kinds take turns, quanta come last. -/
def State.default (s : State) : Option State :=
  match s.tripped with
  | some (n, split) => s.progress (execColdReset n split)
  | none =>
  let issue := fun (s : State) => (rotated s.quarters s.turn).map execIssueOpportunity
  let kinds : List (State → List Step) :=
    [State.clauseEvents, issue, State.wakeEvents, State.engineEvents, State.commandEvents, State.serviceEvents]
  ((rotated kinds (s.turn / 2)).findSome? fun k => (k s).findSome? s.progress).or (s.quantumEvents.findSome? s.progress)

/-- A step with no event listed and no split running; a machine with nothing to do stays as it is. -/
def State.idle (s : State) : State :=
  match s.default with
  | some t => { t with turn := s.turn + 1 }
  | none => if s.quarters.isEmpty then s else { s with turn := s.turn + 1 }

/-! ### Placing a word -/

/-- A clause of one word, being run. -/
def oneWordClause (w : Word) : Clause where
  hdr := 0x1000
  header := BitVec.ofNat 64 (((opcodeClass (opcodeOf w)).getD 0) * 2 ^ 60 + 0xFFFF * 2 ^ 40)
  words := [w]
  pos := 0
  stop := 1
  waited := true
  begun := true
  desc := []

/-- A gang of 96 live lanes with one split, which runs a clause of the word. -/
def gangRunning (w : Word) : Gang where
  vregs := 128
  live := allLanes
  splits := [(0, { pc := 0x1008, region := 0x1000, member := allLanes, active := allLanes, clause := some (oneWordClause w) })]
  fresh := false

/-- The state in which the next step fetches `w`: gang 0 of team 0 of launch 0 is running it. -/
def State.placeWord (s : State) (nbits w : Nat) : State :=
  { s with
    agenda := []
    cur := some (0, 0)
    gangs := s.gangs.put 0 (gangRunning (BitVec.ofNat 64 (w % 2 ^ min nbits 64)))
    teams := s.teams.put 0 {}
    launches := s.launches.put 0 {} }

/-- A word that decodes to no instruction raises ILLOP in its turn (02 R49), but for a memory form that includes no lane,
which does nothing (07 R161); so it is too where its opcode takes no guard and the guard it has includes no lane (log 72). -/
def State.illegalWord (s : State) : Outcome :=
  s.issue fun c =>
    match c.word? with
    | some w =>
      let k := Ctl.ofBits w.toNat
      if 0x0D0 ≤ opcodeOf w ∧ opcodeOf w ≤ 0x0E8 ∧ c.included k = 0 then c.retire
      else c.illop
    | none => c.illop

/-- The word the running split issues next, if a split is running. -/
def State.fetched (s : State) : Option Word := (s.cur.bind fun q => s.cx? q.1 q.2).bind Cx.word?

end Sys2Proof.Machine
end

