-- ==== Sys2Proof/Machine/Step.lean ====
section
/-!
DEFINITION. One step: the event listed first, else the running split's next instruction, else the next of the default order. An
event whose step cannot be taken yet stays listed, and the machine goes on.
-/

namespace Sys2Proof.Machine

/-- Place the instruction whose bits are `w` where the next step fetches. -/
def State.withFetchWord (s : State) (nbits w : Nat) : State := s.placeWord nbits w

/-- The step that an outcome of the running instruction is. -/
def State.after (s : State) : Host.Outcome State Fault Refusal → Host.Outcome State Fault Refusal
  | .next t => .next (s.landed t)
  | o => o

/-- The step with no event listed. -/
def State.run (s : State) : Host.Outcome State Fault Refusal :=
  match s.fetched with
  | some w =>
    match decode w with
    | some i => s.after (exec i s)
    | none => s.after s.illegalWord
  | none => .next s.idle

def step (s : State) : Host.Outcome State Fault Refusal :=
  match s.agenda with
  | [] => s.run
  | i :: r =>
    match exec i { s with agenda := r } with
    | .next t =>
      match ({ s with agenda := r } : State).lands t with
      | some u => .next u
      | none =>
        match ({ s with agenda := [] } : State).run with
        | .next u => .next { u with agenda := i :: r }
        | o => o
    | o => o

end Sys2Proof.Machine
end

