-- ==== Sys2Proof/Safety.lean ====
section
/-!
DEFINITION. The terms in which claims are stated: a safe run; the running split's context; what an instruction that only
writes registers leaves as it was; what a write of a scalar register, of lane registers or of a predicate leaves.
-/

namespace Sys2Proof

/-- `k` steps from `s` answer a next state. A fault of the part is a next state (09 R230, 20 R321), so a machine that runs
is safe for every k. -/
def SafeFor (k : Nat) (s : Machine.State) : Prop := ∃ t, core.run k s = .next t

namespace Machine

/-- `c` is the context of the split that runs. -/
def Runs (s : State) (c : Cx) : Prop := s.cur = some (c.g, c.sp) ∧ s.cx? c.g c.sp = some c

/-- The split stands before the last instruction of its clause (02 R40), and no result of a long-latency form is
outstanding (02 R51). -/
def Steady (c : Cx) : Prop := c.P.late = [] ∧ ∃ cl, c.P.clause = some cl ∧ cl.pos + 1 < cl.stop

/-- The split stands before the last instruction of its clause, where every irrevocable one stands (02 R46, R55), and no result of a
long-latency form is outstanding. -/
def AtLast (c : Cx) : Prop := c.P.late = [] ∧ ∃ cl, c.P.clause = some cl ∧ cl.stop ≤ cl.pos + 1

/-- The clause that follows the split's own (02 R40). -/
def following (c : Cx) : Nat := c.P.clause.elim (c.P.pc + 8) fun cl => cl.hdr + 8 * (cl.words.length + 1)

/-- Its clause goes on at the next word (02 R40): PC advances by 8. -/
def Cx.advance (c : Cx) : Cx :=
  { c with P := { c.P with
      pc := c.P.pc + 8
      stcFrom := 0, reads := []
      closed := c.P.closed || isIrrevocable (c.word?.getD 0)
      clause := c.P.clause.map fun cl => { cl with pos := cl.pos + 1, begun := true } } }

/-- `f` reads every byte of memory alike in both states. -/
def SameBytes (s t : State) : Prop := ∀ f k, t.readByte f k = s.readByte f k

/-- What an instruction that writes only registers of its gang leaves in `t`, where `d` is the context the split goes on
with: nothing but the gang changes, in the gang nothing but registers and the split that ran, and PC is at the next word. -/
structure OnlyRegisters (c : Cx) (t : State) (d : Cx) : Prop where
  runs : Runs t d
  same : d.g = c.g ∧ d.sp = c.sp
  pc : d.P.pc = c.P.pc + 8
  world : t = { c.s with gangs := t.gangs }
  bytes : SameBytes c.s t
  gangs : ∀ h, h ≠ c.g → t.gangs.find? h = c.s.gangs.find? h
  splits : ∀ i, i ≠ c.sp → d.G.splits.find? i = c.G.splits.find? i
  gang : d.G = { c.G with splits := d.G.splits, v := d.G.v, p := d.G.p }
  split : d.P = { c.advance.P with s := d.P.s, active := d.P.active }

/-- Every lane register and predicate of the gang is unchanged. -/
def SameLanes (c d : Cx) : Prop := d.G.v = c.G.v ∧ d.G.p = c.G.p

/-- Every scalar register of the split, and ACTIVE with it (01 R18), is unchanged. -/
def SameScalars (c d : Cx) : Prop := d.P.s = c.P.s ∧ d.P.active = c.P.active

/-- Scalar register `n` has been written with `w` (01 R18): s0 discards it; s61 to s63 set their 32 lanes of ACTIVE within
MEMBER; every other register keeps its value. -/
structure WroteScalar (c d : Cx) (n : Nat) (w : Word) : Prop where
  value : n < 61 → d.sreg n = if n = 0 then 0 else w
  mask : 61 ≤ n → ∀ l, l < 96 → d.P.active.getLsbD l =
    ((if l / 32 = n - 61 then w.getLsbD (l % 32) else c.P.active.getLsbD l) && c.P.member.getLsbD l)
  active : n < 61 → d.P.active = c.P.active
  others : ∀ m, m < 61 → m ≠ n → d.sreg m = c.sreg m

/-- Lane register `r`, with `pair` also r + 1, holds the low and the high 32 bits of `f l` in each lane of `m`; every other
register, and every other lane, keeps its value. -/
structure WroteLanes (c d : Cx) (m : Mask) (r : Nat) (pair : Bool) (f : Nat → Nat) : Prop where
  low : ∀ l, m.getLsbD l = true → d.vreg r l = BitVec.ofNat 32 (f l)
  high : pair = true → ∀ l, m.getLsbD l = true → d.vreg (r + 1) l = BitVec.ofNat 32 (f l / 2 ^ 32)
  others : ∀ n l, l < 96 → ¬(m.getLsbD l = true ∧ (n = r ∨ pair = true ∧ n = r + 1)) → d.vreg n l = c.vreg n l

/-- Predicate `n` holds `f l` in each lane of `m` and keeps the others; p0 reads 1 (01 R20); no other predicate changes. -/
structure WrotePredicate (c d : Cx) (n : Nat) (m : Mask) (f : Nat → Bool) : Prop where
  value : n ≠ 0 → ∀ l, l < 96 → (d.G.pred n).getLsbD l = if m.getLsbD l then f l else (c.G.pred n).getLsbD l
  zero : d.G.pred 0 = allLanes
  others : ∀ k, k ≠ n → d.G.pred k = c.G.pred k

/-- The context with lane registers written: `f l` in each lane of `m`, in register `r` or with `pair` in r and r + 1. -/
def Cx.withLanes (c : Cx) (m : Mask) (r : Nat) (pair : Bool) (f : Nat → Nat) : Cx :=
  { c with G := applyVs c.G (laneWrites m r pair f) }

/-- `i` in the running split `c` writes `w` to scalar register `n` and nothing else: wherever the split stands in its
clause, and with what that leaves spelled out in the midst of one. -/
def GivesScalar (s : State) (c : Cx) (i : Instr) (n : Nat) (w : Word) : Prop :=
  exec i s = .next (c.setS n w).retire ∧
    (Steady c → ∃ t d, exec i s = .next t ∧ OnlyRegisters c t d ∧ WroteScalar c d n w ∧ SameLanes c d)

/-- The same of lane registers. -/
def GivesLanes (s : State) (c : Cx) (i : Instr) (m : Mask) (r : Nat) (pair : Bool) (f : Nat → Nat) : Prop :=
  exec i s = .next (c.withLanes m r pair f).retire ∧
    (Steady c → ∃ t d, exec i s = .next t ∧ OnlyRegisters c t d ∧ WroteLanes c d m r pair f ∧ SameScalars c d ∧ d.G.p = c.G.p)

/-- The same of a predicate in the lanes of `m`. -/
def GivesPredicate (s : State) (c : Cx) (i : Instr) (n : Nat) (m : Mask) (f : Nat → Bool) : Prop :=
  exec i s = .next (c.setP n (maskOf f) m).retire ∧
    (Steady c → ∃ t d, exec i s = .next t ∧ OnlyRegisters c t d ∧ WrotePredicate c d n m f ∧ SameScalars c d ∧ d.G.v = c.G.v)

/-- The split of `c` stands at the clause boundary `target` in `d`, its clause over, its registers as they were; nothing but
its gang has changed. -/
structure Stands (c : Cx) (t : State) (d : Cx) (target : Nat) : Prop where
  cur : t.cur = none
  there : t.cx? c.g c.sp = some d
  pc : d.P.pc = target
  idle : d.P.clause = none ∧ d.P.wait = none
  split : d.P.member = c.P.member ∧ d.P.region = c.P.region ∧ d.P.rstate = c.P.rstate
  scalars : SameScalars c d
  lanes : SameLanes c d
  world : t = { c.s with cur := none, gangs := t.gangs }
  bytes : SameBytes c.s t
  gangs : ∀ h, h ≠ c.g → t.gangs.find? h = c.s.gangs.find? h

/-- `i` ends its clause with the context `b` and moves the split to `target`; where it is its gang's only split and no result
is outstanding, what that leaves. -/
def GoesTo (s : State) (c b : Cx) (i : Instr) (target : Nat) : Prop :=
  exec i s = .next (b.endClause target) ∧
    (c.G.splits = [(c.sp, c.P)] → c.P.late = [] → ∃ t d, exec i s = .next t ∧ Stands b t d target)

/-- The split of `c`, once the last instruction of its clause is done, goes on with the context `b` at the clause that follows, where it
is its gang's only split. -/
def Passes (c b : Cx) (t : State) : Prop :=
  t = b.retire ∧ (AtLast c → c.G.splits.keys = [c.sp] → ∃ d, Stands b t d (following c))

/-- No other thread has written bytes of the accesses, so that each reads what stands there (01 R33 to R35; 25 R378). -/
def Alone (t : State) (c : Cx) (n : Nat) (ks : List Admitted) : Prop :=
  ∀ q ∈ ks, t.contended c.home q.lane q.key n = false

/-- No other gang has initialised the point, or ring n as 24 + n, that the split uses: it finds what stands there (10 R250). -/
def Ours (c : Cx) (n : Nat) : Prop := c.s.contended c.home c.actor (initKey c.G.team n) 1 = false

/-- The accesses `xs` of `n` bytes pass the checks of 07 R161: aligned, within their space, translated, permitted and charged,
which leaves their keys `ks`, and fill the bricks they touch (17 R270), which leaves `t`; none is held (17 R273; 24 R368) and all
lie in this package or its hosts. -/
structure Reaches (c : Cx) (space n : Nat) (acc : Acc) (xs : List LaneAcc) (t : State) (ks : List Admitted) : Prop where
  aligned : ∀ x ∈ xs, x.addr % n = 0
  inside : ∀ x ∈ xs, (c.target space x.addr n).isSome = true
  admitted : ∃ u, c.s.admitAll c.G.fn (c.s.launchOf c.G).agent acc
    (xs.filterMap fun x => (c.target space x.addr n).map fun a => (x, a)) = .inr (u, ks) ∧ t = u.touchAll c.G.fn ks
  free : ∀ x ∈ xs, ∀ a, c.target space x.addr n = some a → c.s.heldTarget c.G.fn a = false
  here : ∀ q ∈ ks, isRemote q.key = false

/-- The function keeps no checkpoint and none is being closed (19 R305), so its writes are not logged and its irrevocable
instructions close none. -/
def NoLog (s : State) (f : Nat) : Prop :=
  s.hasLog f = false ∧ (s.fn f).ckpt = none ∧ (s.fn f).close = .none ∧ s.pstat f ≠ 1

/-- No brick is cached that differs from memory, and no format window is set (17 R268, R272). -/
def PlainMemory (s : State) : Prop := s.bricks = [] ∧ s.windows = []

/-- For every function, the `n` bytes from key `k` read as the number `x` in `u`, and every other byte as in `s`. -/
def WroteBytes (s u : State) (k n x : Nat) : Prop :=
  ∀ f a, u.readByte f a = if k ≤ a ∧ a < n + k then BitVec.ofNat 8 (x / 2 ^ (8 * (a - k))) else s.readByte f a

/-- `n` bytes from key `k` lie outside the aperture of format windows. -/
def OffAperture (k n : Nat) : Prop := n + k ≤ aperture ∨ 2 ^ 48 ≤ k

/-- No byte of `n` from key `k` is a field of a queue's control block that the function only reads (18 R287), nor an entry of its
queue table. -/
def OffQueues (s : State) (f k n : Nat) : Prop :=
  f = 0 ∨ ((∀ i, i < n → s.readOnly f (k + i) = false) ∧
    (n + k ≤ s.ffield f 0xA00 47 0 ∨ s.ffield f 0xA00 47 0 + 8 * s.ffield f 0xA08 12 0 ≤ k))

/-- What an irrevocable instruction takes effect in (09 R220) where no checkpoint is kept: the context, its results settled
and stored back. -/
def Cx.settled' (c : Cx) : Cx := c.settle.reload c.settle.flush

/-- What an irrevocable instruction acts on where no checkpoint is kept: a running split that is in no exit routine. -/
def Acts (s : State) (c : Cx) : Prop := Runs s c ∧ c.P.rstate ≠ 1 ∧ NoLog s c.G.fn

/-- The split with its wait over, stored back. -/
def Cx.freed (c : Cx) : State := ({ c with P := { c.P with wait := none } } : Cx).flush

/-- It issues next: its clause stalls no longer. -/
def Cx.resumed (c : Cx) : State :=
  { ({ c with P := { c.P with wait := none, stalled := false } } : Cx).flush with cur := some (c.g, c.sp) }

/-- `i` raises ILLOP and has no other effect (02 R49). -/
def IsIllegal (s : State) (c : Cx) (i : Instr) : Prop := exec i s = .next c.illop

end Machine

end Sys2Proof
end

