-- ==== Sys2Proof/Certificates/Slice0/Obligations.lean ====
section
/-! DEFINITION. Statements. -/

open Sys2Proof Sys2Proof.Machine

/-! ### Registers -/

/-- 01 R18: a write of a scalar register, read back. -/
def ScalarRegisterWriteReadsBack : Prop :=
  ∀ (c : Cx) (n : Nat) (w : Word), n < 64 → WroteScalar c (c.setS n w) n w

/-- 01 R20: p0 reads 1 in every lane and discards writes; a write of another predicate reaches only the lanes it is for. -/
def PredicateWriteReadsBack : Prop :=
  ∀ (c : Cx) (n : Nat) (x m : Mask), WrotePredicate c (c.setP n x m) n m fun l => x.getLsbD l

/-- 01 R18, R20: registers and predicates read back what was written, s0 and p0 apart. -/
def Obligations.RegisterWriteReadsBack : Prop := ScalarRegisterWriteReadsBack ∧ PredicateWriteReadsBack

/-! ### Going on (02 R40, R44, R51) -/

/-- 02 R40: an instruction that is not its clause's last leaves its split at the next word of the clause, PC 8 further, with
every register as the instruction left it. -/
def ClauseGoesOnAtNextWord : Prop :=
  ∀ (s : State) (c : Cx) (cl : Clause), Runs s c → c.P.late = [] → c.P.clause = some cl → cl.pos + 1 < cl.stop →
    ∃ d, OnlyRegisters c c.retire d ∧ SameScalars c d ∧ SameLanes c d ∧
      ∃ cl', d.P.clause = some cl' ∧ cl'.pos = cl.pos + 1 ∧ cl'.words = cl.words ∧ cl'.stop = cl.stop ∧ cl'.hdr = cl.hdr

/-- 02 R40: after its last instruction the clause is over. Where no other split of the gang stands at the boundary that
follows, the split stands there, ready to fetch, with its registers as they were. -/
def ClauseEndsAtNextHeader : Prop :=
  ∀ (s : State) (c : Cx) (cl : Clause), Runs s c → c.P.late = [] → c.P.clause = some cl → cl.stop ≤ cl.pos + 1 →
    (∃ below above, c.G.splits = below ++ (c.sp, c.P) :: above ∧ (∀ q ∈ below, q.1 < c.sp) ∧ (∀ q ∈ above, c.sp < q.1) ∧
      ∀ q ∈ below ++ above, q.2.pc ≠ cl.hdr + 8 * (cl.words.length + 1)) →
    c.retire.cur = none ∧
      ∃ d, c.retire.cx? c.g c.sp = some d ∧ d.P.pc = cl.hdr + 8 * (cl.words.length + 1) ∧ d.P.clause = none ∧
        d.P.wait = none ∧ d.P.member = c.P.member ∧ SameScalars c d ∧ SameLanes c d ∧ SameBytes s c.retire ∧
        ∀ h, h ≠ c.g → c.retire.gangs.find? h = s.gangs.find? h

/-- 02 R40: where a split stands after an instruction of its clause, and after the last. -/
def Obligations.ClauseSequence : Prop := ClauseGoesOnAtNextWord ∧ ClauseEndsAtNextHeader

/-- 02 R51: each instruction of the window counts; the results of a form are written when the last one has issued, at once
if the window is empty. -/
def Obligations.LateResultsArriveAtWindowEnd : Prop :=
  (∀ (c : Cx) (k : Ctl) (r : Late), c.window k = 0 → c.results k r = c.deliver r) ∧
  (∀ (c : Cx) (k : Ctl) (r : Late), 0 < c.window k →
    c.results k r = { c with P := { c.P with late := c.P.late ++ [{ r with left := c.window k + 1 }] } }) ∧
  (∀ (c : Cx) (r : Late), c.P.late = [r] → 2 ≤ r.left →
    c.ageLate = { c with P := { c.P with late := [{ r with left := r.left - 1 }] } }) ∧
  (∀ (c : Cx) (r : Late), c.P.late = [r] → r.left = 1 →
    c.ageLate.G = applyPs (applyVs c.G r.vs) r.ps ∧ c.ageLate.P = { applySs c.P r.ss with late := [] } ∧ c.ageLate.s = c.s)

/-! ### Scalar forms (05 R109, R112 to R115) -/

/-- What each form computes from the low w bits a, b, c of its sources and d of its old destination. -/
def scalarForms : List ((Tri → Instr) × (Tri → Nat → Nat → Nat → Nat → Nat)) :=
  let val := fun (f : Tri) (x : Nat) => valueOf f.ty x
  let wrap := fun (f : Tri) (x : Int) => (x % (2 ^ f.ty.width : Nat)).toNat
  [ (.sadd, fun f a b _ _ => (a + b) % 2 ^ f.ty.width)
  , (.ssub, fun f a b _ _ => wrap f ((a : Int) - b))
  , (.smul, fun f a b _ _ => a * b % 2 ^ f.ty.width)
  , (.smulh, fun f a b _ _ => wrap f (val f a * val f b / (2 ^ f.ty.width : Nat)))
  , (.sdiv, fun f a b _ _ => if b % 2 ^ f.ty.width = 0 then 2 ^ f.ty.width - 1 else wrap f ((val f a).tdiv (val f b)))
  , (.srem, fun f a b _ _ => if b % 2 ^ f.ty.width = 0 then a % 2 ^ f.ty.width else wrap f ((val f a).tmod (val f b)))
  , (.sand, fun _ a b _ _ => a &&& b)
  , (.sor, fun _ a b _ _ => a ||| b)
  , (.sxor, fun _ a b _ _ => a ^^^ b)
  , (.sandn, fun f a b _ _ => a &&& (2 ^ f.ty.width - 1 - b % 2 ^ f.ty.width))
  , (.sshl, fun f a b _ _ => if f.ty.width ≤ b then 0 else a * 2 ^ b % 2 ^ f.ty.width)
  , (.sshr, fun f a b _ _ => if f.ty.width ≤ b then 0 else a % 2 ^ f.ty.width / 2 ^ b)
  , (.ssra, fun f a b _ _ => wrap f (signedOf f.ty.width a / (2 ^ min b (f.ty.width - 1) : Nat)))
  , (.smin, fun f a b _ _ => if val f b < val f a then b else a)
  , (.smax, fun f a b _ _ => if val f a < val f b then b else a)
  , (.scmp, fun f a b _ _ => (condElem f.ty f.mod.toNat a b).toNat)
  , (.ssel, fun _ a b c _ => if c ≠ 0 then a else b)
  , (.smad, fun f a b c _ => (a * b + c) % 2 ^ f.ty.width)
  , (.sclz, fun f a _ _ _ => clzW f.ty.width a)
  , (.spopc, fun f a _ _ _ => popW f.ty.width a)
  , (.sbfx, fun f a b c _ => bfxW f.ty a b c)
  , (.sbfi, fun f a b c d => bfiW f.ty.width a b c d) ]

/-- 05 R112 to R114: the result of every scalar arithmetic form, for every operand and every type, and its frame: it is
written to the destination alone, extended as R109 says, whether or not ACTIVE holds a lane. -/
def ScalarArithmeticResult : Prop :=
  ∀ p ∈ scalarForms, ∀ (s : State) (c : Cx) (f : Tri), Runs s c →
    GivesScalar s c (p.1 f) f.dst.sNum
      (extendS f.ty (p.2 f (c.ssrc f.a f.ty) (c.ssrc f.b f.ty) (c.ssrc f.c f.ty) ((c.sreg f.dst.sNum).toNat % 2 ^ f.ty.width)))

/-- 05 R110, R112 on whole registers: in .n64 the scalar forms are the arithmetic of 64-bit words. -/
def ScalarWordArithmetic : Prop :=
  ∀ (s : State) (c : Cx) (f : Tri) (d a b : BitVec 6), Runs s c → f.ty = .n64 → f.dst = .s d → f.a = .s a → f.b = .s b →
    let x := c.sreg a.toNat
    let y := c.sreg b.toNat
    GivesScalar s c (.sadd f) d.toNat (x + y) ∧ GivesScalar s c (.ssub f) d.toNat (x - y) ∧
      GivesScalar s c (.smul f) d.toNat (x * y) ∧ GivesScalar s c (.sand f) d.toNat (x &&& y) ∧
      GivesScalar s c (.sor f) d.toNat (x ||| y) ∧ GivesScalar s c (.sxor f) d.toNat (x ^^^ y) ∧
      GivesScalar s c (.sandn f) d.toNat (x &&& ~~~y) ∧
      GivesScalar s c (.sdiv f) d.toNat (if y = 0 then BitVec.allOnes 64 else x / y) ∧
      GivesScalar s c (.srem f) d.toNat (if y = 0 then x else x % y) ∧
      GivesScalar s c (.sshl f) d.toNat (x <<< y.toNat) ∧ GivesScalar s c (.sshr f) d.toNat (x >>> y.toNat)


/-- What each immediate form computes from its source a and its immediate's element i (02 R54). -/
def scalarImmForms : List ((Imm → Instr) × (Imm → Cx → Nat → Nat → Nat)) :=
  [ (.saddi, fun f _ a i => (a + i) % 2 ^ f.ty.width)
  , (.sandi, fun _ _ a i => a &&& i)
  , (.sori, fun _ _ a i => a ||| i)
  , (.sxori, fun _ _ a i => a ^^^ i)
  , (.smovi, fun _ _ _ i => i)
  , (.smovhi, fun f _ a _ => (Word.put (BitVec.ofNat 64 a) (16 * f.mod.toNat + 15) (16 * f.mod.toNat) f.imm.toNat).toNat)
  , (.saddpc, fun f c _ _ => (c.P.pc + (8 * signedOf 16 f.imm.toNat % (2 ^ 64 : Nat)).toNat) % 2 ^ 64)
  , (.scmpi, fun f _ a i => (condElem f.ty f.mod.toNat a i).toNat) ]

/-- 05 R115: the scalar immediate forms. -/
def ScalarImmediateResult : Prop :=
  ∀ p ∈ scalarImmForms, ∀ (s : State) (c : Cx) (f : Imm), Runs s c →
    GivesScalar s c (p.1 f) f.dst.sNum (extendS f.ty (p.2 f c (c.ssrc f.a f.ty) (immElem f.ty f.imm 0)))

/-- 05 R109 to R115: scalar forms of registers and of an immediate. -/
def Obligations.ScalarFormResult : Prop := ScalarArithmeticResult ∧ ScalarWordArithmetic ∧ ScalarImmediateResult

/-- Included lanes in which a predicate holds, and the lowest lane of a mask, all ones without one. -/
def holding (c : Cx) (t : Tri) : Mask := c.G.pred t.a.vNum &&& c.included t.ctl
def lowest (m : Mask) : Word := ((List.range 96).find? fun l => m.getLsbD l).elim (BitVec.allOnes 64) fun l => BitVec.ofNat 64 l

/-- The forms that read a value of the machine into a scalar register. -/
def scalarReads (c : Cx) (t : Tri) (y : Sys) (k : Cpy) : List (Instr × Operand × Word) :=
  [ (.ptos t, t.dst, maskWord (holding c t) t.mod.toNat)
  , (.pcount t, t.dst, BitVec.ofNat 64 ((List.range 96).filter fun l => (holding c t).getLsbD l).length)
  , (.pfind t, t.dst, lowest (holding c t))
  , (.gwidth y, y.dst, BitVec.ofNat 64 ((List.range 96).filter fun l => c.G.live.getLsbD l).length)
  , (.gsplits y, y.dst, BitVec.ofNat 64 ((c.G.splits.map fun q => 2 ^ q.1).sum + 16 * c.sp))
  , (.gactive y, y.dst, maskWord c.G.live y.imm.toNat)
  , (.lfirst y, y.dst, lowest c.P.active)
  , (.pairq y, y.dst, BitVec.ofNat 64 (match y.imm.toNat with
      | 0 => 2 * c.G.cluster + c.G.seat.core / 2
      | 1 => if c.G.seat.core % 2 = 0 then 1 else 0
      | 2 => c.team.tiles
      | _ => (c.s.mats.filter fun q => q.2.pair == c.G.pair).length))
  , (.capq y, y.dst,
      if y.imm.toNat < 64 then BitVec.ofNat 64 (c.s.fuse.cap y.imm.toNat)
      else if y.imm.toNat = 64 then BitVec.ofNat 64 c.G.fn
      else if y.imm.toNat = 65 then BitVec.ofNat 64 c.G.save
      else if y.imm.toNat = 66 then BitVec.ofNat 64 (if c.G.save = 0 then 0 else c.G.save + 0x400 + 0xC400 * c.sp)
      else if y.imm.toNat = 67 then BitVec.ofNat 64 (((c.s.launchOf c.G).entry.getD 0 0).toNat % 2 ^ 32)
      else (c.s.launchOf c.G).gp.get 0 (y.imm.toNat - 128))
  , (.lpq k, k.dst, match k.mod.toNat with
      | 0 => BitVec.ofNat 64 c.nest.state.code
      | 1 => BitVec.ofNat 64 c.nest.opened.length
      | 2 => BitVec.ofNat 64 (c.nest.permits - c.nest.opened.length)
      | 3 => BitVec.ofNat 64 c.nest.next
      | _ => c.G.held.getD (BitVec.allOnes 64)) ]

/-- 04 R99, R101; 06 R150; 08 R215; 09 R247: the queries. -/
def QueryResult : Prop :=
  ∀ (s : State) (c : Cx) (t : Tri) (y : Sys) (k : Cpy), Runs s c →
    ∀ p ∈ scalarReads c t y k, GivesScalar s c p.1 p.2.1.sNum p.2.2

/-- 04 R99, R101; 09 R245, R246: queries that read another split's entry, lanes, the quota table or a cycle count, which is a
free value (log 16). -/
def TableQueryResult : Prop :=
  ∀ (s : State) (c : Cx) (t : Tri) (y : Sys), Runs s c →
    (c.fits t.a .b32 = true → GivesScalar s c (.ballot t) t.dst.sNum
      (maskWord (maskOf fun l => (c.included t.ctl).getLsbD l && c.vreg t.a.vNum l != 0) t.mod.toNat)) ∧
    (c.fits t.a .b32 = false → IsIllegal s c (.ballot t)) ∧
    (∀ P, c.G.splits.find? (c.ssrc y.a .n64) = some P →
      GivesScalar s c (.gmember y) y.dst.sNum (maskWord P.member y.imm.toNat)) ∧
    (c.G.splits.find? (c.ssrc y.a .n64) = none → GivesScalar s c (.gmember y) y.dst.sNum 0) ∧
    (let agent := (c.s.launchOf c.G).agent
     let e := s.ffield c.G.fn 0xC50 47 0 + 16 * agent
     let quota := (s.rawWord e).toNat % 2 ^ 32
     let charged := (s.rawWord (e + 8)).toNat % 2 ^ 32
     GivesScalar s c (.quotaq y) y.dst.sNum (BitVec.ofNat 64 (match y.imm.toNat with
       | 0 => agent | 1 => quota | 2 => charged | _ => quota - charged))) ∧
    (y.imm.toNat = 1 → GivesScalar s c (.cycq y) y.dst.sNum (BitVec.ofNat 64 c.G.sels)) ∧
    (2 ≤ y.imm.toNat → c.P.rstate ≠ 1 → GivesScalar s c (.cycq y) y.dst.sNum (BitVec.allOnes 64)) ∧
    (y.imm.toNat = 0 ∨ 2 ≤ y.imm.toNat ∧ c.P.rstate = 1 → exec (.cycq y) s =
      .next ({ c with s := { s with tick := s.tick + 1 } }.setS y.dst.sNum (Config.freeValue s.tick)).retire)

/-- 04 R99, R101; 06 R150; 08 R215; 09 R245 to R247: every query. -/
def Obligations.QueryFormResult : Prop := QueryResult ∧ TableQueryResult

/-! ### Vector forms (05 R108, R110 to R118) -/

/-- Every element of every included lane from the elements of up to three sources. -/
def elementForms : List ((Tri → Instr) × Nat × (Tri → Nat → Nat → Nat → Nat)) :=
  let val := fun (f : Tri) (x : Nat) => valueOf f.ty x
  let wrap := fun (f : Tri) (x : Int) => (x % (2 ^ f.ty.width : Nat)).toNat
  [ (.vadd, 2, fun f a b _ => (a + b) % 2 ^ f.ty.width)
  , (.vsub, 2, fun f a b _ => wrap f ((a : Int) - b))
  , (.vmul, 2, fun f a b _ => a * b % 2 ^ f.ty.width)
  , (.vmulh, 2, fun f a b _ => wrap f (val f a * val f b / (2 ^ f.ty.width : Nat)))
  , (.vaddsat, 2, fun f a b _ => wrap f (max (intMin f.ty) (min (intMax f.ty) (val f a + val f b))))
  , (.vsubsat, 2, fun f a b _ => wrap f (max (intMin f.ty) (min (intMax f.ty) (val f a - val f b))))
  , (.vand, 2, fun _ a b _ => a &&& b)
  , (.vor, 2, fun _ a b _ => a ||| b)
  , (.vxor, 2, fun _ a b _ => a ^^^ b)
  , (.vandn, 2, fun f a b _ => a &&& (2 ^ f.ty.width - 1 - b % 2 ^ f.ty.width))
  , (.vshl, 2, fun f a b _ => if f.ty.width ≤ b then 0 else a * 2 ^ b % 2 ^ f.ty.width)
  , (.vshr, 2, fun f a b _ => if f.ty.width ≤ b then 0 else a % 2 ^ f.ty.width / 2 ^ b)
  , (.vsra, 2, fun f a b _ => wrap f (signedOf f.ty.width a / (2 ^ min b (f.ty.width - 1) : Nat)))
  , (.vmin, 2, fun f a b _ => if val f b < val f a then b else a)
  , (.vmax, 2, fun f a b _ => if val f a < val f b then b else a)
  , (.vabs, 1, fun f a _ _ => wrap f (signedOf f.ty.width a).natAbs)
  , (.vneg, 1, fun f a _ _ => wrap f (-(a : Int)))
  , (.vclz, 1, fun f a _ _ => clzW f.ty.width a)
  , (.vpopc, 1, fun f a _ _ => popW f.ty.width a)
  , (.vmad, 3, fun f a b c => (a * b + c) % 2 ^ f.ty.width)
  , (.vbfx, 3, fun f a b c => bfxW f.ty a b c)
  , (.fadd, 2, fun f a b _ => roundNum f.ty ((numOf f.ty a).add (numOf f.ty b)))
  , (.fsub, 2, fun f a b _ => roundNum f.ty ((numOf f.ty a).add (numOf f.ty b).neg))
  , (.fmul, 2, fun f a b _ => roundNum f.ty ((numOf f.ty a).mul (numOf f.ty b)))
  , (.fmin, 2, fun f a b _ => minCode f.ty a b)
  , (.fmax, 2, fun f a b _ => maxCode f.ty a b)
  , (.fma, 3, fun f a b c => fmaCode f.ty false false a b c)
  , (.fms, 3, fun f a b c => fmaCode f.ty false true a b c)
  , (.fnma, 3, fun f a b c => fmaCode f.ty true false a b c)
  , (.fnms, 3, fun f a b c => fmaCode f.ty true true a b c)
  , (.fabs, 1, fun f a _ _ => absCode f.ty a)
  , (.fneg, 1, fun f a _ _ => negCode f.ty a)
  , (.frnd, 1, fun f a _ _ => rndCode f.ty f.mod.toNat a)
  , (.fregime, 1, fun f a _ _ => if f.mod == 0 then regimeScale f.ty a else regimeFrac f.ty a) ]

/-- 05 R108, R110, R114, R116, R119 to R121, R125, R127: the result of every element-wise form of registers, and its frame: each included
lane's elements are computed from the elements of its sources, excluded lanes keep the destination, and nothing else is
written. A register that the gang does not have raises ILLOP (01 R19). -/
def ElementwiseResult : Prop :=
  ∀ p ∈ elementForms, ∀ (s : State) (c : Cx) (f : Tri), Runs s c →
    let srcs := [f.a, f.b, f.c].take p.2.1
    let value := fun l => ofElems f.ty fun e => p.2.2 f (elem f.ty (c.vsrc f.a f.ty l) e) (elem f.ty (c.vsrc f.b f.ty l) e)
      (elem f.ty (c.vsrc f.c f.ty l) e)
    ((∀ o ∈ f.dst :: srcs, c.fits o f.ty = true) →
      GivesLanes s c (p.1 f) (c.included f.ctl) f.dst.vNum f.ty.is64 value) ∧
    ((∃ o ∈ f.dst :: srcs, c.fits o f.ty = false) → IsIllegal s c (p.1 f))

/-- The immediate forms: the element of the source and the immediate's element. -/
def elementImmForms : List ((Imm → Instr) × (Imm → Nat → Nat → Nat)) :=
  [ (.vaddi, fun f a i => (a + i) % 2 ^ f.ty.width)
  , (.vandi, fun _ a i => a &&& i)
  , (.vori, fun _ a i => a ||| i)
  , (.faddi, fun f a i => roundNum f.ty ((numOf f.ty a).add (numOf f.ty i)))
  , (.fmuli, fun f a i => roundNum f.ty ((numOf f.ty a).mul (numOf f.ty i)))
  , (.fmini, fun f a i => minCode f.ty a i)
  , (.fmaxi, fun f a i => maxCode f.ty a i) ]

/-- 05 R118, R129: element-wise forms with an immediate; vmovi takes no source, and fmai adds the old destination. -/
def ElementwiseImmediateResult : Prop :=
  ∀ (s : State) (c : Cx) (f : Imm), Runs s c → c.fits f.dst f.ty = true →
    (∀ p ∈ elementImmForms, c.fits f.a f.ty = true →
      GivesLanes s c (p.1 f) (c.included f.ctl) f.dst.vNum f.ty.is64
        fun l => ofElems f.ty fun e => p.2 f (elem f.ty (c.vsrc f.a f.ty l) e) (elem f.ty (immValue f.ty f.imm) e)) ∧
    GivesLanes s c (.vmovi f) (c.included f.ctl) f.dst.vNum f.ty.is64 (fun _ => immValue f.ty f.imm) ∧
    (c.fits f.a f.ty = true → GivesLanes s c (.fmai f) (c.included f.ctl) f.dst.vNum f.ty.is64 fun l =>
      ofElems f.ty fun e => fmaCode f.ty false false (elem f.ty (c.vsrc f.a f.ty l) e) (immElem f.ty f.imm e)
        (elem f.ty (c.vsrc f.dst f.ty l) e))

/-- 05 R108, R110, R114, R116, R118 to R121, R125, R127, R129: element-wise forms of registers and of an immediate. -/
def Obligations.VectorFormResult : Prop := ElementwiseResult ∧ ElementwiseImmediateResult

/-- The conversions: the element of the source type to the destination type. -/
def convertForms : List ((Tri → Instr) × (Tri → ETy → Nat → Nat)) :=
  [ (.vcvti, fun f src x =>
      let v := valueOf src x
      ((if bitsN f.mod.toNat 5 5 = 1 then max (intMin f.ty) (min (intMax f.ty) v) else v) % (2 ^ f.ty.width : Nat)).toNat)
  , (.fcvt, fun f src x => roundNum f.ty (numOf src x))
  , (.fcvti, fun f src x => toIntCode f.ty src (bitsN f.mod.toNat 5 5 == 1) x)
  , (.icvtf, fun f src x => ofIntCode f.ty (valueOf src x)) ]

/-- 05 R117, R123: conversions between types, element by element under the part rule. -/
def Obligations.ConversionResult : Prop :=
  ∀ p ∈ convertForms, ∀ (s : State) (c : Cx) (f : Tri) (src : ETy), Runs s c → ETy.ofCode? (bitsN f.mod.toNat 4 0) = some src →
    c.fits f.dst f.ty = true → c.fits f.a src = true →
    GivesLanes s c (p.1 f) (c.included f.ctl) f.dst.vNum f.ty.is64 fun l =>
      partPlace f.ty src (bitsN f.mod.toNat 7 6) (c.vsrc f.dst f.ty l) fun e => p.2 f src (elem src (c.vsrc f.a src l) e)

/-- 05 R116, R122, R124 to R128: selects, field insertion, scaling, dot products, packing and twin elements. That fsel of .t6
writes bits 7:6 of a container as zero is log 58 (DEDUCED). -/
def Obligations.MixedElementResult : Prop :=
  ∀ (s : State) (c : Cx) (f : Tri), Runs s c →
    let m := c.included f.ctl
    let d := f.dst.vNum
    let dot := fun l => exactSum (dotFmt f) (numOf (dotFmt f) (c.vsrc f.c (dotFmt f) l)) ((List.range f.ty.count).map fun e =>
      (numOf f.ty (elem f.ty (c.vsrc f.a f.ty l) e), numOf f.ty (elem f.ty (c.vsrc f.b f.ty l) e)))
    let pick := fun l => if (c.G.pred f.mod.toNat).getLsbD l then c.vsrc f.a f.ty l else c.vsrc f.b f.ty l
    let src := (ETy.ofCode? f.mod.toNat).getD .t8
    let twinFmt : ETy := if f.mod.getLsbD 3 then .fp32 else .t32
    (c.fits f.dst f.ty = true → c.fits f.a f.ty = true → c.fits f.b f.ty = true →
      GivesLanes s c (.vsel f) m d f.ty.is64 pick ∧
        GivesLanes s c (.fsel f) m d f.ty.is64 (fun l => ofElems f.ty (elem f.ty (pick l)))) ∧
    (c.fits f.dst f.ty = true → c.fits f.a f.ty = true → c.fits f.b f.ty = true → c.fits f.c f.ty = true →
      GivesLanes s c (.vbfi f) m d f.ty.is64 fun l => ofElems f.ty fun e =>
        bfiW f.ty.width (elem f.ty (c.vsrc f.a f.ty l) e) (elem f.ty (c.vsrc f.b f.ty l) e)
          (elem f.ty (c.vsrc f.c f.ty l) e) (elem f.ty (c.vsrc f.dst f.ty l) e)) ∧
    (c.fits f.dst f.ty = true → c.fits f.a f.ty = true → c.fits f.b .i32 = true →
      GivesLanes s c (.fscale f) m d f.ty.is64 fun l => ofElems f.ty fun e =>
        scaleCode f.ty (elem f.ty (c.vsrc f.a f.ty l) e) (signedOf 32 (c.vsrc f.b .i32 l))) ∧
    (c.fits f.dst (dotFmt f) = true → c.fits f.a f.ty = true → c.fits f.b f.ty = true → c.fits f.c (dotFmt f) = true →
      GivesLanes s c (.fdot2 f) m d false dot ∧ GivesLanes s c (.fdot4 f) m d false dot) ∧
    (ETy.ofCode? f.mod.toNat = some src → c.fits f.dst f.ty = true → c.fits f.a src = true → c.fits f.b src = true →
      GivesLanes s c (.fpack f) m d f.ty.is64 fun l => ofElems f.ty fun e =>
        roundNum f.ty (numOf src (if e < src.count then elem src (c.vsrc f.a src l) e
          else elem src (c.vsrc f.b src l) (e - src.count)))) ∧
    (ETy.ofCode? f.mod.toNat = some src → c.fitsN f.dst 2 = true → c.fits f.a src = true →
      GivesLanes s c (.funpack f) m d true fun l =>
        let half := fun base => ofElems f.ty fun e => roundNum f.ty (numOf src (elem src (c.vsrc f.a src l) (base + e)))
        half 0 + 2 ^ 32 * half f.ty.count) ∧
    (c.fits f.dst twinFmt = true → c.fits f.a f.ty = true → c.fits f.b .i32 = true →
      GivesLanes s c (.ftwin f) m d false fun l =>
        let w := c.vsrc f.b .i32 l
        let p := f.mod.toNat % 8
        roundNum twinFmt (twinValue f.ty (elem f.ty (c.vsrc f.a f.ty l) p)
          (if w / 2 ^ (16 + p) % 2 = 1 then signedOf 8 (w / 256) else signedOf 8 w)))

/-- The special functions by their result codes. -/
def specialForms : List ((Tri → Instr) × (ETy → Nat → Nat)) :=
  [ (.frcp, rcpCode), (.frsq, rsqCode), (.fsqrt, sqrtCode), (.fexp2, exp2Code), (.flog2, log2Code), (.fsin, sinCode)
  , (.fcos, cosCode), (.ftanh, tanhCode), (.fsigm, sigmCode), (.ferf, erfCode) ]

/-- 05 R130, R131; 02 R51: a special function of each element of each included lane, given at once where the form declares no
window and else owed to the split. -/
def Obligations.SpecialFunctionResult : Prop :=
  ∀ p ∈ specialForms, ∀ (s : State) (c : Cx) (f : Tri), Runs s c → c.fits f.dst f.ty = true → c.fits f.a f.ty = true →
    let value := fun l => ofElems f.ty fun e => p.2 f.ty (elem f.ty (c.vsrc f.a f.ty l) e)
    (c.window f.ctl = 0 → GivesLanes s c (p.1 f) (c.included f.ctl) f.dst.vNum f.ty.is64 value) ∧
    (0 < c.window f.ctl → exec (p.1 f) s = .next ({ c with P := { c.P with late := c.P.late ++
      [{ left := c.window f.ctl + 1, vs := laneWrites (c.included f.ctl) f.dst.vNum f.ty.is64 value, ss := [], ps := [] }] } } :
        Cx).retire)

/-! ### Predicates and lanes (04 R100 to R104) -/

/-- What a form gives a predicate in an included lane. -/
def predicateForms : List ((Tri → Instr) × (Cx → Tri → Nat → Bool)) :=
  let a := fun (c : Cx) (f : Tri) l => (c.G.pred f.a.vNum).getLsbD l
  let b := fun (c : Cx) (f : Tri) l => (c.G.pred f.b.vNum).getLsbD l
  let within := fun (c : Cx) (f : Tri) l => (c.included f.ctl).getLsbD l
  [ (.pand, fun c f l => a c f l && b c f l)
  , (.por, fun c f l => a c f l || b c f l)
  , (.pxor, fun c f l => a c f l != b c f l)
  , (.pandn, fun c f l => a c f l && !b c f l)
  , (.pmov, fun c f l => a c f l)
  , (.pfroms, fun c f l => (c.src64 (if l < 32 then f.a else if l < 64 then f.b else f.c)).getLsbD (l % 32))
  , (.vany, fun c f _ => (List.range 96).any fun l => within c f l && a c f l)
  , (.vall, fun c f _ => (List.range 96).all fun l => !within c f l || a c f l) ]

/-- 04 R100: the predicate forms write their predicate in the included lanes and nothing else. -/
def Obligations.PredicateResult : Prop :=
  ∀ p ∈ predicateForms, ∀ (s : State) (c : Cx) (f : Tri), Runs s c → Steady c →
    ∃ t d, exec (p.1 f) s = .next t ∧ OnlyRegisters c t d ∧
      WrotePredicate c d f.dst.vNum (c.included f.ctl) (p.2 c f) ∧ SameScalars c d ∧ d.G.v = c.G.v

/-- 05 R111, R121: comparisons and classes give a predicate over the lane's elements, all of them or any. -/
def Obligations.CompareResult : Prop :=
  ∀ (s : State) (c : Cx) (f : Tri) (g : Imm), Runs s c →
    let past := fun (t : ETy) (any : Bool) (p : Nat → Bool) =>
      if any then (List.range t.count).any p else (List.range t.count).all p
    let holds := fun l => past f.ty (f.mod.getLsbD 3) fun e =>
      condElem f.ty (f.mod.toNat % 8) (elem f.ty (c.vsrc f.a f.ty l) e) (elem f.ty (c.vsrc f.b f.ty l) e)
    (c.fits f.a f.ty = true → c.fits f.b f.ty = true →
      GivesPredicate s c (.vcmp f) f.dst.vNum (c.included f.ctl) (fun l => (c.included f.ctl).getLsbD l && holds l) ∧
      GivesPredicate s c (.fcmp f) f.dst.vNum (c.included f.ctl) (fun l => (c.included f.ctl).getLsbD l && holds l)) ∧
    (c.fits f.a f.ty = true → GivesPredicate s c (.fclass f) f.dst.vNum (c.included f.ctl) fun l =>
      (c.included f.ctl).getLsbD l && past f.ty (f.mod.getLsbD 7) fun e =>
        classMask f.ty (elem f.ty (c.vsrc f.a f.ty l) e) &&& f.mod.toNat % 128 != 0) ∧
    (c.fits g.a g.ty = true → GivesPredicate s c (.fcmpi g) g.dst.vNum (c.included g.ctl) fun l =>
      (c.included g.ctl).getLsbD l && past g.ty (g.mod.getLsbD 3) fun e =>
        condElem g.ty (g.mod.toNat % 8) (elem g.ty (c.vsrc g.a g.ty l) e) (immElem g.ty g.imm e))

/-- Source lane of each shuffle; none outside 0 to 95. -/
def shuffleSource (c : Cx) (f : Tri) : List (Instr × (Nat → Int)) :=
  let n := fun l => c.vsrc f.b .n64 l
  [ (.xshfl f, fun l => (c.vsrc f.b .n32 l : Nat)), (.xbcast f, fun l => (n l : Int)), (.xup f, fun l => (l : Int) - n l)
  , (.xdown f, fun l => (l : Int) + n l), (.xxor f, fun l => ((l ^^^ n l : Nat) : Int)) ]

/-- 04 R103: a shuffle gives each included lane the value of its source lane where that is an included lane, its own
otherwise, and says which in the predicate. -/
def Obligations.ShuffleResult : Prop :=
  ∀ (s : State) (c : Cx) (f : Tri), Runs s c → Steady c → c.fits f.dst f.ty = true → c.fits f.a f.ty = true →
    c.fits f.b .n32 = true → c.window f.ctl = 0 →
    ∀ p ∈ shuffleSource c f, ∃ t d, exec p.1 s = .next t ∧ OnlyRegisters c t d ∧ SameScalars c d ∧
      let m := c.included f.ctl
      let good := fun l => (List.range 96).any fun k => m.getLsbD k && decide (p.2 l = (k : Int))
      WroteLanes c d m f.dst.vNum f.ty.is64 (fun l => c.vsrc f.a f.ty (if good l then (p.2 l).toNat else l)) ∧
      WrotePredicate c d (f.mod.toNat % 8) m good

/-- 04 R102, R104; 03 R78 to R80: ranks, scans and reductions over the included lanes. -/
def Obligations.CrossLaneResult : Prop :=
  ∀ (s : State) (c : Cx) (f : Tri) (y : Sys), Runs s c →
    let m := c.included f.ctl
    let column := fun e => (lanesOf m).map fun l => (l, elem f.ty (c.vsrc f.a f.ty l) e)
    let give := fun (col : List (Nat × Nat) → List (Nat × Nat)) l =>
      ofElems f.ty fun e => (Store.find? (if e < f.ty.count then col (column e) else []) l).getD 0
    (c.fits f.dst f.ty = true → c.fits f.a f.ty = true → c.window f.ctl = 0 →
      GivesLanes s c (.xscan f) m f.dst.vNum f.ty.is64 (give (scanList f.ty f.mod.toNat true none)) ∧
      GivesLanes s c (.xscanx f) m f.dst.vNum f.ty.is64 (give (scanList f.ty f.mod.toNat false none)) ∧
      GivesLanes s c (.xred f) m f.dst.vNum f.ty.is64 (give fun xs => xs.map fun q =>
        (q.1, (treeOf f.ty f.mod.toNat ((List.range 96).map fun l => Store.find? xs l)).getD (emptyValue f.ty f.mod.toNat)))) ∧
    (c.fits y.dst .n32 = true → GivesLanes s c (.lrank y) (c.included y.ctl) y.dst.vNum false fun l =>
      ((List.range 96).filter fun k => (c.included y.ctl).getLsbD k && decide (k < l)).length)

/-! ### Control flow (04 R85 to R97) -/

/-- Where a label leads, and the clause that follows (04 R85). -/
def labelOf (c : Cx) (f : Br) : Nat := (((c.P.pc : Int) + 8 * f.disp.toInt) % (2 ^ 64 : Nat)).toNat

/-- The conditions of the branches that move a whole split. -/
def branchForms : List ((Br → Instr) × (Cx → Br → Bool)) :=
  let holds := fun (c : Cx) (f : Br) l => (if f.sub = 0 then c.G.pred f.cond.vNum else ~~~(c.G.pred f.cond.vNum)).getLsbD l
  [ (.br, fun _ _ => true)
  , (.brs, fun c f => c.ssrc f.cond .n64 != 0)
  , (.brz, fun c f => c.ssrc f.cond .n64 == 0)
  , (.bra, fun c f => (List.range 96).all fun l => !c.P.active.getLsbD l || holds c f l)
  , (.brl, fun c f => (List.range 96).any fun l => c.P.active.getLsbD l && holds c f l) ]

/-- 04 R85, R86: a branch of the whole split goes to its label where its condition holds and to the next clause otherwise,
and changes no register. -/
def Obligations.UniformBranchTarget : Prop :=
  ∀ p ∈ branchForms, ∀ (s : State) (c : Cx) (f : Br), Runs s c →
    GoesTo s c c (p.1 f) (if p.2 c f then labelOf c f else following c)

/-- 04 R86: calls, indirect branches and returns: the link register takes the fall-through address, the target is read before
it is written, and a target that is no multiple of 8 raises ALIGN with no register written. Its record (20 R321) names the target
as the address, which is log 37 (DEDUCED). -/
def Obligations.CallAndReturnTarget : Prop :=
  ∀ (s : State) (c : Cx) (f : Br), Runs s c →
    let link := c.setS f.cond.sNum (BitVec.ofNat 64 (following c))
    let x := c.ssrc ((Operand.ofCode? (f.disp.toNat % 256)).getD (.s 0)) .n64
    let t := c.ssrc f.cond .n64
    exec (.call f) s = .next (link.endClause (labelOf c f)) ∧
    (x % 8 = 0 → exec (.callx f) s = .next (link.endClause x)) ∧
    (x % 8 ≠ 0 → exec (.callx f) s = .next (c.takeFault { c.faultAt 0x03 with addr := x })) ∧
    (t % 8 = 0 → GoesTo s c c (.brx f) t ∧ GoesTo s c c (.ret f) t) ∧
    (t % 8 ≠ 0 → exec (.brx f) s = .next (c.takeFault { c.faultAt 0x03 with addr := t }) ∧
      exec (.ret f) s = .next (c.takeFault { c.faultAt 0x03 with addr := t }))

/-- 04 R87: a division of a split by destination. One destination moves the split; of two, where the gang has a free entry,
the one with more lanes, the first on a tie, keeps the entry, and the other takes the lowest free one with a copy of the
scalar registers. -/
def Obligations.DivisionMakesSplits : Prop :=
  (∀ (c : Cx) (p : Path), c.divide [p] = c.endClause p.dest) ∧
  ∀ (c : Cx) (p q : Path), c.G.splits = [(c.sp, c.P)] → c.sp < 4 → c.P.late = [] → p.dest ≠ q.dest →
    let big := if laneCount p.lanes < laneCount q.lanes then q else p
    let small := if laneCount p.lanes < laneCount q.lanes then p else q
    let t := c.divide [p, q]
    ∃ G P Q, t.cur = none ∧ t.gangs.find? c.g = some G ∧ G.splits.find? c.sp = some P ∧
      G.splits.find? (if c.sp = 0 then 1 else 0) = some Q ∧
      P.pc = big.dest ∧ P.active = big.lanes ∧ P.member = c.P.member &&& ~~~small.lanes ∧ P.s = c.P.s ∧
      Q.pc = small.dest ∧ Q.active = small.lanes ∧ Q.member = small.lanes ∧ Q.s = c.P.s ∧
      G.v = c.G.v ∧ G.p = c.G.p ∧ G.live = c.G.live ∧ SameBytes c.s t ∧
      ∀ h, h ≠ c.g → t.gangs.find? h = c.s.gangs.find? h

/-- 04 R87: the divergent branches divide the active lanes by the destination each of them takes; in an exit routine they
raise XFLT's code for a forbidden form (09 R224). -/
def DivergentBranchPaths : Prop :=
  ∀ (s : State) (c : Cx) (f : Br), Runs s c →
    let holds := fun l => (if f.sub = 0 then c.G.pred f.cond.vNum else ~~~(c.G.pred f.cond.vNum)).getLsbD l
    let target := fun l => (((c.P.pc : Int) + 8 * (c.vreg f.cond.vNum l).toInt) % (2 ^ 64 : Nat)).toNat
    (c.P.rstate ≠ 1 → ∃ ps, exec (.brd f) s = .next (c.divide ps) ∧ (ps.map (·.dest)).Nodup ∧
      (∀ p ∈ ps, p.lanes ≠ 0) ∧
      ∀ l, l < 96 → ∀ p ∈ ps, p.lanes.getLsbD l =
        (c.P.active.getLsbD l && p.dest == if holds l then labelOf c f else following c)) ∧
    (c.P.rstate ≠ 1 → c.fits f.cond .b32 = true → ∃ ps, exec (.brxd f) s = .next (c.divide ps) ∧
      (ps.map (·.dest)).Pairwise (· < ·) ∧
      (∀ l, l < 96 → c.P.active.getLsbD l = true → ∃ p ∈ ps, p.dest = target l) ∧
      ∀ p ∈ ps, ∀ l, l < 96 → p.lanes.getLsbD l = (c.P.active.getLsbD l && p.dest == target l)) ∧
    (c.P.rstate = 1 → exec (.brd f) s = .next (c.fault 0x00) ∧
      (c.fits f.cond .b32 = true → exec (.brxd f) s = .next (c.fault 0x00)))

/-- 04 R87: brd, and brxd where its lanes name at most two destinations, complete in a gang of one split: every active lane
stands in an entry at its destination, with the scalar registers of the branch, and no lane register, predicate or byte of
memory changes. -/
def DivergentBranchCompletes : Prop :=
  ∀ (s : State) (c : Cx) (f : Br), Runs s c → c.P.rstate ≠ 1 → c.G.splits = [(c.sp, c.P)] → c.sp < 4 → c.P.late = [] →
    let holds := fun l => (if f.sub = 0 then c.G.pred f.cond.vNum else ~~~(c.G.pred f.cond.vNum)).getLsbD l
    let target := fun l => (((c.P.pc : Int) + 8 * (c.vreg f.cond.vNum l).toInt) % (2 ^ 64 : Nat)).toNat
    let divided := fun (i : Instr) (dest : Nat → Nat) => ∃ t G, exec i s = .next t ∧ t.cur = none ∧
      t.gangs.find? c.g = some G ∧ G.live = c.G.live ∧ G.v = c.G.v ∧ G.p = c.G.p ∧ SameBytes s t ∧
      (∀ l, l < 96 → c.P.active.getLsbD l = true →
        ∃ e P, G.splits.find? e = some P ∧ P.pc = dest l ∧ P.active.getLsbD l = true ∧ P.s = c.P.s) ∧
      ∀ h, h ≠ c.g → t.gangs.find? h = s.gangs.find? h
    divided (.brd f) (fun l => if holds l then labelOf c f else following c) ∧
    (c.fits f.cond .b32 = true → (∃ a b, ∀ l, l < 96 → c.P.active.getLsbD l = true → target l = a ∨ target l = b) →
      divided (.brxd f) target)

/-- 04 R87, R88: the paths of a divergent branch, its completion, and where it faults. -/
def Obligations.DivergentBranchDivides : Prop := DivergentBranchPaths ∧ DivergentBranchCompletes

/-- 04 R90 to R92: a spawn hands the active lanes in which its predicate holds to Chafer: one record each, with p1 to p7 and
the destination's live-in registers; they leave the gang and the split. Without room in spawn memory it faults. -/
def Obligations.SpawnBranchHandsOverLanes : Prop :=
  ∀ (s : State) (c : Cx) (f : Br) (regs : List Nat), Runs s c → c.P.rstate ≠ 1 →
    let lanes := c.P.active &&& (if f.sub = 0 then c.G.pred f.cond.vNum else ~~~(c.G.pred f.cond.vNum))
    let recs := (lanesOf lanes).map fun l => ({ dest := labelOf c f, launch := c.G.launch
                                                preds := ((List.range 7).map fun i =>
                                                  if (c.G.pred (i + 1)).getLsbD l then 2 ^ i else 0).sum
                                                regs := regs.map fun r => (r, c.vreg r l) } : SpawnRec)
    let used := Store.get 0 s.spawnUsed c.G.die
    let left : Cx := { c with
      s := { s with tick := s.tick + 32, spawnUsed := Store.set 0 s.spawnUsed c.G.die (used + recsBytes recs) }
      G := { c.G with live := c.G.live &&& ~~~lanes }
      P := { c.P with member := c.P.member &&& ~~~lanes, active := c.P.active &&& ~~~lanes
                      spawning := c.P.spawning ++ recs } }
    (lanes = 0 → c.P.member ≠ 0 → GoesTo s c c (.brsp f) (following c)) ∧
    (lanes ≠ 0 → c.fetchHeld (labelOf c f) = false → c.spawnTarget (labelOf c f) = .ok regs → used + recsBytes recs ≤ 4 * 2 ^ 20 →
      c.P.member &&& ~~~lanes ≠ 0 → exec (.brsp f) s = .next (left.endClause (following c))) ∧
    (lanes ≠ 0 → c.fetchHeld (labelOf c f) = false → c.spawnTarget (labelOf c f) = .ok regs → 4 * 2 ^ 20 < used + recsBytes recs →
      exec (.brsp f) s = .next (c.fault 0x0A))

/-- 04 R96, R97: lanes that end leave the gang's live lanes, MEMBER and ACTIVE; a split left without lanes is gone. -/
def Obligations.EndedLanesLeave : Prop :=
  ∀ (s : State) (c : Cx) (f : Sys), Runs s c → c.P.rstate ≠ 1 →
    let gone := c.included f.ctl
    let d : Cx := { c with
      G := { c.G with live := c.G.live &&& ~~~gone }
      P := { c.P with member := c.P.member &&& ~~~gone, active := c.P.active &&& ~~~gone } }
    (c.P.member &&& ~~~gone ≠ 0 → exec (.endLanes f) s = .next d.retire) ∧
    (c.P.member &&& ~~~gone = 0 → c.P.spawning = [] → c.P.late = [] → ∃ t G, exec (.endLanes f) s = .next t ∧
      t.cur = none ∧ t.gangs.find? c.g = some G ∧ G.splits.find? c.sp = none ∧ G.live = c.G.live &&& ~~~gone ∧
      G.v = c.G.v ∧ G.p = c.G.p ∧ SameBytes s t ∧ ∀ h, h ≠ c.g → t.gangs.find? h = s.gangs.find? h)

/-- 04 R89, R96, R386: no operation, a meet whose hold is over, and a yield change no register; the yield takes effect when the
clause ends. -/
def Obligations.NoEffectInstructions : Prop :=
  ∀ (s : State) (c : Cx) (f : Sys), Runs s c →
    let goesOn := fun (i : Instr) (b : Cx) => exec i s = .next b.retire ∧
      (Steady c → ∃ t d, exec i s = .next t ∧ OnlyRegisters b t d ∧ SameScalars c d ∧ SameLanes c d)
    goesOn (.nop f) c ∧
    (c.P.rstate ≠ 1 → (∀ cl, c.P.clause = some cl → cl.pos = 0) → goesOn (.meet f) c) ∧
    (c.P.rstate ≠ 1 → (∃ cl, c.P.clause = some cl ∧ cl.pos ≠ 0) → IsIllegal s c (.meet f)) ∧
    exec (.yield f) s = .next ({ c with P := { c.P with yielding := true } } : Cx).retire

/-! ### Loads, stores and atomics (07) -/

/-- The memory forms that close their region (09 R220). -/
def irrevocableMems (f : Mem) : List Instr :=
  [.atadd f, .atmin f, .atmax f, .atand f, .ator f, .atxor f, .atswp f, .atcas f, .mwupd f, .hsend f]

/-- 07 R161; 09 R224: a memory form that includes no lane does nothing, in an exit routine too; one which closes its region and
includes a lane raises code 0 in an exit routine; a lane register that the gang does not have raises ILLOP (01 R19). -/
def MemoryFormWithoutLanes : Prop :=
  ∀ (s : State) (c : Cx) (f : Mem), Runs s c →
    (c.included f.ctl = 0 → ∀ i ∈ [Instr.ld f, .st f, .ldro f, .ldg f, .stg f, .ldx f, .stc f, .pref f, .resid f] ++
      irrevocableMems f, exec i s = .next c.retire) ∧
    (c.included f.ctl ≠ 0 → c.P.rstate = 1 → ∀ i ∈ irrevocableMems f, exec i s = .next (c.fault 0x00)) ∧
    (c.included f.ctl ≠ 0 → c.memFits f (Mem.wideBase f) = false → ∀ i ∈ [Instr.ld f, .st f, .ldro f], IsIllegal s c i)

/-- 07 R161 steps 2 to 4: the first check that fails decides. A misaligned lane raises ALIGN (3), one outside its space PROT
(4), with the lowest failing lane and its address, before anything is read or written (the record's fields: 20 R321; that FMASK
holds all lanes that fail the same step is log 37, DEDUCED). -/
def MisalignedOrOutsideFaults : Prop :=
  ∀ (s : State) (c : Cx) (f : Mem), Runs s c → c.included f.ctl ≠ 0 → c.memFits f (Mem.wideBase f) = true →
    let xs := c.accesses f f.data.isV f.kind.toNat f.ty.size (c.included f.ctl)
    let crooked := xs.filter fun x => x.addr % f.ty.size != 0
    let outside := xs.filter fun x => (c.target f.space.toNat x.addr f.ty.size).isNone
    let reports := fun (i : Instr) (code acc : Nat) (fails : List LaneAcc) => exec i s = .next (c.takeFault { c.faultAt code with
      addr := (fails.headD ⟨127, 0⟩).addr, lane := (fails.headD ⟨127, 0⟩).lane, acc := acc
      fmask := maskOf fun l => (fails.map (·.lane)).contains l })
    (crooked ≠ [] → reports (.ld f) 0x03 0 crooked ∧ reports (.ldro f) 0x03 0 crooked) ∧
    (crooked = [] → outside ≠ [] → reports (.ld f) 0x04 0 outside ∧ reports (.ldro f) 0x04 0 outside)

/-- 07 R161; 01 R19; 09 R224; 20 R321: what is decided before an access. Which lanes a record names is log 37 (DEDUCED). -/
def Obligations.MemoryFormChecks : Prop := MemoryFormWithoutLanes ∧ MisalignedOrOutsideFaults

/-- The value that an access gives its destination: the `S` bytes from its key, extended (07 R163). -/
def loaded (t : State) (c : Cx) (f : Mem) (ks : List Admitted) (l : Nat) : Nat :=
  match ks.find? fun q => q.lane == l with
  | some q => if f.ty.is64 then t.get c.G.fn q f.ty.size else extendLoad f.ty false (t.get c.G.fn q f.ty.size)
  | none => 0

/-- 07 R163, R167: a load gives each included lane the bytes at its address, and a scalar load those of the elected lane, where no
other thread has written them (01 R34); no byte of memory changes but for the charges of its checks (20 R325), no other register,
and nothing else. -/
def Obligations.LoadResult : Prop :=
  ∀ (s t : State) (c : Cx) (f : Mem) (ks : List Admitted), Runs s c → Steady c → c.included f.ctl ≠ 0 →
    c.window f.ctl = 0 →
    let m := c.included f.ctl
    let here := fun (i : Instr) (xs : List LaneAcc) => Reaches c f.space.toNat f.ty.size .read xs t ks →
      (∀ q ∈ ks, t.poisoned q.key f.ty.size = false) → Alone t c f.ty.size ks →
      (∀ n, f.data = .v n → xs.map (·.lane) = lanesOf m → ∃ u d, exec i s = .next u ∧ OnlyRegisters { c with s := t } u d ∧
        SameScalars c d ∧ d.G.p = c.G.p ∧ WroteLanes c d m n.toNat f.ty.is64 (loaded t c f ks)) ∧
      (∀ n, f.data = .s n → xs.length = 1 → ∃ u d q, exec i s = .next u ∧ ks = [q] ∧ OnlyRegisters { c with s := t } u d ∧
        SameLanes c d ∧ WroteScalar c d n.toNat (BitVec.ofNat 64 (extendLoad f.ty true (t.get c.G.fn q f.ty.size))))
    (c.memFits f (Mem.wideBase f) = true → here (.ld f) (c.accesses f f.data.isV f.kind.toNat f.ty.size m)) ∧
    (c.memFits f false = true → here (.ldx f) (c.packed f m))

/-- 07 R164: a load of the read-only path gives the current bytes where nothing older may be returned: no byte has been
overwritten since the run began. -/
def Obligations.ReadOnlyLoadCompletes : Prop :=
  ∀ (s t : State) (c : Cx) (f : Mem) (ks : List Admitted), Runs s c → c.included f.ctl ≠ 0 →
    c.memFits f (Mem.wideBase f) = true →
    Reaches c f.space.toNat f.ty.size .read (c.accesses f f.data.isV f.kind.toNat f.ty.size (c.included f.ctl)) t ks →
    (∀ q ∈ ks, t.poisoned q.key f.ty.size = false) →
    ∃ d m, ({ c with s := t } : Cx).roAll f.ty.size ks = (d, m) ∧
      exec (.ldro f) s = .next (d.results f.ctl (ks.foldl (fun r q =>
        r.append (loadWrites f.data f.ty q.lane (Store.get 0 m q.lane))) noLate)).retire ∧
      d.s.mem = t.mem ∧ d.s.bricks = t.bricks ∧ d.P = c.P ∧ d.G.v = c.G.v ∧ d.G.p = c.G.p ∧
      (t.order = [] → ∀ q ∈ ks, (ks.filter fun p => p.lane == q.lane) = [q] →
        Store.get 0 m q.lane = t.get c.G.fn q f.ty.size)

/-- 07 R163; 01 R33: a store writes each access's bytes in lane order, so that of accesses that meet the last one stands, and
every other byte of memory reads as before, for every function. -/
def Obligations.StoreWritesItsBytesOnly : Prop :=
  ∀ (s t : State) (c : Cx) (f : Mem) (ks : List Admitted), Runs s c → Steady c → c.included f.ctl ≠ 0 →
    c.memFits f (Mem.wideBase f) = true →
    Reaches c f.space.toNat f.ty.size .write (c.accesses f (Mem.vectorData f) f.kind.toNat f.ty.size (c.included f.ctl)) t ks →
    NoLog t c.G.fn → PlainMemory t → (∀ q ∈ ks, OffAperture q.key f.ty.size ∧ OffQueues t c.G.fn q.key f.ty.size) →
    ∃ u d, exec (.st f) s = .next u ∧ Runs u d ∧ d.P.pc = c.P.pc + 8 ∧ SameScalars c d ∧ SameLanes c d ∧
      (∀ g a, u.readByte g a =
        match ks.reverse.find? fun q => decide (q.key ≤ a) && decide (a < q.key + f.ty.size) with
        | some q => BitVec.ofNat 8 (c.storeValue f (Mem.vectorData f) q.lane / 2 ^ (8 * (a - q.key)))
        | none => t.readByte g a) ∧
      u.mmio = t.mmio ∧ u.tiles = t.tiles ∧ u.teams = t.teams ∧ u.fns = t.fns ∧
      ∀ h, h ≠ c.g → u.gangs.find? h = t.gangs.find? h

/-- 07 R165, R167: gathers, scatters and compressing stores of accesses in this package. A gather and a scatter are counted
by k2 until they are complete; that a gather's data are read and a scatter's bytes stand in memory at issue, while k2 still counts
them, is the model's choice (log 9). -/
def Obligations.GatherScatterCompletes : Prop :=
  ∀ (s t : State) (c : Cx) (f : Mem) (ks : List Admitted), Runs s c → c.included f.ctl ≠ 0 → c.memFits f false = true →
    let m := c.included f.ctl
    let S := f.ty.size
    let addr := fun l => ((c.sreg f.base.sNum).toNat + (if f.kind = 1 then (c.vreg (f.offs.toNat % 256) l).toInt
      else ((c.vreg (f.offs.toNat % 256) l).toNat : Int)) * 2 ^ (f.offs.toNat / 256 % 4)) % (2 ^ 64 : Nat)
    let xs := (lanesOf m).map fun l => (⟨l, (addr l).toNat⟩ : LaneAcc)
    let counted : Cx := { c with
      s := { t with handle := t.handle + 1, gathers := t.gathers.put t.handle ⟨c.g, c.sp, c.G.fn⟩ }
      G := c.G.addOp 2 t.handle }
    let scattered := ks.foldl (fun d q =>
      d.putBy q (bytesOf S (c.storeValue f true q.lane)) false (some (Store.get 0 c.G.issued 2))) counted
    let packed := fun q => ({ c with s := t } : Cx).putBy q (bytesOf S (c.storeValue f true q.lane)) false none
    (c.fits (.v (BitVec.ofNat 7 (f.offs.toNat % 256))) .n32 = true → c.G.k 2 < 63 →
      (Reaches c f.space.toNat S .read xs t ks → (∀ q ∈ ks, counted.s.poisoned q.key S = false) → Alone t c S ks →
        exec (.ldg f) s = .next (counted.results f.ctl (ks.foldl (fun r q =>
          r.append (loadWrites f.data f.ty q.lane (counted.s.get c.G.fn q S))) noLate)).retire) ∧
      (Reaches c f.space.toNat S .write xs t ks → NoLog t c.G.fn →
        exec (.stg f) s = .next ({ scattered with s := scattered.s.healPieces (ks.map fun q => (q.key, S)) } : Cx).retire)) ∧
    (c.G.k 2 = 63 → c.fits (.v (BitVec.ofNat 7 (f.offs.toNat % 256))) .n32 = true → Reaches c f.space.toNat S .read xs t ks →
      exec (.ldg f) s = .next (({ c with s := t } : Cx).waitFor (.counter 2))) ∧
    (∀ q, ks = [q] → q.brick = none → c.P.stcFrom = 0 → c.P.rstate ≠ 1 → NoLog t c.G.fn →
      Reaches c f.space.toNat S .write (c.packed f m) t ks →
      exec (.stc f) s = .next ({ packed q with s := ((packed q).s.healPieces [(q.key, S)]).healPieces [(q.key, S)] } : Cx).retire)

/-- The atomics and what each leaves in memory of the old value, the operand and, for cas, the new value (07 R168, R169). -/
def atomicForms : List ((Mem → Instr) × AtOp × (ETy → Nat → Nat → Nat → Nat)) :=
  [ (.atadd, .add, fun t old v _ => combineOp t 0 old v), (.atmin, .min, fun t old v _ => combineOp t 1 old v)
  , (.atmax, .max, fun t old v _ => combineOp t 2 old v), (.atand, .and, fun _ old v _ => old &&& v)
  , (.ator, .or, fun _ old v _ => old ||| v), (.atxor, .xor, fun _ old v _ => old ^^^ v)
  , (.atswp, .swap, fun _ _ v _ => v), (.atcas, .cas, fun _ old v w => if old = v then w else old) ]

/-- The steps of an atomic's lanes in their order, each on what the one before it leaves (07 R170): the old values, and the bytes. -/
def atomicSteps (S : Nat) (new : Admitted → Nat → Nat) : List Admitted → (Nat → Byte) → List (Nat × Nat) × (Nat → Byte)
  | [], m => ([], m)
  | q :: r, m =>
    let old := ofBytes ((List.range S).map fun i => m (q.key + i))
    let (olds, out) := atomicSteps S new r fun a =>
      if q.key ≤ a ∧ a < q.key + S then BitVec.ofNat 8 (new q old / 2 ^ (8 * (a - q.key))) else m a
    ((q.lane, old) :: olds, out)

/-- 07 R168 to R171; 09 R220: an atomic on memory of this package, where no checkpoint is kept: in ascending lane order each location
takes its new value, every other byte reads as before, each lane or the scalar register takes the old value, of 32 or 64 bits, and
the split goes on; of a wide object once earlier accesses are done (07 R185). In an exit routine it raises code 0. -/
def Obligations.AtomicResult : Prop :=
  ∀ p ∈ atomicForms, ∀ (s t : State) (c : Cx) (f : Mem) (ks : List Admitted), Runs s c → c.P.late = [] →
    c.included f.ctl ≠ 0 → (c.P.rstate = 1 → exec (p.1 f) s = .next (c.fault 0x00)) ∧
    let S := f.ty.size
    let m := c.included f.ctl
    let d : Cx := { c with s := t }
    let steps := atomicSteps S (fun q old => p.2.2 f.ty old (c.atOperands f p.2.1 q.lane).1 (c.atOperands f p.2.1 q.lane).2) ks
      (t.readByte c.G.fn)
    (c.P.rstate ≠ 1 → c.memFits f false = true →
      c.fitsN f.data ((if p.2.1 = .cas then 2 else 1) * if f.ty.is64 then 2 else 1) = true →
      Reaches c f.space.toNat S .atomic (c.accesses f f.data.isV 0 S m) t ks →
      (∀ q ∈ ks, t.poisoned q.key S = false ∧ t.hostAtomic q.key = false ∧ q.brick = none ∧ OffAperture q.key S ∧
        OffQueues t c.G.fn q.key S ∧ (f.kind ≠ 0 → ∀ va, q.va = some va → d.wideWaits va = false)) →
      NoLog t c.G.fn → PlainMemory t → t.answered c.g c.sp = true →
      ∃ b u, exec (p.1 f) s = .next u ∧ Passes c b u ∧ b.g = c.g ∧ b.sp = c.sp ∧
        (∀ g a, b.s.readByte g a = steps.2 a) ∧ b.s.mmio = t.mmio ∧ b.s.tiles = t.tiles ∧ b.G.p = c.G.p ∧
        (∀ n, f.data = .v n → SameScalars c b ∧ WroteLanes c b m n.toNat f.ty.is64 fun l =>
          (Store.find? steps.1 l).elim 0 fun old => if f.ty.is64 then old else extendLoad f.ty false old) ∧
        ∀ n, f.data = .s n → b.G.v = c.G.v ∧ ∃ q, ks = [q] ∧
          WroteScalar c b n.toNat (BitVec.ofNat 64 (extendLoad f.ty true (t.read c.G.fn q.key S))))

/-- 07 R174 to R176; 17 R282: a Mortar update combines each lane's word in order; a Hod send is counted by k3 and queued with
its lanes' values. Both close their region (09 R220). -/
def Obligations.MortarUpdateAndHodSend : Prop :=
  ∀ (s t : State) (c : Cx) (f : Mem) (ks : List Admitted), Runs s c → c.included f.ctl ≠ 0 → c.memFits f false = true →
    c.P.rstate ≠ 1 → c.P.late = [] → NoLog t c.G.fn →
    let base : Cx := (({ c with s := t } : Cx).settled')
    let W := if f.ty.is64 then 8 else 4
    let op := if f.kind = 1 then 2 else if f.kind = 2 then 1 else 0
    let updated := ks.foldl (fun d q => d.putBy q
      (bytesOf 4 (updateWord f.ty f.kind.toNat (d.s.get d.G.fn q 4) (c.vsrc f.data .b32 q.lane))) true none) base
    (Reaches c 2 4 .write (c.accesses f true 0 4 (c.included f.ctl)) t ks →
      exec (.mwupd f) s = .next ({ updated with s := updated.s.healPieces (ks.map fun q => (q.key, 4)) } : Cx).retire) ∧
    (Reaches c 0 W .write ((lanesOf (c.included f.ctl)).map fun l =>
        ⟨l, (offset (c.sreg f.base.sNum).toNat f.offs + W * l) % 2 ^ 64⟩) t ks →
      (∀ q ∈ ks, q.key < aperture) → c.G.k 3 < 63 →
      exec (.hsend f) s = .next (({ base with
        s := { base.s with
          handle := base.s.handle + 1
          hods := base.s.hods.put base.s.handle
            { g := c.g, sp := c.sp, fn := c.G.fn, launch := c.G.launch, ty := f.ty, op := op
              lanes := ks.map fun q => (q.lane, q.key, c.vsrc f.data f.ty q.lane), pieces := ks.map fun q => (q.key, W) } }
        G := base.G.addOp 3 base.s.handle } : Cx).retire))

/-! ### Hints, fences and bindings (07 R177 to R185) -/

/-- 07 R177; 17 R270: a hint changes no register and no byte of memory. A prefetch is dropped and counted where a lane's byte cannot
be read, and else fetches the bricks; a residency hint does nothing where it names no byte, and is kept for the page it lies in.
That what is dropped counts once an instruction is log 38 (DEDUCED), and that no hint is misaligned is log 54 (DESIGN CHOICE). -/
def HintChangesNothing : Prop :=
  ∀ (s : State) (c : Cx) (f : Mem), Runs s c → c.memFits f false = true →
    let dropped : Cx := { c with s := s.count c.G.fn 0xD00 }
    let xs := c.accesses f true 0 1 (c.included f.ctl)
    let readable := xs.all fun x => c.hintByte f.space.toNat x.addr
    let a := offset (c.sreg f.base.sNum).toNat f.offs
    let n := (c.sreg f.data.sNum).toNat
    (c.included f.ctl = 0 → exec (.pref f) s = .next c.retire ∧ exec (.resid f) s = .next c.retire) ∧
    (c.included f.ctl ≠ 0 → readable = true → exec (.pref f) s = .next (c.prefetch f.space.toNat xs).retire) ∧
    (c.included f.ctl ≠ 0 → readable = false → exec (.pref f) s = .next dropped.retire) ∧
    (n = 0 → exec (.resid f) s = .next c.retire) ∧
    (c.included f.ctl ≠ 0 → f.space = 0 → 0 < n → a % 4096 + n ≤ 4096 → a + n ≤ 2 ^ 48 →
      (∀ w, s.translate c.G.fn (a / 4096 * 4096) .read = .ok w →
        exec (.resid f) s = .next ({ c with s := s.setHints f.kind.toNat 4096 [w.key] } : Cx).retire) ∧
      ∀ code, s.translate c.G.fn (a / 4096 * 4096) .read = .fault code → exec (.resid f) s = .next dropped.retire) ∧
    (Steady c → PlainMemory s → ∀ t, exec (.pref f) s = .next t ∨ exec (.resid f) s = .next t →
      ∃ d, Runs t d ∧ d.P.pc = c.P.pc + 8 ∧ SameScalars c d ∧ SameLanes c d ∧ SameBytes s t)

/-- 07 R179, R182: a fence of an active lane with nothing outstanding goes on, and is kept as the lanes' with its KIND and SCOPE; one
that orders sends not yet applied waits; fencero also bars the lanes' older values. -/
def FenceOrders : Prop :=
  ∀ (s : State) (c : Cx) (f : Mem), Runs s c →
    (c.P.active = 0 → exec (.fence f) s = .next c.retire ∧ exec (.fencero f) s = .next c.retire) ∧
    (c.P.active ≠ 0 → c.settled = true ∨ f.kind = 2 →
      exec (.fence f) s = .next (c.did (.fence f.kind.toNat f.scope.toNat c.P.active)).retire) ∧
    (c.P.active ≠ 0 → f.kind ≠ 2 → c.settled = false → exec (.fence f) s = .next (c.waitFor .fence)) ∧
    (c.P.active ≠ 0 → c.settled = false → exec (.fencero f) s = .next (c.waitFor .fence)) ∧
    (c.P.active ≠ 0 → c.settled = true → Steady c → ∃ u d, exec (.fencero f) s = .next u ∧ Runs u d ∧ d.P.pc = c.P.pc + 8 ∧
      SameScalars c d ∧ SameLanes c d ∧ SameBytes s u ∧ u.mmio = s.mmio ∧
      u.acts = (c.home, .fence 0 f.scope.toNat c.P.active) :: s.acts ∧
      ∀ l, l < 96 → Store.get 0 d.G.roFrom l = if c.P.active.getLsbD l then s.order.length else Store.get 0 c.G.roFrom l)

/-- 07 R177, R179, R182: hints and fences. Logs 38 and 54 say how dropped hints are counted and that none is misaligned. -/
def Obligations.HintsAndFences : Prop := HintChangesNothing ∧ FenceOrders

/-- 07 R183, R184: bind adds a range to an object, merged with those of the object it meets; unbind takes a range away;
neither changes memory or a register. A range that meets another object's raises PROT. -/
def BindingResult : Prop :=
  ∀ (s : State) (c : Cx) (f : Mem), Runs s c → c.P.active ≠ 0 →
    let obj := offset (c.sreg f.base.sNum).toNat f.offs
    let lo := (c.sreg f.data.sNum).toNat
    let n := (c.sreg (f.data.sNum + 1)).toNat
    let bs := (s.fn c.G.fn).bounds
    let meets := fun (b : Bound) => decide (b.lo < lo + n) && decide (lo < b.hi)
    obj % 8 = 0 → lo % 128 = 0 → n % 128 = 0 → 128 ≤ n → lo + n ≤ 2 ^ 48 →
    ((∀ b ∈ bs, b.obj ≠ obj → meets b = false) → exec (.bind f) s = .next ({ c with
      s := s.setBounds c.G.fn obj ((bs.filter fun b => !(b.obj == obj && meets b)) ++
        [{ obj := obj
           lo := (bs.filter fun b => b.obj == obj && meets b).foldl (fun m b => min m b.lo) lo
           hi := (bs.filter fun b => b.obj == obj && meets b).foldl (fun m b => max m b.hi) (lo + n) }]) } : Cx).retire) ∧
    ((∃ b ∈ bs, b.obj ≠ obj ∧ meets b = true) → exec (.bind f) s = .next (c.faultLanes 0x04 .read 0
      [⟨elected c.P.active, lo⟩])) ∧
    exec (.unbind f) s = .next ({ c with
      s := s.setBounds c.G.fn obj (bs.flatMap fun b =>
        if b.obj == obj && meets b then b.cut lo (lo + n) else [b]) } : Cx).retire

/-- 07 R178; 01 R36: acq reads its object's word and acquires the bound ranges, whose older values it bars; rel writes it and
releases them. -/
def AcquireReleaseResult : Prop :=
  ∀ (s t : State) (c : Cx) (f : Mem) (q : Admitted), Runs s c → c.P.active ≠ 0 → (s.fn c.G.fn).wide = [] →
    (t.fn c.G.fn).wide = [] →
    let xs := [(⟨elected c.P.active, offset (c.sreg f.base.sNum).toNat f.offs⟩ : LaneAcc)]
    let d : Cx := { c with s := t }
    let written := d.putBy q (bytesOf 8 (c.sreg f.data.sNum).toNat) false none
    (Reaches c 0 8 .read xs t [q] → t.poisoned q.key 8 = false → Alone t c 8 [q] →
      exec (.acq f) s = .next ((d.deliver (lateOf f [q] fun q => t.get c.G.fn q 8)).acquireOf (q.va.getD 0) f.scope.toNat
        t.order.length c.P.active).retire) ∧
    (Reaches c 0 8 .write xs t [q] → NoLog t c.G.fn → f.ty.size = 8 →
      exec (.rel f) s = .next (({ written with s := written.s.healPieces [(q.key, 8)] } : Cx).releaseOf (q.va.getD 0)
        f.scope.toNat c.P.active).retire)

/-- 07 R183: bind and unbind complete on aligned operands within 2^48: the split goes on at the next word with its registers and
every byte of memory as they were; the range is bound to the object, or no byte of it is. -/
def BindingCompletes : Prop :=
  ∀ (s : State) (c : Cx) (f : Mem), Runs s c → Steady c → c.P.active ≠ 0 →
    let obj := offset (c.sreg f.base.sNum).toNat f.offs
    let lo := (c.sreg f.data.sNum).toNat
    let n := (c.sreg (f.data.sNum + 1)).toNat
    let goesOn := fun (i : Instr) (bound : List Bound → Prop) => ∃ t d, exec i s = .next t ∧ Runs t d ∧ d.P.pc = c.P.pc + 8 ∧
      SameScalars c d ∧ SameLanes c d ∧ SameBytes s t ∧ bound (t.fn c.G.fn).bounds
    obj % 8 = 0 → lo % 128 = 0 → n % 128 = 0 → 128 ≤ n → lo + n ≤ 2 ^ 48 →
    ((∀ b ∈ (s.fn c.G.fn).bounds, b.obj = obj ∨ b.hi ≤ lo ∨ lo + n ≤ b.lo) →
      goesOn (.bind f) fun bs => ∃ b ∈ bs, b.obj = obj ∧ b.lo ≤ lo ∧ lo + n ≤ b.hi) ∧
    goesOn (.unbind f) fun bs => ∀ b ∈ bs, b.obj = obj → b.hi ≤ lo ∨ lo + n ≤ b.lo

/-- 07 R178: acq and rel complete on an aligned word of this package that translates, is permitted and not poisoned, of an object
that is not wide, where the function keeps no checkpoint: acq gives the word, rel writes it and no other byte. -/
def AcquireReleaseCompletes : Prop :=
  ∀ (s u : State) (c : Cx) (f : Mem) (n : BitVec 6) (key : Nat), Runs s c → Steady c → c.P.active ≠ 0 → f.data = .s n →
    let va := offset (c.sreg f.base.sNum).toNat f.offs
    let reaches := fun (acc : Acc) => s.permit c.G.fn (c.s.launchOf c.G).agent va acc = .inr (key, u)
    va % 8 = 0 → va < 2 ^ 48 → s.heldVa c.G.fn va = false → isRemote key = false → (u.fn c.G.fn).wide = [] → PlainMemory u →
    (reaches .read → u.poisoned key 8 = false → u.contended c.home (elected c.P.active) key 8 = false → ∃ t d, exec (.acq f) s = .next t ∧ Runs t d ∧ d.P.pc = c.P.pc + 8 ∧
      WroteScalar c d n.toNat (BitVec.ofNat 64 (extendLoad f.ty true (u.read c.G.fn key 8))) ∧ SameLanes c d ∧ SameBytes u t) ∧
    (reaches .write → f.ty.size = 8 → NoLog u c.G.fn → OffAperture key 8 → OffQueues u c.G.fn key 8 →
      ∃ t d, exec (.rel f) s = .next t ∧ Runs t d ∧ d.P.pc = c.P.pc + 8 ∧ SameScalars c d ∧ SameLanes c d ∧
        WroteBytes u t key 8 (c.sreg n.toNat).toNat)

/-- 07 R178, R183, R184: bindings, acquires and releases, and their completion. That an object's address beyond 48 bits is bound as
it is, is the model's choice (log 55); which bindings a release or an acquire uses is log 76. -/
def Obligations.BindingAndAcquire : Prop :=
  BindingResult ∧ AcquireReleaseResult ∧ BindingCompletes ∧ AcquireReleaseCompletes

/-! ### Matrix (06) -/

/-- Rows of this package or its hosts. -/
def rowsHere (rows : List MatRow) : Prop := ∀ r ∈ rows, ∃ k, r.src = .key k ∧ isRemote k = false

/-- The context once an operation stands in its pair's queue: k1 counts it. -/
def queuedOp (c : Cx) (kind : MatKind) (tile : Nat) (ra rb : List MatRow) : Cx :=
  { c with
    s := { c.s with
      handle := c.s.handle + 1
      mats := c.s.mats.put c.s.handle
        { g := c.g, fn := c.G.fn, team := c.G.team, launch := c.G.launch, pair := c.G.pair, kind := kind, tile := tile
          rowsA := ra, rowsB := rb, started := false, since := c.s.order.length } }
    G := c.G.addOp 1 c.s.handle }

/-- The 128 pieces of 32 bytes of 4 KiB at x. -/
def tileVas (x : Nat) : List Nat := (List.range 128).map fun i => x + 32 * i

/-- 06 R143 to R147, R149: a matrix operation whose checks pass is queued with its translations taken, counted by k1, and
nothing else happens until its engine performs it; with an empty ACTIVE it does nothing; another role's gang takes MATROLE's
fault, code 8. -/
def Obligations.MatrixOperationsAccepted : Prop :=
  ∀ (s t : State) (c : Cx) (f : Mat) (m : Mem), Runs s c →
    let tag := f.mod.getLsbD 0
    let n := f.mod.toNat / 2 % 64 + 1
    let x := (((c.sreg m.base.sNum).toNat : Int) + m.offs.toInt) % (2 ^ 64 : Nat)
    let va := x.toNat
    let role := c.G.role = .matrix ∨ c.G.role = .vector
    let window := (tileVas va).map fun a => ({ src := .key (c.windowKey a), va := 0, brick := none, pos := 0 } : MatRow)
    let memory := fun (pages : Store Nat) =>
      (tileVas va).map fun a => ({ src := .key (pageKey pages a), va := a, brick := none, pos := 0 } : MatRow)
    (role → c.P.active ≠ 0 → c.G.k 1 < 63 → c.pairCount < 16 →
      (f.tile.toNat + n ≤ c.team.tiles →
        exec (.azero f) s = .next (queuedOp c (.azero n tag) f.tile.toNat [] []).retire) ∧
      (f.tile.toNat < c.team.tiles → f.a.vNum < c.team.tiles →
        exec (.acvt f) s = .next (queuedOp c (.acvt f.a.vNum tag) f.tile.toNat [] []).retire ∧
        exec (.aadd f) s = .next (queuedOp c (.aadd f.a.vNum) f.tile.toNat [] []).retire) ∧
      (m.data.vNum < c.team.tiles → va % 128 = 0 →
        (m.space = 2 → va + 4096 ≤ c.team.window → rowsHere window →
          exec (.aload m) s = .next (queuedOp c (.aload (m.ty == .t32)) m.data.vNum window []).retire ∧
          exec (.astore m) s = .next (queuedOp c .astore m.data.vNum window []).retire) ∧
        (∀ pages, m.space ≠ 2 → (∀ a ∈ tileVas va, s.heldVa c.G.fn a = false) → rowsHere (memory pages) → t.mats = s.mats →
          (s.admitPages c.G.fn (s.launchOf c.G).agent .read (pageFirsts (tileVas va)) = .inr (t, pages) →
            exec (.aload m) s =
              .next (queuedOp { c with s := t } (.aload (m.ty == .t32)) m.data.vNum (memory pages) []).retire) ∧
          (s.admitPages c.G.fn (s.launchOf c.G).agent .write (pageFirsts (tileVas va)) = .inr (t, pages) →
            exec (.astore m) s = .next (queuedOp { c with s := t } .astore m.data.vNum (memory pages) []).retire)))) ∧
    (c.G.role = .matrix → c.P.active ≠ 0 → c.G.k 1 < 63 → c.pairCount < 16 → f.tile.toNat < c.team.tiles →
      ∀ (as_ bs : List Chunk) (ma mb : Store Nat),
      (∀ o ∈ [f.a, f.b], (c.sreg o.sNum).field 63 48 = 0 → (c.sreg o.sNum).field 6 0 = 0) →
      s.operandChunks c.G.fn (c.sreg f.a.sNum) 3 (f.sprs != 0) = as_.map some →
      s.operandChunks c.G.fn (c.sreg f.b.sNum) (colsB f.ta f.sprs.toNat) false = bs.map some →
      (∀ q ∈ as_ ++ bs, s.heldVa c.G.fn q.va = false) →
      s.translatePages c.G.fn (pageFirsts (as_.map (·.va))) = .inr ma →
      s.translatePages c.G.fn (pageFirsts (bs.map (·.va))) = .inr mb →
      rowsHere (rowsOf as_ ma ++ rowsOf bs mb) →
      ∀ p ∈ [(Instr.mma f, false), (Instr.mmaz f, true)], exec p.1 s = .next (queuedOp c
        (.mma p.2 tag f.ta f.tb (sparseN f.ta f.sprs.toNat) f.scl.toNat) f.tile.toNat (rowsOf as_ ma) (rowsOf bs mb)).retire) ∧
    (role → c.P.active = 0 → f.tile.toNat + n ≤ c.team.tiles → exec (.azero f) s = .next c.retire) ∧
    (c.G.role ≠ .matrix → exec (.mma f) s = .next (c.fault 0x08) ∧ exec (.mmaz f) s = .next (c.fault 0x08)) ∧
    (¬role → ∀ i ∈ [Instr.azero f, .acvt f, .aadd f, .aload m, .astore m], exec i s = .next (c.fault 0x08))

/-- 06 R148: aread gives each active lane the element it names and awrite writes it, the highest lane last; a lane that names
none is left out; elements of other numbers, tags and memory keep what they hold. -/
def Obligations.TileElementAccess : Prop :=
  ∀ (s : State) (c : Cx) (f : Mat), Runs s c → (c.G.role = .matrix ∨ c.G.role = .vector) →
    f.tile.toNat < c.team.tiles → c.fits f.a .n32 = true → c.fits f.b .n32 = true →
    (∀ q ∈ s.mats, q.2.g = c.g → q.2.kind = .astore) →
    let index := fun l => c.vsrc f.b .n32 l + if f.mod.getLsbD 0 then l else 0
    let m := maskOf fun l => c.P.active.getLsbD l && decide (index l < 1024)
    let place := fun l => tileKey c.G.team c.G.pair f.tile.toNat (index l)
    (c.window f.ctl = 0 → GivesLanes s c (.aread f) m f.a.vNum false fun l =>
      (s.tileElem c.G.team c.G.pair f.tile.toNat (index l)).toNat) ∧
    (Steady c → ∃ t d, exec (.awrite f) s = .next t ∧ Runs t d ∧ d.P.pc = c.P.pc + 8 ∧ SameScalars c d ∧ SameLanes c d ∧
      SameBytes s t ∧ t = { s with gangs := t.gangs, tiles := t.tiles } ∧
      ∀ k, t.tiles.find? k = match (List.range 96).reverse.find? (fun l => m.getLsbD l && place l == k) with
        | some l => some (c.vreg f.a.vNum l)
        | none => s.tiles.find? k)

/-! ### Copies (08 R187 to R200) -/

/-- The copies and the form each takes. -/
def copyForms : List ((Cpy → Instr) × (Cpy → CopyForm)) :=
  [ (.cpy, fun f => match f.mod.toNat % 4 with | 0 => .g2m | 1 => .m2g | 2 => .g2l | _ => .g2g)
  , (.cpyg, fun _ => .gather), (.cpys, fun _ => .scatter), (.cpyc, fun _ => .clusters)
  , (.cpyred, fun f => .red (f.mod.toNat / 4 % 4) (f.mod.getLsbD 0)) ]

/-- Steps 4 to 6 of 08 R199 pass for a layout, a box and a destination: the layout and the box, alignment, the window and
the mask of clusters. -/
structure LayoutPasses (c : Cx) (f : Cpy) (form : CopyForm) (l : Layout) (b : Box) : Prop where
  record : l.recordOk = true ∧ (form.lists = true → l.rank ≠ 1) ∧ (∀ op out, form = .red op out → mwTypeOk l.ty = true)
  shape : form.fills = true → l.tid ≠ 0 → l.rank ≤ 2 ∧ (l.shape = 1 → b.size 0 * l.width = 1024 ∧ b.origin 0 = 0)
  based : l.base % 32 = 0 ∧ (∀ i, 0 < i → i < l.rank → l.stride i % 32 = 0)
  boxed : boxAligned l b = true
  window : form.mortar = true → (c.sreg f.dst.sNum).toNat % 128 = 0 ∧
    (packBytes l b = 0 ∨ (c.sreg f.dst.sNum).toNat + packBytes l b ≤ c.team.window)
  listed : form.lists = true → (c.sreg (f.a.sNum + 2)).toNat % 4 = 0
  mask : form = .clusters → (c.sreg f.dst.sNum).toNat < 2 ^ 32 ∧ ∀ n, n < 32 → (c.sreg f.dst.sNum).getLsbD n = true →
    n < c.s.fuse.dieClusters c.team.die ∧ c.s.fuse.dieBase c.team.die + n ∈ c.s.clustersOf c.G.fn

/-- The context once a copy stands in its engine's queue, counted. -/
def queuedCopy (c : Cx) (f : Cpy) (form : CopyForm) (l : Layout) (moves : List Move) (fills : List Brick) : Cx :=
  let u := if form.fills ∧ l.tid ≠ 0 then c.s.writeEntry c.G.fn l.tid (entryOf l) else c.s
  { c with
    s := { u with
      handle := u.handle + 1
      copies := u.copies.put u.handle
        { g := c.g, fn := c.G.fn, team := c.G.team, launch := c.G.launch, cluster := c.G.cluster, class_ := form.counter
          kind := form.kind, ty := l.ty, twin := l.twin, moves := moves, fills := fills, point := f.point.toNat
          committed := f.point != 31 } }
    G := c.G.addOp form.counter u.handle }

/-- 08 R187 to R199: a copy of a copy gang whose checks pass, the page of its layout record not charged (log 27, DEDUCED), with no WTAG and both ends in this package or its hosts, is
queued with its moves and counted by k0 or k2; no byte has moved yet. With a POINT it commits (09 R220), so it faults in an
exit routine. A gang of another role takes fault 7. -/
def Obligations.CopyAccepted : Prop :=
  ∀ p ∈ copyForms, ∀ (s t u v : State) (c : Cx) (f : Cpy) (w : Walked) (list global there : Store Nat), Runs s c →
    let form := p.2 f
    let fn := c.G.fn
    let agent := (s.launchOf c.G).agent
    let rec_ := (c.sreg f.layout.sNum).toNat
    let l := c.layout f ((List.range 4).map fun i => BitVec.ofNat 64 (s.read fn (w.key + 8 * i) 8))
    let b := c.box f l.rank
    let d := (c.sreg f.dst.sNum).toNat
    let entries := (List.range (b.size 1)).map fun i => ((c.sreg (f.a.sNum + 2)).toNat + 4 * i) % 2 ^ 64
    let rows := if form.lists then some (entries.map fun a => t.read fn (pageKey list a) 4) else none
    let segs := segments l b rows
    let live := segs.filter fun g => g.valid != 0
    let ends := segs.flatMap fun g => (pieces (d + g.off)).map fun q => (d + g.off + q.1) % 2 ^ 64
    let key := fun q => if form = .g2g then pageKey there ((d + q) % 2 ^ 64) else c.windowKey (d + q)
    let moves := movesOf form segs (pageKey global) key (if form = .g2g then d else 0)
    let fills := if form = .g2l ∨ (form = CopyForm.clusters ∧ d ≠ 0) then filledBricks fn l b segs (pageKey global) else []
    let away := fun k => isRemote k = true
    let readable := fun (x : State) k n => x.poisoned k n = false ∧ ¬away k
    (f.point = 31 ∨ (c.team.point f.point.toNat).expect ≠ 0 ∧ c.P.rstate ≠ 1) → f.slot = false →
    (form = .clusters → (c.sreg f.dst.sNum).field 63 32 = 0) → (∀ r ∈ c.P.reads, away r.1) →
    (c.G.role ≠ .copy → exec (p.1 f) s = .next (c.fault 0x07)) ∧
    (c.G.role = .copy → rec_ % 32 = 0 → s.heldVa fn rec_ = false → s.translate fn rec_ .read = .ok w → readable s w.key 32 →
      LayoutPasses c f form l b →
      (if form.lists then s.admitPages fn agent .read (pageFirsts entries) = .inr (t, list) ∧
          ∀ a ∈ entries, s.heldVa fn a = false ∧ readable t (pageKey list a) 4
        else t = s) →
      (∀ a ∈ live.map (·.va) ++ (if form = .g2g then ends else []), t.heldVa fn a = false) →
      t.admitPages fn (t.launchOf c.G).agent (if form.writes then .write else .read) (pageFirsts (live.map (·.va))) =
        .inr (u, global) →
      u.admitPages fn (t.launchOf c.G).agent .write (if form = .g2g then pageFirsts ends else []) = .inr (v, there) →
      v.teams = s.teams → v.fuse = s.fuse → l.wtag = 0 →
      (∀ m ∈ moves, ¬away m.dst ∧ ∀ k, m.src = .key k → ¬away k) →
      c.G.k form.counter < 63 → (v.copies.filter fun q => q.2.cluster == c.G.cluster).length < 32 →
      (f.point = 31 → exec (p.1 f) s = .next (queuedCopy { c with s := v } f form l moves fills).retire) ∧
      (f.point ≠ 31 → NoLog v fn →
        exec (p.1 f) s = .next (queuedCopy ({ c with s := v } : Cx).settled' f form l moves fills).retire))

/-! ### Weevil, points, rings and counters (08) -/

/-- A gang of a team with its record dropped. -/
def dropHeld (team : Nat) (G : Gang) : Gang := if G.team = team then { G with held := none } else G

/-- 08 R213 to R215: the life of a nest. lpinit configures an idle or finished one, lpstart runs it, lpstop empties it, and
lpnext and lpdone hand out its iterations and take them back; Weevil pushes the next iteration to every role that takes part
as soon as the permits and the queues allow. A record holds its SEQ and the indices of its iteration. -/
def Obligations.WeevilRunsTheNest : Prop :=
  (∀ (s : State) (c : Cx) (f : Cpy), Runs s c →
    let m := f.mod.toNat
    let trips := (List.range (m / 2 ^ 7 % 4 + 1)).map fun i => (c.sreg f.dst.sNum).toNat / 2 ^ (16 * i) % 2 ^ 16
    let roles := m / 2 ^ 4 % 8
    let n := c.nest
    let with_ := fun (n : Nest) => (c.setNest n).retire
    (c.G.role = .copy →
      ((∀ t ∈ trips, t ≤ 4096) → trips.foldl (· * ·) 1 ≤ 65535 → roles ≠ 0 → n.state = .idle ∨ n.state = .finished →
        exec (.lpinit f) s = .next (with_ { state := .configured, trips := trips, permits := m % 16 + 1, roles := roles })) ∧
      (n.state = .configured → exec (.lpstart f) s =
        .next (with_ { n with state := if n.trips.foldl (· * ·) 1 = 0 then .finished else .running })) ∧
      (n.state = .running ∨ n.state = .finished → exec (.lpstart f) s = .next c.retire) ∧
      (n.state = .idle → IsIllegal s c (.lpstart f) ∧ exec (.lpstop f) s = .next c.retire) ∧
      (n.state ≠ .idle → exec (.lpstop f) s = .next (({ c with
        s := { s with gangs := Store.mapVals s.gangs fun _ => dropHeld c.G.team }
        G := { c.G with held := none } } : Cx).setNest {}).retire)) ∧
    (c.G.role ≠ .copy → exec (.lpstart f) s = .next (c.fault 0x07) ∧ exec (.lpstop f) s = .next (c.fault 0x07)) ∧
    (∀ r, c.G.held = some r → GivesScalar s c (.lpnext f) f.dst.sNum r) ∧
    (∀ r q, c.G.held = none → n.state ≠ .idle → n.roles.testBit c.G.role.bit = true → n.queues.get [] c.G.role.bit = r :: q →
      exec (.lpnext f) s = .next ((({ c with G := { c.G with held := some r } } : Cx).setNest
        { n with queues := n.queues.set [] c.G.role.bit q }).setS f.dst.sNum r).retire) ∧
    (c.G.held = none → n.state = .idle ∨ n.roles.testBit c.G.role.bit = false →
      GivesScalar s c (.lpnext f) f.dst.sNum (BitVec.allOnes 64)) ∧
    (c.G.held = none → n.state ≠ .idle → n.roles.testBit c.G.role.bit = true → n.queues.get [] c.G.role.bit = [] →
      (n.next = n.total → GivesScalar s c (.lpnext f) f.dst.sNum (BitVec.allOnes 64)) ∧
      (n.next ≠ n.total → exec (.lpnext f) s = .next (c.waitFor .lpnext))) ∧
    (∀ r, c.G.held = some r → c.src64 f.a = BitVec.ofNat 64 (r.field 63 48) → exec (.lpdone f) s =
      .next (({ c with G := { c.G with held := none } } : Cx).setNest (n.report (r.field 63 48) c.G.role.bit)).retire) ∧
    ((∀ r, c.G.held = some r → c.src64 f.a ≠ BitVec.ofNat 64 (r.field 63 48)) → exec (.lpdone f) s = .next c.retire)) ∧
  (∀ (s : State) (k : Nat) (t : Team), s.teams.find? k = some t → t.nest.state = .running → t.nest.next < t.nest.total →
    t.nest.next < t.nest.lowest + t.nest.permits →
    (∀ r, r < 3 → t.nest.roles.testBit r = true → (t.nest.queues.get [] r).length < 16) →
    (∃ u, exec (.weevilPush k) s = .next u ∧ u = { s with teams := u.teams } ∧
      u.teams.find? k = some { t with nest := t.nest.push } ∧ ∀ j, j ≠ k → u.teams.find? j = s.teams.find? j) ∧
    t.nest.push.next = t.nest.next + 1 ∧ t.nest.push.opened = t.nest.opened ++ [(t.nest.next, 0)] ∧
    ∀ r, r < 3 → t.nest.push.queues.get [] r =
      if t.nest.roles.testBit r then t.nest.queues.get [] r ++ [t.nest.record t.nest.next] else t.nest.queues.get [] r) ∧
  ∀ (n : Nest) (k : Nat), n.trips.length ≤ 4 → (∀ t ∈ n.trips, 0 < t ∧ t ≤ 4096) → k < n.trips.foldl (· * ·) 1 →
    n.trips.foldl (· * ·) 1 ≤ 65535 → (n.record k).field 63 48 = k ∧
      ∀ i, i < n.trips.length → (n.record k).field (12 * i + 11) (12 * i) = k / (n.trips.take i).foldl (· * ·) 1 % n.trips.getD i 1

/-- 08 R201, R202: `n` arrivals at a point that expects E of them, counted on from those of the phase so far: the phase flips
each time E have come, and the rest count towards the next. -/
def Obligations.ArrivalsFlipThePhase : Prop :=
  ∀ (p : Point) (n : Nat), 0 < p.pending → p.pending ≤ p.expect →
    let seen := p.expect - p.pending + n
    (p.arrive n).expect = p.expect ∧ (p.arrive n).pending = p.expect - seen % p.expect ∧
      (p.arrive n).phase = (p.phase ^^ decide (seen / p.expect % 2 = 1))

/-- 08 R203, R204, R210, R212: jinit sets a point up and clears the team's flags; jarrive arrives; jwait and jarwait
go on once their phase is over, acquire what its arrivals released (08 R205) and then clear the flag, and wait before; where the
split may find another gang's initialisation still not done, its use raises ILLOP (10 R250); kwait goes on once few enough
operations of its class are outstanding. The arrivals fault in an exit routine (09 R224). -/
def Obligations.PointsAndCounters : Prop :=
  ∀ (s : State) (c : Cx) (f : Sys), Runs s c →
    let pt := f.imm.toNat % 32
    let p := c.team.point pt
    let count := if f.sub = 1 then (c.src64 f.a).toNat else f.imm.toNat / 32 % 4096
    let n := if f.sub = 0 ∧ f.imm.toNat / 32 % 4096 = 0 then 1 else count
    let past := fun (d : Cx) => Store.get false d.G.flags pt = false ∨ (d.team.point pt).phase ≠ Store.get false d.G.ap pt
    let cleared := fun (G : Gang) => { G with flags := Store.set false G.flags pt false, ap := Store.set false G.ap pt false }
    (1 ≤ count → count ≤ 4095 → p.pending = p.expect → exec (.jinit f) s = .next ((({ c with
      s := { s with gangs := Store.mapVals s.gangs fun _ G => if G.team = c.G.team then cleared G else G }
      G := cleared c.G } : Cx).setTeam (c.team.setPoint pt { p with expect := count, pending := count })).initialise pt
        (p.expect != 0)).retire) ∧
    (count = 0 ∨ 4095 < count ∨ p.pending ≠ p.expect → IsIllegal s c (.jinit f)) ∧
    (Acts s c → Ours c pt → 1 ≤ n → n ≤ 4095 → p.expect ≠ 0 →
      exec (.jarrive f) s = .next (c.settled'.arrive pt n).retire ∧
      (c.P.wonly = false → ∀ d, d = c.settled'.arrive pt n →
        (past d → exec (.jarwait f) s = .next (({ d.met pt with
          G := { d.G with flags := Store.set false d.G.flags pt false }
          P := { d.P with wonly := false, wait := none, closed := true } } : Cx).retire)) ∧
        (¬past d → exec (.jarwait f) s = .next (({ d with P := { d.P with wonly := true } } : Cx).waitFor (.rendezvous pt))))) ∧
    (p.expect = 0 → IsIllegal s c (.jwait f) ∧ (c.P.rstate ≠ 1 → IsIllegal s c (.jarrive f))) ∧
    (c.P.rstate = 1 → exec (.jarrive f) s = .next (c.fault 0x00) ∧ exec (.jarwait f) s = .next (c.fault 0x00)) ∧
    (∀ u b, p.expect ≠ 0 → s.finds c.home c.actor pt = (u, b) → ∀ d : Cx, d = { c with s := u } → exec (.jwait f) s = .next (match b with
      | false => d.illop
      | true => if d.jwaitHolds f then
          ((if f.sub = 0 then { d with G := { d.G with flags := Store.set false d.G.flags pt false } } else d).met pt).retire
        else d.waitFor (.rendezvous pt))) ∧
    (p.expect ≠ 0 → Ours c pt → f.sub = 0 →
      (past c → exec (.jwait f) s = .next (({ c.met pt with G := { c.G with flags := Store.set false c.G.flags pt false } } : Cx).retire)) ∧
      (¬past c → exec (.jwait f) s = .next (c.waitFor (.rendezvous pt)))) ∧
    (p.expect ≠ 0 → Ours c pt → f.sub ≠ 0 →
      exec (.jwait f) s = .next (if p.phase ≠ f.imm.getLsbD 5 then (c.met pt).retire else c.waitFor (.rendezvous pt))) ∧
    exec (.kwait f) s = .next (if c.G.kHolds (f.imm.toNat % 4) (f.imm.toNat / 4 % 64) then
      (if f.imm.toNat % 4 = 2 then c.covers2 (f.imm.toNat / 4 % 64) else c).retire else c.waitFor .kwait)

/-- The ring as `P` puts and `C` takes since its ringinit leave it (01 R24; 08 R206). -/
structure RingAfter (depth P C : Nat) (r : Ring) : Prop where
  size : r.depth = depth
  ppos : r.ppos = P % depth
  cpos : r.cpos = C % depth
  full : r.full = decide (P = C + depth)
  bits : ∀ i, i < depth → r.pb.getLsbD i = decide ((P + depth - 1 - i) / depth % 2 = 1)

/-- 08 R206 to R208: a ring of any depth through any puts and takes: entry positions, FULL and the phase bits; a put whose
sequence number is its place in the order passes the checks of R207, and so does a take. -/
def Obligations.RingKeepsItsOrder : Prop :=
  ∀ (depth P C : Nat) (r : Ring), 1 ≤ depth → depth ≤ 16 → C ≤ P → P ≤ C + depth → RingAfter depth P C r →
    (P < C + depth → RingAfter depth (P + 1) C r.put ∧ r.isFull = false ∧
      P % r.depth = r.ppos ∧ r.pb.getLsbD r.ppos = r.phaseOf P) ∧
    (P = C + depth → r.isFull = true) ∧
    (C < P → RingAfter depth P (C + 1) r.take ∧ r.isEmpty = false ∧
      C % r.depth = r.cpos ∧ r.pb.getLsbD r.cpos ≠ r.phaseOf C) ∧
    (P = C → r.isEmpty = true) ∧
    RingAfter depth 0 0 { depth := depth }

/-- 08 R206 to R209: ringinit, ringput and ringtake: the entry's number goes to the destination, and the ring is as the
operation leaves it; on a stage it is not at they raise RINGPROTO, code 9, and with no entry free or full they wait. In an
exit routine both fault (09 R224). -/
def Obligations.RingInstructions : Prop :=
  ∀ (s : State) (c : Cx) (f : Sys), Runs s c →
    let k := f.imm.toNat % 16
    let r := c.team.ring k
    let seq := if f.imm.getLsbD 5 then (c.src64 f.a).field 63 48 else (c.src64 f.a).toNat
    let unchecked := f.imm.getLsbD 4 = true
    let onRing := fun (d : Cx) (q : Ring) (n : Nat) =>
      (((d.setTeam (d.team.setRing k q)).exchange k n).setS f.dst.sNum (BitVec.ofNat 64 n)).retire
    exec (.ringinit f) s = .next ((c.setTeam (c.team.setRing k { depth := f.imm.toNat / 16 % 32 })).initialise (24 + k)
      (r.depth != 0)).retire ∧
    (c.P.rstate = 1 → exec (.ringput f) s = .next (c.fault 0x00) ∧ exec (.ringtake f) s = .next (c.fault 0x00)) ∧
    (c.P.rstate ≠ 1 → r.depth = 0 → IsIllegal s c (.ringput f) ∧ IsIllegal s c (.ringtake f)) ∧
    (c.P.rstate ≠ 1 → r.depth ≠ 0 → Ours c (24 + k) → ¬unchecked → seq % r.depth ≠ r.ppos → exec (.ringput f) s = .next (c.fault 0x09)) ∧
    (c.P.rstate ≠ 1 → r.depth ≠ 0 → Ours c (24 + k) → ¬unchecked → seq % r.depth ≠ r.cpos → exec (.ringtake f) s = .next (c.fault 0x09)) ∧
    (c.P.rstate ≠ 1 → r.depth ≠ 0 → Ours c (24 + k) → unchecked ∨ seq % r.depth = r.ppos →
      (r.isFull = true → exec (.ringput f) s = .next (c.waitFor .ringPut)) ∧
      (r.isFull = false → unchecked ∨ r.pb.getLsbD r.ppos = r.phaseOf seq → Acts s c →
        exec (.ringput f) s = .next (onRing c.settled' r.put r.ppos))) ∧
    (c.P.rstate ≠ 1 → r.depth ≠ 0 → Ours c (24 + k) → unchecked ∨ seq % r.depth = r.cpos →
      (r.isEmpty = true → exec (.ringtake f) s = .next (c.waitFor .ringTake)) ∧
      (r.isEmpty = false → unchecked ∨ r.pb.getLsbD r.cpos ≠ r.phaseOf seq → Acts s c →
        exec (.ringtake f) s = .next (onRing c.settled' r.take r.cpos)))

/-! ### Regions, traps, service calls, queues and messages (09) -/

/-- 09 R216 to R218, R223, R228: a marker enters its region; xret ends an exit routine that has written every live-in slot,
with its coverage record, its entry and its pending-spawn descriptor, of words the model leaves free (log 62), in the save
block, and one that has not fails with SAVESHORT, code 15; eret restores ACTIVE and goes back to the marker. -/
def Obligations.RegionsAndRoutines : Prop :=
  ∀ (s : State) (c : Cx) (f : Sys), Runs s c →
    (∀ cl, c.P.clause = some cl → c.P.rstate ≠ 1 →
      let at_ := (((cl.hdr : Int) + 8 * f.imm.toInt) % (2 ^ 64 : Nat)).toNat
      (descOk c.G.vregs at_ cl.desc = true →
        exec (.region f) s = .next (({ c with P := { c.P with
          region := cl.hdr, closed := false, exitDesc := if c.P.rstate = 2 then cl.desc else c.P.exitDesc } } : Cx).retire)) ∧
      (descOk c.G.vregs at_ cl.desc = false → IsIllegal s c (.region f))) ∧
    (c.P.rstate = 1 → exec (.region f) s = .next (c.fault 0x00) ∧ exec (.eret f) s = .next (c.fault 0x00)) ∧
    (c.P.rstate ≠ 1 → IsIllegal s c (.xret f)) ∧
    (c.P.rstate = 0 → IsIllegal s c (.eret f)) ∧
    (c.P.rstate = 2 → exec (.eret f) s = .next (({ c with P := { c.P with
      active := (c.P.savedActive.getD c.P.member) &&& c.P.member, rstate := 0, savedActive := none, covered := []
      exitDesc := [] } } : Cx).endClause c.P.region)) ∧
    (c.P.rstate = 1 → c.G.ops ≠ [] → exec (.xret f) s = .next (c.waitFor .xret)) ∧
    (∀ u v w, c.P.rstate = 1 → c.G.ops = [] → c.P.late = [] → c.G.save ≠ 0 →
      s.deviceWrite c.G.fn (c.G.save + 0x200 + 32 * c.sp) c.P.coverage = some u →
      (c.P.covers c.P.exitDesc = false →
        exec (.xret f) s = .next (({ c with s := u } : Cx).exitFailure 0x0F)) ∧
      (c.P.covers c.P.exitDesc = true →
        u.deviceWrite c.G.fn (c.G.save + 64 * c.sp) (c.P.entryWords c.sp (descEntry c.P.exitDesc) 2) = some v →
        v.deviceWrite c.G.fn (c.G.save + 0x100 + 64 * c.sp)
          ((List.range 8).map fun i => Config.freeValue (v.tick + i)) = some w →
        exec (.xret f) s = .next (State.leave { ({ c with
          s := { w with tick := w.tick + 8 }
          P := { c.P with pc := descEntry c.P.exitDesc, rstate := 2, saved := true, restart := true, clause := none, wait := none }
          } : Cx).flush with cur := none } c.G.fn)))

/-- 09 R230 to R232; 02 R49, R56: trap, a break with breaks enabled and an unassigned opcode take their faults; a break
otherwise is counted. In an exit routine trap and break raise code 0. Their words hold the code and zeros. -/
def Obligations.TrapsAndUnassigned : Prop :=
  ∀ (s : State) (c : Cx) (f : Sys) (w : BitVec 64), Runs s c →
    IsIllegal s c (.unassignedOpcode w) ∧
    (c.P.rstate ≠ 1 →
      exec (.trap f) s = .next (c.takeFault { c.faultAt 0x20 with elem := f.imm.toNat }) ∧
      (s.ffield c.G.fn 0xD80 0 0 = 1 → exec (.brk f) s = .next (c.fault 0x21)) ∧
      (s.ffield c.G.fn 0xD80 0 0 ≠ 1 → exec (.brk f) s = .next (({ c with s := s.count c.G.fn 0xD38 } : Cx).retire))) ∧
    (c.P.rstate = 1 → exec (.trap f) s = .next (c.fault 0x00) ∧ exec (.brk f) s = .next (c.fault 0x00)) ∧
    (decode w = some (.trap f) → Word.field w 63 54 = 0x113 ∧ Word.field w 49 0 = f.imm.toNat) ∧
    (decode w = some (.brk f) → Word.field w 63 54 = 0x11E ∧ Word.field w 49 0 = 0)

/-- 20 R321 to R323; 09 R224, R230, R231: a fault. In an exit routine it is logged as XFLT with its code as the origin and
turns into a rollback; a code that is not resumable is logged and ends its launch; a resumable one parks its split, with a
record in the log and, unless the device services it, in the queue, and waits while the queue has no room. -/
def Obligations.FaultIsTaken : Prop :=
  ∀ (c : Cx) (i : FaultInfo), c.P.late = [] → i.code ≠ 0x0C →
    let f := c.G.fn
    let l := c.s.launchOf c.G
    let words := fun token precise resum i => recordWords f l.lid c.G.slotNumber c.sp token precise resum i
    let token := c.s.freeToken
    let ws := words token true true i
    let logged := State.logAll { c.s with tick := c.s.tick + 1 } f ws i.exts
    let parked := fun (u : State) hw q e => ({ c with s := u } : Cx).park u
      (.fault { token := token, info := i, logAt := c.s.logAddr f, queued := q, hardware := hw, extAt := e })
    (c.P.rstate = 1 → c.takeFault i =
      let s := { c.flush.count f 0xD48 with cur := none }
      (s.logAll f (words 0 false false { i with code := 0x0E, orig := i.code, exts := [] }) []).rollbackFor f 0x0E (s.logAddr f)) ∧
    (c.P.rstate ≠ 1 → i.code ∉ [0x05, 0x06, 0x0A, 0x0B, 0x11, 0x20, 0x21] → c.takeFault i =
      (c.flush.logAll f (words 0 true false i) i.exts).endLaunch c.G.launch 3 i.code (c.flush.logAddr f)) ∧
    (c.P.rstate ≠ 1 → i.code ∈ [0x05, 0x06, 0x0A, 0x0B, 0x11, 0x20, 0x21] →
      let t := { c.s with tick := c.s.tick + 1 }
      (t.serviced f (c.s.fn f).mode i = true → c.takeFault i = parked logged true none none) ∧
      (∀ u n e, t.serviced f (c.s.fn f).mode i = false → logged.queueFault f (ws :: i.exts) = some (u, n, e) →
        c.takeFault i = parked u false (some n) (some e)) ∧
      (t.serviced f (c.s.fn f).mode i = false → logged.queueFault f (ws :: i.exts) = none →
        c.takeFault i = c.waitFor (.faultQueue i)))

/-- An address of the elected lane is reached: it is not held (17 R273; 24 R368), and its check passes, which leaves `t`. -/
def Arrives (c : Cx) (va : Nat) (acc : Acc) (key : Nat) (t : State) : Prop :=
  c.s.heldVa c.G.fn va = false ∧ c.s.permit c.G.fn (c.s.launchOf c.G).agent va acc = .inr (key, t)

/-- An entry of a queue's ring is reached, which nothing charges (20 R325): it is not held, and it translates. -/
def EntryAt (s : State) (f va : Nat) (acc : Acc) (key : Nat) : Prop :=
  s.heldVa f va = false ∧ ∃ w, s.translate f va acc = .ok w ∧ w.key = key

/-- 09 R238; 18 R297: continuation queues with their slot. cpop takes the record at HEAD, and returns the empty or
the closed word where there is none to come; cpush appends a record; a full queue waits, a closed one is PROT, code 4. A cpop
acquires what the push of its record has released (25 R379). A command queue is no continuation queue (log 42): PROT. A cpop
waits for a slot; with NOWAIT it gives the empty word then only of a stopped queue (log 42). In an exit routine they fault (09 R224). -/
def Obligations.ContinuationQueues : Prop :=
  (∀ (s : State) (c : Cx) (f : Sys), Runs s c → c.P.rstate = 1 → ∀ i ∈ [Instr.cpop f, .cpush f, .cjoin f],
    exec i s = .next (c.fault 0x00)) ∧
  ∀ (s : State) (c : Cx) (f : Sys) (x : Slot) (key : Nat), Acts s c →
    let fn := c.G.fn
    let empty := (2 : Nat) ^ 64 - 2
    let q := (c.src64 f.a).toNat
    let p := (c.sreg f.dst.sNum).toNat
    let ws := (List.range 4).map fun i => c.sreg (f.a.sNum + i)
    let gives := fun (d : Cx) (ws : List Word) => (d.setSs f.dst.sNum ws).retire
    let d := c.settled'
    (q < 2 ^ 16 → s.isContinuation fn q = true → s.slot? fn q = some x →
      (x.count ≠ 0 → EntryAt s fn (privBase x.priv + 32 * (x.head % privSize x.priv)) .read key →
        exec (.cpop f) s = .next (gives (({ d with s := d.s.setHead x (x.head + 1) } : Cx).did
            (.take (.record fn q x.head) d.P.member))
          ((List.range 4).map fun i => BitVec.ofNat 64 (d.s.read fn (key + 8 * i) 8)))) ∧
      (x.count = 0 → x.closed = true → exec (.cpop f) s = .next (gives d [BitVec.allOnes 64, 0, 0, 0])) ∧
      (x.count = 0 → x.closed = false → f.sub = 1 →
        exec (.cpop f) s = .next (gives d [BitVec.ofNat 64 empty, 0, 0, 0])) ∧
      (x.count = 0 → x.closed = false → f.sub ≠ 1 → exec (.cpop f) s = .next (c.waitFor .cpop))) ∧
    (∀ u, u = s.loadQueue fn q c.G.die → q < 2 ^ 16 → s.isContinuation fn q = true → u.slot? fn q = none → f.sub ≠ 1 ∨ u.hasStopped fn q = false →
      exec (.cpop f) s = .next (({ c with s := u } : Cx).waitFor .cpop)) ∧
    ((c.sreg f.a.sNum).toNat < empty → p < 2 ^ 16 → s.isContinuation fn p = true → s.slot? fn p = some x →
      (x.closed = true → exec (.cpush f) s = .next (c.fault 0x04)) ∧
      (x.closed = false → privSize x.priv ≤ x.count → exec (.cpush f) s = .next (c.waitFor .cpush)) ∧
      (x.closed = false → x.count < privSize x.priv → EntryAt s fn (privBase x.priv + 32 * (x.tail % privSize x.priv)) .write key →
        exec (.cpush f) s = .next (({ d with s := d.s.pushAt x key ws } : Cx).hand (.record fn p x.tail) d.P.active).retire)) ∧
    (s.isContinuation fn (q % 2 ^ 16) = false ∨ 2 ^ 16 ≤ q → exec (.cpop f) s = .next (c.fault 0x04))

/-- 09 R239, R238: a join whose descriptor and bitmap word are reached: a bit that is set does nothing and gives 0; one that
is not is set and counted, which releases, and the last one of a join that has not fired pushes the descriptor's record, with what
the others released (25 R379), and gives 1. -/
def Obligations.JoinFiresOnce : Prop :=
  ∀ (s t u : State) (c : Cx) (f : Sys) (x : Slot) (at_ map key : Nat), Acts s c →
    NoLog u c.G.fn →
    let fn := c.G.fn
    let va := (c.sreg f.a.sNum).toNat
    let i := (c.sreg (f.a.sNum + 1)).toNat
    let w : Nat → Word := fun j => BitVec.ofNat 64 (t.read fn (at_ + 8 * j) 8)
    let bitmap := (w 0).toNat
    let q := (w 2).field 15 0
    let bits := BitVec.ofNat 64 (u.read fn map 8)
    let count := ((w 1).field 63 32 + 1) % 2 ^ 32
    let d := ({ c with s := u } : Cx).settled'
    let counted := fun (v : State) => (v.store fn map (bytesOf 8 (bits.toNat ||| 2 ^ (i % 64))) true).store fn (at_ + 8)
      (bytesOf 8 ((w 1).put 63 32 count).toNat) true
    let gave := fun (v : State) => ({ d with s := v } : Cx).did (.give (.join at_) d.P.active)
    let link := Link.record fn q x.tail
    va % 64 = 0 → Arrives c va .atomic at_ t → bitmap < 2 ^ 48 → bitmap % 8 = 0 →
    Arrives { c with s := t } (bitmap + 8 * (i / 64)) .atomic map u →
    i < (w 1).field 31 0 → u.isContinuation fn q = true → (w 2).field 62 16 = 0 → w 3 = 0 →
    (bits.getLsbD (i % 64) = true → exec (.cjoin f) s = .next (d.setS f.dst.sNum 0).retire) ∧
    (bits.getLsbD (i % 64) = false → count ≠ (w 1).field 31 0 ∨ (w 2).getLsbD 63 = true →
      exec (.cjoin f) s = .next ((gave (counted d.s)).setS f.dst.sNum 0).retire) ∧
    (bits.getLsbD (i % 64) = false → count = (w 1).field 31 0 → (w 2).getLsbD 63 = false → sentinel (w 4) = false →
      u.slot? fn q = some x →
      (x.closed = false → privSize x.priv ≤ x.count → exec (.cjoin f) s = .next (({ c with s := u } : Cx).waitFor .cjoin)) ∧
      (x.closed = false → x.count < privSize x.priv →
        EntryAt u fn (privBase x.priv + 32 * (x.tail % privSize x.priv)) .write key →
        let e := (gave ((counted d.s).store fn (at_ + 16) (bytesOf 8 ((w 2).put 63 63 1).toNat) true)).setS f.dst.sNum 1
        exec (.cjoin f) s = .next ((({ e with s := e.s.pushAt x key ((List.range 4).map fun j => w (4 + j)) } : Cx).did
          (.carry link (.join at_))).hand link d.P.active).retire))

/-! ### Service calls and messages (09 R233, R234, R241 to R243; 15 R255; 22 R358) -/

/-- 09 R233, R234; 15 R255: a service call with room in the request ring writes one entry per active lane, advances SRQPI and
parks its split until each is answered; the ring full, it waits; disabled or too small, PROT; with an empty ACTIVE it does
nothing. -/
def ServiceCalls : Prop :=
  ∀ (s : State) (c : Cx) (f : Sys), Acts s c →
    c.fitsN f.a (f.imm.toNat / 2 ^ 12 % 8 + 1) = true → (f.imm.toNat / 2 ^ 15 % 8 = 0 ∨ c.fitsN f.dst (f.imm.toNat / 2 ^ 15 % 8) = true) →
    let fn := c.G.fn
    let lanes := lanesOf c.P.active
    let size := 2 ^ (s.ffield fn 0x810 3 0 + 6)
    let pi := s.ffield fn 0x818 31 0
    let ci := s.ffield fn 0x818 63 32
    let on := s.ffield fn 0x810 8 8 ≠ 0 ∧ lanes.length ≤ size
    (c.P.active = 0 → exec (.scall f) s = .next c.retire) ∧
    (c.P.active ≠ 0 → ¬on → exec (.scall f) s = .next (c.fault 0x04)) ∧
    (c.P.active ≠ 0 → on → s.unwritable fn (s.freg fn 0x800).toNat (64 * size) = none →
      (size < ringCount pi ci + lanes.length → exec (.scall f) s = .next (c.waitFor .scallRoom)) ∧
      (ringCount pi ci + lanes.length ≤ size → exec (.scall f) s = .next (c.settled'.call f lanes) ∧
        ∃ G P p, (c.settled'.call f lanes).gangs.find? c.g = some G ∧ G.splits.find? c.sp = some P ∧
          P.parked = some (.call p) ∧ p.waiting = c.P.active ∧ p.callid = (s.fn fn).callid ∧ P.active = c.settle.P.active ∧
          (c.settled'.call f lanes).ffield fn 0x818 31 0 = (pi + lanes.length) % 2 ^ 32))

/-- The message an mbsend or a network send of `c` carries: seven registers. -/
def sevenWords (c : Cx) (f : Sys) : List Word := (List.range 7).map fun i => c.sreg (f.a.sNum + i)

/-- 09 R241 to R243: mbsend delivers its message to a mailbox with room, which is counted in k3 for no time; into a full one
it faults with MBXFULL, code 11, or with WAIT waits; mbrecv takes the oldest message, and acquires what its send has released,
or with NOWAIT gives all ones from an empty mailbox, where it waits otherwise. -/
def Mailboxes : Prop :=
  ∀ (s t u : State) (c : Cx) (f : Sys) (at_ slot : Nat), Acts s c → NoLog t c.G.fn → NoLog u c.G.fn →
    let fn := c.G.fn
    let h := c.sreg f.dst.sNum
    let i := c.sreg f.a.sNum
    let b := t.mailboxAt fn at_
    let d := ({ c with s := u } : Cx).settled'
    let e := ({ c with s := t } : Cx).settled'
    (handleOk h = true → receiver h fn = fn → fn ≤ 96 → s.fnEnabled fn = true →
      Arrives c (s.mailboxVa fn (h.field 11 0)) .atomic at_ t → b.on = true → Arrives { c with s := t } (b.slotVa b.tail) .write slot u →
      (b.count < b.depth → c.G.k 3 < 63 → exec (.mbsend f) s = .next ((({ d with
        s := { d.s.deliverMessage b slot (fn * 2 ^ 56) (sevenWords d f) with handle := d.s.handle + 1 }
        G := (d.G.addOp 3 d.s.handle).endOp d.s.handle } : Cx).hand (.message at_ b.tail) d.P.active).retire)) ∧
      (b.depth ≤ b.count → f.sub = 1 → exec (.mbsend f) s = .next (({ c with s := u } : Cx).waitFor .mbsend)) ∧
      (b.depth ≤ b.count → f.sub ≠ 1 → exec (.mbsend f) s = .next (({ c with s := u } : Cx).fault 0x0B))) ∧
    (handleOk h = false → exec (.mbsend f) s = .next (c.fault 0x04)) ∧
    (handleOk i = true → receiver i fn = fn → Arrives c (s.mailboxVa fn (i.field 11 0)) .atomic at_ t → b.on = true →
      (b.count ≠ 0 → Arrives { c with s := t } (b.slotVa b.head) .read slot u →
        exec (.mbrecv f) s = .next (((({ d with
          s := d.s.plainStore fn (at_ + 16) (bytesOf 8 ((b.w 2).put 31 0 (b.head + 1)).toNat) } : Cx).did
            (.take (.message at_ b.head) d.P.member)).setSs f.dst.sNum ((List.range 8).map fun j => BitVec.ofNat 64 (d.s.read fn (slot + 8 * j) 8))).retire)) ∧
      (b.count = 0 → f.sub = 1 →
        exec (.mbrecv f) s = .next (e.setSs f.dst.sNum (BitVec.allOnes 64 :: List.replicate 7 0)).retire) ∧
      (b.count = 0 → f.sub ≠ 1 → exec (.mbrecv f) s = .next (({ c with s := t } : Cx).waitFor .mbrecv))) ∧
    (receiver i fn ≠ fn → exec (.mbrecv f) s = .next (c.fault 0x04))

/-- 22 R355, R358: a network send to another package leaves as a packet of kind 0 and waits for its response; accepted, the
split goes on; refused for want of room, it is sent again with WAIT and faults with MBXFULL without; denied, it faults with
PROT. Until the Umermash block is ready a send for another package waits (24 R368). -/
def NetworkSends : Prop :=
  (∀ (s : State) (c : Cx) (f : Sys), Acts s c → let h := c.sreg f.dst.sNum
    h.field 63 48 = 0 → h.field 39 23 = 0 → h.field 15 12 = 0 → c.G.k 3 < 63 → h.field 47 40 ≠ s.umid →
    (s.reg 0x70000).field 40 40 = 0 → exec (.netsend f) s = .next (c.waitFor .memory)) ∧
  (∀ (s : State) (c : Cx) (f : Sys), Acts s c →
    let h := c.sreg f.dst.sNum
    let d := c.settled'
    let id := d.s.handle
    let p : Packet :=
      { dpkg := BitVec.ofNat 8 (h.field 47 40), spkg := BitVec.ofNat 8 d.s.umid, kind := 0, sfunc := BitVec.ofNat 7 d.G.fn
        dfunc := BitVec.ofNat 7 (receiver h d.G.fn), len := 7, tag := BitVec.ofNat 24 id
        mbox := BitVec.ofNat 16 (h.field 11 0), addr := 0, payload := sevenWords d f }
    h = d.sreg f.dst.sNum → h.field 63 48 = 0 → h.field 39 23 = 0 → h.field 15 12 = 0 → c.G.k 3 < 63 → h.field 47 40 ≠ s.umid →
    s.reachable (h.field 47 40) = true → (s.reg 0x70000).field 40 40 = 1 →
    exec (.netsend f) s = .next (({ d with
      s := { d.s with
        handle := id + 1
        nets := d.s.nets.put id { g := d.g, sp := d.sp, fn := d.G.fn, wait := f.sub == 1, packet := p }
        outbox := d.s.outbox ++ [p] }
      G := d.G.addOp 3 id } : Cx).waitFor (.net id))) ∧
  ∀ (s : State) (c : Cx) (id : Nat) (o : NetOp), s.nets.find? id = some o → s.cx? o.g o.sp = some c → s.cur = none →
    o.packet.dpkg.toNat ≠ s.umid → c.P.wait = some (.net id) → AtLast c → c.G.splits.keys = [o.sp] → (s.fn c.G.fn).ckpt = none →
    (let b : Cx := { c with
        s := { s with nets := s.nets.erase id }, G := c.G.endOp id, P := { c.P with wait := none } }
      ∃ u d, exec (.netsendResponse id .accept) s = .next u ∧ u.nets.find? id = none ∧ Stands b u d (following c) ∧
        d.G.ops = c.G.ops.filter fun q => q.2.2 != id) ∧
    (o.wait = true → exec (.netsendResponse id .refuseFull) s = .next { s with outbox := s.outbox ++ [o.packet] }) ∧
    exec (.netsendResponse id .refuseDenied) s = .next (State.endSend s id o fun c => c.fault 0x04) ∧
    (o.wait = false → exec (.netsendResponse id .refuseFull) s = .next (State.endSend s id o fun c => c.fault 0x0B))

/-- 09 R233, R234, R241 to R243; 15 R255; 22 R355, R358: service calls, mailboxes and network sends; in an exit routine they
fault (09 R224). -/
def Obligations.CallsAndMessages : Prop :=
  ServiceCalls ∧ Mailboxes ∧ NetworkSends ∧
  ∀ (s : State) (c : Cx) (f : Sys), Runs s c → c.P.rstate = 1 → ∀ i ∈ [Instr.scall f, .mbsend f, .mbrecv f, .netsend f],
    exec i s = .next (c.fault 0x00)

/-! ### Waits, clauses and selection (02 R39 to R43; 04 R84, R89; 08 R212; 16 R261) -/

/-- The events that end waits of instructions, and the waits and conditions under which each does (08 R212). -/
def waitEnds (s : State) (c : Cx) (w : Wait) : List (Instr × Prop) :=
  let at_ := fun (i : Instr) => c.instr? = some i
  let g := c.g
  let sp := c.sp
  let fn := c.G.fn
  [ (.rendezvousWaitSatisfied g sp, (∃ pt, w = .rendezvous pt) ∧ c.P.wonly = false ∧ ∃ f, at_ (.jwait f) ∧ c.jwaitHolds f = true)
  , (.ringputProceeds g sp, w = .ringPut ∧ ∃ f, at_ (.ringput f) ∧ (c.team.ring (f.imm.toNat % 16)).isFull = false)
  , (.ringtakeProceeds g sp, w = .ringTake ∧ ∃ f, at_ (.ringtake f) ∧ (c.team.ring (f.imm.toNat % 16)).isEmpty = false)
  , (.kwaitSatisfied g sp, w = .kwait ∧ ∃ f, at_ (.kwait f) ∧ c.G.kHolds (f.imm.toNat % 4) (f.imm.toNat / 4 % 64) = true)
  , (.copyQueueRoom g sp, w = .copyRoom ∧ (s.copies.filter fun q => q.2.cluster == c.G.cluster).length < 32)
  , (.matrixQueueRoom g sp, w = .matrixRoom ∧ (s.mats.filter fun q => q.2.pair == c.G.pair).length < 16)
  , (.scallRingRoom g sp, w = .scallRoom ∧ s.srqRoom fn (lanesOf c.P.active).length = true)
  , (.counterStallRelease g sp, ∃ k, w = .counter k ∧ c.G.k k < 63)
  , (.lpnextRecordTaken g sp, w = .lpnext ∧ ∃ r d, c.nextRecord = some (r, d))
  , (.mbsendRoom g sp, w = .mbsend ∧ ∃ f b, at_ (.mbsend f) ∧ c.peek (c.sreg f.dst.sNum) = some b ∧ b.count < b.depth)
  , (.mbrecvMessageTaken g sp, w = .mbrecv ∧ ∃ f b, at_ (.mbrecv f) ∧ c.peek (c.sreg f.a.sNum) = some b ∧ (b.on = false ∨ b.count ≠ 0))
  , (.cpushQueueRoom g sp, w = .cpush ∧ ∃ f x, at_ (.cpush f) ∧ s.slot? fn ((c.sreg f.dst.sNum).field 15 0) = some x ∧
      (x.closed = true ∨ x.count < privSize x.priv))
  , (.cpopRecordTaken g sp, w = .cpop ∧ ∃ f x, at_ (.cpop f) ∧ s.isContinuation fn ((c.src64 f.a).field 15 0) = true ∧
      s.slot? fn ((c.src64 f.a).field 15 0) = some x ∧ (x.closed = true ∨ x.count ≠ 0))
  , (.cjoinRetry g sp, w = .cjoin ∧ ∃ f k x, at_ (.cjoin f) ∧ s.translate fn (c.sreg f.a.sNum).toNat .atomic = .ok k ∧
      s.slot? fn (s.read fn (k.key + 16) 2) = some x ∧ (x.closed = true ∨ x.count < privSize x.priv)) ]

/-- 08 R212; 01 R22; 02 R44: a wait of each kind, once over, ends with nothing of its instruction done: its split issues it next,
or, while another clause of the quarter runs or the partition's checkpoint closes (19 R305), goes on later. -/
def Obligations.WaitsEnd : Prop :=
  ∀ (s : State) (c : Cx) (g sp : Nat) (w : Wait), s.cx? g sp = some c → s.cur = none → c.P.clause.isSome = true →
    c.P.parked = none → c.P.wait = some w → ∀ e ∈ waitEnds s c w, e.2 →
      (s.quarterFree g = true → s.stopped c.G.fn = false → exec e.1 s = .next c.resumed) ∧
      (s.quarterFree g = false ∨ s.stopped c.G.fn = true →
        exec e.1 s = .next ({ c with P := { c.P with wait := none, stalled := true } } : Cx).flush)

/-- 02 R39 to R43, R46; 04 R84, R89; 16 R261: a clause is fetched whole; a word that cannot be fetched faults with its code, and
a defective clause with ILLCLAUSE, code 2; its
waits, which acquire (08 R205, R211), and a hold at a meet, which no split in an exit routine keeps (log 57), end; a quarter then
selects its gang and the gang's lowest ready split, which begins to issue: PC is the header until then (log 41). While
opportunities are halved a quarter skips the one after each it took (24 R370; log 46, DEDUCED, as log 41; log 57 is the model's
choice). -/
def Obligations.ClausesAreEnteredAndSelected : Prop :=
  (∀ (s : State) (c : Cx) (g sp : Nat) (k : Code), s.cx? g sp = some c → s.cur = none → c.G.splits = [(sp, c.P)] →
    c.P.clause = none → c.P.wait = none → c.P.parked = none → c.P.saved = false → c.P.wonly = false → c.P.member ≠ 0 →
    c.fetchHeld c.P.pc = false →
    (∀ code a x, c.fetch c.P.pc = .fault code a x →
      exec (.clauseFetch g sp) s = .next { c.fetched.headerFault code a x with cur := none }) ∧
    (c.fetch c.P.pc = .ok k → clauseDefect k.header k.words = true →
      exec (.clauseFetch g sp) s = .next { c.fetched.headerFault 0x02 0 0 with cur := none }) ∧
    (c.fetch c.P.pc = .ok k → clauseDefect k.header k.words = false → c.G.fresh = false → c.P.closed = false →
      exec (.clauseFetch g sp) s = .next ({ c.fetched with P := { c.P with
        wait := if opcodeOf (k.words.headD 0) = 0x01C ∧ c.P.rstate ≠ 1 then some .held else none
        clause := some { hdr := c.P.pc, header := k.header, words := k.words, pos := 0, stop := k.words.length
                         waited := false, begun := false, desc := k.desc } } } : Cx).flush)) ∧
  (∀ (s : State) (c : Cx) (g sp : Nat) (cl : Clause), s.cx? g sp = some c → s.cur = none → c.P.clause = some cl →
    cl.waited = false → c.P.parked = none → c.headerHolds cl.header = true →
    (∀ q ∈ headerPoints cl.header, (((s.teams.find? c.G.team).getD {}).points.get {} q).expect ≠ 0 ∧ Ours c q) →
    let d := (headerPoints cl.header).foldl Cx.met c
    let k := headerThreshold cl.header 2
    let e := if k = 15 then d else d.covers2 k
    exec (.headerWaitSatisfied g sp) s = .next ({ e with
      G := { e.G with flags := (headerPoints cl.header).foldl (fun m q => Store.set false m q false) c.G.flags }
      P := { e.P with clause := some { cl with waited := true } } } : Cx).flush) ∧
  (∀ (s : State) (c : Cx) (g sp : Nat), s.cx? g sp = some c → s.cur = none → c.P.wait = some .held → c.G.holdEnds sp = true →
    exec (.meetHoldEnd g sp) s = .next c.freed) ∧
  (∀ (s : State) (q : Nat), s.running q = false → s.unsettled q = false → s.halved = true → s.skipped.contains q = false →
    exec (.issueOpportunity q) s = .next { s with turn := s.turn + 1, skipped := s.skipped ++ [q] }) ∧
  (∀ (s : State) (c : Cx) (g sp q : Nat) (cl : Clause), s.cx? g sp = some c → s.cur = none → s.halved = false →
    s.gangs = [(g, c.G)] → c.G.splits = [(sp, c.P)] → c.G.quarterNo = q → c.P.clause = some cl → cl.waited = true → cl.begun = false →
    c.P.wait = none → c.P.parked = none → c.P.saved = false → s.hasLog c.G.fn = false → s.pstat c.G.fn ≠ 2 →
    s.stopped c.G.fn = false →
    (∃ t d, exec (.issueOpportunity q) s = .next t ∧ Runs t d ∧ d.P.pc = c.P.pc + 8 ∧ d.P.clause = some { cl with begun := true } ∧
      SameScalars c d ∧ SameLanes c d ∧ SameBytes s t ∧ d.G.sels = c.G.sels + 1 ∧ d.G.lastSel = s.turn + 1) ∧
    (1024 ≤ c.P.passed → ∃ t d, exec (.splitStarvationBound g sp) s = .next t ∧ Runs t d ∧ d.P.pc = c.P.pc + 8 ∧
      d.P.clause = some { cl with begun := true } ∧ d.P.passed = 0)) ∧
  ∀ (G : Gang) (i : Nat) (P : Split), G.splits.find? i = some P → G.splits.rising = true → P.readyAt = true → P.yieldTo = [] →
    (∀ q ∈ G.splits, q.2.passed < 1024) → (∀ q ∈ G.splits, q.1 < i → q.2.readyAt = false) → G.choose false = some i

/-! ### Engines and results that come later (02 R51; 06 R144 to R149; 07 R163, R165, R172, R175; 08 R199) -/

/-- 02 R51; 07 R163: the data of a load returns for every lane: its registers take it. -/
def LoadsReturn : Prop :=
  ∀ (s : State) (c : Cx) (r : Late), s.cx? c.g c.sp = some c → s.cur = none → c.P.late = [r] →
    ∃ t d, exec (.loadDataReturn c.g c.sp allLanes) s = .next t ∧ t.cx? c.g c.sp = some d ∧
      d.G.v = (applyVs c.G r.vs).v ∧ d.G.p = (applyPs c.G r.ps).p ∧ d.P.s = (applySs c.P r.ss).s ∧ d.P.pc = c.P.pc ∧
      (∀ e ∈ d.P.late, e.vs = [] ∧ e.ss = [] ∧ e.ps = []) ∧ SameBytes s t

/-- An operation of a gang is over: its counter is lowered. -/
def overFor (s : State) (g id : Nat) : Store Gang := Store.update s.gangs g fun G => G.endOp id

/-- 07 R165; 08 R193, R199, R202: a gather, a scatter and a copy complete: what a gather still owes is written, counters are
lowered, and the copy has moved its bytes to where it says; one with a POINT arrives. -/
def CopiesComplete : Prop :=
  (∀ (s : State) (c : Cx) (id : Nat) (o : GatherOp), s.gathers.find? id = some o → (∀ r ∈ s.remotes, r.op ≠ some id) →
    s.cx? o.g o.sp = some c → c.P.wait ≠ some .remote →
    ∃ u d, exec (.gatherComplete id) s = .next u ∧ u.gathers.find? id = none ∧ u.cx? o.g o.sp = some d ∧ d.P.late = [] ∧
      d.G.v = c.settle.G.v ∧ d.G.p = c.settle.G.p ∧ d.P.s = c.settle.P.s ∧ d.P.pc = c.P.pc ∧
      d.G.ops = c.G.ops.filter (fun q => q.2.2 != id) ∧ SameBytes s u) ∧
  (∀ (s : State) (id : Nat) (o : CopyOp), s.copies.find? id = some o → (∀ r ∈ s.remotes, r.op ≠ some id) →
    (∀ m ∈ o.moves, s.moveHeld m = false ∧ isRemote m.dst = false ∧ ∀ tag k, m.src ≠ .wait tag k) →
    let moved := (o.moves.foldl (fun s m => s.performMove o id m) s).install o.fills
    let whole := o.moves.filter fun m => decide (o.kind = .move true) || decide (8 * m.len ≤ m.valid)
    exec (.copyComplete id) s = .next (State.copyDone
      (if o.moves = [] then moved else moved.healPieces (whole.map fun m => (m.dst, m.len))) id o)) ∧
  ∀ (s : State) (id : Nat) (o : CopyOp) (m : Move) (k : Nat), s.copies.find? id = some o → (∀ r ∈ s.remotes, r.op ≠ some id) →
    o.moves = [m] → o.fills = [] → o.kind = .move true → o.point = 31 → m.src = .key k → m.valid = 8 * m.len →
    s.moveHeld m = false → isRemote m.dst = false → isRemote k = false → s.poisoned k m.len = false → PlainMemory s →
    s.savedOffset o k = none → s.savedOffset o m.dst = none →
    NoLog s o.fn → OffAperture m.dst m.len → OffAperture k m.len → OffQueues s o.fn m.dst m.len →
    ∃ u, exec (.copyComplete id) s = .next u ∧ WroteBytes s u m.dst m.len (s.read o.fn k m.len) ∧ u.copies.find? id = none ∧
      u.gangs = overFor s o.g id ∧ u.mmio = s.mmio ∧ u.tiles = s.tiles ∧ u.teams = s.teams

/-- 08 R202: once its bytes have moved, a copy arrives once at its point; that changes no gang's flag. -/
def EngineArrives : Prop :=
  ∀ (s : State) (id : Nat) (o : CopyOp) (T : Team), o.point < 24 → s.teams.find? o.team = some T →
    (T.point o.point).expect ≠ 0 → let t := State.copyDone s id o
    t.teams.find? o.team = some (T.setPoint o.point ((T.point o.point).arrive 1)) ∧
      ∀ g G, s.gangs.find? g = some G → ∃ H, t.gangs.find? g = some H ∧ H.flags = G.flags ∧ H.ap = G.ap

/-- The elements of a tile of a team on a pair. -/
def tileIs (s : State) (o : MatOp) (tile : Nat) (f : Nat → Nat) : Prop :=
  ∀ e, e < 1024 → s.tileElem o.team o.pair tile e = BitVec.ofNat 32 (f e)

/-- What the kinds of operation leave in their tile, from the tiles and the memory before (06 R138 to R142, R146, R147, R149). -/
def retiresTo (s u : State) (o : MatOp) : Prop :=
  let old := fun tile e => (s.tileElem o.team o.pair tile e).toNat
  let tag := fun tile => s.tileTag o.team o.pair tile
  match o.kind with
  | .mma zero t32 ta tb n scl =>
    let fmt := if zero then (if t32 then ETy.t32 else .fp32) else tag o.tile
    tileIs u o o.tile (fun e => (s.products o fmt zero ta tb n scl (old o.tile)).getD e 0) ∧ u.tileTag o.team o.pair o.tile = fmt
  | .azero n t32 => ∀ i, i < n → tileIs u o (o.tile + i) (fun _ => 0) ∧
      u.tileTag o.team o.pair (o.tile + i) = if t32 then .t32 else .fp32
  | .aload t32 => tileIs u o o.tile (fun e => s.rowBits o.fn (o.rowsA.getD (e / 8) ⟨.zero, 0, none, 0, none⟩) / 2 ^ (32 * (e % 8)) % 2 ^ 32) ∧
      u.tileTag o.team o.pair o.tile = if t32 then .t32 else .fp32
  | .acvt src t32 =>
    let fmt := if t32 then ETy.t32 else .fp32
    tileIs u o o.tile (fun e => if tag src = fmt then old src e else convCode fmt (tag src) (old src e)) ∧
      u.tileTag o.team o.pair o.tile = fmt
  | .aadd src => tileIs u o o.tile (fun e => tileAdd (tag o.tile) (tag src) (old o.tile e) (old src e)) ∧
      u.tileTag o.team o.pair o.tile = tag o.tile
  | .astore => ∀ tile, tileIs u o tile (old tile)

/-- 06 R142 to R149: a pair's engine starts an operation once no earlier one names its tiles, and retires it: its tile has its
results, k1 is lowered; of memory only what an astore stores changes. Before that the bricks of its rows are filled. Each byte of a
row is read as it stands or as it stood at some time since the acceptance (06 R145); that they are read at the retirement, in one
step, is the model's (log 9). -/
def MatrixOperationsRetire : Prop :=
  ∀ (s : State) (id : Nat) (o : MatOp), s.mats.find? id = some o →
    ((∀ q ∈ s.mats, q.1 < id → q.2.team = o.team → q.2.pair = o.pair → ∀ t ∈ q.2.tiles, t ∉ o.tiles) →
      exec (.matrixOpStart id) s = .next { s with mats := s.mats.put id { o with started := true } }) ∧
    (o.started = true → (∀ r ∈ s.remotes, r.op ≠ some id) → rowsHere (o.rowsA ++ o.rowsB) →
      (∀ r ∈ o.rowsA ++ o.rowsB, s.rowHeld r = false ∧ s.rowPoisoned r = none) →
      (∀ t ∈ o.readsTiles, tileNumber o.team o.pair t ∉ s.badTiles) →
      let x := if o.kind = .astore then s else s.touchRows o.fn (o.rowsA ++ o.rowsB)
      let y := { x with tick := x.tick + 32 * (o.rowsA.length + o.rowsB.length) }
      let seen := x.seeRows o
      exec (.matrixOpRetire id) s = .next (let t := y.matResult seen id
        { t with mats := t.mats.erase id, gangs := overFor t o.g id }) ∧
      (∀ r ∈ seen.rowsA ++ seen.rowsB, ∀ k, r.src = .key k → ∀ i, i < 32 →
        BitVec.ofNat 8 (x.rowBits o.fn r / 2 ^ (8 * i)) ∈ x.rowByte o.fn o.since (r.access k) i) ∧
      x.tiles = s.tiles ∧ (PlainMemory s → SameBytes s x) ∧
      ((∀ t ∈ o.tiles, t < 64) → o.pair < 512 → (∀ t32, o.kind = .aload t32 → o.rowsA.length = 128) →
        retiresTo y (y.matResult seen id) seen ∧ (o.kind ≠ .astore → SameBytes x (y.matResult seen id))))

/-- 17 R282: the Hod applies one lane's value where it lies, and lowers k3 with the last. -/
def HodApplies : Prop :=
  ∀ (s : State) (id lane k v : Nat) (o : HodOp), s.hods.find? id = some o →
    (o.lanes.find? fun q => q.1 == lane) = some (lane, k, v) → PlainMemory s → NoLog s o.fn →
    OffAperture k (if o.ty.is64 then 8 else 4) → OffQueues s o.fn k (if o.ty.is64 then 8 else 4) →
    let n := if o.ty.is64 then 8 else 4
    let left := o.lanes.filter fun q => q.1 != lane
    ∃ u, exec (.hodUpdateApply id lane) s = .next u ∧ WroteBytes s u k n (updateWord o.ty o.op (s.rawRead k n) v) ∧
      u.mmio = s.mmio ∧
      (left = [] → u.hods.find? id = none ∧ u.gangs = overFor s o.g id) ∧
      (left ≠ [] → u.hods.find? id = some { o with lanes := left } ∧ u.gangs = s.gangs)

/-- 07 R172, R173; 22 R352: the answer to the last lane of a host atomic: performed, the location and the register change and
the split goes on; Unsupported Request, or a completion that never comes, raises ATOMNS, code 12, the latter with the host to
confirm that nothing was performed. -/
def HostAtomicsAnswer : Prop :=
  ∀ (s : State) (c : Cx) (id : Nat) (o : HostOp) (r : HostReq) (n : BitVec 7), s.hostOps.find? id = some o →
    s.cx? o.g o.sp = some c → s.cur = none → c.P.wait = some (.hostAtomic id) → o.open_ = [r] → o.failed = [] →
    (s.fn c.G.fn).ckpt = none → r.lane < 96 → (∀ q ∈ s.remotes, q.g ≠ o.g) →
    (PlainMemory s → NoLog s o.fn → OffAperture r.key o.ty.size → OffQueues s o.fn r.key o.ty.size →
      o.dst = .v n → o.ty.is64 = false → AtLast c → c.G.splits.keys = [o.sp] →
      (o.at_ = .cas → s.read o.fn r.key o.ty.size = r.operand) →
      ∃ u d, exec (.atomicopCompletion id r.lane .accept) s = .next u ∧ u.hostOps.find? id = none ∧
        WroteBytes s u r.key o.ty.size (o.at_.new o.ty (s.read o.fn r.key o.ty.size) r.operand r.newValue) ∧
        u.cur = none ∧ u.cx? o.g o.sp = some d ∧ d.P.wait = none ∧ d.P.clause = none ∧ d.P.pc = following c ∧ SameScalars c d ∧
        WroteLanes c d (maskOf (· == r.lane)) n.toNat false fun _ => extendLoad o.ty false (s.read o.fn r.key o.ty.size)) ∧
    let atomns := fun (unsure : Bool) => State.onKept { s with hostOps := s.hostOps.erase id } o.g o.sp fun c =>
      if c.P.wait = some (.hostAtomic id) then
        ({ c with P := { c.P with wait := none } } : Cx).atomns o.ty o.at_ [(r, 1)] unsure
      else c.s
    exec (.atomicopCompletion id r.lane .unsupported) s = .next (atomns o.unsure) ∧
      exec (.atomicopCompletionTimeout id r.lane) s = .next (atomns true)

/-- 02 R51; 06 R142 to R149; 07 R163, R165, R172, R173; 08 R199, R202; 17 R282: loads, copies, matrix operations, Hod
updates and host atomics complete. -/
def Obligations.EnginesComplete : Prop :=
  LoadsReturn ∧ CopiesComplete ∧ EngineArrives ∧ MatrixOperationsRetire ∧ HodApplies ∧ HostAtomicsAnswer

/-! ### Gangs, teams and launches (04 R92 to R94, R98; 06 R133; 18 R292 to R294, R298, R300) -/

/-- Every gang with a role but `g` of a launch and a die is gone. -/
def LastOf (s : State) (g launch die : Nat) : Prop :=
  ∀ q ∈ s.gangs, q.1 ≠ g → ¬(q.2.launch = launch ∧ q.2.die = die ∧ q.2.role ≠ .none)

/-- A gang at its start: one split with every lane, at `pc`, s1 holding ARGS and every other scalar register 0. -/
structure Starts (G : Gang) (P : Split) (l : Launch) (launch pc lanes : Nat) : Prop where
  splits : G.splits = [(0, P)]
  lanes : ∀ i, i < 96 → G.live.getLsbD i = decide (i < lanes)
  masks : P.member = G.live ∧ P.active = G.live
  pc : P.pc = pc ∧ P.region = pc ∧ P.rstate = 0
  scalars : ∀ n, n < 61 → P.sreg n = if n = 1 then l.args else 0
  owner : G.fn = l.fn ∧ G.launch = launch ∧ G.vregs = l.v

/-- 04 R92, R93: a spawn record joins the open group of its launch and destination on its die, or starts one; 96 records, or
a group that has waited long enough, make a gang. Its split, with nothing left to accept, merges with those that stand with it
(04 R83). -/
def RecordsAreGrouped : Prop :=
  (∀ (s : State) (c : Cx) (r : SpawnRec), s.cx? c.g c.sp = some c → s.cur = none → c.P.spawning = [r] → c.P.member ≠ 0 →
    Store.get 0 s.spawnUsed c.G.die < 3 * 2 ^ 20 → c.G.die ∉ s.draining →
    let open_ := fun (q : Nat × Group) => q.2.die == c.G.die && q.2.launch == r.launch && q.2.dest == r.dest && !q.2.formed
    let free : Gang := { c.G with splits := c.G.splits.put c.sp { c.P with spawning := [] } }
    let then_ := fun (t : State) => exec (.spawnRecordAccept c.g c.sp) s = .next { t with gangs := t.gangs.put c.g (free.regang c.sp) }
    (∀ n x, List.find? open_ s.groups = some (n, x) → then_ { s with
      groups := s.groups.put n { x with recs := x.recs ++ [r], formed := x.recs.length + 1 == 96 } }) ∧
    (List.find? open_ s.groups = none → then_ { s with
      handle := s.handle + 1
      groups := s.groups.put s.handle { die := c.G.die, launch := r.launch, dest := r.dest, recs := [r] } })) ∧
  ∀ (s : State) (n : Nat) (x : Group), s.groups.find? n = some x →
    exec (.chaferIdleTimeout n) s = .next { s with groups := s.groups.put n { x with formed := true } }

/-- 04 R93, R94; 18 R293: Chafer's gang: a lane for each record, in their order, with the record's registers and predicates;
it holds no role and runs at the records' destination. -/
def ChafersGang : Prop :=
  ∀ (s : State) (n : Nat) (x : Group) (l : Launch) (p : Place) (seat : Seat), s.groups.find? n = some x →
    s.launches.find? x.launch = some l → s.groupOpen x l = true → s.placeOk l.chaferWant p = true →
    s.fuse.dieOf p.cluster = x.die → p.seats = [seat] → x.recs.length ≤ 96 → (∀ r ∈ x.recs, (r.regs.map (·.1)).Nodup) →
    ∃ t G P, exec (.chaferFormGang n p) s = .next t ∧ t.gangs.find? (s.handle + 1) = some G ∧
      Starts G P l x.launch x.dest x.recs.length ∧ G.role = .none ∧ G.cluster = p.cluster ∧ G.seat = seat ∧ G.die = x.die ∧
      (∀ i r, x.recs[i]? = some r → (∀ q ∈ r.regs, G.vreg q.1 i = q.2) ∧
        ∀ j, j < 7 → (G.pred (j + 1)).getLsbD i = r.preds.testBit j) ∧
      (∀ h, h ≠ s.handle + 1 → t.gangs.find? h = s.gangs.find? h) ∧ t.mem = s.mem ∧ t.mmio = s.mmio ∧ t.launches = s.launches

/-- 18 R292, R298; 04 R98: a team whose dependences are met takes its place: gang 0 copies, the next nmat gangs are matrix
gangs, each with 96 threads but the last, at START with ARGS in s1. A gang without live lanes or operations ends; the last of
a launch on its die makes gangs of the groups there. A team that ends sets its producer bit. -/
def TeamsAndGangs : Prop :=
  (∀ (s : State) (n team : Nat) (l : Launch) (p : Place), s.launches.find? n = some l → s.launchOpen n l = true →
    team ∈ l.todo → s.placeOk l.want p = true → (s.consumer l team).1 = true →
    (∀ x, s.listed? l.fn l.queue = some x → s.served x = true) →
    ∃ t T, exec (.teamPlacement n team p) s = .next t ∧ t.teams.find? s.handle = some T ∧
      T.fn = l.fn ∧ T.launch = n ∧ T.index = some team ∧ (T.x, T.y, T.z) = l.xyz team ∧ T.cluster = p.cluster ∧
      T.tiles = 8 * l.tq ∧ T.window = l.window ∧ T.colour = p.colour ∧ T.line = p.line ∧
      (∀ i seat, p.seats[i]? = some seat → ∃ G P, t.gangs.find? (s.handle + 1 + i) = some G ∧
        Starts G P l n l.start (min 96 (l.threads - 96 * i)) ∧ G.role = l.role i ∧ G.num = i ∧ G.team = s.handle ∧
        G.cluster = p.cluster ∧ G.seat = seat ∧ G.v = [] ∧ G.p = []) ∧
      t.launches.find? n = some { l with todo := l.todo.filter (· != team), waited := l.waited.erase team } ∧
      (∀ h, h ≤ s.handle ∨ s.handle + p.seats.length < h → t.gangs.find? h = s.gangs.find? h) ∧
      t.mmio = s.mmio ∧ t.tiles = s.tiles ∧ (l.window = 0 → t.mem = s.mem)) ∧
  (∀ (s : State) (n team : Nat) (l : Launch) (p : Place), s.launches.find? n = some l → s.launchOpen n l = true →
    team ∈ l.todo → s.placeOk l.want p = true → (s.consumer l team).1 = false →
    ∃ t, exec (.teamPlacement n team p) s = .next t ∧ t.gangs = s.gangs ∧ t.teams = s.teams) ∧
  (∀ (s : State) (g : Nat) (G : Gang), s.gangs.find? g = some G → G.live = 0 → G.ops = [] →
    (∀ q ∈ G.splits, q.2.spawning = []) → (∀ r ∈ s.remotes, r.g ≠ g) → NoLog s G.fn → s.pstat G.fn ≠ 2 →
    (∃ q ∈ s.gangs, q.1 ≠ g ∧ q.2.team = G.team) →
    ∃ t, exec (.gangEnd g) s = .next t ∧ t.gangs = s.gangs.erase g ∧ t.teams = s.teams ∧ t.mem = s.mem ∧ t.mmio = s.mmio ∧
      (LastOf s g G.launch G.die → G.role ≠ .none → ∀ q ∈ t.groups, q.2.launch = G.launch → q.2.die = G.die → q.2.formed = true)) ∧
  ∀ (s : State) (l : Launch) (team : Nat) (d : List Word) (w : Walked), l.dep = some d → PlainMemory s →
    (s.fn l.fn).ckpt = none →
    let base := (depW d 0).field 47 0
    let p := l.linear (depW d 1) ((depW d 2).field 63 32) team
    base ≠ 0 → p < (depW d 6).field 63 32 → s.translate l.fn (base + 8 * (p / 64)) .write = .ok w → OffAperture w.key 8 →
    WroteBytes s (s.produce l team) w.key 8 (s.read l.fn w.key 8 ||| 2 ^ (p % 64))

/-- 18 R294: a launch that is over has its completion record written, DONE counted, vector 2 raised if the record asks. -/
def LaunchesComplete : Prop :=
  (∀ (s : State) (n : Nat) (l : Launch) (u : State), s.launches.find? n = some l → s.launchOver n l = true → l.wantsDep = false →
    let e := l.ended.getD (0, 0, 0)
    let words := [l.cplVal, BitVec.ofNat 64 (e.1 * 2 ^ 48 + e.2.1 * 2 ^ 40 + l.lid), BitVec.ofNat 64 e.2.2, 0]
    let done := fun (v : State) => exec (.launchCompletion n) s = .next { v with launches := v.launches.erase n }
    (l.cplAddr = 0 → done (s.countDone l.fn l.queue)) ∧
    (l.cplAddr ≠ 0 → l.cplAddr % 32 = 0 → s.deviceWrite l.fn l.cplAddr words = some u →
      (l.cplVal.getLsbD 63 = false → done (u.countDone l.fn l.queue)) ∧
      (l.cplVal.getLsbD 63 = true → done ((u.countDone l.fn l.queue).raiseVector l.fn 2)))) ∧
  (∀ (s : State) (f q : Nat) (x : Slot), s.slot? f q = some x →
    (s.countDone f q).slot? f q = some { x with done := (x.done + 1) % 2 ^ 32 }) ∧
  ∀ (s : State) (f va : Nat) (ws : List Word) (w : Walked), s.translate f va .write = .ok w → PlainMemory s →
    (s.fn f).ckpt = none → OffAperture w.key (8 * ws.length) → ∃ u, s.deviceWrite f va ws = some u ∧
      WroteBytes s u w.key (8 * ws.length) (ofBytes (ws.flatMap fun x => bytesOf 8 x.toNat)) ∧ u.gangs = s.gangs ∧ u.mmio = s.mmio

/-- 04 R92 to R94, R98; 18 R292 to R294, R298: gangs, teams and launches start and end. -/
def Obligations.GangsTeamsAndLaunches : Prop := RecordsAreGrouped ∧ ChafersGang ∧ TeamsAndGangs ∧ LaunchesComplete

/-! ### Queues (18 R286 to R303; 23 R362, R363) -/

/-- A front end comes to the entry at HEAD of queue `q`: it takes records now, and reads these eight words. -/
def AtEntry (s : State) (f q : Nat) (x : Slot) (ws : List Word) : Prop :=
  s.slot? f q = some x ∧ s.takes x = true ∧ s.heldVa f (x.entryAt 64 x.head) = false ∧
    ∃ w, s.translate f (x.entryAt 64 x.head) .read = .ok w ∧ ws = s.entryWords x w.key

def typeOf (ws : List Word) : Nat := (ws.getD 0 0).field 63 56

/-- 18 R290, R291; 18 R303: a notify of a mapped queue writes TAIL; more records than the ring holds stop the queue with 3; a
queue that is not mapped has an entry in the miss table, or while its write-back is not complete its TAIL in the QCB with NPEND,
or under host scheduling its TAIL in the QCB, its number with the host, the oldest of which NTFYQ shows (22 R347; log 43), and
vector 4; a number that names no queue is counted. -/
def Notifies : Prop :=
  ∀ (s : State) (f q : Nat) (v : BitVec 64), s.barOpen f = true → s.fnEnabled f = true →
    let tail := v.toNat % 2 ^ 32
    (s.qcbAt f q = none → exec (.notify f q v) s = .next (s.count f 0xD10)) ∧
    ((s.qcbAt f q).isSome = true → s.hostQueues f = false →
      (∀ x, s.slot? f q = some x →
        (ringCount tail x.head ≤ privSize x.priv → ∃ t, exec (.notify f q v) s = .next t ∧
          t.slot? f q = some { x with tail := tail, idle := 0 } ∧ t.gangs = s.gangs ∧ t.mmio = s.mmio ∧
          ((s.fn f).ckpt = none → t.fns = s.fns) ∧
          ∀ g r, ¬(g = f ∧ r = q) → t.slot? g r = s.slot? g r) ∧
        (privSize x.priv < ringCount tail x.head → exec (.notify f q v) s = .next (s.stopQueue f q 3))) ∧
      (∀ a, s.slot? f q = none → s.unmapping.contains (f, q) = true → s.qcbAt f q = some a →
        exec (.notify f q v) s = .next (((s.covered f q tail).tailInMemory f q tail).setQcb f a 5 0 0 1)) ∧
      (s.slot? f q = none → s.unmapping.contains (f, q) = false → s.misses.length < 512 → ∃ t, exec (.notify f q v) s = .next t ∧
        (⟨s.homeDie f q, f, q, tail⟩ : Miss) ∈ t.misses ∧ t = { s with misses := t.misses, covers := t.covers })) ∧
    ((s.qcbAt f q).isSome = true → s.hostQueues f = true → s.slot? f q = none →
      let t := (s.covered f q tail).tailInMemory f q tail
      exec (.notify f q v) s = .next ((t.setNotifies f ((t.fn f).ntfyq ++ [q])).raiseVector f 4)) ∧
    (s.hostQueues f = true → exec (.mapq f q) s =
      .next ((s.loadQueue f q (s.homeDie f q)).setNotifies f ((s.fn f).ntfyq.erase q))) ∧
    ∀ qs, (s.setNotifies f qs).fn f = { s.fn f with ntfyq := qs } ∧
      (s.setNotifies f qs).freg f 0xA38 = BitVec.ofNat 64 (qs.headD 0xFFFF)

/-- 18 R288, R289, R291: the scheduler serves the oldest miss of its die: TAIL goes to the slot of a queue mapped meanwhile, unless
that has it or a later one, or to the QCB and the queue is mapped, once a slot is free, if its privileged words are those of its
shadow, and is stopped with code 2 if not; one mapped takes the TAIL of a miss that is still in a table. -/
def MissesAreServed : Prop :=
  (∀ (r : State) (die : Nat) (m : Miss), (r.misses.find? fun m => m.die == die) = some m →
    let s : State := { r with unmapping := r.unmapping.filter fun q => r.homeDie q.1 q.2 != die }
    let t : State := { s with misses := s.misses.filter fun x => !(x.die == die && x.fn == m.fn && x.queue == m.queue) }
    let u := t.tailInMemory m.fn m.queue m.tail
    (∀ x, s.slot? m.fn m.queue = some x → exec (.doorbellMissService die) r = .next
      (if ringCount m.tail x.head ≤ x.count then t
       else if privSize x.priv < ringCount m.tail x.head then t.stopQueue m.fn m.queue 3 else t.setTail x m.tail)) ∧
    (s.slot? m.fn m.queue = none →
      (u.startable m.fn m.queue = true → u.freeSlot die = none → exec (.doorbellMissService die) r = .next s) ∧
      (u.startable m.fn m.queue = false ∨ (u.freeSlot die).isSome = true →
        exec (.doorbellMissService die) r = .next (u.loadQueue m.fn m.queue die)))) ∧
  (∀ (s : State) (die : Nat), (s.misses.find? fun m => m.die == die) = none → s.overflow = [] →
    (∀ f q a, s.qcbAt f q = some a → (s.qcbWord a 5).field 0 0 = 0) → exec (.doorbellMissService die) s =
      .next { s with unmapping := s.unmapping.filter fun q => s.homeDie q.1 q.2 != die }) ∧
  ∀ (s : State) (f q die a : Nat), s.slot? f q = none → s.qcbAt f q = some a → (s.qcbWord a 5).field 1 1 = 0 →
    let shadow := (s.reg (0x93000 + 8 * f)).field 47 0 + 32 * q
    let same := s.qcbPriv a = (List.range 4).map (s.qcbWord shadow)
    (¬same → s.loadQueue f q die = s.stopQueue f q 2) ∧
    let tail := ((s.misses.find? fun m => m.fn == f && m.queue == q).map Miss.tail).getD ((s.qcbWord a 4).field 31 0)
    let head := (s.qcbWord a 4).field 63 32
    (same → (s.slots.filter fun x => x.die == die).length < 256 → ringCount tail head ≤ privSize (s.qcbPriv a) →
      (s.loadQueue f q die).slot? f q = some
      { fn := f, queue := q, die := die, priv := s.qcbPriv a, head := head, tail := tail
        others := ((s.waiters.find? fun y => y.is f q).map Slot.others).getD [], done := (s.qcbWord a 6).field 31 0, closed := (s.qcbWord a 5).field 2 2 == 1 })

/-- 23 R360: a word of an entry that has not been written since the first notify that covers it is what it holds; one that has is
what it holds or what it held at a place of the order since that notify. -/
def EntryWords : Prop :=
  ∀ (s : State) (x : Slot) (k i : Nat), i < 8 →
    let at_ := k + 8 * i
    let now := BitVec.ofNat 64 (s.read x.fn at_ 8)
    (s.entryWords x k).length = 8 ∧
    (changesOf at_ 8 (s.coverPlace x) s.order = [] → (s.entryWords x k).getD i 0 = now) ∧
    ((s.entryWords x k).getD i 0 = now ∨ ∃ p ∈ changesOf at_ 8 (s.coverPlace x) s.order, (s.entryWords x k).getD i 0 =
      BitVec.ofNat 64 (ofBytes ((List.range 8).map fun j => (heldAt (at_ + j) p s.order).getD (s.readByte x.fn (at_ + j)))))

/-- 18 R292, R295, R298: entries; the dependence record of a DEP launch is an entry of its own, HEAD moving by 1 (log 42, DEDUCED).
A no-op is consumed; a feed writes its words to gp(g) and following of its front end; a push
appends its record, and waits for room; a launch is taken, drained or refused; a dependence record goes to the launch that
waits for it. A launch puts MODE into effect (18 R303). A malformed entry stops its queue with code 1 and is not consumed. -/
def EntriesAreTaken : Prop :=
  ∀ (s : State) (f q : Nat) (x : Slot) (ws : List Word), AtEntry s f q x ws →
    let w := ws.getD 0 0
    let fe := privFE x.priv
    let u := s.consume x
    (typeOf ws = 0 → s.depWaiter f q = none → exec (.cmdNop f q) s = .next u) ∧
    (typeOf ws = 2 → s.depWaiter f q = none →
      let n := w.field 55 48
      let g := w.field 47 40
      let bad := n = 0 ∨ 7 < n ∨ 64 < g + n ∨ w.field 39 0 ≠ 0 ∨ (ws.drop (n + 1)).any (· != 0) = true
      (bad → exec (.cmdFeed f q) s = .next (s.stopQueue f q 1)) ∧
      (¬bad → ∃ t, exec (.cmdFeed f q) s = .next t ∧ t = { u with gp := t.gp } ∧
        (∀ i, i < n → Store.get 0 t.gp (64 * fe + g + i) = ws.getD (i + 1) 0) ∧
        ∀ k, k < 64 * fe + g ∨ 64 * fe + g + n ≤ k → Store.get 0 t.gp k = Store.get 0 s.gp k)) ∧
    (typeOf ws = 4 → s.depWaiter f q = none → ∀ y, s.slot? f (w.field 15 0) = some y →
      let c := w.field 15 0
      let rec_ := (ws.drop 1).take 4
      let good := s.isContinuation f c = true ∧ sentinel (rec_.headD 0) = false ∧ y.closed = false
      (¬good → exec (.cmdPush f q) s = .next (s.stopQueue f q 1)) ∧
      (good → privSize y.priv ≤ y.count → exec (.cmdPush f q) s = .next s) ∧
      (∀ k, good → y.count < privSize y.priv → s.translate f (y.entryAt 32 y.tail) .write = .ok k →
        exec (.cmdPush f q) s = .next ((s.pushAt y k.key rec_).consume x))) ∧
    (typeOf ws = 1 → s.depWaiter f q = none → w.getLsbD 50 = false →
      let l0 : Launch := { fn := f, queue := q, fe := fe, entry := ws, since := s.order.length
                           gp := (s.gp.filter fun p => p.1 / 64 == fe).map fun p => (p.1 % 64, p.2) }
      let l := { l0 with todo := List.range l0.teamCount }
      let t := { u.modFn f fun y => { y with mode := s.ffield f 0xA28 5 0 } with handle := s.handle + 1 }
      (s.drained f q l.tag x.head = true → exec (.cmdLaunch f q) s = .next (t.complete s.handle l 5 0 0)) ∧
      (s.drained f q l.tag x.head = false → t.refusal l ≠ 0 →
        exec (.cmdLaunch f q) s = .next (t.complete s.handle l (t.refusal l) 0 0)) ∧
      (s.drained f q l.tag x.head = false → t.refusal l = 0 → l.snaps = false →
        exec (.cmdLaunch f q) s = .next { t with launches := t.launches.put s.handle l })) ∧
    (typeOf ws = 3 → ∀ n l, s.depWaiter f q = some (n, l) →
      (depBad ws = true → exec (.cmdDependence f q) s = .next (s.stopQueue f q 1)) ∧
      (depBad ws = false → l.completed = false → exec (.cmdDependence f q) s =
        .next { u with launches := u.launches.put n { l with dep := some ws, wantsDep := false } }))

/-- 18 R300 to R302; log 19: a quantum counts for the teams of its die's queues that could be placed, and leaves every field
of a slot but the weight, which a plug-in of a function keeps between 1 and its cap; the die may ask for a queue again. -/
def QuantaAgeTeams : Prop :=
  ∀ (s : State) (die : Nat), (∀ q ∈ s.launches, q.2.dep = none) → (∀ f q, s.aborted f q = false) → s.qcbWaiting = [] →
    ∃ t, exec (.schedulerQuantum die) s = .next t ∧ t.gangs = s.gangs ∧ t.teams = s.teams ∧ die ∉ t.lapped ∧
    (∀ n l, s.launches.find? n = some l → ∃ w, t.launches.find? n = some { l with waited := w } ∧
      ((s.slot? l.fn l.queue).any (fun x => x.die == die) = false → w = l.waited) ∧
      ((s.slot? l.fn l.queue).any (fun x => x.die == die) = true → ∀ team, w.find? team =
        if team ∈ l.todo ∧ s.launchOpen n l = true ∧ (s.findPlace l.want).isSome = true
        then some ((l.waited.find? team).getD 0 + 1) else none)) ∧
    t.slots.length = s.slots.length ∧
    ∀ (i : Nat) (x : Slot), s.slots[i]? = some x → ∃ y, t.slots[i]? = some y ∧
      y = { x with priv := y.priv, idle := y.idle } ∧
      y.idle = (if x.die ≠ die then x.idle else if x.count = 0 then x.idle + 1 else 0) ∧
      (∀ j, j ≠ 1 → y.priv[j]? = x.priv[j]?) ∧
      (y.priv ≠ x.priv → 1 ≤ privWeight y.priv ∧ privWeight y.priv ≤ max 1 (((s.partRecord x.fn).getD 1 0).field 41 32))

/-- 18 R300: of two queues of a die and priority that both have teams to place, neither places more than the other's WEIGHT
between two placements of the other: a placement counts with every other slot of its die, and starts its own slot's counts
anew; one of higher priority is always served first. -/
def WeightsShareADie : Prop :=
  (∀ (s : State) (x y : Slot), s.served x = true → y ∈ s.runList → y.die = x.die → y.is x.fn x.queue = false → s.slotReady y = true →
    s.prio y ≤ s.prio x ∧ (s.prio y = s.prio x → y.passedBy x < x.weight)) ∧
  ∀ (s : State) (x : Slot) (i : Nat) (y : Slot), s.slots[i]? = some y → y.die = x.die → ∃ z, (s.chargeSlot x).slots[i]? = some z ∧
    z = { y with others := z.others } ∧
    (y.is x.fn x.queue = true → z.others = []) ∧
    (y.is x.fn x.queue = false → z.passedBy x = y.passedBy x + 1 ∧
      ∀ w : Slot, w.is x.fn x.queue = false → z.passedBy w = y.passedBy w)

/-- 18 R301: a die that finds no team to place asks the next one round the ring; a request is answered with the queue that has
most records untaken, which is unmapped and handed over, or goes on; one that comes home waits for the next quantum; a handover
reaches its thief, which maps the queue once a slot is free. -/
def QueuesAreStolen : Prop :=
  ∀ (s : State) (die : Nat), die < 8 →
    (s.findsTeam die = false → die ∉ s.lapped → (∀ m ∈ s.ring, m.2.thief ≠ die) → s.linkRoom ((die + 1) % 8) = true →
      exec (.stealRequest die) s = .next { s with ring := s.ring ++ [((die + 1) % 8, .steal die 0)] }) ∧
    (die ∈ s.lapped ∨ s.findsTeam die = true → exec (.stealRequest die) s = .next s) ∧
    ∀ m, (s.ring.find? fun m => m.1 == die) = some m →
      let rest := s.ring.erase m
      let next := (die + 1) % 8
      (∀ t laps, m.2 = .steal t laps → t ≠ die → s.linkRoom next = true →
        (∀ x, s.victim die t = some x → exec (.stealHandover die) s =
          .next { s.unmap x with ring := rest ++ [(next, .handover t x.fn x.queue)] }) ∧
        (s.victim die t = none → exec (.stealHandover die) s =
          .next { s with ring := rest ++ [(next, .steal t (laps + 1))] })) ∧
      (∀ laps, m.2 = .steal die laps →
        exec (.stealHandover die) s = .next { s with ring := rest, lapped := die :: s.lapped }) ∧
      (∀ f q, m.2 = .handover die f q →
        (s.slot? f q = none → s.startable f q = true → s.freeSlot die = none → exec (.stealHandover die) s = .next s) ∧
        ((s.freeSlot die).isSome = true →
          exec (.stealHandover die) s = .next (({ s with ring := rest } : State).loadQueue f q die))) ∧
      (∀ t f q, m.2 = .handover t f q → t ≠ die → s.linkRoom next = true → exec (.stealHandover die) s =
        .next { s with ring := rest ++ [(next, m.2)] })

/-- 18 R296, R297; 23 R362, R363: LABORT ends the launch of an ID with status 4, a drain those of a tag with status 5, and
what TAIL covers of the tag is discarded when its turn comes; QRESTART clears STOPPED and maps the queue; close and reopen
set CLOSED of a continuation queue. -/
def QueuesAreControlled : Prop :=
  ∀ (s : State) (f q : Nat) (v : BitVec 64),
    (exec (.labort f v) s = .next ((s.launches.filter fun r => r.2.fn == f && r.2.lid == v.toNat && r.2.ended.isNone).foldl
      (fun s r => s.endLaunch r.1 4 0 0) s)) ∧
    (∀ n l, s.launches.find? n = some l → l.ended = none → s.pstat l.fn ≠ 2 → ∀ status code addr, let t := s.endLaunch n status code addr
      t.launches.find? n = some { l with todo := [], ended := some (status, code, addr) } ∧
      (∀ m, m ≠ n → t.launches.find? m = s.launches.find? m) ∧
      (∀ r ∈ t.gangs, r ∈ s.gangs ∧ r.2.launch ≠ n) ∧
      (∀ r ∈ s.gangs, r.2.launch ≠ n → r ∈ t.gangs) ∧ t.mem = s.mem ∧ t.mmio = s.mmio) ∧
    (∀ x, s.slot? f (bitsN v.toNat 15 0) = some x → (s.qcbAt f (bitsN v.toNat 15 0)).isSome = true →
      let mine := fun (l : Launch) =>
        l.fn == f && l.queue == bitsN v.toNat 15 0 && l.tag == bitsN v.toNat 47 32 && l.ended.isNone
      let t := { s.modFn f (fun y => { y with drains := y.drains ++
        [{ queue := bitsN v.toNat 15 0, tag := bitsN v.toNat 47 32, upto := x.tail, since := s.handle, spent := x.tail == x.head }] })
        with handle := s.handle + 1 }
      let u := (t.launches.filter fun r => mine r.2 && r.2.ended.isNone).foldl (fun s r => s.endLaunch r.1 5 0 0) t
      exec (.drain f v) s = .next { u with launches := Store.mapVals u.launches fun n l =>
        if (Store.keep s.launches fun _ l => mine l).keys.contains n then { l with drain := some s.handle } else l }) ∧
    (∀ a, s.qcbAt f q = some a → exec (.qrestart f q) s = .next (
      let t := (s.setQcb f a 5 1 1 0).setQcb f a 5 39 32 0
      if t.hostQueues f then t else t.loadQueue f q (t.homeDie f q))) ∧
    (s.barOpen f = true → s.isContinuation f q = false → exec (.queueClose f q) s = .next (s.count f 0xD10) ∧
      exec (.queueReopen f q) s = .next (s.count f 0xD10)) ∧
    (∀ x, s.barOpen f = true → s.isContinuation f q = true → s.slot? f q = some x → ∃ t u, exec (.queueClose f q) s = .next t ∧
      t.slot? f q = some { x with closed := true } ∧ exec (.queueReopen f q) s = .next u ∧
      u.slot? f q = some { x with closed := false } ∧ t.gangs = s.gangs ∧ u.gangs = s.gangs)

/-- 18 R288 to R303; 22 R347; 23 R360, R362, R363: notifies, misses, entries, quanta, stealing and control of queues. Logs 42 (the
entries of a DEP launch) and 43 (forwarded notifies) are DEDUCED, 19 (a plug-in's weights) and 68 (an entry's words) the model's. -/
def Obligations.QueueEvents : Prop :=
  Notifies ∧ MissesAreServed ∧ EntryWords ∧ EntriesAreTaken ∧ QuantaAgeTeams ∧ WeightsShareADie ∧ QueuesAreStolen ∧ QueuesAreControlled

/-! ### Partitions (09 R221, R225, R228; 19 R305, R309, R310, R313 to R315; 21 R329 to R339) -/

/-- 09 R220, R221, R225: a pre-emption vectors a split that stands at a clause boundary, or waits interruptibly, into the exit
routine of its region: MEMBER active, ACTIVE kept aside, RSTATE 1; one whose region an irrevocable instruction has closed raises
ILLCLAUSE if its next clause opens none; one that only waits for a rendezvous is saved where it is. A gang that overruns its exit bound without a checkpoint ends every launch of its partition. -/
def SplitsAreVectored : Prop :=
  (∀ (s : State) (c : Cx) (k : Code), s.cx? c.g c.sp = some c → s.cur = none → s.pstat c.G.fn = 2 → c.P.saved = false →
    c.P.rstate = 0 → c.G.ops = [] → c.P.member ≠ 0 → c.P.late = [] → c.fetchHeld c.P.pc = false → c.fetchHeld c.P.region = false →
    (c.P.wonly = false → c.P.parked = none → c.P.reachable = true → c.P.closed = true → c.fetch c.P.pc = .ok k →
      k.words.head?.any isMarker = false → exec (.preemptVectorExit c.g c.sp) s =
        .next ((s.onSplit c.g c.sp fun d => d.fetched.headerFault 0x02 0 0).leave c.G.fn)) ∧
    (c.P.wonly = false → c.P.closed = false → c.P.parked = none → c.P.reachable = true → c.fetch c.regionHeader = .ok k →
      k.words.head?.any isMarker = true → descOk c.G.vregs (descAddr c.regionHeader (k.words.headD 0)) k.desc = true →
      ∃ t d, exec (.preemptVectorExit c.g c.sp) s = .next t ∧ t.cx? c.g c.sp = some d ∧ d.P.rstate = 1 ∧
        d.P.pc = descExit k.desc ∧ d.P.region = c.regionHeader ∧ d.P.member = c.P.member ∧ d.P.active = c.P.member ∧
        d.P.savedActive = some c.P.active ∧ d.P.clause = none ∧ d.P.wait = none ∧ d.P.s = c.P.s ∧ SameLanes c d) ∧
    (c.P.wonly = true → (∃ r ∈ s.gangsOf c.G.fn, r.1 ≠ c.g ∧ ∃ q ∈ r.2.splits, q.2.saved = false) →
      ∃ t d, exec (.preemptVectorExit c.g c.sp) s = .next t ∧ t.cx? c.g c.sp = some d ∧
        d.P = { c.P with saved := true } ∧ SameLanes c d)) ∧
  ∀ (s : State) (g sp : Nat) (c : Cx), s.cx? g sp = some c → c.P.rstate = 1 → (∀ q ∈ c.G.splits, q.1 ≠ sp → q.2.rstate ≠ 1) →
    (c.G.splits.map (·.1)).Nodup → s.hasLog c.G.fn = false → s.stopped c.G.fn = false → s.pstat c.G.fn = 2 →
    ∃ t, exec (.exitBoundOverrun g) s = .next t ∧ t.pstat c.G.fn = 0 ∧
      ∀ n l, s.launches.find? n = some l → l.fn = c.G.fn →
        ∃ l', t.launches.find? n = some l' ∧ l'.todo = [] ∧ l'.ended = some (l.ended.getD (3, 0x0D, s.logAddr c.G.fn))

/-- 19 R305: a close that is due takes the partition as it stands, with an empty undo log and the next sequence number, counts in
CKSTAT, and shows in PSTAT; where something of the partition is in progress, its quarters stop until that is over, the mark is
appended then, and the close ends once what waited on it is performed. A periodic one that cannot be made is deferred. -/
def CheckpointsClose : Prop :=
  ∀ (s : State) (f : Nat), s.hasLog f = true →
    ((s.fn f).close = .none → s.closable f = true → s.closeDue f = true → s.closeWaits f = false →
      exec (.checkpointClose f) s = .next (((s.closing f).mark f).closed f)) ∧
    ((s.fn f).close = .none → s.closable f = true → s.closeDue f = true → s.closeWaits f = true →
      exec (.checkpointClose f) s = .next (s.startClose f) ∧ (s.startClose f).stopped f = true ∧
        ((s.startClose f).fn f).close = .waiting) ∧
    ((s.fn f).close = .none → s.closeDue f = false → exec (.checkpointClose f) s = .next s) ∧
    ((s.fn f).close = .waiting → s.closeWaits f = true → exec (.checkpointClose f) s = .next s) ∧
    ((s.fn f).close = .waiting → s.closeWaits f = false →
      exec (.checkpointClose f) s = .next ((s.mark f).modFn f fun x => { x with close := .performing })) ∧
    ((s.fn f).close = .performing → s.joined f = true → exec (.checkpointClose f) s = .next s) ∧
    ((s.fn f).close = .performing → s.joined f = false → exec (.checkpointClose f) s = .next (s.endClose f)) ∧
    (s.ffield f 0xB20 31 0 ≠ 0 → s.closable f = true → s.closeWaits f = false →
      exec (.ckperiodExpiry f) s = .next (((s.closing f).mark f).closed f)) ∧
    (s.ffield f 0xB20 31 0 ≠ 0 → s.closable f = true → s.closeWaits f = true →
      exec (.ckperiodExpiry f) s = .next (s.startClose f)) ∧
    (s.ffield f 0xB20 31 0 ≠ 0 → s.closable f = false → s.stopped f = false →
      exec (.ckperiodExpiry f) s = .next (s.modFn f fun x => { x with ckDue := true })) ∧
    (s.ffield f 0xB20 31 0 = 0 ∨ s.stopped f = true → exec (.ckperiodExpiry f) s = .next s) ∧
    (s.pstat f = 0 → (s.closing f).pstat f = 1 ∧ ((s.closing f).closed f).pstat f = 0) ∧
    ((∀ g sp c, s.cx? g sp = some c → c.P.late = []) → ∃ k, ((s.mark f).fn f).ckpt = some k ∧ k.undo = [] ∧ k.items = [] ∧
      k.seq = (s.fn f).ckSeq + 1 ∧ k.gangs = s.gangsOf f ∧ k.teams = s.teamsOf f ∧
      k.tiles = s.tilesOf (s.teamsOf f) ∧ ((s.mark f).fn f).ckDue = false ∧ (s.mark f).gangs = s.gangs ∧
      (s.mark f).ffield f 0xB40 31 0 = (s.ffield f 0xB40 31 0 + 1) % 2 ^ 32 ∧
      (s.mark f).ffield f 0xB40 63 32 = s.ffield f 0xB40 63 32)

/-- 19 R308, R313 to R315; 09 R228: PREQ asks a running partition to leave, with vector 3; one that holds nothing is saved at once;
with PMODE 1, or where a gang has no save block, it is rolled back, and without a mark its launches end ABORTED.
ROLLDONE finishes a rollback that the host drives: the partition of the mark is saved. PRESUME seats a saved partition where
all of it fits, and waits where it does not; a split saved by an exit routine starts its entry routine. -/
def PartitionsComeAndGo : Prop :=
  (∀ (s : State) (f : Nat), s.tsGroup f = 0 → s.pstat f = 0 → s.stopped f = false →
    ((∃ q ∈ s.gangsOf f, ∃ r ∈ q.2.splits, r.2.saved = false) → (∀ q ∈ s.gangsOf f, q.2.save ≠ 0) → s.ffield f 0xB28 32 32 = 0 →
      ∃ t, exec (.preq f) s = .next t ∧ t.pstat f = 2 ∧ t.gangs = s.gangs ∧ t.teams = s.teams ∧ t.mem = s.mem ∧
        (s.masked f 3 = false → t.messages = s.messages ++ [(f, 3)])) ∧
    (s.gangsOf f = [] → s.ffield f 0xB28 32 32 = 0 →
      ∃ t, exec (.preq f) s = .next t ∧ t.pstat f = 4 ∧ t.gangs = s.gangs ∧ t.mem = s.mem) ∧
    (s.ffield f 0xB28 32 32 = 1 ∨ (∃ q ∈ s.gangsOf f, q.2.save = 0) →
      (s.hasLog f = true → (s.fn f).ckpt.isSome = true → exec (.preq f) s = .next (s.rollback f true)) ∧
      (s.hasLog f = false ∨ (s.fn f).ckpt = none → exec (.preq f) s = .next ((s.endAll f 4 0 0).putAside f {})))) ∧
  (∀ (s : State) (f : Nat) (k : Ckpt), (s.fn f).ckpt = some k → (s.fn f).rolling = true → s.pstat f = 3 →
    (∀ q ∈ k.gangs, ∃ l, s.launches.find? q.2.launch = some l ∧ l.completed = false) →
    ∃ t x, exec (.rolldone f) s = .next t ∧ t.pstat f = 4 ∧ (t.fn f).saved = some x ∧ x.hardware = true ∧ x.gangs = k.gangs ∧
      (t.fn f).rolling = false ∧ (∀ q ∈ t.gangs, q.2.fn ≠ f) ∧ (k.gangs = [] → t.mem = s.mem) ∧
      t.ffield f 0xB40 63 32 = (s.ffield f 0xB40 63 32 + 1) % 2 ^ 32) ∧
  (∀ (s : State) (f : Nat) (ps : List Place), s.pstat f = 4 → s.offTurn f = true →
    exec (.presume f ps) s = .next (s.modFn f fun x => { x with turnedOut := true })) ∧
  (∀ (s : State) (f : Nat) (ps : List Place), s.pstat f = 4 → s.offTurn f = false →
    let x := s.loadSaved f
    (s.restoreTeams f x x.teams ps = none → exec (.presume f ps) s = .next s) ∧
    (s.restoreTeams f x x.teams ps ≠ none → ∃ t, exec (.presume f ps) s = .next t ∧ t.pstat f = 0 ∧ (t.fn f).saved = none)) ∧
  (∀ (s : State) (f tid : Nat) (x : Saved) (t : Team) (p : Place) (l : Launch) (g : Nat) (G : Gang),
    s.launches.find? t.launch = some l → s.placeOk (x.want l.fe f tid t) p = true → x.hardware = true →
    (x.gangs.filter fun q => q.2.team == tid) = [(g, G)] → ∃ u H seat, s.restoreTeam f x tid t p = some u ∧
      p.seats = [seat] ∧ u.gangs.find? g = some H ∧ H.v = G.v ∧ H.p = G.p ∧ H.live = G.live ∧ H.seat = seat ∧
      H.cluster = p.cluster ∧ H.splits = Store.mapVals G.splits (fun _ P => { P with saved := false, stalled := true }) ∧
      u.teams.find? tid = some { t with die := s.fuse.dieOf p.cluster, cluster := p.cluster }) ∧
  ∀ (P : Split) (args : Word),
    (P.restart = true → (∀ n, n < 61 → (P.restored args).sreg n = if n = 1 then args else 0) ∧
      (P.restored args).active = P.member ∧ (P.restored args).clause = none ∧ (P.restored args).wait = none ∧
      (P.restored args).pc = P.pc ∧ (P.restored args).saved = false) ∧
    (P.restart = false → P.restored args = { P with saved := false, restart := false, stalled := true, late := [] })

/-- 21 R335 to R337: a turn ends once its length in quanta has elapsed (0 acts as 1) or the holder is no member any more. The
next member that waits holds the group's clusters then, once the holder is saved; where none waits the holder begins a new turn. -/
def TurnsEnd : Prop :=
  ∀ (s : State) (g : Nat), 1 ≤ g → g ≤ 31 →
    let h := s.holder g
    let ends := h ∉ s.members g ∨ (s.fn h).turnedOut = true ∨
      max 1 ((s.reg (0x42100 + 8 * h)).field 15 0) ≤ Store.get 0 s.turnsUsed g
    (¬ends → exec (.timesliceTurnEnd g) s = .next s) ∧
    (ends → s.nextMember g h = none →
      (h ∈ s.members g ∧ (s.fn h).turnedOut = true → s.pstat h = 4 →
        exec (.timesliceTurnEnd g) s = .next ((s.restore h []).newTurn g)) ∧
      (h ∈ s.members g ∧ (s.fn h).turnedOut = true → s.pstat h ≠ 4 → exec (.timesliceTurnEnd g) s = .next s) ∧
      (h ∉ s.members g ∨ (s.fn h).turnedOut = false → exec (.timesliceTurnEnd g) s = .next (s.newTurn g))) ∧
    (Store.get 0 (s.newTurn g).turnsUsed g = 0 ∧ (s.newTurn g).gangs = s.gangs ∧ (s.newTurn g).mmio = s.mmio) ∧
    ∀ f, ends → s.nextMember g h = some f → f < 97 →
      let held := fun (t : State) => (t.setReg (0x42000 + 8 * g) ((t.reg (0x42000 + 8 * g)).put 31 24 f)).newTurn g
      (h ∉ s.members g ∨ s.pstat h = 4 → s.pstat f ≠ 4 → exec (.timesliceTurnEnd g) s = .next (held s) ∧
        (held s).holder g = f) ∧
      (h ∉ s.members g ∨ s.pstat h = 4 → s.pstat f = 4 → exec (.timesliceTurnEnd g) s = .next ((held s).restore f [])) ∧
      (h ∈ s.members g → s.pstat h ≤ 1 → (s.preempt h).pstat h ≠ 4 → exec (.timesliceTurnEnd g) s =
        .next ((s.preempt h).modFn h fun x => { x with turnedOut := true }))

/-- 21 R331, R332, R335: a commit without a defect takes effect and clears PERR, one with a defect only sets it; one that takes a
holder out of its group leaves HOLDER at 0xFF (log 45), one with EN = 0 disables the function; a front end's
block likewise, and a front end that is enabled anew has its gp registers cleared. -/
def RecordsAreCommitted : Prop :=
  (∀ (s : State) (f : Nat), let r := s.recordRegs f
    (s.commitError f r = 0 → recEn r = true ∨ (f = 0 ∧ recEn (s.partRecord 0) = false) →
      ∃ t, exec (.pcommit f) s = .next t ∧ t.parts.find? f = some r ∧
      t.reg 0x41C08 = 0 ∧ t.gangs = s.gangs ∧ (∀ g, g ≠ f → t.parts.find? g = s.parts.find? g) ∧ t.mem = s.mem ∧
      (recGroup r ≠ s.tsGroup f → s.tsGroup f ≠ 0 → s.holder (s.tsGroup f) = f → t.holder (s.tsGroup f) = 0xFF)) ∧
    (s.commitError f r ≠ 0 → exec (.pcommit f) s = .next (s.setReg 0x41C08 (BitVec.ofNat 64 (s.commitError f r * 2 ^ 8)))) ∧
    (s.commitError f r = 0 → recEn r = false → f ≠ 0 ∨ recEn (s.partRecord f) = true →
      let u := if recGroup r = s.tsGroup f then s.disable f else (s.disable f).vacate (s.tsGroup f) f
      exec (.pcommit f) s = .next (State.setReg { u with parts := u.parts.put f r } 0x41C08 0))) ∧
  ∀ (s : State) (fe : Nat) (v : BitVec 64), fe < 128 →
    let w : Word := BitVec.ofNat 64 (Word.field v 56 49 * 2 ^ 49 + Word.field v 32 1 * 2)
    let off := 0x90000 + 64 * fe
    (v.getLsbD 49 = true → s.frontEndBad fe w = true →
      exec (.frontEndWrite fe v) s = .next (s.setReg 0x41C08 (BitVec.ofNat 64 (6 * 2 ^ 8)))) ∧
    (v.getLsbD 49 = false ∨ s.frontEndBad fe w = false → ∃ t, exec (.frontEndWrite fe v) s = .next t ∧
      t.reg off = w ∧ t.reg 0x41C08 = 0 ∧ t.gangs = s.gangs ∧ t.mem = s.mem ∧
      (v.getLsbD 49 = true → s.feOn fe = false → ∀ n, n < 64 → Store.get 0 t.gp (64 * fe + n) = 0) ∧
      (v.getLsbD 49 = false ∨ s.feOn fe = true → t.gp = s.gp) ∧
      ∀ o, o ≠ off → o ≠ 0x41C08 → t.reg o = s.reg o)

/-- 21 R339, R330: a function that is disabled, or reset at its own level, has no slot, launch, copy or other operation left,
and its registers are at their reset values; its partition record stays, and its bindings (01 R36; log 25).
VF Enable cleared disables every virtual function. -/
def FunctionsAreDisabled : Prop :=
  (∀ (s : State) (f : Nat), f ≤ 96 → ∃ t, exec (.functionLevelReset f) s = .next t ∧
    (1 ≤ f → exec (.functionDisable f) s = .next t) ∧
    (∀ x ∈ t.slots, x.fn ≠ f) ∧ (∀ q ∈ t.launches, q.2.fn ≠ f) ∧ (∀ q ∈ t.copies, q.2.fn ≠ f) ∧ (∀ q ∈ t.mats, q.2.fn ≠ f) ∧
    (∀ q ∈ t.hods, q.2.fn ≠ f) ∧ t.fn f = { mf := (s.fn f).mf, bounds := (s.fn f).bounds, wide := (s.fn f).wide } ∧
    (∀ off, off < 0x40000 → off ≠ 0xF38 → t.freg f off = resetWord (fnBase f + off)) ∧ t.parts = s.parts) ∧
  ∀ (s : State), (s.vfEnable = false → exec .vfEnableClear s = .next s) ∧
    (s.vfEnable = true → s.numVFs = 1 → exec .vfEnableClear s = .next { s.disable 1 with vfEnable := false }) ∧
    ∃ t, exec .vfEnableClear s = .next t ∧ t.vfEnable = false

/-- 00 R9; 16 R266; 18 R303; 21 R329, R330, R338: MODE takes effect at once where no launch runs; reserved bits of a partition
record read 0; a function's space begins with the capability registers. A write to a register without behaviour of its own stores the fields that the writer may write and
keeps the others; a function writes its own space only while that answers, and the physical function's blocks never. -/
def RegistersAreWritten : Prop :=
  ∀ (s : State) (f : Nat) (pf : Bool) (off : Nat) (v : BitVec 64), f ≤ 96 →
    let stored := fun (a : Nat) (fields : List (Nat × Nat)) =>
      s.setReg a (fields.foldl (fun (w : Word) q => w.put q.1 q.2 (Word.field v q.1 q.2)) (s.reg a))
    (off < 0x40000 → pf = true ∨ s.barOpen f = true → off ∉ [0xA28, 0xB00, 0xB08, 0xB10, 0xB18] → off < 0x3E000 ∨ 0x3E080 ≤ off →
      exec (.registerWrite f pf off v) s =
        .next (stored (fnBase f + off) ((fnFields off).1 ++ if pf then (fnFields off).2 else []))) ∧
    (∃ t, exec (.registerWrite f true 0xA28 v) s = .next t ∧ t.ffield f 0xA28 5 0 = Word.field v 5 0 ∧ t.gangs = s.gangs ∧
      (t.fn f).mode = if s.launches.any fun l => l.2.fn == f && !l.2.completed then (s.fn f).mode else Word.field v 5 0) ∧
    (off < 0x40000 → pf = false → s.barOpen f = false → exec (.registerWrite f pf off v) s = .next s) ∧
    (0x40000 ≤ off → off < 2 ^ 32 → pf = false → exec (.registerWrite f pf off v) s = .next s) ∧
    (0x40000 ≤ off → off < 2 ^ 32 → pf = true → off ≠ 0x50000 → off < 0x50100 ∨ 0x501C0 ≤ off →
      exec (.registerWrite f pf off v) s = .next (stored off (pfFields off))) ∧
    (∀ i, i < 97 → 0x40000 + 64 * i ≤ off → off < 0x40040 + 64 * i →
      (off % 64 = 0 → (s.busRead 0 true off).field 62 56 = 0 ∧ (s.busRead 0 true off).field 47 40 = 0) ∧
      (off % 64 = 8 → (s.busRead 0 true off).field 63 42 = 0 ∧ (s.busRead 0 true off).field 31 10 = 0) ∧
      (off % 64 = 48 ∨ off % 64 = 56 → s.busRead 0 true off = 0)) ∧
    (∀ n, n < 64 → pf = true ∨ s.barOpen f = true → s.busRead f pf (8 * n) = BitVec.ofNat 64 (s.fuse.cap n)) ∧
    (fnFields 0xF00 = ([(63, 0)], []) ∧ fnFields 0xC10 = ([(8, 8), (3, 0)], []) ∧ fnFields 0xC00 = ([], [(47, 12)]) ∧
      fnFields 0xC30 = ([], []) ∧ pfFields 0x60000 = [(31, 0)])

/-- 09 R221, R225, R228; 19 R305, R313 to R315; 21 R329 to R339: partitions, their checkpoints, turns, records and registers. The
model's own: function 0 at a reset of its level or a commit with EN 0 (log 23, DESIGN CHOICE), bindings after a disable (log 25,
DEDUCED), HOLDER of a disabled holder (log 45, DEDUCED), PRESUME off its turn (log 45). -/
def Obligations.PartitionEvents : Prop :=
  SplitsAreVectored ∧ CheckpointsClose ∧ PartitionsComeAndGo ∧ TurnsEnd ∧ RecordsAreCommitted ∧ FunctionsAreDisabled ∧
    RegistersAreWritten

/-! ### Caches, format windows and tracked ranges (17 R268 to R278; 22 R340 to R343) -/

/-- 17 R271: a flush of a tensor is in progress until its bricks, and those stored through them, are written back and dropped; another is ignored meanwhile, and so is TID 0. -/
def TensorsAreFlushed : Prop :=
  ∀ (s : State) (f n : Nat), let t := n % 2 ^ 16
    let busy := fun (u : State) => u.ffield f 0x908 16 16
    (t = 0 ∨ busy s = 1 → exec (.tflush f n) s = .next s) ∧
    (t ≠ 0 → busy s ≠ 1 → s.barOpen f = true → ∃ u, exec (.tflush f n) s = .next u ∧ (u.fn f).flush = some t ∧ busy u = 1 ∧ u.bricks = s.bricks ∧
      u.mem = s.mem) ∧
    ((s.fn f).flush = none → exec (.tflushComplete f) s = .next s) ∧
    ∀ t, (s.fn f).flush = some t → (s.bricks.map (·.tag)).Nodup →
      let p := fun (b : Brick) => b.tag.func == f && (b.tag.tid == t || b.tids.contains t)
      ∃ u, exec (.tflushComplete f) s = .next u ∧ (u.fn f).flush = none ∧ busy u = 0 ∧
        u.bricks = s.bricks.filter (fun b => !p b) ∧ ((∀ b ∈ s.bricks, p b = true → b.modified = false) → u.mem = s.mem) ∧
        ∀ b, s.bricks.filter p = [b] → b.modified = true → ∀ w, s.windowAt b.key = some w →
          u.mem = setBytes s.mem (w.store + 96 * ((b.key - w.base) / 128)) (planesOf fun e => (b.data.getD e 0).toNat)

/-- 17 R272, R273: a window's setting is checked: code 1 for alignment, 2 for its format, both before any other; a good one
is being committed until bricks of its ranges are gone, and stands then; a window with EN = 0 is removed so. -/
def WindowsAreCommitted : Prop :=
  (∀ (s : State) (n : Nat) (w : Window), n < 1024 → s.wcommit = none → Window.ofWords (s.windowRegs n) = some w →
    let crooked := w.base % 4096 ≠ 0 ∨ w.size % 4096 ≠ 0 ∨ w.size = 0 ∨ (w.isT6 = true ∧ w.store % 128 ≠ 0) ∨
      (w.twin = true ∧ w.scale % 8 ≠ 0)
    let format := 17 < w.fmt ∨ (w.twin = true ∧ 2 < w.fmt) ∨ (w.sparse = true ∧ w.fmt ≠ 0 ∧ w.fmt ≠ 2)
    let status := fun (e : Nat) => exec (.windowCommit n) s = .next (s.setReg 0x88008 (BitVec.ofNat 64 (e * 2 ^ 8)))
    (crooked → status 1) ∧ (¬crooked → format → status 2) ∧
    (s.windowError n w ≠ 0 → status (s.windowError n w)) ∧
    (s.windowError n w = 0 → ∃ t, exec (.windowCommit n) s = .next t ∧ t.wcommit = some (n, s.windowRegs n) ∧
      (t.reg 0x88008).getLsbD 0 = true ∧ t.windows = s.windows ∧ t.mem = s.mem)) ∧
  (∀ (s : State) (n : Nat), n < 1024 → s.wcommit = none → Window.ofWords (s.windowRegs n) = none →
    ∃ t, exec (.windowRemove n) s = .next t ∧ t.wcommit = some (n, s.windowRegs n) ∧ t.windows = s.windows ∧ t.mem = s.mem) ∧
  ∀ (s : State), (s.wcommit = none → exec .windowCommitComplete s = .next s) ∧
    ∀ n new, s.wcommit = some (n, new) → s.hostWaits = [] → s.coreWaits = [] → s.umWaits = [] →
      ∃ t, exec .windowCommitComplete s = .next t ∧ t.wcommit = none ∧ t.reg 0x88008 = 0 ∧
      t.windows = (if (Window.ofWords new).isSome then s.windows.put n new else s.windows.erase n) ∧
      t.malformed = s.malformed.erase n ∧ (s.bricks = [] → t.mem = s.mem)

/-- 17 R268 to R270, R275, R278, R283: EN of a pinned region is set unless it overlaps another or holds more than 32 MiB of a slice's
homes; a fill takes a place of its slice, which never holds more than 64 MiB of bricks; one of a sparse line takes its kept count
and counts a malformed one; an evicted brick is written back and no longer cached, unless it is pinned or in use. -/
def BricksAndPins : Prop :=
  (∀ (s : State) (n : Nat), n < 64 →
    let r := s.pinRegion n
    let others := s.otherPins n
    let off := 0x89000 + 16 * n
    let bytes := fun i => (((r.2.2.1, r.2.2.2) :: others).map fun q => s.fuse.sliceBytes i q.1 q.2).sum
    let ok := (∀ q ∈ others, rangesMeet (r.2.2.1, r.2.2.2) q = false) ∧ ∀ i, i < 12 → bytes i ≤ 32 * 2 ^ 20
    (r.1 = false → ok → exec (.pinRegionEnable n) s = .next (s.setReg off ((s.reg off).put 63 63 1))) ∧
    (r.1 = false → ¬ok → exec (.pinRegionEnable n) s = .next s) ∧
    ∃ t, exec (.pinRegionDisable n) s = .next t ∧ (t.pinRegion n).1 = false ∧ (t.pinRegion n).2 = r.2 ∧
      ((∀ b ∈ s.bricks, b.modified = true → s.pinned b.tag = false) → t.mem = s.mem ∧ t.bricks = s.bricks)) ∧
  (∀ (s : State) (tag : BrickTag),
    (∀ k, let here := fun (t : State) => (t.llc.filter fun q => t.homeSlice q.2 == s.homeSlice k).length
      here s ≤ llcBricks → here (s.allocate tag k) ≤ llcBricks) ∧
    (∀ k r, s.rowKeys tag = k :: r →
      (s.windows = [] → exec (.brickFill tag) s = .next (s.allocate tag k)) ∧
      (keySpace k = 0 → (s.llc.any fun q => q.1 == tag) = false →
        (s.llc.filter fun q => s.homeSlice q.2 == s.homeSlice k).length < min llcBricks (s.llcShare tag.func).2 →
        s.allocate tag k = { s with llc := s.llc ++ [(tag, k)] }) ∧
      (∀ n w, keySpace k = 0 → s.windowIndex k = some (n, w) → w.sparse = true → s.bricks = [] →
        let count := keptCount w.fmt ((List.range 32).map fun i => s.byte (k + i))
        exec (.brickFill tag) s = .next { s.allocate tag k with
          bricks := [{ tag := tag, key := k, kept := some count }]
          malformed := if count = 63 then Store.set 0 s.malformed n (Store.get 0 s.malformed n + 1) else s.malformed }))) ∧
  (∀ (s : State) (tag : BrickTag) (k : Nat), s.brickAt tag = none → (s.llc.find? fun q => q.1 == tag) = some (tag, k) →
    s.pinned tag = false → s.inUse { tag := tag, key := k } = false →
    exec (.brickEvict tag) s = .next { s with llc := s.llc.filter fun q => q.1 != tag }) ∧
  ∀ (s : State) (tag : BrickTag) (b : Brick), s.brickAt tag = some b → (∀ q ∈ s.llc, q.1 = tag → q.2 = b.key) →
    (s.pinned tag = true ∨ s.inUse b = true → exec (.brickEvict tag) s = .next s) ∧
    (s.pinned tag = false → s.inUse b = false → ∃ t, exec (.brickEvict tag) s = .next t ∧ t.brickAt tag = none ∧
      (∀ x ∈ s.bricks, x.tag ≠ tag → x ∈ t.bricks) ∧ (b.modified = false → t.mem = s.mem) ∧
      ∀ w, b.modified = true → s.windowAt b.key = some w →
        t.mem = setBytes s.mem (w.store + 96 * ((b.key - w.base) / 128)) (planesOf fun e => (b.data.getD e 0).toNat))

/-- 22 R340 to R343, R348: an access of the processor chiplet reads or writes the bytes at its address, whichever agent has cached
them; a read-modify-write is one step; a side's access splits the other side's entries, which stay contested, and an entry of its
own holds a byte nobody else tracks; a range that has been idle is tracked again, unless RTIDLE is 0: the event's n is the page at
4096 n (log 16, DESIGN CHOICE). A snoop of a host line finds no copy that could differ (log 17, DESIGN CHOICE). -/
def ChipletAccesses : Prop :=
  (∀ (s : State) (a : AgentAccess), s.agentOk a = true → (s.reg 0x70000).field 37 37 = 1 → PlainMemory s →
    s.heldKey a.addr.toNat = false → OffAperture a.addr.toNat a.size →
    let k := a.addr.toNat
    let old := s.read 0 k a.size
    let v := a.data.toNat % 2 ^ (8 * a.size)
    ∃ t, exec (.chipletCoreAccess a) s = .next t ∧ t.gangs = s.gangs ∧ t.fns = s.fns ∧
      WroteBytes s t k a.size (match a.op with
        | .load => old
        | .store | .amoswap => v
        | .amoadd => (old + v) % 2 ^ (8 * a.size)
        | .cas e => if old = e.toNat % 2 ^ (8 * a.size) then v else old)) ∧
  ∀ (s : State) (n : Nat) (a : BitVec 48) (port : Nat) (kind : SnoopKind),
    ((s.reg 0x60000).field 31 0 = 0 → exec (.rangeIdleReturn n) s = .next s) ∧
    ((s.reg 0x60000).field 31 0 ≠ 0 →
      exec (.rangeIdleReturn n) s = .next { s with contested := s.contested.filter fun e => e.lo != 4096 * n }) ∧
    exec (.cxlCacheSnoop a port kind) s = .next s ∧
    ∀ (side : Bool) (k : Nat), k < 2 ^ 48 → k < s.fuse.hbmBytes →
      let theirs := s.ranges.filter fun e => e.meets (s.fuse.slice k) k 1 && e.chiplet != side
      let t := s.track side k
      t.contested = s.contested ++ theirs ∧ t.rtSplit = s.rtSplit + theirs.length ∧ (∀ e ∈ theirs, e ∉ t.ranges) ∧
      (s.bricks = [] → t.mem = s.mem) ∧ t.gangs = s.gangs ∧
      (theirs = [] → (s.contested.any fun e => e.meets (s.fuse.slice k) k 1) = false →
        ∃ e ∈ t.ranges, e.meets (s.fuse.slice k) k 1 = true ∧ e.chiplet = side)

/-- 17 R279: on a die with more than 16 banks no two lines of a colour lie in one place, and none lies in a bank of the die's spawn
memory or beyond the 128 lines that a stripe has. -/
def ColourLinesLieApart : Prop :=
  ∀ (f : Fuse) (d i j : Nat), 16 < f.banks.getD d 0 →
    (f.colourBank d i = f.colourBank d j → f.colourBankLine d i = f.colourBankLine d j → i = j) ∧
    f.colourBank d i ∉ f.spawnBanks d ∧ f.colourBank d i < f.banks.getD d 0 ∧
    (i < f.colourLines d → f.colourBankLine d i < 128)

/-- 17 R268 to R279; 22 R340 to R343: bricks, format windows, pinned regions and the processor chiplet. That only bricks which can
differ from memory hold data is log 17 (DESIGN CHOICE), and what names an idle range log 16 (DESIGN CHOICE). -/
def Obligations.CacheEvents : Prop := TensorsAreFlushed ∧ WindowsAreCommitted ∧ BricksAndPins ∧ ChipletAccesses ∧
  ColourLinesLieApart

/-! ### The service of faults (20 R320 to R327; 09 R230, R231, R235, R236; 15 R256) -/

/-- The split of `c` is parked under a token of its function, on its core; no checkpoint holds it too. -/
def ParkedHere (s : State) (c : Cx) (f token : Nat) (p : FaultPark) : Prop :=
  s.parkedAt f token = some (c.g, c.sp, p) ∧ s.cx? c.g c.sp = some c ∧ c.P.parked = some (.fault p) ∧ p.token = token ∧
    c.P.late = [] ∧ (s.fn c.G.fn).ckpt = none

/-- The split goes on from `pc` in `t`, no longer parked, with registers and bytes as they were. -/
def GoesOnAt (s t : State) (c : Cx) (pc : Nat) : Prop :=
  ∃ d, t.cx? c.g c.sp = some d ∧ d.P.parked = none ∧ d.P.wait = none ∧ d.P.pc = pc ∧ SameScalars c d ∧ SameLanes c d ∧
    SameBytes s t

/-- 20 R322; 09 R230: FRESUME. The split a token names runs its instruction again; after a trap or a breakpoint the next one;
after ATOMNS the next one, with the old values that the host wrote in its lanes. A token that names no split is counted, and
FRESUME with END ends the split's launch with the code of the fault. An atomic stands last in its clause (02 R46, R55). -/
def FaultsAreResumed : Prop :=
  (∀ (s : State) (c : Cx) (f : Nat) (token : BitVec 32) (p : FaultPark), ParkedHere s c f token.toNat p → s.barOpen f = true →
    (p.info.code ∉ [0x20, 0x21, 0x0C] → ∃ t, exec (.fresumeResume f token) s = .next t ∧ GoesOnAt s t c c.P.pc) ∧
    (p.info.code = 0x20 ∨ p.info.code = 0x21 →
      (Steady c → ∃ t, exec (.fresumeResume f token) s = .next t ∧ GoesOnAt s t c (c.P.pc + 8)) ∧
      (AtLast c → c.G.splits.keys = [c.sp] → ∃ t, exec (.fresumeResume f token) s = .next t ∧ GoesOnAt s t c (following c))) ∧
    (∀ m n lane old, p.info.code = 0x0C → AtLast c → c.G.splits.keys = [c.sp] → c.atomicForm? = some m → m.data = .v n → m.ty.is64 = false →
      s.extOlds f p = [(lane, old)] → lane < 96 → ∃ t d, exec (.fresumeResume f token) s = .next t ∧ t.cx? c.g c.sp = some d ∧
        d.P.parked = none ∧ d.P.clause = none ∧ d.P.pc = following c ∧ SameScalars c d ∧
        WroteLanes c d (maskOf (· == lane)) n.toNat false fun _ => extendLoad m.ty false (old % 2 ^ (8 * m.ty.size))) ∧
    exec (.fresumeEndLaunch f token) s = .next (s.endLaunch c.G.launch 3 p.info.code p.logAt)) ∧
  ∀ (s : State) (f : Nat) (token : BitVec 32), s.barOpen f = true → s.parkedAt f token.toNat = none →
    exec (.fresumeResume f token) s = .next (s.count f 0xD20) ∧ exec (.fresumeEndLaunch f token) s = .next (s.count f 0xD20)

/-- 20 R322: a split whose fault record waits for room in the queue parks once there is some, its record written. -/
def RecordsAreRetried : Prop :=
  ∀ (s : State) (c : Cx) (f : Nat) (i : FaultInfo), f ≠ 0 → c.G.fn = f → s.cur = none → s.gangs = [(c.g, c.G)] →
    c.G.splits = [(c.sp, c.P)] → s.cx? c.g c.sp = some c → c.P.wait = some (.faultQueue i) → c.P.parked = none →
    exec (.faultQueueRetry f) s = .next { ({ c with P := { c.P with wait := none } } : Cx).takeFault i with cur := none }

/-- 20 R323, R324: what the device services itself. A demand-zero page is the top of the pool, zeroed and mapped with V, R and
W; a host atomic's failed lane is performed on its line; a spawn or a mailbox with room goes on. -/
def FaultsAreServiced : Prop :=
  (∀ (s : State) (c : Cx) (f leaf : Nat) (token : BitVec 32) (p : FaultPark), ParkedHere s c f token.toNat p →
    p.hardware = true → p.info.code = 0x05 → s.demandZero f p.info.addr = some leaf → PlainMemory s →
    let n := s.ffield f 0xC68 31 0
    let page := (s.rawWord (s.ffield f 0xC60 47 0 + 8 * (n - 1))).toNat / 4096 * 4096 % 2 ^ 48
    let q := (s.rawWord leaf).field 11 11
    n ≠ 0 → leaf + 8 ≤ aperture → page + 4096 ≤ aperture → leaf + 8 ≤ page ∨ page + 4096 ≤ leaf →
    ∃ t d, exec (.demandZeroService f token) s = .next t ∧ t.cx? c.g c.sp = some d ∧ d.P.parked = none ∧ d.P.pc = c.P.pc ∧
      t.ffield f 0xC68 31 0 = n - 1 ∧ t.rawWord leaf = BitVec.ofNat 64 (page + q * 2 ^ 11 + 7) ∧
      (∀ g a, page ≤ a → a < page + 4096 → t.readByte g a = 0) ∧
      (∀ g a, ¬(page ≤ a ∧ a < page + 4096) → ¬(leaf ≤ a ∧ a < leaf + 8) → t.readByte g a = s.readByte g a)) ∧
  (∀ (s : State) (c : Cx) (f : Nat) (token : BitVec 32) (p : FaultPark) (m : Mem) (x : List Word),
    ParkedHere s c f token.toNat p → p.hardware = true → p.info.code = 0x0C → c.atomicForm? = some m → p.info.exts = [x] →
    exec (.atomnsDeviceCompletion f token) s = .next (let r := s.performExt f m.ty x
      { r.1 with tick := r.1.tick + 1 }.resumeParked c.g c.sp p.token [(extLane x, r.2)])) ∧
  (∀ (s : State) (f : Nat) (t : ETy) (x : List Word) (w : Walked), s.translate f (x.getD 1 0).toNat .atomic = .ok w →
    PlainMemory s → NoLog s f → OffAperture w.key t.size → OffQueues s f w.key t.size → (x.getD 0 0).field 63 56 ≤ 1 →
    let old := s.read f w.key t.size
    let v := (x.getD 2 0).toNat
    (s.performExt f t x).2 = old ∧ WroteBytes s (s.performExt f t x).1 w.key t.size
      (if (x.getD 0 0).field 63 56 = 0 then combineOp t 0 old v else v)) ∧
  ∀ (s : State) (c : Cx) (f : Nat) (token : BitVec 32) (p : FaultPark), ParkedHere s c f token.toNat p → p.hardware = true →
    p.info.code = 0x0A ∨ p.info.code = 0x0B →
    (c.spaceFreed p.info.code = true → ∃ t, exec (.spaceFreedResume f token) s = .next t ∧ GoesOnAt s t c c.P.pc) ∧
    (c.spaceFreed p.info.code = false → exec (.spaceFreedResume f token) s = .next s)

/-- 20 R320, R325: an invalidation is in progress until every older access has performed; another is ignored meanwhile. QREL
takes pages from an agent's charge, down to 0. -/
def TranslationsAreInvalidated : Prop :=
  ∀ (s : State) (f : Nat) (va : BitVec 64) (size : BitVec 2) (n : BitVec 32) (agent : BitVec 16),
    let busy := fun (t : State) => t.ffield f 0xC40 0 0
    (busy s = 1 → exec (.invalidatePage f va size) s = .next s ∧ exec (.invalidateAll f) s = .next s) ∧
    (busy s ≠ 1 → s.barOpen f = true → ∃ t, exec (.invalidatePage f va size) s = .next t ∧ exec (.invalidateAll f) s = .next t ∧ busy t = 1 ∧
      (t.fn f).inval = some s.handle ∧ t.gangs = s.gangs ∧ t.mem = s.mem) ∧
    (∀ m, (s.fn f).inval = some m →
      (s.performedBefore f m = true → ∃ t, exec (.invalidateComplete f) s = .next t ∧ busy t = 0 ∧ (t.fn f).inval = none) ∧
      (s.performedBefore f m = false → exec (.invalidateComplete f) s = .next s)) ∧
    let e := s.ffield f 0xC50 47 0 + 16 * agent.toNat + 8
    ∃ t, exec (.qrel f n agent) s = .next t ∧
      (t.rawWord e).field 31 0 = (s.rawWord e).field 31 0 - n.toNat ∧ (t.rawWord e).field 63 32 = (s.rawWord e).field 63 32 ∧
      (∀ a, ¬(e ≤ a ∧ a < e + 8) → t.byte a = s.byte a) ∧ t.gangs = s.gangs

/-- 09 R235, R236; 15 R256: a completion record for a lane that waits answers it: when it is the last, the lanes' result
registers hold its words, the predicate whether its status is 0, and the split goes on; SCQCI advances. A record that
answers nothing is counted. A call stands last in its clause (02 R46, R55). -/
def CallsAreAnswered : Prop :=
  ∀ (s : State) (c : Cx) (p : CallPark) (lane key : Nat) (tag : Word) (w : Walked), s.gangs = [(c.g, c.G)] → s.cur = none →
    c.G.splits = [(c.sp, c.P)] → s.cx? c.g c.sp = some c → AtLast c → c.P.saved = false → (s.fn c.G.fn).saved = none →
    (s.fn c.G.fn).ckpt = none →
    let f := c.G.fn
    let ci := s.ffield f 0x820 63 32
    let word : Nat → Word := fun i => BitVec.ofNat 64 (s.read f (key + 8 * i) 8)
    let callid := (word 0).field 31 0
    s.heldVa f ((s.freg f 0x808).toNat + 32 * (ci % 2 ^ (s.ffield f 0x810 7 4 + 6))) = false →
    s.completions f = 1 → s.translate f ((s.freg f 0x808).toNat + 32 * (ci % 2 ^ (s.ffield f 0x810 7 4 + 6))) .read = .ok w →
    w.key = key → lane = (word 0).field 38 32 → lane < 96 → tag = word 1 →
    (c.P.parked = some (.call p) → p.waiting = maskOf (· == lane) → p.answers = [] → p.tags = [(lane, tag)] → p.results ≤ 4 →
      p.callid % 2 ^ 32 = callid → (word 0).field 47 39 = 0 →
      ∃ t d, exec (.scqSlotRetry f) s = .next t ∧ t.cx? c.g c.sp = some d ∧ d.P.parked = none ∧ d.P.clause = none ∧ d.P.pc = following c ∧
        SameScalars c d ∧ t.ffield f 0x820 63 32 = (ci + 1) % 2 ^ 32 ∧
        (∀ j, j < p.results → d.vreg (p.dst + j) lane = BitVec.ofNat 32 (s.read f (key + 16 + 4 * j) 4)) ∧
        (∀ r l, l < 96 → ¬(l = lane ∧ p.dst ≤ r ∧ r < p.dst + p.results) → d.vreg r l = c.vreg r l) ∧
        WrotePredicate c d p.pred (maskOf (· == lane)) fun _ => decide ((word 0).field 63 48 = 0)) ∧
    (c.P.parked = none → ∃ t, exec (.scqSlotRetry f) s = .next t ∧ t.gangs = s.gangs ∧
      t.freg f 0xD18 = s.freg f 0xD18 + 1 ∧ t.ffield f 0x820 63 32 = (ci + 1) % 2 ^ 32)

/-- 15 R256: a write of SCQPI says how far the completer has written, and what it has is consumed. -/
def CompletionsAreTaken : Prop :=
  ∀ (s : State) (f : Nat) (v : BitVec 32),
    (s.barOpen f = true → exec (.scqpiWrite f v) s = exec (.scqSlotRetry f) (s.setFreg f 0x820 ((s.freg f 0x820).put 31 0 v.toNat))) ∧
    (s.gangs = [] → s.completions f = 0 → exec (.scqSlotRetry f) s = .next s)

/-- 20 R327: a corrected error is counted; an uncorrectable one poisons the sector or the line it lies in, or the tile
that an operation is to read (log 61), spoils the undo log, or is logged, with LID 0 and the unit as ELEM (log 44), and rolls its
partition back. -/
def ErrorsAreHandled : Prop :=
  ∀ (s : State) (e : EccError),
    (e.corrected = true → exec (.eccError e) s = .next (s.count e.func 0xD28)) ∧
    (e.corrected = false →
      (e.unit ∈ [5, 7] ∨ (e.unit = 6 ∧ s.tileRead e.func e.key = false) → exec (.eccError e) s = .next
        ((s.logImprecise e.func 0 0x11 e.unit 0).rollbackFor e.func 0x11 (s.logAddr e.func))) ∧
      (e.unit = 6 → s.tileRead e.func e.key = true → ∃ t, exec (.eccError e) s = .next t ∧
        t = { s with badTiles := t.badTiles } ∧ ∀ n, n ∈ t.badTiles ↔ n ∈ s.badTiles ∨ n = e.key) ∧
      (e.unit = 9 → exec (.eccError e) s = .next (s.modFn e.func fun x => { x with logBad := x.ckpt.isSome })) ∧
      (e.unit = 8 → ∃ t, exec (.eccError e) s = .next t ∧ t = { s with poison := t.poison } ∧
        ∀ k, (t.poison.find? k).isSome = true ↔ (s.poison.find? k).isSome = true ∨ 32 * k / 128 = e.key / 128) ∧
      (e.unit ∉ [5, 6, 7, 8, 9] → ∃ t, exec (.eccError e) s = .next t ∧ t = { s with poison := t.poison } ∧
        ((s.poison.find? (e.key / 32)) = none → t.poison.find? (e.key / 32) = some e.unit) ∧
        ∀ k, (t.poison.find? k).isSome = true ↔ (s.poison.find? k).isSome = true ∨ k = e.key / 32))

/-- 20 R320 to R327; 09 R230, R231, R235, R236; 15 R256: faults are serviced and resumed, calls answered, errors handled. DEDUCED:
LID 0 and ELEM of records of units (log 44), an error in a tile that an operation is to read (log 61). -/
def Obligations.FaultService : Prop :=
  FaultsAreResumed ∧ RecordsAreRetried ∧ FaultsAreServiced ∧ TranslationsAreInvalidated ∧ CallsAreAnswered ∧
    CompletionsAreTaken ∧ ErrorsAreHandled

/-! ### Host links, bias and Umermash (22 R345, R349 to R359; 24 R367) -/

/-- 22 R345; 24 R366, R367: a host port that trains is ready, and once both are known or one is absent the regime is fixed; a link that goes
down ends the launches that have requests on it, with PROT. -/
def HostPorts : Prop :=
  ∀ (s : State) (port : Nat) (mode : PortMode), port < 2 → s.failed.contains (38 + port) = false →
    (∃ t, exec (.hostPortTrained port mode) s = .next t ∧ t.ports = s.ports.set port (some mode) ∧ t.mem = s.mem ∧
      (mode ≠ .absent → (t.reg 0x70000).getLsbD (38 + port) = true) ∧
      (mode = .absent → t.reg 0x70000 = s.reg 0x70000) ∧
      ((s.reg 0x70008).field 1 1 = 0 →
        (∀ p ∈ s.ports.set port (some mode), p.isSome = true) ∨ some .absent ∈ s.ports.set port (some mode) →
        (t.reg 0x70008).field 1 1 = 1 ∧ (t.reg 0x70008).field 12 8 = (s.reg 0x70008).field 12 8 ∧
        (t.reg 0x70008).field 0 0 = (!State.biasRegime { s with ports := s.ports.set port (some mode) }).toNat) ∧
      ((s.reg 0x70008).field 1 1 = 1 ∨ (none ∈ s.ports.set port (some mode) ∧ some .absent ∉ s.ports.set port (some mode)) →
        t.reg 0x70008 = s.reg 0x70008)) ∧
    (s.onPort port = [] → s.hostOps = [] → exec (.hostLinkDown port) s = .next s) ∧
    ∀ n l, s.onPort port = [n] → s.hostOps = [] → s.launches.find? n = some l → l.ended = none →
      exec (.hostLinkDown port) s = .next ((s.logImprecise l.fn l.lid 0x04 0 0).endLaunch n 3 0x04 (s.logAddr l.fn))

/-- 22 R349 to R351: BFGO starts a flip of a page to the other bias, or gives the flip of that page its target; when it completes
the page's bit in the bias table is the target, BUSY is clear, vector 5 is raised, and host accesses that waited come again. A
host access to a page in host bias reaches its bytes; the first to a page in device bias starts a flip to host bias and waits. -/
def BiasIsFlipped : Prop :=
  (∀ (s : State) (page : BitVec 36) (dev : Bool),
    (s.hdmPages ≤ page.toNat ∨ (s.reg 0x58020).field 0 0 = 1 → exec (.biasFlip page dev) s = .next s) ∧
    (page.toNat < s.hdmPages → (s.reg 0x58020).field 0 0 ≠ 1 → s.flip = none →
      (s.deviceBias page.toNat = dev → exec (.biasFlip page dev) s = .next (s.raiseVector 0 5)) ∧
      (s.deviceBias page.toNat ≠ dev → ∃ t, exec (.biasFlip page dev) s = .next t ∧ t.flip = some (page.toNat, dev) ∧
        (t.reg 0x58020).field 0 0 = 1 ∧ t.mem = s.mem ∧ t.bricks = s.bricks)) ∧
    (page.toNat < s.hdmPages → (s.reg 0x58020).field 0 0 ≠ 1 → ∀ d, s.flip = some (page.toNat, d) →
      exec (.biasFlip page dev) s = .next (State.setReg { s with flip := some (page.toNat, dev) } 0x58020 1))) ∧
  (∀ (s : State) (page : Nat) (dev : Bool), s.flip = some (page, dev) → s.bricks = [] → s.coreWaits = [] → s.umWaits = [] →
    let at_ := s.biasByte page
    ∃ u : State, u.flip = none ∧ u.hostWaits = [] ∧ u.deviceBias page = dev ∧ (u.reg 0x58020).field 0 0 = 0 ∧
      (s.masked 0 5 = false → (0, 5) ∈ u.messages) ∧ (∀ k, k ≠ at_ → u.byte k = s.byte k) ∧
      (∀ p, p / 8 = page / 8 → p ≠ page → u.deviceBias p = s.deviceBias p) ∧
      (s.hostWaits = [] → exec (.biasFlipComplete page) s = .next u) ∧
      ∀ a, s.hostWaits = [a] → exec (.biasFlipComplete page) s = .next (u.hostAccess a)) ∧
  ∀ (s : State) (a : AgentAccess) (page : Nat), s.hdmPage a.addr.toNat = some page → s.flip = none →
    s.ports.contains (some .cxl) = true → s.agentOk a = true →
    exec (.hostCxlMemAccess a) s = .next (s.hostAccess a) ∧
    (s.deviceBias page = false → s.heldKey a.addr.toNat = false → s.hostAccess a = s.agentAccess a) ∧
    (s.deviceBias page = true → s.hostAccess a =
      { s.setReg 0x58028 (s.reg 0x58028 + 1) with flip := some (page, false), hostWaits := s.hostWaits ++ [a] })

/-- 22 R353, R354: a link that comes up shows its peer; a failed flit and a packet that is never sent are counted; a link that
goes down is not up, and what was in flight goes out again: every outstanding request, and every response remembered (log 45). -/
def UmermashLinks : Prop :=
  ∀ (s : State) (port : Nat) (peer : BitVec 8) (p : Packet), port < 24 →
    let off := 0x50100 + 8 * port
    let counted := s.setReg off ((s.reg off).put 63 32 ((s.reg off).field 63 32 + 1))
    ((s.reg off).field 1 1 = 1 → exec (.umermashLinkUp port peer) s =
      .next (s.setReg off (((s.reg off).put 0 0 1).put 15 8 peer.toNat))) ∧
    ((s.reg off).field 1 1 = 0 → exec (.umermashLinkUp port peer) s = .next s) ∧
    exec (.flitCrcFailure port) s = .next counted ∧
    (9 ≤ p.kind.toNat ∨ 16 < p.len.toNat → exec (.umInvalidPacket port p) s = .next counted) ∧
    (let t := s.setReg off ((s.reg off).put 0 0 0)
     (∀ r ∈ s.remotes, t.reachable r.packet.dpkg.toNat = true) → (∀ q ∈ s.nets, q.2.packet.dpkg.toNat ≠ s.umid → t.reachable q.2.packet.dpkg.toNat = true) →
     (∀ q ∈ s.umSeen, t.reachable q.2.dpkg.toNat = true) → exec (.umermashLinkDown port) s = .next { t with
       outbox := s.outbox ++ (s.remotes.map (·.packet) ++
         (s.nets.map (·.2.packet)).filter (fun q => q.dpkg.toNat != s.umid) ++ s.umSeen.map (·.2)) })

/-- The response to a packet: the same tag, between the same functions the other way round. -/
def answerTo (s : State) (p : Packet) (kind : Nat) (payload : List Word) : Packet :=
  { dpkg := p.spkg, spkg := BitVec.ofNat 8 s.umid, kind := BitVec.ofNat 4 kind, sfunc := p.dfunc, dfunc := p.sfunc
    len := BitVec.ofNat 6 payload.length, tag := p.tag, mbox := 0, addr := 0, payload := payload }

/-- 22 R353 to R358: a packet for another package goes on; one with LEN above 16 is dropped. A read gets its bytes and a write or an
atomic is performed where an export window allows it, and is denied where none does; a message is put in its mailbox or refused.
A request is performed once: sent again, it is answered again as before, or still waits. Of a sender half its tags' number of
answers is remembered, and an atomic's mailbox field names its type and operation (the model's choices, log 21); the lanes of one
location wait for each other (07 R170). -/
def PacketsAreTaken : Prop :=
  ∀ (s : State) (p : Packet), (s.reg 0x70000).getLsbD 40 = true →
    let forms : List (Nat × Instr) := [(0, .umMessage p), (1, .umRead p), (2, .umWrite p), (3, .umAtomic p), (4, .umReadData p),
      (5, .umRefuseDenied p), (6, .umRefuseDenied p), (7, .umRefuseDenied p), (8, .umWriteDone p)]
    let mine := fun (q : Packet × Packet) => q.1.spkg == p.spkg
    let kept := fun (t : State) =>
      let rest := t.umSeen.filter fun q => !(mine q && q.1.tag == p.tag)
      if 2 ^ 23 ≤ (rest.filter mine).length then rest.eraseP mine else rest
    let answered := fun (t : State) kind payload => ({ t with
      outbox := t.outbox ++ [answerTo t p kind payload], umSeen := kept t ++ [(p, answerTo t p kind payload)] } : State)
    let before := s.umSeen.find? fun q => q.1 == p
    let k := p.addr.toNat
    let at_ := fun f => (s.track false k).shareLine f k
    (∀ q ∈ forms, p.kind.toNat = q.1 → 16 < p.len.toNat → exec q.2 s = .next s) ∧
    (p.len.toNat ≤ 16 →
    (∀ q ∈ forms, p.kind.toNat = q.1 → p.dpkg.toNat ≠ s.umid → exec q.2 s = .next { s with outbox := s.outbox ++ [p] }) ∧
    (p.dpkg.toNat = s.umid → ∀ r, before = some r → p.kind.toNat ≤ 3 → ∀ q ∈ forms, p.kind.toNat = q.1 →
      exec q.2 s = .next { s with outbox := s.outbox ++ [r.2] }) ∧
    (p.dpkg.toNat = s.umid → before = none → (s.umWaits ++ s.umParts).contains p = false →
      (p.kind = 1 → (s.exported p (packetBytes p 8) true false = none → exec (.umRead p) s = .next (answered s 7 [])) ∧
        ∀ f, s.exported p (packetBytes p 8) true false = some f → s.heldKey k = false →
          exec (.umRead p) s = .next (answered (at_ f) 4 (wordsOf (packetBytes p 8) ((at_ f).read f k (packetBytes p 8))))) ∧
      (p.kind = 2 → let n := packetBytes p (8 * p.payload.length)
        (s.exported p n false true = none → exec (.umWrite p) s = .next (answered s 7 [])) ∧
        ∀ f, s.exported p n false true = some f → s.heldKey k = false → PlainMemory s → OffAperture k n →
          ∃ t, exec (.umWrite p) s = .next (answered t 8 []) ∧ t.outbox = s.outbox ∧ t.umSeen = s.umSeen ∧ t.gangs = s.gangs ∧
            WroteBytes s t k n (ofBytes (p.payload.flatMap fun w => bytesOf 8 w.toNat))) ∧
      (p.kind = 3 → let n := 2 ^ (p.mbox.toNat % 8)
        let ty := (ETy.ofCode? (p.mbox.toNat / 8 % 32)).getD .b32
        let op := AtOp.ofCode (p.mbox.toNat / 256)
        let old := fun f => s.read f k n
        (s.exported p n true true = none → exec (.umAtomic p) s = .next (answered s 7 [])) ∧
        (∀ f, s.exported p n true true = some f → s.heldKey k = false → 1 < partCount p →
          (s.umParts.filter fun q => partGroup q == partGroup p).length + 1 < partCount p →
          exec (.umAtomic p) s = .next { at_ f with umParts := s.umParts ++ [p] }) ∧
        (∀ f, s.exported p n true true = some f → s.heldKey k = false → partCount p ≤ 1 → PlainMemory s → OffAperture k n → op ≠ .cas →
          ∃ t, exec (.umAtomic p) s = .next (answered t 4 [BitVec.ofNat 64 (old f)]) ∧ t.outbox = s.outbox ∧
            t.umSeen = s.umSeen ∧ t.gangs = s.gangs ∧
            WroteBytes s t k n (packetNew op ty n (old f) (p.payload.getD 0 0).toNat (p.payload.getD 1 0).toNat)) ∧
        ∀ f, s.exported p n true true = some f → s.heldKey k = false → partCount p ≤ 1 → op = .cas →
          (at_ f).read f k n ≠ (p.payload.getD 0 0).toNat % 2 ^ (8 * n) →
          exec (.umAtomic p) s = .next (answered (at_ f) 4 [BitVec.ofNat 64 ((at_ f).read f k n)])) ∧
      (p.kind = 0 → ∀ t,
          (s.receiveNet p.spkg.toNat p.sfunc.toNat p.dfunc.toNat p.mbox.toNat p.payload = (t, .accept) →
            exec (.umMessage p) s = .next (answered (t.raiseVector p.dfunc.toNat 7) 5 [])) ∧
          (s.receiveNet p.spkg.toNat p.sfunc.toNat p.dfunc.toNat p.mbox.toNat p.payload = (t, .refuseFull) →
            exec (.umMessage p) s = .next { t with outbox := t.outbox ++ [answerTo t p 6 []] }) ∧
          (s.receiveNet p.spkg.toNat p.sfunc.toNat p.dfunc.toNat p.mbox.toNat p.payload = (t, .refuseDenied) →
            exec (.umMessage p) s = .next (answered t 7 [])))))

/-- 22 R355, R356: the answer to the device's own request. The one load that a split waits for gets its value and the split
goes on; a write is over with its response, and a rollback that waited for the last of its lines then goes on; a refusal ends the
launch with PROT, a write's with no byte read, but in an exit routine it is XFLT (09 R224); an answer to a message is its sender's. -/
def AnswersArrive : Prop :=
  (∀ (s : State) (c : Cx) (p : Packet) (r : Remote) (n : BitVec 7) (lane : Nat), (s.reg 0x70000).getLsbD 40 = true →
    p.dpkg.toNat = s.umid → p.len.toNat ≤ 16 → s.requestOf p = some r → s.remotes = [r] → s.lineAsks = [] → s.cx? r.g r.sp = some c → s.cur = none →
    p.kind = 4 → r.write = false → r.op = none → c.P.wait = some .remote → Steady c → (s.fn c.G.fn).ckpt = none →
    r.vdst = [96 * n.toNat + lane] → r.sdst = none → r.signed = false → lane < 96 →
    ∃ t d, exec (.umReadData p) s = .next t ∧ t.remotes = [] ∧ t.cx? r.g r.sp = some d ∧ d.P.wait = none ∧
      d.P.pc = c.P.pc + 8 ∧ SameScalars c d ∧ SameBytes s t ∧
      WroteLanes c d (maskOf (· == lane)) n.toNat false fun _ =>
        ofBytes (p.payload.flatMap fun w => bytesOf 8 w.toNat) % 2 ^ (8 * r.size)) ∧
  ∀ (s : State) (p : Packet) (r : Remote), (s.reg 0x70000).getLsbD 40 = true → p.dpkg.toNat = s.umid → p.len.toNat ≤ 16 →
    (s.requestOf p = none → s.nets = [] → (p.kind = 4 → exec (.umReadData p) s = .next s) ∧ (p.kind = 8 → exec (.umWriteDone p) s = .next s) ∧
      (p.kind = 7 → exec (.umRefuseDenied p) s = .next s)) ∧
    (s.requestOf p = some r → r.write = true →
      let t : State := { s with remotes := s.remotes.filter fun q => q.tag != r.tag }
      let f := r.packet.sfunc.toNat
      (r.tag ∉ (s.fn f).undoing → (p.kind = 8 → exec (.umWriteDone p) s = .next t) ∧
        (p.kind = 7 → s.exitIssuer r = none → s.launchKept r.g ≠ 0 →
          exec (.umRefuseDenied p) s = .next (t.refused f (s.launchKept r.g) r.va))) ∧
      (∀ c, p.kind = 7 → s.exitIssuer r = some c →
        exec (.umRefuseDenied p) s = .next (t.onSplit r.g r.sp fun c => c.takeFault { c.faultAt 0x04 with addr := r.va })) ∧
      ((s.fn f).undoing = [r.tag] → ∀ k, (s.fn f).ckpt = some k → p.kind = 8 → exec (.umWriteDone p) s =
        .next ((t.modFn f fun x => { x with undoing := [] }).finishRollback f k))) ∧
    ∀ id o, p.kind = 5 ∨ p.kind = 6 →
      List.find? (fun (q : Nat × NetOp) => q.2.packet.tag == p.tag && q.2.packet.dpkg == p.spkg) s.nets = some (id, o) →
      exec (.umRefuseDenied p) s = .next (s.netAnswer id o (if p.kind = 5 then .accept else .refuseFull))

/-- 22 R345, R349 to R358; 24 R367: host ports, bias flips and Umermash. Which launches a port's link ends and what a Umermash link
sends again are log 45 (DEDUCED); what of a request is remembered and an atomic packet's mailbox field log 21 (DESIGN CHOICE). -/
def Obligations.FabricEvents : Prop := HostPorts ∧ BiasIsFlipped ∧ UmermashLinks ∧ PacketsAreTaken ∧ AnswersArrive

/-! ### The platform (24 R365 to R377) -/

/-- 24 R365 to R368, R377: after a cold reset nothing runs and no unit is ready; the package's memory reads 0 (the model's
choice, log 1); fuses, the fused counter's value at least, the
controller's log and the host's memory stay; a warm reset keeps the stacks' training too. A unit that comes up sets its bit;
the first that fails is reported, and each is logged. -/
def ResetsAndBringUp : Prop :=
  (∀ (s : State) (pkgs : BitVec 3) (split : Bool), s.staged = [] → s.loaded = [] → ∃ t u,
    exec (.coldReset pkgs split) s = .next t ∧ exec (.warmReset pkgs split) s = .next u ∧ t.gangs = [] ∧ t.launches = [] ∧
    t.cur = none ∧ t.fuse = s.fuse ∧ t.fwCounter = s.fwCounter ∧ t.bmcLog = s.bmcLog ∧ t.parts = [] ∧
    (t.reg 0x70008).field 10 8 = pkgs.toNat ∧ (t.reg 0x70008).field 12 12 = split.toNat ∧
    (∀ a, a ≠ 0x70008 → t.reg a = resetWord a) ∧
    (∀ k, keySpace k = 1 ∨ keySpace k = 2 → t.byte k = s.byte k) ∧ (∀ k, keySpace k ≠ 1 → keySpace k ≠ 2 → t.byte k = 0) ∧
    (u.reg 0x70000).field 11 0 = (s.reg 0x70000).field 11 0 ∧ (u.reg 0x70000).field 63 12 = 0 ∧ u = { t with mmio := u.mmio }) ∧
  (∀ (s : State) (bit : Nat), (bit ≤ 37 ∧ bit ≠ 36) ∨ bit = 40 → s.hostWaits = [] → s.coreWaits = [] → s.umWaits = [] →
    (s.failed.contains bit = false → exec (.unitReady bit) s = .next (s.setReg 0x70000 ((s.reg 0x70000).put bit bit 1))) ∧
    (s.failed.contains bit = true → exec (.unitReady bit) s = .next s)) ∧
  (∀ (s : State) (unit code : BitVec 8), unit.toNat < 24 → (s.reg 0x70000).getLsbD unit.toNat = false →
    s.failed.contains unit.toNat = false → ∃ t, exec (.unitBringupFailure unit code) s = .next t ∧
      t.failed = s.failed ++ [unit.toNat] ∧ t.bmcLog = s.bmcLog ++ [(unit.toNat, code.toNat)] ∧ t.mem = s.mem ∧
      ((s.reg 0x70010).field 7 0 = 0 → (t.reg 0x70010).field 63 56 = unit.toNat ∧
        (t.reg 0x70010).field 7 0 = code.toNat) ∧
      ((s.reg 0x70010).field 7 0 ≠ 0 → t.reg 0x70010 = s.reg 0x70010)) ∧
  ∀ (s : State) (i : FwImage), exec (.firmwareStaging i) s =
    .next (if i.stage < 6 then { s with staged := s.staged ++ [i] } else s)

/-- 24 R369 to R372: above the limit in two windows the clock goes down by 25 MHz, not below 300; below 95 % of it, up, not
above 1200; above ILIM every second opportunity is skipped until the current is below it. PLIM is held within PLIMCAP. A die
at 105 °C runs at the floor until 100 °C, a stack at 85 °C refreshes twice as often; at 115 °C everything is lost but the
fuses and the controller's log, and the package's memory reads 0 (the model's choice, log 1), and the step that is listed by nobody
is the cold reset (log 80); a unit at TWARN warns. Two windows and the 1200 MHz cap are log 46. -/
def PowerAndHeat : Prop :=
  ∀ (s : State) (u : Nat) (watts plim : BitVec 14) (amps : BitVec 15) (v : BitVec 64) (temp : BitVec 16),
    let limit := min ((s.reg 0x71000).field 13 0) ((s.reg 0x71008).field 13 0)
    let low := limit < (s.reg 0x71020).field 13 0 ∧ limit < watts.toNat ∧ 300 < s.clock
    let high := 100 * watts.toNat < 95 * limit ∧ s.clock < 1200
    (∃ t, exec (.powerWindowEnd watts) s = .next t ∧ t.reg 0x71020 = BitVec.ofNat 64 watts.toNat ∧ t.mem = s.mem ∧
      t.gangs = s.gangs ∧ (low → t.clock = max 300 (s.clock - 25)) ∧ (¬low → high → t.clock = min 1200 (s.clock + 25)) ∧
      (¬low → ¬high → t.clock = s.clock) ∧ (low ∨ high → ∀ d, d < 8 → t.reg (0x71040 + 8 * d) =
        BitVec.ofNat 64 (if s.hot.contains d then 300 else t.clock))) ∧
    (∃ t, exec (.currentLimitExceeded amps) s = .next t ∧ t.reg 0x71028 = BitVec.ofNat 64 amps.toNat ∧
      t.halved = (s.halved || decide ((s.reg 0x71018).field 14 0 < amps.toNat)) ∧ t.gangs = s.gangs) ∧
    (∃ t, exec (.currentBelowIlim amps) s = .next t ∧ t.reg 0x71028 = BitVec.ofNat 64 amps.toNat ∧
      t.halved = (s.halved && !decide (amps.toNat < (s.reg 0x71018).field 14 0)) ∧ t.gangs = s.gangs) ∧
    exec (.plimWrite v) s =
      .next (s.setReg 0x71000 (BitVec.ofNat 64 (min (Word.field v 13 0) (min ((s.reg 0x71008).field 13 0) 10000)))) ∧
    exec (.ilimWrite v) s = .next (s.setReg 0x71018 (BitVec.ofNat 64 (min (Word.field v 14 0) 20000))) ∧
    exec (.plimcapWrite plim) s = .next (s.setReg 0x71008 (BitVec.ofNat 64 plim.toNat)) ∧
    (u < 12 → (8 * 105 ≤ temp.toInt → s.hot.contains u = false → ∃ t, exec (.dieOvertemp u temp) s = .next t ∧
        t.hot = s.hot ++ [u] ∧ t.reg (0x72000 + 8 * u) = BitVec.ofNat 64 temp.toNat ∧
        (u < 8 → 300 < s.clock → t.reg (0x71040 + 8 * u) = 300)) ∧
      (temp.toInt < 8 * 105 → exec (.dieOvertemp u temp) s = .next (s.setReg (0x72000 + 8 * u) (BitVec.ofNat 64 temp.toNat))) ∧
      (temp.toInt ≤ 8 * 100 → ∃ t, exec (.dieTemperatureRecovered u temp) s = .next t ∧ t.hot = s.hot.filter (· != u) ∧
        (u < 8 → t.reg (0x71040 + 8 * u) = BitVec.ofNat 64 s.clock))) ∧
    (12 ≤ u → u < 24 → ∃ t, exec (.hbmOvertemp u temp) s = .next t ∧
      (u ∈ t.hot ↔ 8 * 85 ≤ temp.toInt) ∧ ∀ w, w ≠ u → (w ∈ t.hot ↔ w ∈ s.hot)) ∧
    (u < 25 → (8 * 115 ≤ temp.toInt → ∃ t, exec (.thermalTrip u temp) s = .next t ∧ t.gangs = [] ∧ t.mmio = [] ∧ t.parts = [] ∧
        t.fuse = s.fuse ∧ t.fwCounter = s.fwCounter ∧ t.bmcLog = s.bmcLog ++ [(u, 0)] ∧ (∃ q, t.tripped = some q) ∧
        ∀ k, keySpace k ≠ 1 → keySpace k ≠ 2 → t.byte k = 0) ∧
      (temp.toInt < 8 * 115 → exec (.thermalTrip u temp) s = .next s) ∧
      ∃ t, exec (.twarnCrossed u temp) s = .next t ∧ t.warned = (if 8 * ((s.reg 0x72100).field 7 0 : Int) ≤ temp.toInt
        then s.warned ++ [u] else s.warned) ∧ t.reg (0x72000 + 8 * u) = BitVec.ofNat 64 temp.toNat) ∧
    ∀ pkgs split, s.tripped = some (pkgs, split) → s.agenda = [] → s.cur = none →
      ∃ t, exec (.coldReset pkgs split) s = .next t ∧ step s = .next { t with turn := t.turn + 1 }

/-- 24 R373 to R376: an extension of M6, M7 or a function's MF hashes the old value and the digest; a report is asked for, where
the host relays the request with vector 6 first, and when it is done the function's buffer holds the 512 signed bytes and the
signature, and the status says so. A register that an extend has changed since reads in the report as it is or as it was. An image
whose key is not the fused one's or whose signature does not verify, or that is older than the fused counter, is refused; with no
first stage running, no image that it verifies is measured. -/
def MeasurementsAndReports : Prop :=
  (∀ (s : State) (d : BitVec 384) (f : Nat),
    let ext := fun (m : BitVec 384) => Sha.sha384 (Sha.digestBytes m ++ Sha.digestBytes d)
    (∀ i, i = 6 ∨ i = 7 → ∃ t, exec (.measurementExtend i d) s = .next t ∧ Store.get 0 t.meas i = ext (Store.get 0 s.meas i) ∧
      (∀ j, j ≠ i → Store.get 0 t.meas j = Store.get 0 s.meas j) ∧ t = { s with meas := t.meas, fns := t.fns } ∧
      ∀ g, t.fn g = { s.fn g with extended :=
        if (s.fn g).attesting = true then (s.fn g).extended ++ [(i, Store.get 0 s.meas i)] else (s.fn g).extended }) ∧
    (f ≤ 96 → ∃ t, exec (.measurementExtend (8 + f) d) s = .next t ∧ (t.fn f).mf = ext (s.fn f).mf ∧ t.meas = s.meas ∧
      (t.fn f).extended =
        if (s.fn f).attesting = true then (s.fn f).extended ++ [(8 + f, (s.fn f).mf)] else (s.fn f).extended) ∧
    (∀ i, i < 6 → exec (.measurementExtend i d) s = .next s)) ∧
  (∀ (s : State) (f : Nat),
    (s.ffield f 0xF38 0 0 = 1 → exec (.attestGo f) s = .next s) ∧
    (s.ffield f 0xF38 0 0 ≠ 1 → s.barOpen f = true → (s.fn f).mode / 16 % 2 = 0 ∨ (s.fn f).attestAsked = true →
      ∃ t, exec (.attestGo f) s = .next t ∧ t.ffield f 0xF38 0 0 = 1 ∧ (t.fn f).attesting = true ∧
      (t.fn f).attestAsked = false ∧ (t.fn f).extended = [] ∧ t.messages = s.messages) ∧
    (s.ffield f 0xF38 0 0 ≠ 1 → s.barOpen f = true → (s.fn f).mode / 16 % 2 = 1 → (s.fn f).attestAsked = false →
      exec (.attestGo f) s = .next ((s.modFn f fun x => { x with attestAsked := true }).raiseVector f 6)) ∧
    (∀ i m, let olds := ((s.fn f).extended.filter fun q => q.1 == i).map (·.2)
      (olds = [] → s.reported f i m = m) ∧ (s.reported f i m = m ∨ s.reported f i m ∈ olds)) ∧
    ((s.fn f).attesting = true → s.heldVa f (s.ffield f 0xF30 47 10 * 1024) = false →
      (∀ code, s.translate f (s.ffield f 0xF30 47 10 * 1024) .write = .fault code →
        ∃ t, exec (.attestDone f) s = .next t ∧ t.freg f 0xF38 = 256 ∧ (t.fn f).attesting = false ∧ t.mem = s.mem) ∧
      ∀ w, s.translate f (s.ffield f 0xF30 47 10 * 1024) .write = .ok w → PlainMemory s →
        NoLog s f → OffQueues s f w.key 608 → OffAperture w.key 608 → ∃ t, exec (.attestDone f) s = .next t ∧ t.freg f 0xF38 = 2 ∧ (t.fn f).attesting = false ∧
          (∀ g a, a < 512 → t.readByte g (w.key + a) = (s.reportBody f).getD a 0) ∧
          ∀ g a, a < w.key ∨ w.key + 608 ≤ a → t.readByte g a = s.readByte g a)) ∧
  (∀ (x y d r s : Nat), Ecdsa.valid x y d r s = true → 0 < r ∧ r < Ecdsa.order ∧ 0 < s ∧ s < Ecdsa.order ∧
    (y * y + 3 * x) % Ecdsa.prime = (x * x * x + Ecdsa.coeff) % Ecdsa.prime) ∧
  ∀ (s : State) (i : FwImage),
    (imageSigned i s.fuse.vendor = true ↔ Sha.sha384 (Sha.beBytes 96 i.key.toNat) = s.fuse.vendor ∧
      Ecdsa.valid (i.key.toNat / 2 ^ 384) (i.key.toNat % 2 ^ 384) i.digest.toNat i.r.toNat i.s.toNat = true) ∧
    s.imageError i = (if imageSigned i s.fuse.vendor = false then 2 else if i.version.toNat < s.fwCounter then 3 else 0) ∧
    (i.stage = 0 ∨ i.stage = 5 → s.imageError i = 0 →
      (s.loadFirmware [i]).fwCounter = i.version.toNat ∧
      Store.get 0 (s.loadFirmware [i]).meas i.stage =
        Sha.sha384 (Sha.digestBytes (Store.get 0 s.meas i.stage) ++ Sha.digestBytes i.digest)) ∧
    ∀ j : FwImage, 1 ≤ j.stage → j.stage ≤ 4 →
      (∀ is, is = [j] ∨ (i.stage = 0 ∧ s.imageError i ≠ 0 ∧ is = [i, j]) →
        (s.loadFirmware is).fwCounter = s.fwCounter ∧ (s.loadFirmware is).meas = s.meas) ∧
      (i.stage = 0 → s.imageError i = 0 → s.imageError j = 0 →
        (s.loadFirmware [i, j]).fwCounter = max i.version.toNat j.version.toNat ∧
        Store.get 0 (s.loadFirmware [i, j]).meas j.stage =
          Sha.sha384 (Sha.digestBytes (Store.get 0 s.meas j.stage) ++ Sha.digestBytes j.digest))

/-- 24 R365 to R377: resets, bring-up, power, heat, measurements and reports. DEDUCED: two windows, the 1200 MHz cap, index 8 + f
and what a refused first stage stops (log 46); the model's: memory that reads 0 (log 1), the images loaded (log 28), the step after
a trip (log 80). SHA-384 and ECDSA are PRESUMED (logs 15, 79). -/
def Obligations.PlatformEvents : Prop := ResetsAndBringUp ∧ PowerAndHeat ∧ MeasurementsAndReports

/-! ### Reset, memory, steps and encodings -/

/-- 24 R365 to R372; 17 R273; 18 R285; 21 R329 to R332, R335; 22 R346: what reset leaves, as the registers' own tables state; that
VF Enable is 0 then and only function 0 counts as enabled is the model's choice (log 2). -/
def Obligations.ResetState : Prop :=
  let s := State.reset
  s.gangs = [] ∧ s.teams = [] ∧ s.launches = [] ∧ s.slots = [] ∧ s.windows = [] ∧ s.parts = [] ∧ s.vfEnable = false ∧
    s.reg 0x70000 = 0 ∧ s.reg 0x71000 = 10000 ∧ s.reg 0x71008 = 10000 ∧ s.reg 0x71010 = 1000 ∧ s.reg 0x71018 = 20000 ∧
    s.reg 0x72100 = 95 ∧ s.reg 0x60000 = 65536 ∧ s.reg 0x92000 = 131072 ∧ (∀ d, d < 8 → s.reg (0x71040 + 8 * d) = 1200) ∧
    (∀ fe, fe < 128 → s.feOn fe = false ∧ ∀ n, n < 64 → Store.get 0 s.gp (64 * fe + n) = 0) ∧
    (∀ f, f ≤ 96 → s.pstat f = 0 ∧ s.freg f 0xB28 = 0x100004 ∧ s.freg f 0xC00 = 0 ∧ s.freg f 0xC18 = 0 ∧ s.fnEnabled f = (f == 0))

/-- The memory after reset lists nothing, is in the canonical form, and every byte of it reads as an unlisted one (the
model's choice, log 1). -/
def Obligations.ResetMemoryIsCanonical : Prop :=
  Memory.wf State.reset.mem = true ∧ ∀ k, State.reset.byte k = Memory.unlisted

/-- No step leaves memory in a form that lists an address twice, out of order, or at the value of an unlisted byte: memories
that read alike are equal. -/
def Obligations.StepsKeepMemoryCanonical : Prop :=
  (∀ s t : State, Memory.wf s.mem = true → step s = .next t → Memory.wf t.mem = true) ∧
  ∀ m n : List Host.Cell, Memory.wf m = true → Memory.wf n = true →
    (∀ k, Store.get Memory.unlisted m k = Store.get Memory.unlisted n k) → m = n

/-- 16 R259; 24 R373: what manufacture fixed is fixed for good, and the fused security counter never goes down. -/
def Obligations.StepsKeepFuses : Prop :=
  ∀ s t : State, step s = .next t → t.fuse = s.fuse ∧ s.fwCounter ≤ t.fwCounter

/-- 02 R40, R44, R49: one step is the event listed first (log 7); else the next word of the running split's clause, decoded; a
word of an assigned opcode that does not decode raises ILLOP, but a memory form without lanes does nothing (07 R161); with no
split running, the default order (log 7). A placed word is fetched next (log 8). What the step writes of a function with a
checkpoint is logged first, and a step that writes held bytes is not taken yet (19 R306 to R308; log 59): without either the step
is the instruction's effect itself. -/
def Obligations.StepRunsTheDecodedInstruction : Prop :=
  (∀ (s t u : State) (i : Instr) (r : List Instr), s.agenda = i :: r → exec i { s with agenda := r } = .next t →
    State.lands { s with agenda := r } t = some u → step s = .next u) ∧
  (∀ (s : State) (c : Cx) (cl : Clause), s.agenda = [] → Runs s c → c.P.clause = some cl →
    let w := cl.words.getD cl.pos 0
    (∀ i, decode w = some i → step s = s.after (exec i s)) ∧
    (decode w = none → opcodeOf w < 0x0D0 ∨ 0x0E8 < opcodeOf w → step s = s.after (.next c.illop))) ∧
  (∀ s : State, s.agenda = [] → s.cur = none → step s = .next s.idle) ∧
  (∀ (s : State) (w : BitVec 64) (i : Instr), decode w = some i →
    let x := s.withFetchWord 64 w.toNat
    step x = x.after (exec i x)) ∧
  ∀ s t : State, t.logged = [] → s.writesHeld t = false → s.lands t = some t ∧ s.after (.next t) = .next t

/-- 02 R47 to R56: decoding what a well-formed instruction encodes to gives it back, with every field at every value that is
well formed; a word that decodes has that one encoding, so no bit of it is dropped; an unassigned opcode is itself. -/
def Obligations.DecodeAndEncodeAgree : Prop :=
  (∀ i : Instr, i.opcode?.isSome = true → i.wf = true → decode (encode i) = some i) ∧
  (∀ (w : BitVec 64) (i : Instr), decode w = some i → i.wf = true ∧ encode i = w) ∧
  ∀ w : BitVec 64, opcodeClass (opcodeOf w) = none → decode w = some (.unassignedOpcode w)

/-- 02 R47, R48, R55: words written out from the fields of their formats, one of each format. -/
def Obligations.WordsDecode : Prop :=
  let c0 : Ctl := ⟨0, false, 0, false⟩
  [ (0x04C0004000000003, Instr.bra ⟨c0, .v 2, 0, 3⟩)
  , (0x0C00000301020000, .pand ⟨c0, .t4, .v 3, .v 1, .v 2, .v 0, 0⟩)
  , (0x0902C0E000000000, .lrank ⟨⟨0, true, 3, false⟩, .v 7, .v 0, 0, 0⟩)
  , (0x15800B8384008001, .saddi ⟨c0, .i64, .s 3, .s 4, 0, 0x8001⟩)
  , (0x3404100608000010, .ld ⟨⟨1, false, 0, false⟩, .b32, .v 6, .v 8, 0, 0, 0, 16⟩)
  , (0x300002C1C2082600, .mma ⟨c0, 5, .s 3, .s 4, .t8, .t6, 1, 2, 0⟩)
  , (0x3C00129313632011, .cpy ⟨c0, .s 20, .s 24, .s 27, 3, 2, 17⟩)
  , (0x4500010200611021, .scall ⟨c0, .v 8, .v 16, 3, 0x11021⟩)
  , (0x0D42A0018A8B8C00, .pfroms ⟨⟨0, true, 2, true⟩, .t4, .v 1, .s 10, .s 11, .s 12, 0⟩) ].all
    (fun q => decode (BitVec.ofNat 64 q.1) == some q.2) = true
end

