-- ==== Sys2Proof/Laws/Store.lean ====
section
/-! SUPPORT. Laws of sparse tables: what a lookup sees after a write or an erasure, and that writes keep the keys rising
and the canonical form. -/

namespace Sys2Proof.Machine.Store

variable {α : Type}

@[simp] theorem find?_nil (n : Nat) : find? ([] : Store α) n = none := rfl

@[simp] theorem find?_put (m : Store α) (n j : Nat) (x : α) :
    (m.put n x).find? j = if j = n then some x else m.find? j := by
  induction m with
  | nil => simp [put, find?]
  | cons q r ih =>
    obtain ⟨k, v⟩ := q
    by_cases h : n = k
    · subst h
      by_cases hj : j = n <;> simp [put, find?, hj]
    · by_cases hl : n < k
      · by_cases hj : j = n <;> simp [put, find?, h, hl, hj]
      · by_cases hj : j = n
        · subst hj; simp [put, find?, h, hl, ih]
        · simp [put, find?, h, hl, ih, hj]

@[simp] theorem find?_erase (m : Store α) (n j : Nat) :
    (m.erase n).find? j = if j = n then none else m.find? j := by
  induction m with
  | nil => simp [erase, find?]
  | cons q r ih =>
    obtain ⟨k, v⟩ := q
    simp only [erase] at ih ⊢
    by_cases hk : k = n
    · subst hk
      by_cases hj : j = k
      · subst hj; simpa using ih
      · simp [ih, find?, hj]
    · by_cases hj : j = n
      · subst hj; simp [hk, find?, ih, Ne.symm hk]
      · simp [hk, find?, ih, hj]

theorem find?_keep_none (m : Store α) (f : Nat → α → Bool) (n : Nat) (h : m.find? n = none) :
    (m.keep f).find? n = none := by
  induction m with
  | nil => rfl
  | cons q r ih =>
    obtain ⟨k, v⟩ := q
    by_cases hk : n = k
    · simp [find?, hk] at h
    · simp only [find?, hk, if_false] at h
      by_cases hf : f k v
      · simpa [keep, hf, find?, hk] using ih h
      · simpa [keep, hf] using ih h

@[simp] theorem get_set [DecidableEq α] (d : α) (m : Store α) (n j : Nat) (x : α) :
    (m.set d n x).get d j = if j = n then x else m.get d j := by
  unfold set get
  by_cases hx : x = d
  · by_cases hj : j = n <;> simp [hx, hj]
  · by_cases hj : j = n <;> simp [hx, hj]

theorem get_set_self [DecidableEq α] (d : α) (m : Store α) (n : Nat) (x : α) : (m.set d n x).get d n = x := by simp

theorem get_set_other [DecidableEq α] (d : α) (m : Store α) {n j : Nat} (x : α) (h : j ≠ n) :
    (m.set d n x).get d j = m.get d j := by simp [h]

/-! ### Rising keys -/

theorem rising_iff_pairwise (m : Store α) : m.rising = true ↔ m.Pairwise fun a b => a.1 < b.1 := by
  induction m with
  | nil => simp [rising]
  | cons q r ih =>
    obtain ⟨k, v⟩ := q
    cases r with
    | nil => simp [rising]
    | cons q' r' =>
      obtain ⟨k', v'⟩ := q'
      simp only [rising, Bool.and_eq_true, decide_eq_true_eq, ih, List.pairwise_cons, List.mem_cons]
      constructor
      · rintro ⟨h, h1, h2⟩
        refine ⟨?_, h1, h2⟩
        rintro a (rfl | ha)
        · exact h
        · exact Nat.lt_trans h (h1 a ha)
      · rintro ⟨h, h1, h2⟩
        exact ⟨h _ (Or.inl rfl), h1, h2⟩

theorem rising_filter (m : Store α) (p : Nat × α → Bool) (h : m.rising = true) : rising (m.filter p) = true := by
  rw [rising_iff_pairwise] at h ⊢
  exact h.filter p

theorem mem_put {m : Store α} {n : Nat} {x : α} {q : Nat × α} (h : q ∈ m.put n x) : q = (n, x) ∨ q ∈ m := by
  induction m with
  | nil => simpa [put] using h
  | cons p r ih =>
    obtain ⟨k, v⟩ := p
    by_cases hk : n = k
    · subst hk
      simp only [put, if_true, List.mem_cons] at h ⊢
      exact h.imp id Or.inr
    · by_cases hl : n < k
      · simpa [put, hk, hl] using h
      · simp only [put, hk, hl, if_false, List.mem_cons] at h ⊢
        rcases h with h | h
        · exact Or.inr (Or.inl h)
        · rcases ih h with h | h
          · exact Or.inl h
          · exact Or.inr (Or.inr h)

theorem rising_put (m : Store α) (n : Nat) (x : α) (h : m.rising = true) : (m.put n x).rising = true := by
  rw [rising_iff_pairwise] at h ⊢
  induction m with
  | nil => simp [put]
  | cons p r ih =>
    obtain ⟨k, v⟩ := p
    rw [List.pairwise_cons] at h
    obtain ⟨h1, h2⟩ := h
    by_cases hk : n = k
    · subst hk
      simp only [put, if_true, List.pairwise_cons]
      exact ⟨h1, h2⟩
    · by_cases hl : n < k
      · simp only [put, hk, hl, if_true, if_false, List.pairwise_cons, List.mem_cons]
        refine ⟨?_, h1, h2⟩
        rintro a (rfl | ha)
        · exact hl
        · exact Nat.lt_trans hl (h1 a ha)
      · simp only [put, hk, hl, if_false, List.pairwise_cons]
        refine ⟨fun a ha => ?_, ih h2⟩
        rcases mem_put ha with rfl | ha
        · show k < n
          omega
        · exact h1 a ha

/-! ### The canonical form -/

theorem wf_iff [DecidableEq α] (d : α) (m : Store α) : m.wf d = true ↔ m.rising = true ∧ ∀ p ∈ m, p.2 ≠ d := by
  simp [wf]

theorem wf_filter [DecidableEq α] (d : α) (m : Store α) (p : Nat × α → Bool) (h : m.wf d = true) :
    wf d (m.filter p) = true := by
  rw [wf_iff] at h ⊢
  exact ⟨rising_filter m p h.1, fun q hq => h.2 q (List.mem_filter.1 hq).1⟩

theorem wf_erase [DecidableEq α] (d : α) (m : Store α) (n : Nat) (h : m.wf d = true) : (m.erase n).wf d = true :=
  wf_filter d m _ h

theorem wf_keep [DecidableEq α] (d : α) (m : Store α) (f : Nat → α → Bool) (h : m.wf d = true) : (m.keep f).wf d = true :=
  wf_filter d m _ h

theorem wf_set [DecidableEq α] (d : α) (m : Store α) (n : Nat) (x : α) (h : m.wf d = true) : (m.set d n x).wf d = true := by
  unfold set
  split
  · exact wf_erase d m n h
  · rename_i hx
    rw [wf_iff] at h ⊢
    refine ⟨rising_put m n x h.1, fun q hq => ?_⟩
    rcases mem_put hq with rfl | hq
    · exact hx
    · exact h.2 q hq

@[simp] theorem wf_nil [DecidableEq α] (d : α) : wf d ([] : Store α) = true := rfl

theorem wf_foldl_set [DecidableEq α] {β : Type} (d : α) (l : List β) (k : β → Nat) (v : β → α) (m : Store α)
    (h : m.wf d = true) : (l.foldl (fun m b => m.set d (k b) (v b)) m).wf d = true := by
  induction l generalizing m with
  | nil => exact h
  | cons b r ih => exact ih _ (wf_set d m _ _ h)

end Sys2Proof.Machine.Store
end

