-- ==== Sys2Proof/Laws/State.lean ====
section
/-! SUPPORT. What an update of one field of State leaves of each field: registers, functions, bytes, the order, poison. -/

namespace Sys2Proof.Machine

/-! ### setReg -/

@[simp] theorem State.setReg_agenda (s : State) (off : Nat) (v : Word) : (s.setReg off v).agenda = s.agenda := rfl
@[simp] theorem State.setReg_cur (s : State) (off : Nat) (v : Word) : (s.setReg off v).cur = s.cur := rfl
@[simp] theorem State.setReg_turn (s : State) (off : Nat) (v : Word) : (s.setReg off v).turn = s.turn := rfl
@[simp] theorem State.setReg_tick (s : State) (off : Nat) (v : Word) : (s.setReg off v).tick = s.tick := rfl
@[simp] theorem State.setReg_handle (s : State) (off : Nat) (v : Word) : (s.setReg off v).handle = s.handle := rfl
@[simp] theorem State.setReg_gangs (s : State) (off : Nat) (v : Word) : (s.setReg off v).gangs = s.gangs := rfl
@[simp] theorem State.setReg_teams (s : State) (off : Nat) (v : Word) : (s.setReg off v).teams = s.teams := rfl
@[simp] theorem State.setReg_launches (s : State) (off : Nat) (v : Word) : (s.setReg off v).launches = s.launches := rfl
@[simp] theorem State.setReg_slots (s : State) (off : Nat) (v : Word) : (s.setReg off v).slots = s.slots := rfl
@[simp] theorem State.setReg_groups (s : State) (off : Nat) (v : Word) : (s.setReg off v).groups = s.groups := rfl
@[simp] theorem State.setReg_spawnUsed (s : State) (off : Nat) (v : Word) : (s.setReg off v).spawnUsed = s.spawnUsed := rfl
@[simp] theorem State.setReg_draining (s : State) (off : Nat) (v : Word) : (s.setReg off v).draining = s.draining := rfl
@[simp] theorem State.setReg_qcbWaiting (s : State) (off : Nat) (v : Word) : (s.setReg off v).qcbWaiting = s.qcbWaiting := rfl
@[simp] theorem State.setReg_misses (s : State) (off : Nat) (v : Word) : (s.setReg off v).misses = s.misses := rfl
@[simp] theorem State.setReg_covers (s : State) (off : Nat) (v : Word) : (s.setReg off v).covers = s.covers := rfl
@[simp] theorem State.setReg_unmapping (s : State) (off : Nat) (v : Word) : (s.setReg off v).unmapping = s.unmapping := rfl
@[simp] theorem State.setReg_waiters (s : State) (off : Nat) (v : Word) : (s.setReg off v).waiters = s.waiters := rfl
@[simp] theorem State.setReg_overflow (s : State) (off : Nat) (v : Word) : (s.setReg off v).overflow = s.overflow := rfl
@[simp] theorem State.setReg_ring (s : State) (off : Nat) (v : Word) : (s.setReg off v).ring = s.ring := rfl
@[simp] theorem State.setReg_lapped (s : State) (off : Nat) (v : Word) : (s.setReg off v).lapped = s.lapped := rfl
@[simp] theorem State.setReg_gp (s : State) (off : Nat) (v : Word) : (s.setReg off v).gp = s.gp := rfl
@[simp] theorem State.setReg_tiles (s : State) (off : Nat) (v : Word) : (s.setReg off v).tiles = s.tiles := rfl
@[simp] theorem State.setReg_copies (s : State) (off : Nat) (v : Word) : (s.setReg off v).copies = s.copies := rfl
@[simp] theorem State.setReg_mats (s : State) (off : Nat) (v : Word) : (s.setReg off v).mats = s.mats := rfl
@[simp] theorem State.setReg_gathers (s : State) (off : Nat) (v : Word) : (s.setReg off v).gathers = s.gathers := rfl
@[simp] theorem State.setReg_hods (s : State) (off : Nat) (v : Word) : (s.setReg off v).hods = s.hods := rfl
@[simp] theorem State.setReg_nets (s : State) (off : Nat) (v : Word) : (s.setReg off v).nets = s.nets := rfl
@[simp] theorem State.setReg_hostOps (s : State) (off : Nat) (v : Word) : (s.setReg off v).hostOps = s.hostOps := rfl
@[simp] theorem State.setReg_remotes (s : State) (off : Nat) (v : Word) : (s.setReg off v).remotes = s.remotes := rfl
@[simp] theorem State.setReg_lineAsks (s : State) (off : Nat) (v : Word) : (s.setReg off v).lineAsks = s.lineAsks := rfl
@[simp] theorem State.setReg_badTiles (s : State) (off : Nat) (v : Word) : (s.setReg off v).badTiles = s.badTiles := rfl
@[simp] theorem State.setReg_outbox (s : State) (off : Nat) (v : Word) : (s.setReg off v).outbox = s.outbox := rfl
@[simp] theorem State.setReg_umSeen (s : State) (off : Nat) (v : Word) : (s.setReg off v).umSeen = s.umSeen := rfl
@[simp] theorem State.setReg_umWaits (s : State) (off : Nat) (v : Word) : (s.setReg off v).umWaits = s.umWaits := rfl
@[simp] theorem State.setReg_umParts (s : State) (off : Nat) (v : Word) : (s.setReg off v).umParts = s.umParts := rfl
@[simp] theorem State.setReg_fns (s : State) (off : Nat) (v : Word) : (s.setReg off v).fns = s.fns := rfl
@[simp] theorem State.setReg_mem (s : State) (off : Nat) (v : Word) : (s.setReg off v).mem = s.mem := rfl
@[simp] theorem State.setReg_order (s : State) (off : Nat) (v : Word) : (s.setReg off v).order = s.order := rfl
@[simp] theorem State.setReg_acts (s : State) (off : Nat) (v : Word) : (s.setReg off v).acts = s.acts := rfl
@[simp] theorem State.setReg_poison (s : State) (off : Nat) (v : Word) : (s.setReg off v).poison = s.poison := rfl
@[simp] theorem State.setReg_malformed (s : State) (off : Nat) (v : Word) : (s.setReg off v).malformed = s.malformed := rfl
@[simp] theorem State.setReg_bricks (s : State) (off : Nat) (v : Word) : (s.setReg off v).bricks = s.bricks := rfl
@[simp] theorem State.setReg_llc (s : State) (off : Nat) (v : Word) : (s.setReg off v).llc = s.llc := rfl
@[simp] theorem State.setReg_hints (s : State) (off : Nat) (v : Word) : (s.setReg off v).hints = s.hints := rfl
@[simp] theorem State.setReg_wcommit (s : State) (off : Nat) (v : Word) : (s.setReg off v).wcommit = s.wcommit := rfl
@[simp] theorem State.setReg_windows (s : State) (off : Nat) (v : Word) : (s.setReg off v).windows = s.windows := rfl
@[simp] theorem State.setReg_turnsUsed (s : State) (off : Nat) (v : Word) : (s.setReg off v).turnsUsed = s.turnsUsed := rfl
@[simp] theorem State.setReg_vacated (s : State) (off : Nat) (v : Word) : (s.setReg off v).vacated = s.vacated := rfl
@[simp] theorem State.setReg_parts (s : State) (off : Nat) (v : Word) : (s.setReg off v).parts = s.parts := rfl
@[simp] theorem State.setReg_flip (s : State) (off : Nat) (v : Word) : (s.setReg off v).flip = s.flip := rfl
@[simp] theorem State.setReg_hostWaits (s : State) (off : Nat) (v : Word) : (s.setReg off v).hostWaits = s.hostWaits := rfl
@[simp] theorem State.setReg_coreWaits (s : State) (off : Nat) (v : Word) : (s.setReg off v).coreWaits = s.coreWaits := rfl
@[simp] theorem State.setReg_ranges (s : State) (off : Nat) (v : Word) : (s.setReg off v).ranges = s.ranges := rfl
@[simp] theorem State.setReg_contested (s : State) (off : Nat) (v : Word) : (s.setReg off v).contested = s.contested := rfl
@[simp] theorem State.setReg_rtSplit (s : State) (off : Nat) (v : Word) : (s.setReg off v).rtSplit = s.rtSplit := rfl
@[simp] theorem State.setReg_rtEvict (s : State) (off : Nat) (v : Word) : (s.setReg off v).rtEvict = s.rtEvict := rfl
@[simp] theorem State.setReg_ports (s : State) (off : Nat) (v : Word) : (s.setReg off v).ports = s.ports := rfl
@[simp] theorem State.setReg_vfEnable (s : State) (off : Nat) (v : Word) : (s.setReg off v).vfEnable = s.vfEnable := rfl
@[simp] theorem State.setReg_vfMse (s : State) (off : Nat) (v : Word) : (s.setReg off v).vfMse = s.vfMse := rfl
@[simp] theorem State.setReg_numVFs (s : State) (off : Nat) (v : Word) : (s.setReg off v).numVFs = s.numVFs := rfl
@[simp] theorem State.setReg_decoders (s : State) (off : Nat) (v : Word) : (s.setReg off v).decoders = s.decoders := rfl
@[simp] theorem State.setReg_decoderErr (s : State) (off : Nat) (v : Word) : (s.setReg off v).decoderErr = s.decoderErr := rfl
@[simp] theorem State.setReg_fuse (s : State) (off : Nat) (v : Word) : (s.setReg off v).fuse = s.fuse := rfl
@[simp] theorem State.setReg_fwCounter (s : State) (off : Nat) (v : Word) : (s.setReg off v).fwCounter = s.fwCounter := rfl
@[simp] theorem State.setReg_staged (s : State) (off : Nat) (v : Word) : (s.setReg off v).staged = s.staged := rfl
@[simp] theorem State.setReg_loaded (s : State) (off : Nat) (v : Word) : (s.setReg off v).loaded = s.loaded := rfl
@[simp] theorem State.setReg_meas (s : State) (off : Nat) (v : Word) : (s.setReg off v).meas = s.meas := rfl
@[simp] theorem State.setReg_halved (s : State) (off : Nat) (v : Word) : (s.setReg off v).halved = s.halved := rfl
@[simp] theorem State.setReg_skipped (s : State) (off : Nat) (v : Word) : (s.setReg off v).skipped = s.skipped := rfl
@[simp] theorem State.setReg_hot (s : State) (off : Nat) (v : Word) : (s.setReg off v).hot = s.hot := rfl
@[simp] theorem State.setReg_messages (s : State) (off : Nat) (v : Word) : (s.setReg off v).messages = s.messages := rfl
@[simp] theorem State.setReg_warned (s : State) (off : Nat) (v : Word) : (s.setReg off v).warned = s.warned := rfl
@[simp] theorem State.setReg_bmcLog (s : State) (off : Nat) (v : Word) : (s.setReg off v).bmcLog = s.bmcLog := rfl
@[simp] theorem State.setReg_failed (s : State) (off : Nat) (v : Word) : (s.setReg off v).failed = s.failed := rfl
@[simp] theorem State.setReg_clock (s : State) (off : Nat) (v : Word) : (s.setReg off v).clock = s.clock := rfl
@[simp] theorem State.setReg_tripped (s : State) (off : Nat) (v : Word) : (s.setReg off v).tripped = s.tripped := rfl

/-! ### setFreg -/

@[simp] theorem State.setFreg_agenda (s : State) (f off : Nat) (v : Word) : (s.setFreg f off v).agenda = s.agenda := rfl
@[simp] theorem State.setFreg_cur (s : State) (f off : Nat) (v : Word) : (s.setFreg f off v).cur = s.cur := rfl
@[simp] theorem State.setFreg_turn (s : State) (f off : Nat) (v : Word) : (s.setFreg f off v).turn = s.turn := rfl
@[simp] theorem State.setFreg_tick (s : State) (f off : Nat) (v : Word) : (s.setFreg f off v).tick = s.tick := rfl
@[simp] theorem State.setFreg_handle (s : State) (f off : Nat) (v : Word) : (s.setFreg f off v).handle = s.handle := rfl
@[simp] theorem State.setFreg_gangs (s : State) (f off : Nat) (v : Word) : (s.setFreg f off v).gangs = s.gangs := rfl
@[simp] theorem State.setFreg_teams (s : State) (f off : Nat) (v : Word) : (s.setFreg f off v).teams = s.teams := rfl
@[simp] theorem State.setFreg_launches (s : State) (f off : Nat) (v : Word) : (s.setFreg f off v).launches = s.launches := rfl
@[simp] theorem State.setFreg_slots (s : State) (f off : Nat) (v : Word) : (s.setFreg f off v).slots = s.slots := rfl
@[simp] theorem State.setFreg_groups (s : State) (f off : Nat) (v : Word) : (s.setFreg f off v).groups = s.groups := rfl
@[simp] theorem State.setFreg_spawnUsed (s : State) (f off : Nat) (v : Word) : (s.setFreg f off v).spawnUsed = s.spawnUsed := rfl
@[simp] theorem State.setFreg_draining (s : State) (f off : Nat) (v : Word) : (s.setFreg f off v).draining = s.draining := rfl
@[simp] theorem State.setFreg_qcbWaiting (s : State) (f off : Nat) (v : Word) : (s.setFreg f off v).qcbWaiting = s.qcbWaiting := rfl
@[simp] theorem State.setFreg_misses (s : State) (f off : Nat) (v : Word) : (s.setFreg f off v).misses = s.misses := rfl
@[simp] theorem State.setFreg_covers (s : State) (f off : Nat) (v : Word) : (s.setFreg f off v).covers = s.covers := rfl
@[simp] theorem State.setFreg_unmapping (s : State) (f off : Nat) (v : Word) : (s.setFreg f off v).unmapping = s.unmapping := rfl
@[simp] theorem State.setFreg_waiters (s : State) (f off : Nat) (v : Word) : (s.setFreg f off v).waiters = s.waiters := rfl
@[simp] theorem State.setFreg_overflow (s : State) (f off : Nat) (v : Word) : (s.setFreg f off v).overflow = s.overflow := rfl
@[simp] theorem State.setFreg_ring (s : State) (f off : Nat) (v : Word) : (s.setFreg f off v).ring = s.ring := rfl
@[simp] theorem State.setFreg_lapped (s : State) (f off : Nat) (v : Word) : (s.setFreg f off v).lapped = s.lapped := rfl
@[simp] theorem State.setFreg_gp (s : State) (f off : Nat) (v : Word) : (s.setFreg f off v).gp = s.gp := rfl
@[simp] theorem State.setFreg_tiles (s : State) (f off : Nat) (v : Word) : (s.setFreg f off v).tiles = s.tiles := rfl
@[simp] theorem State.setFreg_copies (s : State) (f off : Nat) (v : Word) : (s.setFreg f off v).copies = s.copies := rfl
@[simp] theorem State.setFreg_mats (s : State) (f off : Nat) (v : Word) : (s.setFreg f off v).mats = s.mats := rfl
@[simp] theorem State.setFreg_gathers (s : State) (f off : Nat) (v : Word) : (s.setFreg f off v).gathers = s.gathers := rfl
@[simp] theorem State.setFreg_hods (s : State) (f off : Nat) (v : Word) : (s.setFreg f off v).hods = s.hods := rfl
@[simp] theorem State.setFreg_nets (s : State) (f off : Nat) (v : Word) : (s.setFreg f off v).nets = s.nets := rfl
@[simp] theorem State.setFreg_hostOps (s : State) (f off : Nat) (v : Word) : (s.setFreg f off v).hostOps = s.hostOps := rfl
@[simp] theorem State.setFreg_remotes (s : State) (f off : Nat) (v : Word) : (s.setFreg f off v).remotes = s.remotes := rfl
@[simp] theorem State.setFreg_lineAsks (s : State) (f off : Nat) (v : Word) : (s.setFreg f off v).lineAsks = s.lineAsks := rfl
@[simp] theorem State.setFreg_badTiles (s : State) (f off : Nat) (v : Word) : (s.setFreg f off v).badTiles = s.badTiles := rfl
@[simp] theorem State.setFreg_outbox (s : State) (f off : Nat) (v : Word) : (s.setFreg f off v).outbox = s.outbox := rfl
@[simp] theorem State.setFreg_umSeen (s : State) (f off : Nat) (v : Word) : (s.setFreg f off v).umSeen = s.umSeen := rfl
@[simp] theorem State.setFreg_umWaits (s : State) (f off : Nat) (v : Word) : (s.setFreg f off v).umWaits = s.umWaits := rfl
@[simp] theorem State.setFreg_umParts (s : State) (f off : Nat) (v : Word) : (s.setFreg f off v).umParts = s.umParts := rfl
@[simp] theorem State.setFreg_fns (s : State) (f off : Nat) (v : Word) : (s.setFreg f off v).fns = s.fns := rfl
@[simp] theorem State.setFreg_mem (s : State) (f off : Nat) (v : Word) : (s.setFreg f off v).mem = s.mem := rfl
@[simp] theorem State.setFreg_order (s : State) (f off : Nat) (v : Word) : (s.setFreg f off v).order = s.order := rfl
@[simp] theorem State.setFreg_acts (s : State) (f off : Nat) (v : Word) : (s.setFreg f off v).acts = s.acts := rfl
@[simp] theorem State.setFreg_poison (s : State) (f off : Nat) (v : Word) : (s.setFreg f off v).poison = s.poison := rfl
@[simp] theorem State.setFreg_malformed (s : State) (f off : Nat) (v : Word) : (s.setFreg f off v).malformed = s.malformed := rfl
@[simp] theorem State.setFreg_bricks (s : State) (f off : Nat) (v : Word) : (s.setFreg f off v).bricks = s.bricks := rfl
@[simp] theorem State.setFreg_llc (s : State) (f off : Nat) (v : Word) : (s.setFreg f off v).llc = s.llc := rfl
@[simp] theorem State.setFreg_hints (s : State) (f off : Nat) (v : Word) : (s.setFreg f off v).hints = s.hints := rfl
@[simp] theorem State.setFreg_wcommit (s : State) (f off : Nat) (v : Word) : (s.setFreg f off v).wcommit = s.wcommit := rfl
@[simp] theorem State.setFreg_windows (s : State) (f off : Nat) (v : Word) : (s.setFreg f off v).windows = s.windows := rfl
@[simp] theorem State.setFreg_turnsUsed (s : State) (f off : Nat) (v : Word) : (s.setFreg f off v).turnsUsed = s.turnsUsed := rfl
@[simp] theorem State.setFreg_vacated (s : State) (f off : Nat) (v : Word) : (s.setFreg f off v).vacated = s.vacated := rfl
@[simp] theorem State.setFreg_parts (s : State) (f off : Nat) (v : Word) : (s.setFreg f off v).parts = s.parts := rfl
@[simp] theorem State.setFreg_flip (s : State) (f off : Nat) (v : Word) : (s.setFreg f off v).flip = s.flip := rfl
@[simp] theorem State.setFreg_hostWaits (s : State) (f off : Nat) (v : Word) : (s.setFreg f off v).hostWaits = s.hostWaits := rfl
@[simp] theorem State.setFreg_coreWaits (s : State) (f off : Nat) (v : Word) : (s.setFreg f off v).coreWaits = s.coreWaits := rfl
@[simp] theorem State.setFreg_ranges (s : State) (f off : Nat) (v : Word) : (s.setFreg f off v).ranges = s.ranges := rfl
@[simp] theorem State.setFreg_contested (s : State) (f off : Nat) (v : Word) : (s.setFreg f off v).contested = s.contested := rfl
@[simp] theorem State.setFreg_rtSplit (s : State) (f off : Nat) (v : Word) : (s.setFreg f off v).rtSplit = s.rtSplit := rfl
@[simp] theorem State.setFreg_rtEvict (s : State) (f off : Nat) (v : Word) : (s.setFreg f off v).rtEvict = s.rtEvict := rfl
@[simp] theorem State.setFreg_ports (s : State) (f off : Nat) (v : Word) : (s.setFreg f off v).ports = s.ports := rfl
@[simp] theorem State.setFreg_vfEnable (s : State) (f off : Nat) (v : Word) : (s.setFreg f off v).vfEnable = s.vfEnable := rfl
@[simp] theorem State.setFreg_vfMse (s : State) (f off : Nat) (v : Word) : (s.setFreg f off v).vfMse = s.vfMse := rfl
@[simp] theorem State.setFreg_numVFs (s : State) (f off : Nat) (v : Word) : (s.setFreg f off v).numVFs = s.numVFs := rfl
@[simp] theorem State.setFreg_decoders (s : State) (f off : Nat) (v : Word) : (s.setFreg f off v).decoders = s.decoders := rfl
@[simp] theorem State.setFreg_decoderErr (s : State) (f off : Nat) (v : Word) : (s.setFreg f off v).decoderErr = s.decoderErr := rfl
@[simp] theorem State.setFreg_fuse (s : State) (f off : Nat) (v : Word) : (s.setFreg f off v).fuse = s.fuse := rfl
@[simp] theorem State.setFreg_fwCounter (s : State) (f off : Nat) (v : Word) : (s.setFreg f off v).fwCounter = s.fwCounter := rfl
@[simp] theorem State.setFreg_staged (s : State) (f off : Nat) (v : Word) : (s.setFreg f off v).staged = s.staged := rfl
@[simp] theorem State.setFreg_loaded (s : State) (f off : Nat) (v : Word) : (s.setFreg f off v).loaded = s.loaded := rfl
@[simp] theorem State.setFreg_meas (s : State) (f off : Nat) (v : Word) : (s.setFreg f off v).meas = s.meas := rfl
@[simp] theorem State.setFreg_halved (s : State) (f off : Nat) (v : Word) : (s.setFreg f off v).halved = s.halved := rfl
@[simp] theorem State.setFreg_skipped (s : State) (f off : Nat) (v : Word) : (s.setFreg f off v).skipped = s.skipped := rfl
@[simp] theorem State.setFreg_hot (s : State) (f off : Nat) (v : Word) : (s.setFreg f off v).hot = s.hot := rfl
@[simp] theorem State.setFreg_messages (s : State) (f off : Nat) (v : Word) : (s.setFreg f off v).messages = s.messages := rfl
@[simp] theorem State.setFreg_warned (s : State) (f off : Nat) (v : Word) : (s.setFreg f off v).warned = s.warned := rfl
@[simp] theorem State.setFreg_bmcLog (s : State) (f off : Nat) (v : Word) : (s.setFreg f off v).bmcLog = s.bmcLog := rfl
@[simp] theorem State.setFreg_failed (s : State) (f off : Nat) (v : Word) : (s.setFreg f off v).failed = s.failed := rfl
@[simp] theorem State.setFreg_clock (s : State) (f off : Nat) (v : Word) : (s.setFreg f off v).clock = s.clock := rfl
@[simp] theorem State.setFreg_tripped (s : State) (f off : Nat) (v : Word) : (s.setFreg f off v).tripped = s.tripped := rfl

/-! ### count -/

@[simp] theorem State.count_agenda (s : State) (f off : Nat) : (s.count f off).agenda = s.agenda := rfl
@[simp] theorem State.count_cur (s : State) (f off : Nat) : (s.count f off).cur = s.cur := rfl
@[simp] theorem State.count_turn (s : State) (f off : Nat) : (s.count f off).turn = s.turn := rfl
@[simp] theorem State.count_tick (s : State) (f off : Nat) : (s.count f off).tick = s.tick := rfl
@[simp] theorem State.count_handle (s : State) (f off : Nat) : (s.count f off).handle = s.handle := rfl
@[simp] theorem State.count_gangs (s : State) (f off : Nat) : (s.count f off).gangs = s.gangs := rfl
@[simp] theorem State.count_teams (s : State) (f off : Nat) : (s.count f off).teams = s.teams := rfl
@[simp] theorem State.count_launches (s : State) (f off : Nat) : (s.count f off).launches = s.launches := rfl
@[simp] theorem State.count_slots (s : State) (f off : Nat) : (s.count f off).slots = s.slots := rfl
@[simp] theorem State.count_groups (s : State) (f off : Nat) : (s.count f off).groups = s.groups := rfl
@[simp] theorem State.count_spawnUsed (s : State) (f off : Nat) : (s.count f off).spawnUsed = s.spawnUsed := rfl
@[simp] theorem State.count_draining (s : State) (f off : Nat) : (s.count f off).draining = s.draining := rfl
@[simp] theorem State.count_qcbWaiting (s : State) (f off : Nat) : (s.count f off).qcbWaiting = s.qcbWaiting := rfl
@[simp] theorem State.count_misses (s : State) (f off : Nat) : (s.count f off).misses = s.misses := rfl
@[simp] theorem State.count_covers (s : State) (f off : Nat) : (s.count f off).covers = s.covers := rfl
@[simp] theorem State.count_unmapping (s : State) (f off : Nat) : (s.count f off).unmapping = s.unmapping := rfl
@[simp] theorem State.count_waiters (s : State) (f off : Nat) : (s.count f off).waiters = s.waiters := rfl
@[simp] theorem State.count_overflow (s : State) (f off : Nat) : (s.count f off).overflow = s.overflow := rfl
@[simp] theorem State.count_ring (s : State) (f off : Nat) : (s.count f off).ring = s.ring := rfl
@[simp] theorem State.count_lapped (s : State) (f off : Nat) : (s.count f off).lapped = s.lapped := rfl
@[simp] theorem State.count_gp (s : State) (f off : Nat) : (s.count f off).gp = s.gp := rfl
@[simp] theorem State.count_tiles (s : State) (f off : Nat) : (s.count f off).tiles = s.tiles := rfl
@[simp] theorem State.count_copies (s : State) (f off : Nat) : (s.count f off).copies = s.copies := rfl
@[simp] theorem State.count_mats (s : State) (f off : Nat) : (s.count f off).mats = s.mats := rfl
@[simp] theorem State.count_gathers (s : State) (f off : Nat) : (s.count f off).gathers = s.gathers := rfl
@[simp] theorem State.count_hods (s : State) (f off : Nat) : (s.count f off).hods = s.hods := rfl
@[simp] theorem State.count_nets (s : State) (f off : Nat) : (s.count f off).nets = s.nets := rfl
@[simp] theorem State.count_hostOps (s : State) (f off : Nat) : (s.count f off).hostOps = s.hostOps := rfl
@[simp] theorem State.count_remotes (s : State) (f off : Nat) : (s.count f off).remotes = s.remotes := rfl
@[simp] theorem State.count_lineAsks (s : State) (f off : Nat) : (s.count f off).lineAsks = s.lineAsks := rfl
@[simp] theorem State.count_badTiles (s : State) (f off : Nat) : (s.count f off).badTiles = s.badTiles := rfl
@[simp] theorem State.count_outbox (s : State) (f off : Nat) : (s.count f off).outbox = s.outbox := rfl
@[simp] theorem State.count_umSeen (s : State) (f off : Nat) : (s.count f off).umSeen = s.umSeen := rfl
@[simp] theorem State.count_umWaits (s : State) (f off : Nat) : (s.count f off).umWaits = s.umWaits := rfl
@[simp] theorem State.count_umParts (s : State) (f off : Nat) : (s.count f off).umParts = s.umParts := rfl
@[simp] theorem State.count_fns (s : State) (f off : Nat) : (s.count f off).fns = s.fns := rfl
@[simp] theorem State.count_mem (s : State) (f off : Nat) : (s.count f off).mem = s.mem := rfl
@[simp] theorem State.count_order (s : State) (f off : Nat) : (s.count f off).order = s.order := rfl
@[simp] theorem State.count_acts (s : State) (f off : Nat) : (s.count f off).acts = s.acts := rfl
@[simp] theorem State.count_poison (s : State) (f off : Nat) : (s.count f off).poison = s.poison := rfl
@[simp] theorem State.count_malformed (s : State) (f off : Nat) : (s.count f off).malformed = s.malformed := rfl
@[simp] theorem State.count_bricks (s : State) (f off : Nat) : (s.count f off).bricks = s.bricks := rfl
@[simp] theorem State.count_llc (s : State) (f off : Nat) : (s.count f off).llc = s.llc := rfl
@[simp] theorem State.count_hints (s : State) (f off : Nat) : (s.count f off).hints = s.hints := rfl
@[simp] theorem State.count_wcommit (s : State) (f off : Nat) : (s.count f off).wcommit = s.wcommit := rfl
@[simp] theorem State.count_windows (s : State) (f off : Nat) : (s.count f off).windows = s.windows := rfl
@[simp] theorem State.count_turnsUsed (s : State) (f off : Nat) : (s.count f off).turnsUsed = s.turnsUsed := rfl
@[simp] theorem State.count_vacated (s : State) (f off : Nat) : (s.count f off).vacated = s.vacated := rfl
@[simp] theorem State.count_parts (s : State) (f off : Nat) : (s.count f off).parts = s.parts := rfl
@[simp] theorem State.count_flip (s : State) (f off : Nat) : (s.count f off).flip = s.flip := rfl
@[simp] theorem State.count_hostWaits (s : State) (f off : Nat) : (s.count f off).hostWaits = s.hostWaits := rfl
@[simp] theorem State.count_coreWaits (s : State) (f off : Nat) : (s.count f off).coreWaits = s.coreWaits := rfl
@[simp] theorem State.count_ranges (s : State) (f off : Nat) : (s.count f off).ranges = s.ranges := rfl
@[simp] theorem State.count_contested (s : State) (f off : Nat) : (s.count f off).contested = s.contested := rfl
@[simp] theorem State.count_rtSplit (s : State) (f off : Nat) : (s.count f off).rtSplit = s.rtSplit := rfl
@[simp] theorem State.count_rtEvict (s : State) (f off : Nat) : (s.count f off).rtEvict = s.rtEvict := rfl
@[simp] theorem State.count_ports (s : State) (f off : Nat) : (s.count f off).ports = s.ports := rfl
@[simp] theorem State.count_vfEnable (s : State) (f off : Nat) : (s.count f off).vfEnable = s.vfEnable := rfl
@[simp] theorem State.count_vfMse (s : State) (f off : Nat) : (s.count f off).vfMse = s.vfMse := rfl
@[simp] theorem State.count_numVFs (s : State) (f off : Nat) : (s.count f off).numVFs = s.numVFs := rfl
@[simp] theorem State.count_decoders (s : State) (f off : Nat) : (s.count f off).decoders = s.decoders := rfl
@[simp] theorem State.count_decoderErr (s : State) (f off : Nat) : (s.count f off).decoderErr = s.decoderErr := rfl
@[simp] theorem State.count_fuse (s : State) (f off : Nat) : (s.count f off).fuse = s.fuse := rfl
@[simp] theorem State.count_fwCounter (s : State) (f off : Nat) : (s.count f off).fwCounter = s.fwCounter := rfl
@[simp] theorem State.count_staged (s : State) (f off : Nat) : (s.count f off).staged = s.staged := rfl
@[simp] theorem State.count_loaded (s : State) (f off : Nat) : (s.count f off).loaded = s.loaded := rfl
@[simp] theorem State.count_meas (s : State) (f off : Nat) : (s.count f off).meas = s.meas := rfl
@[simp] theorem State.count_halved (s : State) (f off : Nat) : (s.count f off).halved = s.halved := rfl
@[simp] theorem State.count_skipped (s : State) (f off : Nat) : (s.count f off).skipped = s.skipped := rfl
@[simp] theorem State.count_hot (s : State) (f off : Nat) : (s.count f off).hot = s.hot := rfl
@[simp] theorem State.count_messages (s : State) (f off : Nat) : (s.count f off).messages = s.messages := rfl
@[simp] theorem State.count_warned (s : State) (f off : Nat) : (s.count f off).warned = s.warned := rfl
@[simp] theorem State.count_bmcLog (s : State) (f off : Nat) : (s.count f off).bmcLog = s.bmcLog := rfl
@[simp] theorem State.count_failed (s : State) (f off : Nat) : (s.count f off).failed = s.failed := rfl
@[simp] theorem State.count_clock (s : State) (f off : Nat) : (s.count f off).clock = s.clock := rfl
@[simp] theorem State.count_tripped (s : State) (f off : Nat) : (s.count f off).tripped = s.tripped := rfl

/-! ### setFn -/

@[simp] theorem State.setFn_agenda (s : State) (f : Nat) (x : Fn) : (s.setFn f x).agenda = s.agenda := rfl
@[simp] theorem State.setFn_cur (s : State) (f : Nat) (x : Fn) : (s.setFn f x).cur = s.cur := rfl
@[simp] theorem State.setFn_turn (s : State) (f : Nat) (x : Fn) : (s.setFn f x).turn = s.turn := rfl
@[simp] theorem State.setFn_tick (s : State) (f : Nat) (x : Fn) : (s.setFn f x).tick = s.tick := rfl
@[simp] theorem State.setFn_handle (s : State) (f : Nat) (x : Fn) : (s.setFn f x).handle = s.handle := rfl
@[simp] theorem State.setFn_gangs (s : State) (f : Nat) (x : Fn) : (s.setFn f x).gangs = s.gangs := rfl
@[simp] theorem State.setFn_teams (s : State) (f : Nat) (x : Fn) : (s.setFn f x).teams = s.teams := rfl
@[simp] theorem State.setFn_launches (s : State) (f : Nat) (x : Fn) : (s.setFn f x).launches = s.launches := rfl
@[simp] theorem State.setFn_slots (s : State) (f : Nat) (x : Fn) : (s.setFn f x).slots = s.slots := rfl
@[simp] theorem State.setFn_groups (s : State) (f : Nat) (x : Fn) : (s.setFn f x).groups = s.groups := rfl
@[simp] theorem State.setFn_spawnUsed (s : State) (f : Nat) (x : Fn) : (s.setFn f x).spawnUsed = s.spawnUsed := rfl
@[simp] theorem State.setFn_draining (s : State) (f : Nat) (x : Fn) : (s.setFn f x).draining = s.draining := rfl
@[simp] theorem State.setFn_qcbWaiting (s : State) (f : Nat) (x : Fn) : (s.setFn f x).qcbWaiting = s.qcbWaiting := rfl
@[simp] theorem State.setFn_misses (s : State) (f : Nat) (x : Fn) : (s.setFn f x).misses = s.misses := rfl
@[simp] theorem State.setFn_covers (s : State) (f : Nat) (x : Fn) : (s.setFn f x).covers = s.covers := rfl
@[simp] theorem State.setFn_unmapping (s : State) (f : Nat) (x : Fn) : (s.setFn f x).unmapping = s.unmapping := rfl
@[simp] theorem State.setFn_waiters (s : State) (f : Nat) (x : Fn) : (s.setFn f x).waiters = s.waiters := rfl
@[simp] theorem State.setFn_overflow (s : State) (f : Nat) (x : Fn) : (s.setFn f x).overflow = s.overflow := rfl
@[simp] theorem State.setFn_ring (s : State) (f : Nat) (x : Fn) : (s.setFn f x).ring = s.ring := rfl
@[simp] theorem State.setFn_lapped (s : State) (f : Nat) (x : Fn) : (s.setFn f x).lapped = s.lapped := rfl
@[simp] theorem State.setFn_gp (s : State) (f : Nat) (x : Fn) : (s.setFn f x).gp = s.gp := rfl
@[simp] theorem State.setFn_tiles (s : State) (f : Nat) (x : Fn) : (s.setFn f x).tiles = s.tiles := rfl
@[simp] theorem State.setFn_copies (s : State) (f : Nat) (x : Fn) : (s.setFn f x).copies = s.copies := rfl
@[simp] theorem State.setFn_mats (s : State) (f : Nat) (x : Fn) : (s.setFn f x).mats = s.mats := rfl
@[simp] theorem State.setFn_gathers (s : State) (f : Nat) (x : Fn) : (s.setFn f x).gathers = s.gathers := rfl
@[simp] theorem State.setFn_hods (s : State) (f : Nat) (x : Fn) : (s.setFn f x).hods = s.hods := rfl
@[simp] theorem State.setFn_nets (s : State) (f : Nat) (x : Fn) : (s.setFn f x).nets = s.nets := rfl
@[simp] theorem State.setFn_hostOps (s : State) (f : Nat) (x : Fn) : (s.setFn f x).hostOps = s.hostOps := rfl
@[simp] theorem State.setFn_remotes (s : State) (f : Nat) (x : Fn) : (s.setFn f x).remotes = s.remotes := rfl
@[simp] theorem State.setFn_lineAsks (s : State) (f : Nat) (x : Fn) : (s.setFn f x).lineAsks = s.lineAsks := rfl
@[simp] theorem State.setFn_badTiles (s : State) (f : Nat) (x : Fn) : (s.setFn f x).badTiles = s.badTiles := rfl
@[simp] theorem State.setFn_outbox (s : State) (f : Nat) (x : Fn) : (s.setFn f x).outbox = s.outbox := rfl
@[simp] theorem State.setFn_umSeen (s : State) (f : Nat) (x : Fn) : (s.setFn f x).umSeen = s.umSeen := rfl
@[simp] theorem State.setFn_umWaits (s : State) (f : Nat) (x : Fn) : (s.setFn f x).umWaits = s.umWaits := rfl
@[simp] theorem State.setFn_umParts (s : State) (f : Nat) (x : Fn) : (s.setFn f x).umParts = s.umParts := rfl
@[simp] theorem State.setFn_mem (s : State) (f : Nat) (x : Fn) : (s.setFn f x).mem = s.mem := rfl
@[simp] theorem State.setFn_order (s : State) (f : Nat) (x : Fn) : (s.setFn f x).order = s.order := rfl
@[simp] theorem State.setFn_acts (s : State) (f : Nat) (x : Fn) : (s.setFn f x).acts = s.acts := rfl
@[simp] theorem State.setFn_poison (s : State) (f : Nat) (x : Fn) : (s.setFn f x).poison = s.poison := rfl
@[simp] theorem State.setFn_malformed (s : State) (f : Nat) (x : Fn) : (s.setFn f x).malformed = s.malformed := rfl
@[simp] theorem State.setFn_bricks (s : State) (f : Nat) (x : Fn) : (s.setFn f x).bricks = s.bricks := rfl
@[simp] theorem State.setFn_llc (s : State) (f : Nat) (x : Fn) : (s.setFn f x).llc = s.llc := rfl
@[simp] theorem State.setFn_hints (s : State) (f : Nat) (x : Fn) : (s.setFn f x).hints = s.hints := rfl
@[simp] theorem State.setFn_wcommit (s : State) (f : Nat) (x : Fn) : (s.setFn f x).wcommit = s.wcommit := rfl
@[simp] theorem State.setFn_windows (s : State) (f : Nat) (x : Fn) : (s.setFn f x).windows = s.windows := rfl
@[simp] theorem State.setFn_turnsUsed (s : State) (f : Nat) (x : Fn) : (s.setFn f x).turnsUsed = s.turnsUsed := rfl
@[simp] theorem State.setFn_vacated (s : State) (f : Nat) (x : Fn) : (s.setFn f x).vacated = s.vacated := rfl
@[simp] theorem State.setFn_parts (s : State) (f : Nat) (x : Fn) : (s.setFn f x).parts = s.parts := rfl
@[simp] theorem State.setFn_mmio (s : State) (f : Nat) (x : Fn) : (s.setFn f x).mmio = s.mmio := rfl
@[simp] theorem State.setFn_flip (s : State) (f : Nat) (x : Fn) : (s.setFn f x).flip = s.flip := rfl
@[simp] theorem State.setFn_hostWaits (s : State) (f : Nat) (x : Fn) : (s.setFn f x).hostWaits = s.hostWaits := rfl
@[simp] theorem State.setFn_coreWaits (s : State) (f : Nat) (x : Fn) : (s.setFn f x).coreWaits = s.coreWaits := rfl
@[simp] theorem State.setFn_ranges (s : State) (f : Nat) (x : Fn) : (s.setFn f x).ranges = s.ranges := rfl
@[simp] theorem State.setFn_contested (s : State) (f : Nat) (x : Fn) : (s.setFn f x).contested = s.contested := rfl
@[simp] theorem State.setFn_rtSplit (s : State) (f : Nat) (x : Fn) : (s.setFn f x).rtSplit = s.rtSplit := rfl
@[simp] theorem State.setFn_rtEvict (s : State) (f : Nat) (x : Fn) : (s.setFn f x).rtEvict = s.rtEvict := rfl
@[simp] theorem State.setFn_ports (s : State) (f : Nat) (x : Fn) : (s.setFn f x).ports = s.ports := rfl
@[simp] theorem State.setFn_vfEnable (s : State) (f : Nat) (x : Fn) : (s.setFn f x).vfEnable = s.vfEnable := rfl
@[simp] theorem State.setFn_vfMse (s : State) (f : Nat) (x : Fn) : (s.setFn f x).vfMse = s.vfMse := rfl
@[simp] theorem State.setFn_numVFs (s : State) (f : Nat) (x : Fn) : (s.setFn f x).numVFs = s.numVFs := rfl
@[simp] theorem State.setFn_decoders (s : State) (f : Nat) (x : Fn) : (s.setFn f x).decoders = s.decoders := rfl
@[simp] theorem State.setFn_decoderErr (s : State) (f : Nat) (x : Fn) : (s.setFn f x).decoderErr = s.decoderErr := rfl
@[simp] theorem State.setFn_fuse (s : State) (f : Nat) (x : Fn) : (s.setFn f x).fuse = s.fuse := rfl
@[simp] theorem State.setFn_fwCounter (s : State) (f : Nat) (x : Fn) : (s.setFn f x).fwCounter = s.fwCounter := rfl
@[simp] theorem State.setFn_staged (s : State) (f : Nat) (x : Fn) : (s.setFn f x).staged = s.staged := rfl
@[simp] theorem State.setFn_loaded (s : State) (f : Nat) (x : Fn) : (s.setFn f x).loaded = s.loaded := rfl
@[simp] theorem State.setFn_meas (s : State) (f : Nat) (x : Fn) : (s.setFn f x).meas = s.meas := rfl
@[simp] theorem State.setFn_halved (s : State) (f : Nat) (x : Fn) : (s.setFn f x).halved = s.halved := rfl
@[simp] theorem State.setFn_skipped (s : State) (f : Nat) (x : Fn) : (s.setFn f x).skipped = s.skipped := rfl
@[simp] theorem State.setFn_hot (s : State) (f : Nat) (x : Fn) : (s.setFn f x).hot = s.hot := rfl
@[simp] theorem State.setFn_messages (s : State) (f : Nat) (x : Fn) : (s.setFn f x).messages = s.messages := rfl
@[simp] theorem State.setFn_warned (s : State) (f : Nat) (x : Fn) : (s.setFn f x).warned = s.warned := rfl
@[simp] theorem State.setFn_bmcLog (s : State) (f : Nat) (x : Fn) : (s.setFn f x).bmcLog = s.bmcLog := rfl
@[simp] theorem State.setFn_failed (s : State) (f : Nat) (x : Fn) : (s.setFn f x).failed = s.failed := rfl
@[simp] theorem State.setFn_clock (s : State) (f : Nat) (x : Fn) : (s.setFn f x).clock = s.clock := rfl
@[simp] theorem State.setFn_tripped (s : State) (f : Nat) (x : Fn) : (s.setFn f x).tripped = s.tripped := rfl

/-! ### modFn -/

@[simp] theorem State.modFn_agenda (s : State) (f : Nat) (k : Fn → Fn) : (s.modFn f k).agenda = s.agenda := rfl
@[simp] theorem State.modFn_cur (s : State) (f : Nat) (k : Fn → Fn) : (s.modFn f k).cur = s.cur := rfl
@[simp] theorem State.modFn_turn (s : State) (f : Nat) (k : Fn → Fn) : (s.modFn f k).turn = s.turn := rfl
@[simp] theorem State.modFn_tick (s : State) (f : Nat) (k : Fn → Fn) : (s.modFn f k).tick = s.tick := rfl
@[simp] theorem State.modFn_handle (s : State) (f : Nat) (k : Fn → Fn) : (s.modFn f k).handle = s.handle := rfl
@[simp] theorem State.modFn_gangs (s : State) (f : Nat) (k : Fn → Fn) : (s.modFn f k).gangs = s.gangs := rfl
@[simp] theorem State.modFn_teams (s : State) (f : Nat) (k : Fn → Fn) : (s.modFn f k).teams = s.teams := rfl
@[simp] theorem State.modFn_launches (s : State) (f : Nat) (k : Fn → Fn) : (s.modFn f k).launches = s.launches := rfl
@[simp] theorem State.modFn_slots (s : State) (f : Nat) (k : Fn → Fn) : (s.modFn f k).slots = s.slots := rfl
@[simp] theorem State.modFn_groups (s : State) (f : Nat) (k : Fn → Fn) : (s.modFn f k).groups = s.groups := rfl
@[simp] theorem State.modFn_spawnUsed (s : State) (f : Nat) (k : Fn → Fn) : (s.modFn f k).spawnUsed = s.spawnUsed := rfl
@[simp] theorem State.modFn_draining (s : State) (f : Nat) (k : Fn → Fn) : (s.modFn f k).draining = s.draining := rfl
@[simp] theorem State.modFn_qcbWaiting (s : State) (f : Nat) (k : Fn → Fn) : (s.modFn f k).qcbWaiting = s.qcbWaiting := rfl
@[simp] theorem State.modFn_misses (s : State) (f : Nat) (k : Fn → Fn) : (s.modFn f k).misses = s.misses := rfl
@[simp] theorem State.modFn_covers (s : State) (f : Nat) (k : Fn → Fn) : (s.modFn f k).covers = s.covers := rfl
@[simp] theorem State.modFn_unmapping (s : State) (f : Nat) (k : Fn → Fn) : (s.modFn f k).unmapping = s.unmapping := rfl
@[simp] theorem State.modFn_waiters (s : State) (f : Nat) (k : Fn → Fn) : (s.modFn f k).waiters = s.waiters := rfl
@[simp] theorem State.modFn_overflow (s : State) (f : Nat) (k : Fn → Fn) : (s.modFn f k).overflow = s.overflow := rfl
@[simp] theorem State.modFn_ring (s : State) (f : Nat) (k : Fn → Fn) : (s.modFn f k).ring = s.ring := rfl
@[simp] theorem State.modFn_lapped (s : State) (f : Nat) (k : Fn → Fn) : (s.modFn f k).lapped = s.lapped := rfl
@[simp] theorem State.modFn_gp (s : State) (f : Nat) (k : Fn → Fn) : (s.modFn f k).gp = s.gp := rfl
@[simp] theorem State.modFn_tiles (s : State) (f : Nat) (k : Fn → Fn) : (s.modFn f k).tiles = s.tiles := rfl
@[simp] theorem State.modFn_copies (s : State) (f : Nat) (k : Fn → Fn) : (s.modFn f k).copies = s.copies := rfl
@[simp] theorem State.modFn_mats (s : State) (f : Nat) (k : Fn → Fn) : (s.modFn f k).mats = s.mats := rfl
@[simp] theorem State.modFn_gathers (s : State) (f : Nat) (k : Fn → Fn) : (s.modFn f k).gathers = s.gathers := rfl
@[simp] theorem State.modFn_hods (s : State) (f : Nat) (k : Fn → Fn) : (s.modFn f k).hods = s.hods := rfl
@[simp] theorem State.modFn_nets (s : State) (f : Nat) (k : Fn → Fn) : (s.modFn f k).nets = s.nets := rfl
@[simp] theorem State.modFn_hostOps (s : State) (f : Nat) (k : Fn → Fn) : (s.modFn f k).hostOps = s.hostOps := rfl
@[simp] theorem State.modFn_remotes (s : State) (f : Nat) (k : Fn → Fn) : (s.modFn f k).remotes = s.remotes := rfl
@[simp] theorem State.modFn_lineAsks (s : State) (f : Nat) (k : Fn → Fn) : (s.modFn f k).lineAsks = s.lineAsks := rfl
@[simp] theorem State.modFn_badTiles (s : State) (f : Nat) (k : Fn → Fn) : (s.modFn f k).badTiles = s.badTiles := rfl
@[simp] theorem State.modFn_outbox (s : State) (f : Nat) (k : Fn → Fn) : (s.modFn f k).outbox = s.outbox := rfl
@[simp] theorem State.modFn_umSeen (s : State) (f : Nat) (k : Fn → Fn) : (s.modFn f k).umSeen = s.umSeen := rfl
@[simp] theorem State.modFn_umWaits (s : State) (f : Nat) (k : Fn → Fn) : (s.modFn f k).umWaits = s.umWaits := rfl
@[simp] theorem State.modFn_umParts (s : State) (f : Nat) (k : Fn → Fn) : (s.modFn f k).umParts = s.umParts := rfl
@[simp] theorem State.modFn_mem (s : State) (f : Nat) (k : Fn → Fn) : (s.modFn f k).mem = s.mem := rfl
@[simp] theorem State.modFn_order (s : State) (f : Nat) (k : Fn → Fn) : (s.modFn f k).order = s.order := rfl
@[simp] theorem State.modFn_acts (s : State) (f : Nat) (k : Fn → Fn) : (s.modFn f k).acts = s.acts := rfl
@[simp] theorem State.modFn_poison (s : State) (f : Nat) (k : Fn → Fn) : (s.modFn f k).poison = s.poison := rfl
@[simp] theorem State.modFn_malformed (s : State) (f : Nat) (k : Fn → Fn) : (s.modFn f k).malformed = s.malformed := rfl
@[simp] theorem State.modFn_bricks (s : State) (f : Nat) (k : Fn → Fn) : (s.modFn f k).bricks = s.bricks := rfl
@[simp] theorem State.modFn_llc (s : State) (f : Nat) (k : Fn → Fn) : (s.modFn f k).llc = s.llc := rfl
@[simp] theorem State.modFn_hints (s : State) (f : Nat) (k : Fn → Fn) : (s.modFn f k).hints = s.hints := rfl
@[simp] theorem State.modFn_wcommit (s : State) (f : Nat) (k : Fn → Fn) : (s.modFn f k).wcommit = s.wcommit := rfl
@[simp] theorem State.modFn_windows (s : State) (f : Nat) (k : Fn → Fn) : (s.modFn f k).windows = s.windows := rfl
@[simp] theorem State.modFn_turnsUsed (s : State) (f : Nat) (k : Fn → Fn) : (s.modFn f k).turnsUsed = s.turnsUsed := rfl
@[simp] theorem State.modFn_vacated (s : State) (f : Nat) (k : Fn → Fn) : (s.modFn f k).vacated = s.vacated := rfl
@[simp] theorem State.modFn_parts (s : State) (f : Nat) (k : Fn → Fn) : (s.modFn f k).parts = s.parts := rfl
@[simp] theorem State.modFn_mmio (s : State) (f : Nat) (k : Fn → Fn) : (s.modFn f k).mmio = s.mmio := rfl
@[simp] theorem State.modFn_flip (s : State) (f : Nat) (k : Fn → Fn) : (s.modFn f k).flip = s.flip := rfl
@[simp] theorem State.modFn_hostWaits (s : State) (f : Nat) (k : Fn → Fn) : (s.modFn f k).hostWaits = s.hostWaits := rfl
@[simp] theorem State.modFn_coreWaits (s : State) (f : Nat) (k : Fn → Fn) : (s.modFn f k).coreWaits = s.coreWaits := rfl
@[simp] theorem State.modFn_ranges (s : State) (f : Nat) (k : Fn → Fn) : (s.modFn f k).ranges = s.ranges := rfl
@[simp] theorem State.modFn_contested (s : State) (f : Nat) (k : Fn → Fn) : (s.modFn f k).contested = s.contested := rfl
@[simp] theorem State.modFn_rtSplit (s : State) (f : Nat) (k : Fn → Fn) : (s.modFn f k).rtSplit = s.rtSplit := rfl
@[simp] theorem State.modFn_rtEvict (s : State) (f : Nat) (k : Fn → Fn) : (s.modFn f k).rtEvict = s.rtEvict := rfl
@[simp] theorem State.modFn_ports (s : State) (f : Nat) (k : Fn → Fn) : (s.modFn f k).ports = s.ports := rfl
@[simp] theorem State.modFn_vfEnable (s : State) (f : Nat) (k : Fn → Fn) : (s.modFn f k).vfEnable = s.vfEnable := rfl
@[simp] theorem State.modFn_vfMse (s : State) (f : Nat) (k : Fn → Fn) : (s.modFn f k).vfMse = s.vfMse := rfl
@[simp] theorem State.modFn_numVFs (s : State) (f : Nat) (k : Fn → Fn) : (s.modFn f k).numVFs = s.numVFs := rfl
@[simp] theorem State.modFn_decoders (s : State) (f : Nat) (k : Fn → Fn) : (s.modFn f k).decoders = s.decoders := rfl
@[simp] theorem State.modFn_decoderErr (s : State) (f : Nat) (k : Fn → Fn) : (s.modFn f k).decoderErr = s.decoderErr := rfl
@[simp] theorem State.modFn_fuse (s : State) (f : Nat) (k : Fn → Fn) : (s.modFn f k).fuse = s.fuse := rfl
@[simp] theorem State.modFn_fwCounter (s : State) (f : Nat) (k : Fn → Fn) : (s.modFn f k).fwCounter = s.fwCounter := rfl
@[simp] theorem State.modFn_staged (s : State) (f : Nat) (k : Fn → Fn) : (s.modFn f k).staged = s.staged := rfl
@[simp] theorem State.modFn_loaded (s : State) (f : Nat) (k : Fn → Fn) : (s.modFn f k).loaded = s.loaded := rfl
@[simp] theorem State.modFn_meas (s : State) (f : Nat) (k : Fn → Fn) : (s.modFn f k).meas = s.meas := rfl
@[simp] theorem State.modFn_halved (s : State) (f : Nat) (k : Fn → Fn) : (s.modFn f k).halved = s.halved := rfl
@[simp] theorem State.modFn_skipped (s : State) (f : Nat) (k : Fn → Fn) : (s.modFn f k).skipped = s.skipped := rfl
@[simp] theorem State.modFn_hot (s : State) (f : Nat) (k : Fn → Fn) : (s.modFn f k).hot = s.hot := rfl
@[simp] theorem State.modFn_messages (s : State) (f : Nat) (k : Fn → Fn) : (s.modFn f k).messages = s.messages := rfl
@[simp] theorem State.modFn_warned (s : State) (f : Nat) (k : Fn → Fn) : (s.modFn f k).warned = s.warned := rfl
@[simp] theorem State.modFn_bmcLog (s : State) (f : Nat) (k : Fn → Fn) : (s.modFn f k).bmcLog = s.bmcLog := rfl
@[simp] theorem State.modFn_failed (s : State) (f : Nat) (k : Fn → Fn) : (s.modFn f k).failed = s.failed := rfl
@[simp] theorem State.modFn_clock (s : State) (f : Nat) (k : Fn → Fn) : (s.modFn f k).clock = s.clock := rfl
@[simp] theorem State.modFn_tripped (s : State) (f : Nat) (k : Fn → Fn) : (s.modFn f k).tripped = s.tripped := rfl

/-! ### setByte -/

@[simp] theorem State.setByte_agenda (s : State) (k : Nat) (b : Byte) : (s.setByte k b).agenda = s.agenda := rfl
@[simp] theorem State.setByte_cur (s : State) (k : Nat) (b : Byte) : (s.setByte k b).cur = s.cur := rfl
@[simp] theorem State.setByte_turn (s : State) (k : Nat) (b : Byte) : (s.setByte k b).turn = s.turn := rfl
@[simp] theorem State.setByte_tick (s : State) (k : Nat) (b : Byte) : (s.setByte k b).tick = s.tick := rfl
@[simp] theorem State.setByte_handle (s : State) (k : Nat) (b : Byte) : (s.setByte k b).handle = s.handle := rfl
@[simp] theorem State.setByte_gangs (s : State) (k : Nat) (b : Byte) : (s.setByte k b).gangs = s.gangs := rfl
@[simp] theorem State.setByte_teams (s : State) (k : Nat) (b : Byte) : (s.setByte k b).teams = s.teams := rfl
@[simp] theorem State.setByte_launches (s : State) (k : Nat) (b : Byte) : (s.setByte k b).launches = s.launches := rfl
@[simp] theorem State.setByte_slots (s : State) (k : Nat) (b : Byte) : (s.setByte k b).slots = s.slots := rfl
@[simp] theorem State.setByte_groups (s : State) (k : Nat) (b : Byte) : (s.setByte k b).groups = s.groups := rfl
@[simp] theorem State.setByte_spawnUsed (s : State) (k : Nat) (b : Byte) : (s.setByte k b).spawnUsed = s.spawnUsed := rfl
@[simp] theorem State.setByte_draining (s : State) (k : Nat) (b : Byte) : (s.setByte k b).draining = s.draining := rfl
@[simp] theorem State.setByte_qcbWaiting (s : State) (k : Nat) (b : Byte) : (s.setByte k b).qcbWaiting = s.qcbWaiting := rfl
@[simp] theorem State.setByte_misses (s : State) (k : Nat) (b : Byte) : (s.setByte k b).misses = s.misses := rfl
@[simp] theorem State.setByte_covers (s : State) (k : Nat) (b : Byte) : (s.setByte k b).covers = s.covers := rfl
@[simp] theorem State.setByte_unmapping (s : State) (k : Nat) (b : Byte) : (s.setByte k b).unmapping = s.unmapping := rfl
@[simp] theorem State.setByte_waiters (s : State) (k : Nat) (b : Byte) : (s.setByte k b).waiters = s.waiters := rfl
@[simp] theorem State.setByte_overflow (s : State) (k : Nat) (b : Byte) : (s.setByte k b).overflow = s.overflow := rfl
@[simp] theorem State.setByte_ring (s : State) (k : Nat) (b : Byte) : (s.setByte k b).ring = s.ring := rfl
@[simp] theorem State.setByte_lapped (s : State) (k : Nat) (b : Byte) : (s.setByte k b).lapped = s.lapped := rfl
@[simp] theorem State.setByte_gp (s : State) (k : Nat) (b : Byte) : (s.setByte k b).gp = s.gp := rfl
@[simp] theorem State.setByte_tiles (s : State) (k : Nat) (b : Byte) : (s.setByte k b).tiles = s.tiles := rfl
@[simp] theorem State.setByte_copies (s : State) (k : Nat) (b : Byte) : (s.setByte k b).copies = s.copies := rfl
@[simp] theorem State.setByte_mats (s : State) (k : Nat) (b : Byte) : (s.setByte k b).mats = s.mats := rfl
@[simp] theorem State.setByte_gathers (s : State) (k : Nat) (b : Byte) : (s.setByte k b).gathers = s.gathers := rfl
@[simp] theorem State.setByte_hods (s : State) (k : Nat) (b : Byte) : (s.setByte k b).hods = s.hods := rfl
@[simp] theorem State.setByte_nets (s : State) (k : Nat) (b : Byte) : (s.setByte k b).nets = s.nets := rfl
@[simp] theorem State.setByte_hostOps (s : State) (k : Nat) (b : Byte) : (s.setByte k b).hostOps = s.hostOps := rfl
@[simp] theorem State.setByte_remotes (s : State) (k : Nat) (b : Byte) : (s.setByte k b).remotes = s.remotes := rfl
@[simp] theorem State.setByte_lineAsks (s : State) (k : Nat) (b : Byte) : (s.setByte k b).lineAsks = s.lineAsks := rfl
@[simp] theorem State.setByte_badTiles (s : State) (k : Nat) (b : Byte) : (s.setByte k b).badTiles = s.badTiles := rfl
@[simp] theorem State.setByte_outbox (s : State) (k : Nat) (b : Byte) : (s.setByte k b).outbox = s.outbox := rfl
@[simp] theorem State.setByte_umSeen (s : State) (k : Nat) (b : Byte) : (s.setByte k b).umSeen = s.umSeen := rfl
@[simp] theorem State.setByte_umWaits (s : State) (k : Nat) (b : Byte) : (s.setByte k b).umWaits = s.umWaits := rfl
@[simp] theorem State.setByte_umParts (s : State) (k : Nat) (b : Byte) : (s.setByte k b).umParts = s.umParts := rfl
@[simp] theorem State.setByte_fns (s : State) (k : Nat) (b : Byte) : (s.setByte k b).fns = s.fns := rfl
@[simp] theorem State.setByte_order (s : State) (k : Nat) (b : Byte) : (s.setByte k b).order = s.order := rfl
@[simp] theorem State.setByte_acts (s : State) (k : Nat) (b : Byte) : (s.setByte k b).acts = s.acts := rfl
@[simp] theorem State.setByte_poison (s : State) (k : Nat) (b : Byte) : (s.setByte k b).poison = s.poison := rfl
@[simp] theorem State.setByte_malformed (s : State) (k : Nat) (b : Byte) : (s.setByte k b).malformed = s.malformed := rfl
@[simp] theorem State.setByte_bricks (s : State) (k : Nat) (b : Byte) : (s.setByte k b).bricks = s.bricks := rfl
@[simp] theorem State.setByte_llc (s : State) (k : Nat) (b : Byte) : (s.setByte k b).llc = s.llc := rfl
@[simp] theorem State.setByte_hints (s : State) (k : Nat) (b : Byte) : (s.setByte k b).hints = s.hints := rfl
@[simp] theorem State.setByte_wcommit (s : State) (k : Nat) (b : Byte) : (s.setByte k b).wcommit = s.wcommit := rfl
@[simp] theorem State.setByte_windows (s : State) (k : Nat) (b : Byte) : (s.setByte k b).windows = s.windows := rfl
@[simp] theorem State.setByte_turnsUsed (s : State) (k : Nat) (b : Byte) : (s.setByte k b).turnsUsed = s.turnsUsed := rfl
@[simp] theorem State.setByte_vacated (s : State) (k : Nat) (b : Byte) : (s.setByte k b).vacated = s.vacated := rfl
@[simp] theorem State.setByte_parts (s : State) (k : Nat) (b : Byte) : (s.setByte k b).parts = s.parts := rfl
@[simp] theorem State.setByte_mmio (s : State) (k : Nat) (b : Byte) : (s.setByte k b).mmio = s.mmio := rfl
@[simp] theorem State.setByte_flip (s : State) (k : Nat) (b : Byte) : (s.setByte k b).flip = s.flip := rfl
@[simp] theorem State.setByte_hostWaits (s : State) (k : Nat) (b : Byte) : (s.setByte k b).hostWaits = s.hostWaits := rfl
@[simp] theorem State.setByte_coreWaits (s : State) (k : Nat) (b : Byte) : (s.setByte k b).coreWaits = s.coreWaits := rfl
@[simp] theorem State.setByte_ranges (s : State) (k : Nat) (b : Byte) : (s.setByte k b).ranges = s.ranges := rfl
@[simp] theorem State.setByte_contested (s : State) (k : Nat) (b : Byte) : (s.setByte k b).contested = s.contested := rfl
@[simp] theorem State.setByte_rtSplit (s : State) (k : Nat) (b : Byte) : (s.setByte k b).rtSplit = s.rtSplit := rfl
@[simp] theorem State.setByte_rtEvict (s : State) (k : Nat) (b : Byte) : (s.setByte k b).rtEvict = s.rtEvict := rfl
@[simp] theorem State.setByte_ports (s : State) (k : Nat) (b : Byte) : (s.setByte k b).ports = s.ports := rfl
@[simp] theorem State.setByte_vfEnable (s : State) (k : Nat) (b : Byte) : (s.setByte k b).vfEnable = s.vfEnable := rfl
@[simp] theorem State.setByte_vfMse (s : State) (k : Nat) (b : Byte) : (s.setByte k b).vfMse = s.vfMse := rfl
@[simp] theorem State.setByte_numVFs (s : State) (k : Nat) (b : Byte) : (s.setByte k b).numVFs = s.numVFs := rfl
@[simp] theorem State.setByte_decoders (s : State) (k : Nat) (b : Byte) : (s.setByte k b).decoders = s.decoders := rfl
@[simp] theorem State.setByte_decoderErr (s : State) (k : Nat) (b : Byte) : (s.setByte k b).decoderErr = s.decoderErr := rfl
@[simp] theorem State.setByte_fuse (s : State) (k : Nat) (b : Byte) : (s.setByte k b).fuse = s.fuse := rfl
@[simp] theorem State.setByte_fwCounter (s : State) (k : Nat) (b : Byte) : (s.setByte k b).fwCounter = s.fwCounter := rfl
@[simp] theorem State.setByte_staged (s : State) (k : Nat) (b : Byte) : (s.setByte k b).staged = s.staged := rfl
@[simp] theorem State.setByte_loaded (s : State) (k : Nat) (b : Byte) : (s.setByte k b).loaded = s.loaded := rfl
@[simp] theorem State.setByte_meas (s : State) (k : Nat) (b : Byte) : (s.setByte k b).meas = s.meas := rfl
@[simp] theorem State.setByte_halved (s : State) (k : Nat) (b : Byte) : (s.setByte k b).halved = s.halved := rfl
@[simp] theorem State.setByte_skipped (s : State) (k : Nat) (b : Byte) : (s.setByte k b).skipped = s.skipped := rfl
@[simp] theorem State.setByte_hot (s : State) (k : Nat) (b : Byte) : (s.setByte k b).hot = s.hot := rfl
@[simp] theorem State.setByte_messages (s : State) (k : Nat) (b : Byte) : (s.setByte k b).messages = s.messages := rfl
@[simp] theorem State.setByte_warned (s : State) (k : Nat) (b : Byte) : (s.setByte k b).warned = s.warned := rfl
@[simp] theorem State.setByte_bmcLog (s : State) (k : Nat) (b : Byte) : (s.setByte k b).bmcLog = s.bmcLog := rfl
@[simp] theorem State.setByte_failed (s : State) (k : Nat) (b : Byte) : (s.setByte k b).failed = s.failed := rfl
@[simp] theorem State.setByte_clock (s : State) (k : Nat) (b : Byte) : (s.setByte k b).clock = s.clock := rfl
@[simp] theorem State.setByte_tripped (s : State) (k : Nat) (b : Byte) : (s.setByte k b).tripped = s.tripped := rfl

/-! ### note -/

@[simp] theorem State.note_agenda (s : State) (k i : Nat) (old : Byte) : (s.note k i old).agenda = s.agenda := rfl
@[simp] theorem State.note_cur (s : State) (k i : Nat) (old : Byte) : (s.note k i old).cur = s.cur := rfl
@[simp] theorem State.note_turn (s : State) (k i : Nat) (old : Byte) : (s.note k i old).turn = s.turn := rfl
@[simp] theorem State.note_tick (s : State) (k i : Nat) (old : Byte) : (s.note k i old).tick = s.tick := rfl
@[simp] theorem State.note_handle (s : State) (k i : Nat) (old : Byte) : (s.note k i old).handle = s.handle := rfl
@[simp] theorem State.note_gangs (s : State) (k i : Nat) (old : Byte) : (s.note k i old).gangs = s.gangs := rfl
@[simp] theorem State.note_teams (s : State) (k i : Nat) (old : Byte) : (s.note k i old).teams = s.teams := rfl
@[simp] theorem State.note_launches (s : State) (k i : Nat) (old : Byte) : (s.note k i old).launches = s.launches := rfl
@[simp] theorem State.note_slots (s : State) (k i : Nat) (old : Byte) : (s.note k i old).slots = s.slots := rfl
@[simp] theorem State.note_groups (s : State) (k i : Nat) (old : Byte) : (s.note k i old).groups = s.groups := rfl
@[simp] theorem State.note_spawnUsed (s : State) (k i : Nat) (old : Byte) : (s.note k i old).spawnUsed = s.spawnUsed := rfl
@[simp] theorem State.note_draining (s : State) (k i : Nat) (old : Byte) : (s.note k i old).draining = s.draining := rfl
@[simp] theorem State.note_qcbWaiting (s : State) (k i : Nat) (old : Byte) : (s.note k i old).qcbWaiting = s.qcbWaiting := rfl
@[simp] theorem State.note_misses (s : State) (k i : Nat) (old : Byte) : (s.note k i old).misses = s.misses := rfl
@[simp] theorem State.note_covers (s : State) (k i : Nat) (old : Byte) : (s.note k i old).covers = s.covers := rfl
@[simp] theorem State.note_unmapping (s : State) (k i : Nat) (old : Byte) : (s.note k i old).unmapping = s.unmapping := rfl
@[simp] theorem State.note_waiters (s : State) (k i : Nat) (old : Byte) : (s.note k i old).waiters = s.waiters := rfl
@[simp] theorem State.note_overflow (s : State) (k i : Nat) (old : Byte) : (s.note k i old).overflow = s.overflow := rfl
@[simp] theorem State.note_ring (s : State) (k i : Nat) (old : Byte) : (s.note k i old).ring = s.ring := rfl
@[simp] theorem State.note_lapped (s : State) (k i : Nat) (old : Byte) : (s.note k i old).lapped = s.lapped := rfl
@[simp] theorem State.note_gp (s : State) (k i : Nat) (old : Byte) : (s.note k i old).gp = s.gp := rfl
@[simp] theorem State.note_tiles (s : State) (k i : Nat) (old : Byte) : (s.note k i old).tiles = s.tiles := rfl
@[simp] theorem State.note_copies (s : State) (k i : Nat) (old : Byte) : (s.note k i old).copies = s.copies := rfl
@[simp] theorem State.note_mats (s : State) (k i : Nat) (old : Byte) : (s.note k i old).mats = s.mats := rfl
@[simp] theorem State.note_gathers (s : State) (k i : Nat) (old : Byte) : (s.note k i old).gathers = s.gathers := rfl
@[simp] theorem State.note_hods (s : State) (k i : Nat) (old : Byte) : (s.note k i old).hods = s.hods := rfl
@[simp] theorem State.note_nets (s : State) (k i : Nat) (old : Byte) : (s.note k i old).nets = s.nets := rfl
@[simp] theorem State.note_hostOps (s : State) (k i : Nat) (old : Byte) : (s.note k i old).hostOps = s.hostOps := rfl
@[simp] theorem State.note_remotes (s : State) (k i : Nat) (old : Byte) : (s.note k i old).remotes = s.remotes := rfl
@[simp] theorem State.note_lineAsks (s : State) (k i : Nat) (old : Byte) : (s.note k i old).lineAsks = s.lineAsks := rfl
@[simp] theorem State.note_badTiles (s : State) (k i : Nat) (old : Byte) : (s.note k i old).badTiles = s.badTiles := rfl
@[simp] theorem State.note_outbox (s : State) (k i : Nat) (old : Byte) : (s.note k i old).outbox = s.outbox := rfl
@[simp] theorem State.note_umSeen (s : State) (k i : Nat) (old : Byte) : (s.note k i old).umSeen = s.umSeen := rfl
@[simp] theorem State.note_umWaits (s : State) (k i : Nat) (old : Byte) : (s.note k i old).umWaits = s.umWaits := rfl
@[simp] theorem State.note_umParts (s : State) (k i : Nat) (old : Byte) : (s.note k i old).umParts = s.umParts := rfl
@[simp] theorem State.note_fns (s : State) (k i : Nat) (old : Byte) : (s.note k i old).fns = s.fns := rfl
@[simp] theorem State.note_mem (s : State) (k i : Nat) (old : Byte) : (s.note k i old).mem = s.mem := rfl
@[simp] theorem State.note_acts (s : State) (k i : Nat) (old : Byte) : (s.note k i old).acts = s.acts := rfl
@[simp] theorem State.note_poison (s : State) (k i : Nat) (old : Byte) : (s.note k i old).poison = s.poison := rfl
@[simp] theorem State.note_malformed (s : State) (k i : Nat) (old : Byte) : (s.note k i old).malformed = s.malformed := rfl
@[simp] theorem State.note_bricks (s : State) (k i : Nat) (old : Byte) : (s.note k i old).bricks = s.bricks := rfl
@[simp] theorem State.note_llc (s : State) (k i : Nat) (old : Byte) : (s.note k i old).llc = s.llc := rfl
@[simp] theorem State.note_hints (s : State) (k i : Nat) (old : Byte) : (s.note k i old).hints = s.hints := rfl
@[simp] theorem State.note_wcommit (s : State) (k i : Nat) (old : Byte) : (s.note k i old).wcommit = s.wcommit := rfl
@[simp] theorem State.note_windows (s : State) (k i : Nat) (old : Byte) : (s.note k i old).windows = s.windows := rfl
@[simp] theorem State.note_turnsUsed (s : State) (k i : Nat) (old : Byte) : (s.note k i old).turnsUsed = s.turnsUsed := rfl
@[simp] theorem State.note_vacated (s : State) (k i : Nat) (old : Byte) : (s.note k i old).vacated = s.vacated := rfl
@[simp] theorem State.note_parts (s : State) (k i : Nat) (old : Byte) : (s.note k i old).parts = s.parts := rfl
@[simp] theorem State.note_mmio (s : State) (k i : Nat) (old : Byte) : (s.note k i old).mmio = s.mmio := rfl
@[simp] theorem State.note_flip (s : State) (k i : Nat) (old : Byte) : (s.note k i old).flip = s.flip := rfl
@[simp] theorem State.note_hostWaits (s : State) (k i : Nat) (old : Byte) : (s.note k i old).hostWaits = s.hostWaits := rfl
@[simp] theorem State.note_coreWaits (s : State) (k i : Nat) (old : Byte) : (s.note k i old).coreWaits = s.coreWaits := rfl
@[simp] theorem State.note_ranges (s : State) (k i : Nat) (old : Byte) : (s.note k i old).ranges = s.ranges := rfl
@[simp] theorem State.note_contested (s : State) (k i : Nat) (old : Byte) : (s.note k i old).contested = s.contested := rfl
@[simp] theorem State.note_rtSplit (s : State) (k i : Nat) (old : Byte) : (s.note k i old).rtSplit = s.rtSplit := rfl
@[simp] theorem State.note_rtEvict (s : State) (k i : Nat) (old : Byte) : (s.note k i old).rtEvict = s.rtEvict := rfl
@[simp] theorem State.note_ports (s : State) (k i : Nat) (old : Byte) : (s.note k i old).ports = s.ports := rfl
@[simp] theorem State.note_vfEnable (s : State) (k i : Nat) (old : Byte) : (s.note k i old).vfEnable = s.vfEnable := rfl
@[simp] theorem State.note_vfMse (s : State) (k i : Nat) (old : Byte) : (s.note k i old).vfMse = s.vfMse := rfl
@[simp] theorem State.note_numVFs (s : State) (k i : Nat) (old : Byte) : (s.note k i old).numVFs = s.numVFs := rfl
@[simp] theorem State.note_decoders (s : State) (k i : Nat) (old : Byte) : (s.note k i old).decoders = s.decoders := rfl
@[simp] theorem State.note_decoderErr (s : State) (k i : Nat) (old : Byte) : (s.note k i old).decoderErr = s.decoderErr := rfl
@[simp] theorem State.note_fuse (s : State) (k i : Nat) (old : Byte) : (s.note k i old).fuse = s.fuse := rfl
@[simp] theorem State.note_fwCounter (s : State) (k i : Nat) (old : Byte) : (s.note k i old).fwCounter = s.fwCounter := rfl
@[simp] theorem State.note_staged (s : State) (k i : Nat) (old : Byte) : (s.note k i old).staged = s.staged := rfl
@[simp] theorem State.note_loaded (s : State) (k i : Nat) (old : Byte) : (s.note k i old).loaded = s.loaded := rfl
@[simp] theorem State.note_meas (s : State) (k i : Nat) (old : Byte) : (s.note k i old).meas = s.meas := rfl
@[simp] theorem State.note_halved (s : State) (k i : Nat) (old : Byte) : (s.note k i old).halved = s.halved := rfl
@[simp] theorem State.note_skipped (s : State) (k i : Nat) (old : Byte) : (s.note k i old).skipped = s.skipped := rfl
@[simp] theorem State.note_hot (s : State) (k i : Nat) (old : Byte) : (s.note k i old).hot = s.hot := rfl
@[simp] theorem State.note_messages (s : State) (k i : Nat) (old : Byte) : (s.note k i old).messages = s.messages := rfl
@[simp] theorem State.note_warned (s : State) (k i : Nat) (old : Byte) : (s.note k i old).warned = s.warned := rfl
@[simp] theorem State.note_bmcLog (s : State) (k i : Nat) (old : Byte) : (s.note k i old).bmcLog = s.bmcLog := rfl
@[simp] theorem State.note_failed (s : State) (k i : Nat) (old : Byte) : (s.note k i old).failed = s.failed := rfl
@[simp] theorem State.note_clock (s : State) (k i : Nat) (old : Byte) : (s.note k i old).clock = s.clock := rfl
@[simp] theorem State.note_tripped (s : State) (k i : Nat) (old : Byte) : (s.note k i old).tripped = s.tripped := rfl

/-! ### heal -/

@[simp] theorem State.heal_agenda (s : State) (k n : Nat) : (s.heal k n).agenda = s.agenda := rfl
@[simp] theorem State.heal_cur (s : State) (k n : Nat) : (s.heal k n).cur = s.cur := rfl
@[simp] theorem State.heal_turn (s : State) (k n : Nat) : (s.heal k n).turn = s.turn := rfl
@[simp] theorem State.heal_tick (s : State) (k n : Nat) : (s.heal k n).tick = s.tick := rfl
@[simp] theorem State.heal_handle (s : State) (k n : Nat) : (s.heal k n).handle = s.handle := rfl
@[simp] theorem State.heal_gangs (s : State) (k n : Nat) : (s.heal k n).gangs = s.gangs := rfl
@[simp] theorem State.heal_teams (s : State) (k n : Nat) : (s.heal k n).teams = s.teams := rfl
@[simp] theorem State.heal_launches (s : State) (k n : Nat) : (s.heal k n).launches = s.launches := rfl
@[simp] theorem State.heal_slots (s : State) (k n : Nat) : (s.heal k n).slots = s.slots := rfl
@[simp] theorem State.heal_groups (s : State) (k n : Nat) : (s.heal k n).groups = s.groups := rfl
@[simp] theorem State.heal_spawnUsed (s : State) (k n : Nat) : (s.heal k n).spawnUsed = s.spawnUsed := rfl
@[simp] theorem State.heal_draining (s : State) (k n : Nat) : (s.heal k n).draining = s.draining := rfl
@[simp] theorem State.heal_qcbWaiting (s : State) (k n : Nat) : (s.heal k n).qcbWaiting = s.qcbWaiting := rfl
@[simp] theorem State.heal_misses (s : State) (k n : Nat) : (s.heal k n).misses = s.misses := rfl
@[simp] theorem State.heal_covers (s : State) (k n : Nat) : (s.heal k n).covers = s.covers := rfl
@[simp] theorem State.heal_unmapping (s : State) (k n : Nat) : (s.heal k n).unmapping = s.unmapping := rfl
@[simp] theorem State.heal_waiters (s : State) (k n : Nat) : (s.heal k n).waiters = s.waiters := rfl
@[simp] theorem State.heal_overflow (s : State) (k n : Nat) : (s.heal k n).overflow = s.overflow := rfl
@[simp] theorem State.heal_ring (s : State) (k n : Nat) : (s.heal k n).ring = s.ring := rfl
@[simp] theorem State.heal_lapped (s : State) (k n : Nat) : (s.heal k n).lapped = s.lapped := rfl
@[simp] theorem State.heal_gp (s : State) (k n : Nat) : (s.heal k n).gp = s.gp := rfl
@[simp] theorem State.heal_tiles (s : State) (k n : Nat) : (s.heal k n).tiles = s.tiles := rfl
@[simp] theorem State.heal_copies (s : State) (k n : Nat) : (s.heal k n).copies = s.copies := rfl
@[simp] theorem State.heal_mats (s : State) (k n : Nat) : (s.heal k n).mats = s.mats := rfl
@[simp] theorem State.heal_gathers (s : State) (k n : Nat) : (s.heal k n).gathers = s.gathers := rfl
@[simp] theorem State.heal_hods (s : State) (k n : Nat) : (s.heal k n).hods = s.hods := rfl
@[simp] theorem State.heal_nets (s : State) (k n : Nat) : (s.heal k n).nets = s.nets := rfl
@[simp] theorem State.heal_hostOps (s : State) (k n : Nat) : (s.heal k n).hostOps = s.hostOps := rfl
@[simp] theorem State.heal_remotes (s : State) (k n : Nat) : (s.heal k n).remotes = s.remotes := rfl
@[simp] theorem State.heal_lineAsks (s : State) (k n : Nat) : (s.heal k n).lineAsks = s.lineAsks := rfl
@[simp] theorem State.heal_badTiles (s : State) (k n : Nat) : (s.heal k n).badTiles = s.badTiles := rfl
@[simp] theorem State.heal_outbox (s : State) (k n : Nat) : (s.heal k n).outbox = s.outbox := rfl
@[simp] theorem State.heal_umSeen (s : State) (k n : Nat) : (s.heal k n).umSeen = s.umSeen := rfl
@[simp] theorem State.heal_umWaits (s : State) (k n : Nat) : (s.heal k n).umWaits = s.umWaits := rfl
@[simp] theorem State.heal_umParts (s : State) (k n : Nat) : (s.heal k n).umParts = s.umParts := rfl
@[simp] theorem State.heal_fns (s : State) (k n : Nat) : (s.heal k n).fns = s.fns := rfl
@[simp] theorem State.heal_mem (s : State) (k n : Nat) : (s.heal k n).mem = s.mem := rfl
@[simp] theorem State.heal_order (s : State) (k n : Nat) : (s.heal k n).order = s.order := rfl
@[simp] theorem State.heal_acts (s : State) (k n : Nat) : (s.heal k n).acts = s.acts := rfl
@[simp] theorem State.heal_malformed (s : State) (k n : Nat) : (s.heal k n).malformed = s.malformed := rfl
@[simp] theorem State.heal_bricks (s : State) (k n : Nat) : (s.heal k n).bricks = s.bricks := rfl
@[simp] theorem State.heal_llc (s : State) (k n : Nat) : (s.heal k n).llc = s.llc := rfl
@[simp] theorem State.heal_hints (s : State) (k n : Nat) : (s.heal k n).hints = s.hints := rfl
@[simp] theorem State.heal_wcommit (s : State) (k n : Nat) : (s.heal k n).wcommit = s.wcommit := rfl
@[simp] theorem State.heal_windows (s : State) (k n : Nat) : (s.heal k n).windows = s.windows := rfl
@[simp] theorem State.heal_turnsUsed (s : State) (k n : Nat) : (s.heal k n).turnsUsed = s.turnsUsed := rfl
@[simp] theorem State.heal_vacated (s : State) (k n : Nat) : (s.heal k n).vacated = s.vacated := rfl
@[simp] theorem State.heal_parts (s : State) (k n : Nat) : (s.heal k n).parts = s.parts := rfl
@[simp] theorem State.heal_mmio (s : State) (k n : Nat) : (s.heal k n).mmio = s.mmio := rfl
@[simp] theorem State.heal_flip (s : State) (k n : Nat) : (s.heal k n).flip = s.flip := rfl
@[simp] theorem State.heal_hostWaits (s : State) (k n : Nat) : (s.heal k n).hostWaits = s.hostWaits := rfl
@[simp] theorem State.heal_coreWaits (s : State) (k n : Nat) : (s.heal k n).coreWaits = s.coreWaits := rfl
@[simp] theorem State.heal_ranges (s : State) (k n : Nat) : (s.heal k n).ranges = s.ranges := rfl
@[simp] theorem State.heal_contested (s : State) (k n : Nat) : (s.heal k n).contested = s.contested := rfl
@[simp] theorem State.heal_rtSplit (s : State) (k n : Nat) : (s.heal k n).rtSplit = s.rtSplit := rfl
@[simp] theorem State.heal_rtEvict (s : State) (k n : Nat) : (s.heal k n).rtEvict = s.rtEvict := rfl
@[simp] theorem State.heal_ports (s : State) (k n : Nat) : (s.heal k n).ports = s.ports := rfl
@[simp] theorem State.heal_vfEnable (s : State) (k n : Nat) : (s.heal k n).vfEnable = s.vfEnable := rfl
@[simp] theorem State.heal_vfMse (s : State) (k n : Nat) : (s.heal k n).vfMse = s.vfMse := rfl
@[simp] theorem State.heal_numVFs (s : State) (k n : Nat) : (s.heal k n).numVFs = s.numVFs := rfl
@[simp] theorem State.heal_decoders (s : State) (k n : Nat) : (s.heal k n).decoders = s.decoders := rfl
@[simp] theorem State.heal_decoderErr (s : State) (k n : Nat) : (s.heal k n).decoderErr = s.decoderErr := rfl
@[simp] theorem State.heal_fuse (s : State) (k n : Nat) : (s.heal k n).fuse = s.fuse := rfl
@[simp] theorem State.heal_fwCounter (s : State) (k n : Nat) : (s.heal k n).fwCounter = s.fwCounter := rfl
@[simp] theorem State.heal_staged (s : State) (k n : Nat) : (s.heal k n).staged = s.staged := rfl
@[simp] theorem State.heal_loaded (s : State) (k n : Nat) : (s.heal k n).loaded = s.loaded := rfl
@[simp] theorem State.heal_meas (s : State) (k n : Nat) : (s.heal k n).meas = s.meas := rfl
@[simp] theorem State.heal_halved (s : State) (k n : Nat) : (s.heal k n).halved = s.halved := rfl
@[simp] theorem State.heal_skipped (s : State) (k n : Nat) : (s.heal k n).skipped = s.skipped := rfl
@[simp] theorem State.heal_hot (s : State) (k n : Nat) : (s.heal k n).hot = s.hot := rfl
@[simp] theorem State.heal_messages (s : State) (k n : Nat) : (s.heal k n).messages = s.messages := rfl
@[simp] theorem State.heal_warned (s : State) (k n : Nat) : (s.heal k n).warned = s.warned := rfl
@[simp] theorem State.heal_bmcLog (s : State) (k n : Nat) : (s.heal k n).bmcLog = s.bmcLog := rfl
@[simp] theorem State.heal_failed (s : State) (k n : Nat) : (s.heal k n).failed = s.failed := rfl
@[simp] theorem State.heal_clock (s : State) (k n : Nat) : (s.heal k n).clock = s.clock := rfl
@[simp] theorem State.heal_tripped (s : State) (k n : Nat) : (s.heal k n).tripped = s.tripped := rfl

/-! ### What the updates write -/

@[simp] theorem State.setFn_fn (s : State) (f : Nat) (x : Fn) (g : Nat) : (s.setFn f x).fn g = if g = f then x else s.fn g := by
  exact Store.get_set {} s.fns f g x

@[simp] theorem State.modFn_fn (s : State) (f : Nat) (k : Fn → Fn) (g : Nat) :
    (s.modFn f k).fn g = if g = f then k (s.fn f) else s.fn g := by
  simp only [State.modFn, State.setFn_fn]

@[simp] theorem State.setReg_reg (s : State) (a : Nat) (v : Word) (b : Nat) : (s.setReg a v).reg b = if b = a then v else s.reg b := by
  simp [State.setReg, State.reg]
  by_cases hv : v = resetWord a
  · by_cases h : b = a <;> simp [hv, h]
  · by_cases h : b = a <;> simp [hv, h]

@[simp] theorem State.setFreg_freg (s : State) (f a : Nat) (v : Word) (b : Nat) :
    (s.setFreg f a v).freg f b = if b = a then v else s.freg f b := by
  simp [State.setFreg, State.freg]

@[simp] theorem State.setByte_byte (s : State) (k : Nat) (b : Byte) (j : Nat) :
    (s.setByte k b).byte j = if j = k then b else s.byte j := by
  simp [State.setByte, State.byte]

theorem State.setFreg_ffield (s : State) (f a : Nat) (v : Word) (b hi lo : Nat) :
    (s.setFreg f a v).ffield f b hi lo = if b = a then v.field hi lo else s.ffield f b hi lo := by
  simp only [State.ffield, State.setFreg_freg]
  split <;> rfl

end Sys2Proof.Machine
end

