-- ==== Sys2Proof/Laws/Memory.lean ====
section
/-! SUPPORT. What a write of memory may change, said once for each operation of Machine/Memory.lean and for the stores, records
and logs of Machine/Ops.lean: memory and what goes with it, in the canonical form. -/

namespace Sys2Proof.Machine

/-! ### Keeping memory and what goes with it apart from the rest -/

/-- From `s` to `t` nothing changes but memory, which keeps its canonical form, the order of its writes, bricks and their places,
poison, the counts of malformed lines, the tracked ranges and the free choices made. -/
structure Stores (s t : State) : Prop where
  rest : t = { s with mem := t.mem, order := t.order, bricks := t.bricks, llc := t.llc, poison := t.poison
                      malformed := t.malformed, ranges := t.ranges, contested := t.contested, rtSplit := t.rtSplit
                      rtEvict := t.rtEvict, tick := t.tick }
  wf : Memory.wf s.mem = true → Memory.wf t.mem = true

theorem Stores.refl (s : State) : Stores s s := ⟨rfl, id⟩

theorem Stores.trans {s t u : State} (h : Stores s t) (k : Stores t u) : Stores s u := by
  refine ⟨?_, fun w => k.wf (h.wf w)⟩
  rw [k.rest, h.rest]

theorem Stores.foldl {β : Type} (l : List β) (f : State → β → State) (h : ∀ s b, Stores s (f s b)) (s : State) :
    Stores s (l.foldl f s) := by
  induction l generalizing s with
  | nil => exact .refl s
  | cons b r ih => exact (h s b).trans (ih _)

theorem setByte_stores (s : State) (k : Nat) (b : Byte) : Stores s (s.setByte k b) :=
  ⟨rfl, fun h => Store.wf_set Memory.unlisted s.mem k b h⟩

theorem note_stores (s : State) (k i : Nat) (b : Byte) : Stores s (s.note k i b) := ⟨rfl, id⟩

theorem heal_stores (s : State) (k n : Nat) : Stores s (s.heal k n) := ⟨rfl, id⟩

theorem wf_setBytes (bs : List Byte) : ∀ (m : List Host.Cell) (k : Nat), Memory.wf m = true → Memory.wf (setBytes m k bs) = true := by
  induction bs with
  | nil => exact fun m k h => h
  | cons b r ih => exact fun m k h => ih _ _ (Store.wf_set Memory.unlisted m k b h)

theorem rawWrite_stores (s : State) (k : Nat) (bs : List Byte) : Stores s (s.rawWrite k bs) := by
  have h := Stores.foldl (List.range bs.length) (fun (s : State) i => s.note (k + i) i (s.byte (k + i)))
    (fun s i => note_stores s _ _ _) s
  refine ⟨?_, fun w => wf_setBytes bs _ _ (h.wf w)⟩
  show _ = _
  unfold State.rawWrite
  simp only
  generalize (List.range bs.length).foldl (fun (s : State) i => s.note (k + i) i (s.byte (k + i))) s = u at h
  rw [h.rest]

theorem setRawWord_stores (s : State) (k : Nat) (w : Word) : Stores s (s.setRawWord k w) := rawWrite_stores s k _

theorem healPieces_stores (s : State) (ks : List (Nat × Nat)) : Stores s (s.healPieces ks) := ⟨rfl, id⟩

theorem poisonPlanes_stores (s : State) (w : Window) (k : Nat) : Stores s (s.poisonPlanes w k) := ⟨rfl, id⟩

theorem poisonView_stores (s : State) (k : Nat) : Stores s (s.poisonView k) := ⟨rfl, id⟩

theorem putBricks_stores (s : State) (l : List Brick) (c : List (BrickTag × Nat)) :
    Stores s { s with bricks := l, llc := c } := ⟨rfl, id⟩

theorem writeBack_stores (s : State) (b : Brick) : Stores s (s.writeBack b) := by
  unfold State.writeBack
  split
  · exact (rawWrite_stores s _ _).trans (poisonPlanes_stores _ _ _)
  · exact .refl s

theorem dropBrick_stores (s : State) (b : Brick) : Stores s (s.dropBrick b) :=
  (putBricks_stores s _ _).trans (writeBack_stores _ b)

theorem cleanBrick_stores (s : State) (b : Brick) : Stores s (s.cleanBrick b) :=
  (putBricks_stores s _ s.llc).trans (writeBack_stores _ b)

theorem yieldBrick_stores (s : State) (b : Brick) : Stores s (s.yieldBrick b) := by
  unfold State.yieldBrick
  split
  · exact cleanBrick_stores s b
  · exact dropBrick_stores s b

theorem recall_stores (s : State) (p : Brick → Bool) : Stores s (s.recall p) := Stores.foldl _ _ dropBrick_stores s

theorem recallOthers_stores (s : State) (f k : Nat) : Stores s (s.recallOthers f k) :=
  (Stores.foldl _ _ yieldBrick_stores s).trans ⟨rfl, id⟩

theorem shareLine_stores (s : State) (f k : Nat) : Stores s (s.shareLine f k) := Stores.foldl _ _ yieldBrick_stores s

theorem recallSources_stores (s : State) (k : Nat) : Stores s (s.recallSources k) := by
  unfold State.recallSources
  exact recall_stores s _

theorem evict_stores (s : State) (tag : BrickTag) : Stores s (s.evict tag) := by
  unfold State.evict
  split
  · exact dropBrick_stores s _
  · exact ⟨rfl, id⟩

theorem allocate_stores (s : State) (tag : BrickTag) (k : Nat) : Stores s (s.allocate tag k) := by
  unfold State.allocate
  simp only
  split
  · exact .refl s
  · split
    · exact ⟨rfl, id⟩
    · split
      · exact (evict_stores s _).trans ⟨rfl, id⟩
      · exact .refl s

theorem putFill_stores (s : State) (l : List Brick) (m : Store Nat) : Stores s { s with bricks := l, malformed := m } := ⟨rfl, id⟩

theorem fillBrick_stores (s : State) (tag : BrickTag) (k : Nat) : Stores s (s.fillBrick tag k) := by
  have h := shareLine_stores s tag.func k
  unfold State.fillBrick
  simp only
  generalize s.shareLine tag.func k = u at h ⊢
  split
  · split
    · exact h.trans (putFill_stores u _ _)
    · exact h
  · exact .refl s

theorem fillLine_stores (s : State) (tag : BrickTag) (k : Nat) : Stores s (s.fillLine tag k) :=
  (allocate_stores s tag k).trans (fillBrick_stores _ tag k)

theorem writeByte_stores (s : State) (f k i : Nat) (b : Byte) : Stores s (s.writeByte f k i b) := by
  have h := (note_stores s k i (s.readByte f k)).trans (recallOthers_stores _ f k)
  unfold State.writeByte
  simp only
  generalize (s.note k i (s.readByte f k)).recallOthers f k = u at h ⊢
  have g : Stores u (if (u.brickAt (linTag f k)).isNone then u.poisonView k else u) := by
    split
    · exact poisonView_stores u k
    · exact .refl u
  generalize (if (u.brickAt (linTag f k)).isNone then u.poisonView k else u) = v at g
  split
  · exact (h.trans g).trans (putBricks_stores v _ v.llc)
  · exact h.trans (setByte_stores _ _ _)

theorem writeBytes_stores (s : State) (f k : Nat) (bs : List Byte) :
    Stores s ((List.range bs.length).foldl (fun s i => s.writeByte f (k + i) i (bs.getD i 0)) s) :=
  Stores.foldl _ _ (fun s _ => writeByte_stores s f _ _ _) s

/-- What an access of another agent writes. -/
theorem overwrite_stores (s : State) (f k : Nat) (bs : List Byte) : Stores s (s.overwrite f k bs) :=
  ((Stores.foldl _ _ (fun s line => recallSources_stores s (128 * line)) s).trans (writeBytes_stores _ f k bs)).trans
    (heal_stores _ _ _)

theorem recallRange_stores (s : State) (e : RangeEntry) : Stores s (s.recallRange e) := by
  unfold State.recallRange
  simp only
  split
  · exact .refl s
  · exact (Stores.foldl _ _ yieldBrick_stores s).trans ⟨rfl, id⟩

/-- What an access does to the tracked ranges. -/
theorem track_stores (s : State) (chiplet : Bool) (k : Nat) : Stores s (s.track chiplet k) := by
  unfold State.track
  simp only
  split
  · exact (recallRange_stores s _).trans ⟨rfl, id⟩
  · exact ⟨rfl, id⟩

/-- Nothing changes either but functions, registers and messages: what logs, fault queues and undo logs need. -/
structure Writes (s t : State) : Prop where
  rest : t = { s with mem := t.mem, order := t.order, bricks := t.bricks, llc := t.llc, poison := t.poison
                      malformed := t.malformed, ranges := t.ranges, contested := t.contested, rtSplit := t.rtSplit
                      rtEvict := t.rtEvict, tick := t.tick, fns := t.fns, mmio := t.mmio, messages := t.messages }
  wf : Memory.wf s.mem = true → Memory.wf t.mem = true

theorem Writes.refl (s : State) : Writes s s := ⟨rfl, id⟩

theorem Writes.trans {s t u : State} (h : Writes s t) (k : Writes t u) : Writes s u := by
  refine ⟨?_, fun w => k.wf (h.wf w)⟩
  rw [k.rest, h.rest]

theorem Stores.writes {s t : State} (h : Stores s t) : Writes s t := by
  refine ⟨?_, h.wf⟩
  rw [h.rest]

theorem Writes.foldl {β : Type} (l : List β) (f : State → β → State) (h : ∀ s b, Writes s (f s b)) (s : State) :
    Writes s (l.foldl f s) := by
  induction l generalizing s with
  | nil => exact .refl s
  | cons b r ih => exact (h s b).trans (ih _)

theorem setReg_writes (s : State) (off : Nat) (v : Word) : Writes s (s.setReg off v) := ⟨rfl, id⟩
theorem setFreg_writes (s : State) (f off : Nat) (v : Word) : Writes s (s.setFreg f off v) := ⟨rfl, id⟩
theorem count_writes (s : State) (f off : Nat) : Writes s (s.count f off) := ⟨rfl, id⟩
theorem modFn_writes (s : State) (f : Nat) (k : Fn → Fn) : Writes s (s.modFn f k) := ⟨rfl, id⟩
theorem setFn_writes (s : State) (f : Nat) (x : Fn) : Writes s (s.setFn f x) := ⟨rfl, id⟩

theorem raiseVector_writes (s : State) (f v : Nat) : Writes s (s.raiseVector f v) := by
  unfold State.raiseVector
  split
  · exact setFreg_writes s _ _ _
  · exact ⟨rfl, id⟩

/-! ### The undo log -/

theorem putLog_stores (s : State) (f pos : Nat) (bs : List Byte) : Stores s (s.putLog f pos bs) :=
  ⟨rfl, fun h => Store.wf_foldl_set Memory.unlisted _ _ _ s.mem h⟩

theorem logEntry_stores (s : State) (f : Nat) (k : Ckpt) (kind item who : Nat) (cmt : Bool) (addr : Nat) (payload : List Byte) :
    Stores s (s.logEntry f k kind item who cmt addr payload).1 := putLog_stores s f _ _

theorem setCkpt_writes (s : State) (f : Nat) (k : Ckpt) : Writes s (s.setCkpt f k) := modFn_writes s f _

theorem logOld_writes (s : State) (f line : Nat) (old : List Byte) : Writes s (s.logOld f line old) := by
  unfold State.logOld
  split
  · exact .refl s
  · split
    · exact .refl s
    · exact (logEntry_stores s f _ _ _ _ _ _ _).writes.trans (setCkpt_writes _ _ _)

theorem logLine_writes (s : State) (f line : Nat) : Writes s (s.logLine f line) := logOld_writes s f line _

theorem logCommit_writes (s : State) (f kind item who addr : Nat) : Writes s (s.logCommit f kind item who addr) := by
  unfold State.logCommit
  split
  · exact .refl s
  · exact (logEntry_stores s f _ _ _ _ _ _ _).writes.trans (setCkpt_writes _ _ _)

theorem patchLog_writes (s : State) (f k : Nat) (bs : List Byte) : Writes s (s.patchLog f k bs) := by
  unfold State.patchLog
  split
  · exact .refl s
  · refine (Stores.foldl _ _ (fun s (u : UndoLine) => ?_) s).writes.trans (modFn_writes _ f _)
    show Stores s (if _ then _ else _)
    split
    · exact .refl s
    · exact putLog_stores s f _ _

/-- A write that is never undone. -/
theorem plainStore_writes (s : State) (f k : Nat) (bs : List Byte) : Writes s (s.plainStore f k bs) :=
  (overwrite_stores s f k bs).writes.trans (patchLog_writes _ f k bs)

theorem store_writes (s : State) (f k : Nat) (bs : List Byte) (commit : Bool) : Writes s (s.store f k bs commit) := by
  unfold State.store
  split
  · exact (Writes.foldl _ _ (fun s line => logCommit_writes s f 1 0 0 (128 * line)) s).trans (plainStore_writes _ f k _)
  · exact (Writes.foldl _ _ (fun s line => logLine_writes s f line) s).trans (overwrite_stores _ f k _).writes

theorem deviceWrite_writes {s t : State} {f va : Nat} {ws : List Word} (h : s.deviceWrite f va ws = some t) : Writes s t := by
  unfold State.deviceWrite at h
  split at h
  · cases h; exact (track_stores s _ _).writes.trans (plainStore_writes _ _ _ _)
  · cases h

/-! ### Fault records -/

theorem log1_writes (s : State) (f : Nat) (ws : List Word) : Writes s (s.log1 f ws) := by
  unfold State.log1
  simp only
  split
  · exact setFreg_writes s _ _ _
  · split
    · rename_i t h
      exact (deviceWrite_writes h).trans (setFreg_writes _ _ _ _)
    · exact .refl s

theorem logAll_writes (s : State) (f : Nat) (ws : List Word) (exts : List (List Word)) : Writes s (s.logAll f ws exts) :=
  (log1_writes s f ws).trans (Writes.foldl exts _ (fun s x => log1_writes s f x) _)

theorem logImprecise_writes (s : State) (f lid code elem addr : Nat) : Writes s (s.logImprecise f lid code elem addr) :=
  log1_writes s f _

theorem queueFault_writes {s t : State} {f n e : Nat} {recs : List (List Word)} (h : s.queueFault f recs = some (t, n, e)) :
    Writes s t := by
  have fold : ∀ (at_ : Nat → Nat) (l : List Nat) (o : Option State), (∀ u, o = some u → Writes s u) →
      ∀ u, l.foldl (fun (o : Option State) i => o.bind fun s => s.deviceWrite f (at_ i) (recs.getD i [])) o = some u → Writes s u := by
    intro at_ l
    induction l with
    | nil => exact fun o ho u hu => ho u hu
    | cons i r ih =>
      intro o ho
      refine ih _ fun u hu => ?_
      cases o with
      | none => simp at hu
      | some v => exact (ho v rfl).trans (deviceWrite_writes (by simpa using hu))
  unfold State.queueFault at h
  simp only at h
  split at h
  · rw [Option.map_eq_some_iff] at h
    obtain ⟨u, hu, he⟩ := h
    cases he
    exact (fold _ _ _ (fun v hv => by cases hv; exact .refl s) u hu).trans ((setFreg_writes _ _ _ _).trans (raiseVector_writes _ _ _))
  · cases h

theorem plainWord_writes (s : State) (f k : Nat) (w : Word) : Writes s (s.plainWord f k w) :=
  (setRawWord_stores s k w).writes.trans (patchLog_writes _ f k _)

theorem charge_writes {s t : State} {f agent : Nat} {w : Walked} (h : s.charge f agent w = some t) : Writes s t := by
  unfold State.charge at h
  simp only at h
  split at h
  · split at h
    · cases h
    · cases h
      exact (plainWord_writes s _ _ _).trans (plainWord_writes _ _ _ _)
  · cases h
    exact .refl s

theorem admit_writes {s t : State} {f agent va key : Nat} {acc : Acc} (h : s.permit f agent va acc = .inr (key, t)) :
    Writes s t := by
  unfold State.permit at h
  split at h
  · cases h
  · split at h
    · cases h
    · split at h
      · rename_i hc
        cases h
        exact charge_writes hc
      · cases h

end Sys2Proof.Machine
end

