-- ==== Sys2Proof/Laws/Ops.lean ====
section
/-! SUPPORT. Laws of the shared operations of Machine/Ops.lean and Machine/Operands.lean: what the running split's context
is, what going on to the next instruction leaves, and what the writes of registers leave. -/

namespace Sys2Proof.Machine

/-! ### The context -/

@[simp] theorem Cx.setS_s (c : Cx) (n : Nat) (w : Word) : (c.setS n w).s = c.s := rfl
@[simp] theorem Cx.setS_g (c : Cx) (n : Nat) (w : Word) : (c.setS n w).g = c.g := rfl
@[simp] theorem Cx.setS_sp (c : Cx) (n : Nat) (w : Word) : (c.setS n w).sp = c.sp := rfl
@[simp] theorem Cx.setS_G (c : Cx) (n : Nat) (w : Word) : (c.setS n w).G = c.G := rfl
@[simp] theorem Cx.setS_P (c : Cx) (n : Nat) (w : Word) : (c.setS n w).P = c.P.setS n w := rfl
@[simp] theorem Cx.setP_s (c : Cx) (n : Nat) (x m : Mask) : (c.setP n x m).s = c.s := rfl
@[simp] theorem Cx.setP_g (c : Cx) (n : Nat) (x m : Mask) : (c.setP n x m).g = c.g := rfl
@[simp] theorem Cx.setP_sp (c : Cx) (n : Nat) (x m : Mask) : (c.setP n x m).sp = c.sp := rfl
@[simp] theorem Cx.setP_G (c : Cx) (n : Nat) (x m : Mask) : (c.setP n x m).G = c.G.setP n x m := rfl
@[simp] theorem Cx.setP_P (c : Cx) (n : Nat) (x m : Mask) : (c.setP n x m).P = c.P := rfl
@[simp] theorem Cx.setV_s (c : Cx) (r l : Nat) (x : Lane32) : (c.setV r l x).s = c.s := rfl
@[simp] theorem Cx.setV_P (c : Cx) (r l : Nat) (x : Lane32) : (c.setV r l x).P = c.P := rfl

theorem cx?_s {s : State} {g sp : Nat} {c : Cx} (h : s.cx? g sp = some c) : c.s = s ∧ c.g = g ∧ c.sp = sp := by
  simp only [State.cx?, Option.bind_eq_some_iff, Option.map_eq_some_iff] at h
  obtain ⟨G, -, P, -, rfl⟩ := h
  exact ⟨rfl, rfl, rfl⟩

theorem cx?_found {s : State} {g sp : Nat} {c : Cx} (h : s.cx? g sp = some c) :
    s.gangs.find? g = some c.G ∧ c.G.splits.find? sp = some c.P := by
  simp only [State.cx?, Option.bind_eq_some_iff, Option.map_eq_some_iff] at h
  obtain ⟨G, hG, P, hP, rfl⟩ := h
  exact ⟨hG, hP⟩

theorem Runs.state {s : State} {c : Cx} (h : Runs s c) : c.s = s := (cx?_s h.2).1

/-- An instruction's effect is applied to the running split's context. -/
theorem issue_of_runs {s : State} {c : Cx} (h : Runs s c) (k : Cx → State) : s.issue k = .next (k c) := by
  simp [State.issue, h.1, h.2]

/-- Without a running split the model stops. -/
theorem issue_none {s : State} (h : s.cur = none) (k : Cx → State) : s.issue k = .fault .noSplit := by
  simp [State.issue, h]

/-! ### Storing the context back -/

theorem flush_gang (c : Cx) (h : Nat) :
    c.flush.gangs.find? h = if h = c.g then some { c.G with splits := c.G.splits.put c.sp c.P } else c.s.gangs.find? h := by
  simp [Cx.flush]

theorem flush_cx? (c : Cx) :
    c.flush.cx? c.g c.sp = some { c with s := c.flush, G := { c.G with splits := c.G.splits.put c.sp c.P } } := by
  simp [State.cx?, flush_gang]

theorem flush_readByte (c : Cx) (f k : Nat) : c.flush.readByte f k = c.s.readByte f k := rfl

theorem flush_cur (c : Cx) : c.flush.cur = c.s.cur := rfl

/-! ### Going on -/

theorem ageLate_of_none {c : Cx} (h : c.P.late = []) : c.ageLate = c := by
  obtain ⟨s, g, sp, G, P⟩ := c
  obtain ⟨⟩ := P
  simp_all [Cx.ageLate]

theorem settle_of_none {c : Cx} (h : c.P.late = []) : c.settle = c := by
  obtain ⟨s, g, sp, G, P⟩ := c
  obtain ⟨⟩ := P
  simp_all [Cx.settle]

/-- In the midst of a clause the split goes on at the next word. -/
theorem retire_steady {c : Cx} (h : Steady c) : c.retire = c.advance.flush := by
  obtain ⟨hl, cl, hc, hp⟩ := h
  simp [Cx.retire, ageLate_of_none hl, hc, hp, Cx.advance, Cx.word?]

theorem Steady.of_P {c d : Cx} (h : Steady c) (hl : d.P.late = c.P.late) (hc : d.P.clause = c.P.clause) : Steady d := by
  obtain ⟨h1, cl, h2, h3⟩ := h
  exact ⟨hl.trans h1, cl, hc.trans h2, h3⟩

@[simp] theorem setS_late (P : Split) (n : Nat) (w : Word) : (P.setS n w).late = P.late := by
  unfold Split.setS; repeat' split
  all_goals rfl
@[simp] theorem setS_clause (P : Split) (n : Nat) (w : Word) : (P.setS n w).clause = P.clause := by
  unfold Split.setS; repeat' split
  all_goals rfl
@[simp] theorem setS_pc (P : Split) (n : Nat) (w : Word) : (P.setS n w).pc = P.pc := by
  unfold Split.setS; repeat' split
  all_goals rfl
@[simp] theorem setS_member (P : Split) (n : Nat) (w : Word) : (P.setS n w).member = P.member := by
  unfold Split.setS; repeat' split
  all_goals rfl

theorem setS_eq (P : Split) (n : Nat) (w : Word) :
    P.setS n w = { P with s := (P.setS n w).s, active := (P.setS n w).active } := by
  unfold Split.setS; repeat' split
  all_goals rfl

/-! ### Masks -/

theorem powerSum_lt (f : Nat → Bool) (n : Nat) : ((List.range n).map fun i => if f i then 2 ^ i else 0).sum < 2 ^ n := by
  induction n with
  | zero => simp
  | succ n ih =>
    rw [List.range_succ, List.map_append, List.sum_append_nat, Nat.pow_succ]
    by_cases h : f n <;> simp [h] <;> omega

/-- The bits of a sum of distinct powers of two. -/
theorem powerSum_testBit (f : Nat → Bool) (n l : Nat) :
    ((List.range n).map fun i => if f i then 2 ^ i else 0).sum.testBit l = (decide (l < n) && f l) := by
  induction n with
  | zero => simp
  | succ n ih =>
    rw [List.range_succ, List.map_append, List.sum_append_nat]
    have hs := powerSum_lt f n
    have key := Nat.testBit_two_pow_mul_add (if f n then 1 else 0) hs l
    have e : ((List.map (fun i => if f i then 2 ^ i else 0) [n]).sum : Nat) = 2 ^ n * (if f n then 1 else 0) := by
      by_cases h : f n <;> simp [h]
    rw [e, Nat.add_comm, key, ih]
    by_cases hl : l < n
    · simp [hl, Nat.lt_succ_of_lt hl]
    · by_cases he : l = n
      · subst he; by_cases h : f l <;> simp [h]
      · have h1 : ¬ l < n + 1 := by omega
        have h2 : Nat.testBit 1 (l - n) = false := by
          rw [show l - n = (l - n - 1) + 1 by omega, Nat.testBit_succ]; simp
        by_cases h : f n <;> simp [h, hl, h1, h2]

/-- Lane l of a mask picked by a predicate. -/
@[simp] theorem maskOf_lane (f : Nat → Bool) (l : Nat) : (maskOf f).getLsbD l = (decide (l < 96) && f l) := by
  simp only [maskOf, BitVec.getLsbD_ofNat, powerSum_testBit]
  by_cases h : l < 96 <;> simp [h]


/-- Lanes 32w to 32w + 31 of a mask. -/
theorem maskWord_bit (m : Mask) (w l : Nat) :
    (maskWord m w).getLsbD l = (decide (l < 32) && m.getLsbD (32 * w + l)) := by
  rw [maskWord, BitVec.getLsbD_ofNat, Nat.testBit_mod_two_pow, Nat.testBit_div_two_pow, Nat.add_comm]
  by_cases h : l < 32
  · have h2 : l < 64 := by omega
    rw [decide_eq_true h, decide_eq_true h2, Bool.true_and, Bool.true_and]
    rfl
  · simp only [decide_eq_false h, Bool.false_and, Bool.and_false]

theorem mem_lanesOf (m : Mask) (l : Nat) : l ∈ lanesOf m ↔ m.getLsbD l = true := by
  simp only [lanesOf, List.mem_filter, List.mem_range]
  exact ⟨fun h => h.2, fun h => ⟨BitVec.lt_of_getLsbD h, h⟩⟩

@[simp] theorem allLanes_lane (l : Nat) : allLanes.getLsbD l = decide (l < 96) := by
  rw [allLanes, BitVec.getLsbD_allOnes]

/-! ### Scalar registers -/

theorem wroteScalar_setS (c d : Cx) (n : Nat) (w : Word) (hn : n < 64)
    (hs : d.P.s = (c.P.setS n w).s) (ha : d.P.active = (c.P.setS n w).active) : WroteScalar c d n w := by
  have hr : ∀ m, m < 61 → d.sreg m = (c.P.setS n w).sreg m := by
    intro m hm
    simp [Cx.sreg, Split.sreg, hs, hm]
  by_cases h0 : n = 0
  · have e : c.P.setS n w = c.P := by simp [Split.setS, h0]
    rw [e] at ha hr
    refine ⟨fun _ => ?_, fun h => by omega, fun _ => ha, fun m hm _ => hr m hm⟩
    simp [h0, Cx.sreg, Split.sreg]
  · by_cases h1 : n < 61
    · have e : c.P.setS n w = { c.P with s := c.P.s.set 0 n w } := by simp [Split.setS, h0, h1]
      rw [e] at ha hr
      refine ⟨fun _ => ?_, fun h => by omega, fun _ => ha, fun m hm hne => ?_⟩
      · simp [hr n h1, Split.sreg, h0, h1]
      · rw [hr m hm]; simp [Cx.sreg, Split.sreg, hne]
    · rw [Split.setS, if_neg h0, if_neg h1] at ha hr
      refine ⟨fun h => absurd h h1, fun _ l hl => ?_, fun h => absurd h h1, fun m hm _ => ?_⟩
      · rw [ha]
        have e : (32 * (n - 61) ≤ l ∧ l < 32 * (n - 61) + 32) ↔ l / 32 = n - 61 := by omega
        have e2 : l / 32 = n - 61 → l - 32 * (n - 61) = l % 32 := by omega
        simp only [BitVec.getLsbD_and, maskOf_lane, e, decide_eq_true hl, Bool.true_and]
        by_cases hq : l / 32 = n - 61
        · simp only [hq, if_true, e2 hq]
        · simp only [hq, if_false]
      · rw [hr m hm]; simp [Cx.sreg, Split.sreg, hm]

/-! ### Lane registers -/

theorem applyVs_find (G : Gang) (vs : List (Nat × Lane32)) :
    (applyVs G vs).v = vs.foldl (fun m q => m.set 0 q.1 q.2) G.v ∧
      applyVs G vs = { G with v := (applyVs G vs).v } := by
  induction vs generalizing G with
  | nil => exact ⟨rfl, rfl⟩
  | cons q r ih =>
    obtain ⟨h1, h2⟩ := ih { G with v := G.v.set 0 q.1 q.2 }
    exact ⟨h1, h2⟩

/-- A register that no write names keeps its value. -/
theorem foldl_set_other (vs : List (Nat × Lane32)) (m : Store Lane32) (k : Nat) (h : ∀ q ∈ vs, q.1 ≠ k) :
    (vs.foldl (fun m q => m.set 0 q.1 q.2) m).get 0 k = m.get 0 k := by
  induction vs generalizing m with
  | nil => rfl
  | cons q r ih =>
    rw [List.foldl_cons, ih _ fun p hp => h p (List.mem_cons_of_mem _ hp)]
    simp [Ne.symm (h q List.mem_cons_self)]

/-- A register whose writes all give it one value holds that value. -/
theorem foldl_set_same (vs : List (Nat × Lane32)) (m : Store Lane32) (k : Nat) (x : Lane32)
    (h : ∀ q ∈ vs, q.1 = k → q.2 = x) (hm : ∃ q ∈ vs, q.1 = k) :
    (vs.foldl (fun m q => m.set 0 q.1 q.2) m).get 0 k = x := by
  induction vs generalizing m with
  | nil => simp at hm
  | cons q r ih =>
    rw [List.foldl_cons]
    by_cases hr : ∃ p ∈ r, p.1 = k
    · exact ih _ (fun p hp => h p (List.mem_cons_of_mem _ hp)) hr
    · have hq : q.1 = k := by
        obtain ⟨p, hp, hk⟩ := hm
        rcases List.mem_cons.1 hp with rfl | hp
        · exact hk
        · exact absurd ⟨p, hp, hk⟩ hr
      rw [foldl_set_other r _ k fun p hp hk => hr ⟨p, hp, hk⟩]
      simp [hq, h q List.mem_cons_self hq]

theorem mem_laneWrites {m : Mask} {r : Nat} {pair : Bool} {f : Nat → Nat} {q : Nat × Lane32} :
    q ∈ laneWrites m r pair f ↔ ∃ l, m.getLsbD l = true ∧
      (q = (96 * r + l, BitVec.ofNat 32 (f l)) ∨ pair = true ∧ q = (96 * (r + 1) + l, BitVec.ofNat 32 (f l / 2 ^ 32))) := by
  simp only [laneWrites, List.mem_flatMap, mem_lanesOf]
  constructor
  · rintro ⟨l, hl, h⟩
    refine ⟨l, hl, ?_⟩
    cases pair <;> simp_all
  · rintro ⟨l, hl, h⟩
    refine ⟨l, hl, ?_⟩
    cases pair <;> simp_all

theorem wroteLanes_deliver (c d : Cx) (m : Mask) (r : Nat) (pair : Bool) (f : Nat → Nat)
    (h : d.G.v = (applyVs c.G (laneWrites m r pair f)).v) : WroteLanes c d m r pair f := by
  have hv : ∀ n l, d.vreg n l
      = ((laneWrites m r pair f).foldl (fun m q => m.set 0 q.1 q.2) c.G.v).get 0 (96 * n + l) := by
    intro n l
    simp [Cx.vreg, Gang.vreg, h, (applyVs_find c.G _).1]
  refine ⟨fun l hl => ?_, fun hp l hl => ?_, fun n l hl96 hno => ?_⟩
  · have h96 := BitVec.lt_of_getLsbD hl
    rw [hv]
    refine foldl_set_same _ _ _ _ (fun q hq hk => ?_) ⟨_, mem_laneWrites.2 ⟨l, hl, Or.inl rfl⟩, rfl⟩
    obtain ⟨j, hj, rfl | ⟨-, rfl⟩⟩ := mem_laneWrites.1 hq
    · have : j = l := by simp only at hk; omega
      rw [this]
    · have := BitVec.lt_of_getLsbD hj
      simp only at hk; omega
  · have h96 := BitVec.lt_of_getLsbD hl
    rw [hv]
    refine foldl_set_same _ _ _ _ (fun q hq hk => ?_) ⟨_, mem_laneWrites.2 ⟨l, hl, Or.inr ⟨hp, rfl⟩⟩, rfl⟩
    obtain ⟨j, hj, rfl | ⟨-, rfl⟩⟩ := mem_laneWrites.1 hq
    · have := BitVec.lt_of_getLsbD hj
      simp only at hk; omega
    · have : j = l := by simp only at hk; omega
      rw [this]
  · rw [hv, foldl_set_other]
    · rfl
    · intro q hq hk
      obtain ⟨j, hj, rfl | ⟨hp, rfl⟩⟩ := mem_laneWrites.1 hq
      · have := BitVec.lt_of_getLsbD hj
        simp only at hk
        exact hno ⟨by rwa [show l = j by omega], Or.inl (by omega)⟩
      · have := BitVec.lt_of_getLsbD hj
        simp only at hk
        exact hno ⟨by rwa [show l = j by omega], Or.inr ⟨hp, by omega⟩⟩

/-! ### Predicates -/

theorem setP_fields (G : Gang) (n : Nat) (x m : Mask) : G.setP n x m = { G with p := (G.setP n x m).p } := by
  unfold Gang.setP; split <;> rfl

theorem setP_pred (G : Gang) (n k : Nat) (x m : Mask) :
    (G.setP n x m).pred k = if k = n ∧ n ≠ 0 then (x &&& m) ||| (G.pred n &&& ~~~m) else G.pred k := by
  unfold Gang.setP
  by_cases h : n = 0
  · simp [h]
  · by_cases hk : k = n
    · subst hk; simp [h, Gang.pred]
    · simp [h, hk, Gang.pred]

theorem wrotePredicate_setP (c d : Cx) (n : Nat) (x m : Mask) (f : Nat → Bool)
    (hx : ∀ l, l < 96 → m.getLsbD l = true → x.getLsbD l = f l)
    (h : ∀ k, d.G.pred k = (c.G.setP n x m).pred k) : WrotePredicate c d n m f := by
  refine ⟨fun hn l hl => ?_, ?_, fun k hk => ?_⟩
  · rw [h, setP_pred]
    rw [if_pos ⟨rfl, hn⟩, BitVec.getLsbD_or, BitVec.getLsbD_and, BitVec.getLsbD_and, BitVec.getLsbD_not, decide_eq_true hl]
    cases hm : m.getLsbD l
    · simp
    · simp [← hx l hl hm]
  · simp [Gang.pred]
  · rw [h, setP_pred]; simp [hk]

/-! ### Instructions that only write registers -/

/-- Going on from a context that differs from the running one only in its gang's registers. -/
theorem onlyRegisters_retire {s : State} {c d : Cx} (hr : Runs s c) (hc : Steady c)
    (hs : d.s = c.s) (hg : d.g = c.g) (hsp : d.sp = c.sp)
    (hG : d.G = { c.G with v := d.G.v, p := d.G.p }) (hP : d.P = { c.P with s := d.P.s, active := d.P.active }) :
    ∃ e, OnlyRegisters c d.retire e ∧ e.P.s = d.P.s ∧ e.P.active = d.P.active ∧ e.G.v = d.G.v ∧ e.G.p = d.G.p := by
  have hd : Steady d := hc.of_P (by rw [hP]) (by rw [hP])
  have hst := hr.state
  rw [retire_steady hd]
  have hsplits : d.G.splits = c.G.splits := by rw [hG]
  have hcur : d.advance.flush.cur = some (c.g, c.sp) := by
    show d.s.cur = _
    rw [hs, hst, hr.1]
  refine ⟨{ d.advance with s := d.advance.flush, G := { d.G with splits := d.G.splits.put d.sp d.advance.P } },
    ⟨⟨?_, flush_cx? d.advance⟩, ⟨?_, ?_⟩, ?_, ?_, ?_, ?_, ?_, ?_, ?_⟩, rfl, rfl, rfl, rfl⟩
  · rw [hcur]
    show some (c.g, c.sp) = some (d.g, d.sp)
    rw [hg, hsp]
  · exact hg
  · exact hsp
  · show d.P.pc + 8 = _
    rw [hP]
  · show d.advance.flush = _
    simp [Cx.flush, Cx.advance, hs]
  · intro f k
    show d.s.readByte f k = _
    rw [hs]
  · intro h hh
    have := flush_gang d.advance h
    rw [this]
    simp [Cx.advance, hg, hh, hs]
  · intro i hi
    simp [hsp, hi, hsplits]
  · show ({ d.G with splits := _ } : Gang) = _
    rw [hG]
  · show d.advance.P = _
    simp only [Cx.advance, Cx.word?]
    rw [hP]

theorem givesScalar {s : State} {c : Cx} {i : Instr} {n : Nat} {w : Word} (hr : Runs s c) (hn : n < 64)
    (h : exec i s = .next (c.setS n w).retire) : GivesScalar s c i n w := by
  refine ⟨h, fun hc => ?_⟩
  obtain ⟨e, he, h1, h2, h3, h4⟩ := onlyRegisters_retire (d := c.setS n w) hr hc rfl rfl rfl rfl (setS_eq _ _ _)
  exact ⟨_, e, h, he, wroteScalar_setS c e n w hn h1 h2, h3, h4⟩

theorem givesLanes {s : State} {c : Cx} {i : Instr} {m : Mask} {r : Nat} {pair : Bool} {f : Nat → Nat} (hr : Runs s c)
    (h : exec i s = .next (c.withLanes m r pair f).retire) : GivesLanes s c i m r pair f := by
  refine ⟨h, fun hc => ?_⟩
  have hv := (applyVs_find c.G (laneWrites m r pair f)).2
  have hp : (applyVs c.G (laneWrites m r pair f)).p = c.G.p := by rw [hv]
  obtain ⟨e, he, h1, h2, h3, h4⟩ := onlyRegisters_retire (d := c.withLanes m r pair f) hr hc rfl rfl rfl
    (by simp only [Cx.withLanes, hp]; exact hv) rfl
  refine ⟨_, e, h, he, wroteLanes_deliver c e m r pair f h3, ⟨h1, h2⟩, h4.trans hp⟩

theorem givesPredicate {s : State} {c : Cx} {i : Instr} {n : Nat} {m : Mask} {f : Nat → Bool} (hr : Runs s c)
    (h : exec i s = .next (c.setP n (maskOf f) m).retire) : GivesPredicate s c i n m f := by
  refine ⟨h, fun hc => ?_⟩
  have hp := setP_fields c.G n (maskOf f) m
  have hv : (c.G.setP n (maskOf f) m).v = c.G.v := by rw [hp]
  obtain ⟨e, he, h1, h2, h3, h4⟩ := onlyRegisters_retire (d := c.setP n (maskOf f) m) hr hc rfl rfl rfl
    (by simp only [Cx.setP_G, hv]; exact hp) rfl
  refine ⟨_, e, h, he, wrotePredicate_setP c e n (maskOf f) m f (fun l hl _ => ?_) (fun k => ?_), ⟨h1, h2⟩, h3.trans hv⟩
  · rw [maskOf_lane, decide_eq_true hl, Bool.true_and]
  · simp only [Gang.pred, h4]; rfl

end Sys2Proof.Machine
end

