-- ==== Sys2Proof/Laws/Keeps.lean ====
section
/-! SUPPORT. What every shared operation keeps: memory's canonical form, the fuses, and the fused counter, which never falls;
one law for each operation of Machine/Ops.lean that answers a state. -/

namespace Sys2Proof.Machine

structure Keeps (s t : State) : Prop where
  wf : Memory.wf s.mem = true → Memory.wf t.mem = true
  fuse : t.fuse = s.fuse
  counter : s.fwCounter ≤ t.fwCounter

theorem Keeps.refl (s : State) : Keeps s s := ⟨id, rfl, Nat.le_refl _⟩

theorem Keeps.trans {s t u : State} (h : Keeps s t) (k : Keeps t u) : Keeps s u :=
  ⟨fun w => k.wf (h.wf w), k.fuse.trans h.fuse, Nat.le_trans h.counter k.counter⟩

/-- Where memory, fuses and counter are untouched, they are kept. -/
theorem Keeps.of_eq {s t : State} (hm : t.mem = s.mem) (hf : t.fuse = s.fuse) (hc : t.fwCounter = s.fwCounter) : Keeps s t :=
  ⟨fun w => hm ▸ w, hf, Nat.le_of_eq hc.symm⟩

theorem Writes.keeps {s t : State} (h : Writes s t) : Keeps s t :=
  ⟨h.wf, by rw [h.rest], Nat.le_of_eq (by rw [h.rest])⟩

theorem Stores.keeps {s t : State} (h : Stores s t) : Keeps s t := h.writes.keeps

theorem Keeps.foldl {β : Type} (l : List β) (f : State → β → State) (h : ∀ s b, Keeps s (f s b)) (s : State) :
    Keeps s (l.foldl f s) := by
  induction l generalizing s with
  | nil => exact .refl s
  | cons b r ih => exact (h s b).trans (ih _)

theorem Keeps.ite {p : Prop} [Decidable p] {s t u : State} (ht : Keeps s t) (hu : Keeps s u) : Keeps s (if p then t else u) := by
  split
  · exact ht
  · exact hu

/-! ### The context -/

theorem flush_keeps (c : Cx) : Keeps c.s c.flush := .of_eq rfl rfl rfl

theorem deliver_state (c : Cx) (r : Late) : (c.deliver r).s = c.s := rfl

theorem foldl_deliver_state (ls : List Late) : ∀ c : Cx, (ls.foldl Cx.deliver c).s = c.s := by
  induction ls with
  | nil => exact fun _ => rfl
  | cons r rs ih => exact fun c => (ih (c.deliver r)).trans rfl

theorem settle_state (c : Cx) : c.settle.s = c.s := foldl_deliver_state c.P.late c

theorem ageLate_state (c : Cx) : c.ageLate.s = c.s := foldl_deliver_state _ c

theorem endClause_keeps (c : Cx) (target : Nat) : Keeps c.s (c.endClause target) := by
  unfold Cx.endClause
  exact .of_eq (by rw [← settle_state c]) (by rw [← settle_state c]) (by rw [← settle_state c])

theorem retire_keeps (c : Cx) : Keeps c.s c.retire := by
  have hs := ageLate_state c
  have he : ∀ (P : Split) (n : Nat), Keeps c.s (({ c.ageLate with P := P } : Cx).endClause n) := fun P n => by
    have h := endClause_keeps { c.ageLate with P := P } n
    rw [hs] at h
    exact h
  have hf : ∀ P : Split, Keeps c.s ({ c.ageLate with P := P } : Cx).flush := fun P => by
    have h := flush_keeps { c.ageLate with P := P }
    rw [hs] at h
    exact h
  unfold Cx.retire
  simp only
  split
  · split
    · exact hf _
    · exact he _ _
  · exact he c.ageLate.P _

theorem waitFor_keeps (c : Cx) (w : Wait) : Keeps c.s (c.waitFor w) := .of_eq rfl rfl rfl

theorem park_keeps (c : Cx) (s : State) (p : Park) : Keeps s (c.park s p) := .of_eq rfl rfl rfl

theorem onSplit_keeps (s : State) (g sp : Nat) (k : Cx → State) (h : ∀ c, Keeps c.s (k c)) : Keeps s (s.onSplit g sp k) := by
  unfold State.onSplit
  split
  · rename_i c hc
    have := (cx?_s hc).1 ▸ h c
    exact this.trans (.of_eq rfl rfl rfl)
  · exact .refl s

theorem wake_keeps {s t : State} {g sp : Nat} {w : Wait → Bool} {past : Cx → Bool} (h : s.wake g sp w past = .next t) :
    Keeps s t := by
  unfold State.wake at h
  cases h
  split
  · rename_i c hc
    have hs := (cx?_s hc).1
    split
    · exact .of_eq (by rw [← hs]; rfl) (by rw [← hs]; rfl) (by rw [← hs]; rfl)
    · exact .refl s
  · exact .refl s

/-! ### Partitions -/

theorem setPstat_keeps (s : State) (f n : Nat) : Keeps s (s.setPstat f n) := by
  unfold State.setPstat
  split
  · exact .refl s
  · exact ((setFreg_writes s _ _ _).trans (raiseVector_writes _ _ _)).keeps

theorem drain_keeps (s : State) (d : Nat) : Keeps s (s.drain d) := by
  unfold State.drain
  refine Keeps.ite (.refl s) (Keeps.ite (.of_eq rfl rfl rfl) ?_)
  split
  · exact .of_eq rfl rfl rfl
  · exact .refl s

theorem occupied_keeps (s : State) (dies : List Nat) : Keeps s (s.occupied dies) := by
  refine Keeps.foldl _ _ (fun s d => Keeps.trans (Keeps.ite ?_ (.refl s)) (drain_keeps _ d)) s
  exact .of_eq rfl rfl rfl

theorem recount_keeps (s : State) : Keeps s s.recount := by
  unfold State.recount
  refine Keeps.trans ?_ (occupied_keeps _ _)
  exact .of_eq rfl rfl rfl

theorem killLaunches_keeps (s : State) (p : Nat → Bool) : Keeps s (s.killLaunches p) := by
  unfold State.killLaunches
  refine Keeps.trans ?_ (recount_keeps _)
  exact .of_eq rfl rfl rfl

theorem stopLaunch_keeps (s : State) (l status code addr : Nat) : Keeps s (s.stopLaunch l status code addr) := by
  unfold State.stopLaunch
  refine Keeps.trans ?_ (killLaunches_keeps _ _)
  exact .of_eq rfl rfl rfl

theorem endAll_keeps (s : State) (f status code addr : Nat) : Keeps s (s.endAll f status code addr) :=
  Keeps.foldl _ _ (fun (s : State) (q : Nat × Launch) => stopLaunch_keeps s q.1 status code addr) s

theorem halt_keeps (s : State) (f : Nat) : Keeps s (s.halt f) := .of_eq rfl rfl rfl

theorem putAside_keeps (s : State) (f : Nat) (x : Saved) : Keeps s (s.putAside f x) :=
  ((halt_keeps s f).trans (modFn_writes _ _ _).keeps).trans (setPstat_keeps _ _ _)

theorem leave_keeps (s : State) (f : Nat) : Keeps s (s.leave f) := by
  unfold State.leave
  simp only
  split
  · exact putAside_keeps s f _
  · exact .refl s

theorem endLaunch_keeps (s : State) (l status code addr : Nat) : Keeps s (s.endLaunch l status code addr) :=
  (stopLaunch_keeps s l status code addr).trans (leave_keeps _ _)

theorem closing_keeps (s : State) (f : Nat) : Keeps s (s.closing f) := Keeps.ite (setPstat_keeps s f 1) (.refl s)

theorem closed_keeps (s : State) (f : Nat) : Keeps s (s.closed f) := Keeps.ite (setPstat_keeps s f 0) (.refl s)

theorem startClose_keeps (s : State) (f : Nat) : Keeps s (s.startClose f) := by
  refine ((closing_keeps s f).trans (modFn_writes _ f fun x => { x with close := .waiting }).keeps).trans ?_
  exact .of_eq rfl rfl rfl

theorem settleAll_keeps (s : State) (f : Nat) : Keeps s (s.settleAll f) := by
  unfold State.settleAll
  refine Keeps.foldl _ _ (fun s q => Keeps.foldl _ _ (fun s sp => ?_) s) s
  show Keeps s (match s.cx? q.1 sp with | some c => if c.P.late.isEmpty then s else c.settle.flush | none => s)
  split
  · rename_i c hc
    have hs := (cx?_s hc).1
    split
    · exact .refl s
    · have := flush_keeps c.settle
      rw [settle_state, hs] at this
      exact this
  · exact .refl s

theorem mark_keeps (s : State) (f : Nat) : Keeps s (s.mark f) := by
  unfold State.mark
  split
  · exact (((settleAll_keeps s f).trans (logEntry_stores _ f _ _ _ _ _ _ _).keeps).trans (setFn_writes _ _ _).keeps).trans
      (setFreg_writes _ _ _ _).keeps
  · exact .refl s

theorem remark_keeps (s : State) (f : Nat) : Keeps s (s.remark f) := by
  unfold State.remark
  split
  · exact (modFn_writes s _ _).keeps
  · exact .refl s

/-! ### Rollback and the hardware save -/

theorem askPlain_keeps (s : State) (p : Packet) (key size : Nat) (write : Bool) : Keeps s (s.askPlain p key size write) :=
  .of_eq rfl rfl rfl

theorem undoLines_keeps (s : State) (f : Nat) (k : Ckpt) : Keeps s (s.undoLines f k) := by
  refine Keeps.foldl _ _ (fun s (u : UndoLine) => ?_) s
  show Keeps s (if _ then _ else _)
  refine Keeps.ite (.refl s) (Keeps.ite ?_ ?_)
  · exact Keeps.foldl _ _ (fun s q => (askPlain_keeps s _ _ _ _).trans (modFn_writes _ f _).keeps) s
  · exact (Stores.foldl _ _ (fun s i => writeByte_stores s f _ _ _) s).keeps

theorem saveGang_stores (s : State) (f : Nat) (cls : List Nat) (G : Gang) : Stores s (s.saveGang f cls G) := by
  unfold State.saveGang
  simp only
  refine Stores.trans ?_ (Stores.foldl _ _ (fun s i => ?_) _)
  · exact Stores.trans (Stores.foldl _ _ (fun s r => rawWrite_stores s _ _) s) (rawWrite_stores _ _ _)
  · split
    · exact rawWrite_stores s _ _
    · exact (rawWrite_stores s _ _).trans (rawWrite_stores _ _ _)

theorem saveTile_stores (s : State) (f : Nat) (cls : List Nat) (tiles : Store Lane32) (n : Nat) :
    Stores s (s.saveTile f cls tiles n) := (rawWrite_stores s _ _).trans (rawWrite_stores _ _ _)

theorem saveRegion_stores (s : State) (f : Nat) (x : Saved) : Stores s (s.saveRegion f x) :=
  (Stores.foldl _ _ (fun s (q : Nat × Gang) => (saveGang_stores s f _ q.2).trans (rawWrite_stores _ _ _)) s).trans
    (Stores.foldl _ _ (fun s n => saveTile_stores s f _ _ n) _)

theorem finishRollback_keeps (s : State) (f : Nat) (k : Ckpt) : Keeps s (s.finishRollback f k) := by
  unfold State.finishRollback
  simp only
  refine Keeps.trans ?_ (recount_keeps _)
  refine Keeps.trans ?_ (putAside_keeps _ f _)
  refine Keeps.trans ?_ (saveRegion_stores _ f _).keeps
  exact .of_eq rfl rfl rfl

/-- What a rollback does, case by case. -/
theorem rollback_keeps (s : State) (f : Nat) (asked : Bool) : Keeps s (s.rollback f asked) := by
  have ended := (logImprecise_writes s f 0 0x11 9 (s.logBase f)).keeps.trans (endAll_keeps _ f 3 0x11 (s.logAddr f))
  have left := (setPstat_keeps s f 3).trans (halt_keeps _ f)
  cases hk : (s.fn f).ckpt with
  | none =>
    have : s.rollback f asked = s := by unfold State.rollback; rw [hk]
    rw [this]
    exact .refl s
  | some k =>
    unfold State.rollback
    rw [hk]
    refine Keeps.ite ?_ (Keeps.ite ?_ ?_)
    · exact Keeps.ite (ended.trans (putAside_keeps _ f _)) (ended.trans (setPstat_keeps _ f 0))
    · exact (left.trans (modFn_writes _ f _).keeps).trans (raiseVector_writes _ f 3).keeps
    · have undone := left.trans (undoLines_keeps _ f k)
      exact Keeps.ite (undone.trans (finishRollback_keeps _ f k)) undone

theorem rollbackFor_keeps (s : State) (f code addr : Nat) : Keeps s (s.rollbackFor f code addr) := by
  unfold State.rollbackFor
  exact Keeps.ite (.refl s) (Keeps.ite (modFn_writes s f _).keeps
    (Keeps.ite (rollback_keeps s f _) ((endAll_keeps s f _ _ _).trans (setPstat_keeps _ _ _))))

/-! ### Faults and irrevocable instructions -/

theorem takeFault_keeps (c : Cx) (i : FaultInfo) : Keeps c.s (c.takeFault i) := by
  have hs := settle_state c
  have count : Keeps c.s (if i.code = 0x0C then c.settle.s.count c.settle.G.fn 0xD40 else c.settle.s) := by
    rw [hs]
    exact Keeps.ite (count_writes _ _ _).keeps (.refl _)
  have wait : Keeps c.s (c.settle.waitFor (.faultQueue i)) := by
    have h := waitFor_keeps c.settle (.faultQueue i)
    rw [hs] at h
    exact h
  unfold Cx.takeFault
  simp only
  generalize (if i.code = 0x0C then c.settle.s.count c.settle.G.fn 0xD40 else c.settle.s) = s at count ⊢
  refine Keeps.ite ?_ (Keeps.ite ?_ (Keeps.ite ?_ ?_))
  · refine Keeps.trans ?_ (rollbackFor_keeps _ _ _ _)
    refine Keeps.trans ?_ (logAll_writes _ _ _ _).keeps
    exact count.trans (.of_eq rfl rfl rfl)
  · refine Keeps.trans ?_ (endLaunch_keeps _ _ _ _ _)
    refine Keeps.trans ?_ (logAll_writes _ _ _ _).keeps
    exact count.trans (.of_eq rfl rfl rfl)
  · refine Keeps.trans ?_ (park_keeps _ _ _)
    refine Keeps.trans ?_ (logAll_writes _ _ _ _).keeps
    exact count.trans (.of_eq rfl rfl rfl)
  · split
    · rename_i hq
      refine Keeps.trans ?_ (park_keeps _ _ _)
      refine Keeps.trans ?_ (queueFault_writes hq).keeps
      refine Keeps.trans ?_ (logAll_writes _ _ _ _).keeps
      exact count.trans (.of_eq rfl rfl rfl)
    · exact wait

theorem fault_keeps (c : Cx) (code : Nat) : Keeps c.s (c.fault code) := takeFault_keeps c _

theorem illop_keeps (c : Cx) : Keeps c.s c.illop := fault_keeps c _

theorem faultAddr_keeps (c : Cx) (code addr lane : Nat) (acc : Acc) : Keeps c.s (c.faultAddr code addr lane acc) :=
  takeFault_keeps c _

theorem faultLanes_keeps (c : Cx) (code elem : Nat) (acc : Acc) (fails : List LaneAcc) :
    Keeps c.s (c.faultLanes code acc elem fails) := takeFault_keeps c _

theorem returnFault_keeps (c : Cx) (i : FaultInfo) : Keeps c.s (c.returnFault i) := by
  have h := retire_keeps { c with P := { c.P with parked := none, wait := none } }
  unfold Cx.returnFault
  simp only
  split
  · exact h.trans (.of_eq rfl rfl rfl)
  · exact .of_eq rfl rfl rfl

theorem reload_state (c : Cx) (s : State) : (c.reload s).s = s := by
  unfold Cx.reload
  split
  · rename_i d hd
    exact (cx?_s hd).1
  · rfl

theorem perform_keeps (c : Cx) (s : State) (k : Cx → State) (h : ∀ d : Cx, Keeps d.s (k d)) : Keeps s (c.perform s k) := by
  unfold Cx.perform
  have := h (c.reload s)
  rw [reload_state] at this
  exact this.trans (remark_keeps _ _)

/-- An irrevocable effect keeps what the effect itself keeps. -/
theorem commit_keeps (c : Cx) (k : Cx → State) (h : ∀ d : Cx, Keeps d.s (k d)) : Keeps c.s (c.commit k) := by
  have hf : Keeps c.s c.settle.flush := by
    have h := flush_keeps c.settle
    rw [settle_state] at h
    exact h
  unfold Cx.commit
  simp only
  split
  · exact waitFor_keeps c _
  · exact hf.trans (perform_keeps _ _ k h)
  · refine Keeps.ite ((waitFor_keeps c _).trans (startClose_keeps _ _)) ?_
    exact (((hf.trans (closing_keeps _ _)).trans (mark_keeps _ _)).trans (perform_keeps _ _ k h)).trans (closed_keeps _ _)

end Sys2Proof.Machine
end

