-- ==== Sys2Proof/Laws/Irrevocable.lean ====
section
/-! SUPPORT. What an irrevocable instruction acts on where no checkpoint is kept (09 R220; 19 R305), and waits that are over. -/

namespace Sys2Proof.Machine

theorem applyVs_fn (G : Gang) (vs : List (Nat × Lane32)) : (applyVs G vs).fn = G.fn := by rw [(applyVs_find G vs).2]

theorem applyPs_fn (ps : List (Nat × Mask × Mask)) : ∀ G : Gang, (applyPs G ps).fn = G.fn := by
  induction ps with
  | nil => exact fun _ => rfl
  | cons q r ih =>
    intro G
    rw [applyPs, List.foldl_cons, ← applyPs, ih, setP_fields]

theorem deliver_fn (c : Cx) (r : Late) : (c.deliver r).G.fn = c.G.fn := by
  rw [Cx.deliver]
  simp only [applyPs_fn, applyVs_fn]

theorem foldl_deliver_place (ls : List Late) : ∀ c : Cx, (ls.foldl Cx.deliver c).g = c.g ∧
    (ls.foldl Cx.deliver c).sp = c.sp ∧ (ls.foldl Cx.deliver c).G.fn = c.G.fn := by
  induction ls with
  | nil => exact fun _ => ⟨rfl, rfl, rfl⟩
  | cons r rs ih =>
    intro c
    rw [List.foldl_cons]
    obtain ⟨h1, h2, h3⟩ := ih (c.deliver r)
    exact ⟨h1, h2, h3.trans (deliver_fn c r)⟩

/-- Results that are written change neither the place of a context nor its function. -/
theorem settle_place (c : Cx) : c.settle.g = c.g ∧ c.settle.sp = c.sp ∧ c.settle.G.fn = c.G.fn :=
  foldl_deliver_place c.P.late c

theorem settled'_eq (c : Cx) : c.settled' = { c.settle with
    s := c.settle.flush
    G := { c.settle.G with splits := c.settle.G.splits.put c.settle.sp c.settle.P } } := by
  rw [Cx.settled', Cx.reload, flush_cx?]

theorem settled'_s (c : Cx) : c.settled'.s = { c.s with gangs := c.settled'.s.gangs } := by
  rw [settled'_eq]
  simp [Cx.flush, settle_state c]

theorem settled'_fn (c : Cx) : c.settled'.G.fn = c.G.fn := by
  rw [settled'_eq]
  exact (settle_place c).2.2

/-- Where the function keeps no checkpoint, nor its effect leaves one, a commit is its effect on the settled context. -/
theorem commit_here (c : Cx) (k : Cx → State) (h : NoLog c.s c.G.fn)
    (hk : ((k c.settled').fn c.G.fn).ckpt = none) (hp : (k c.settled').pstat c.G.fn ≠ 1) : c.commit k = k c.settled' := by
  obtain ⟨hlog, -, hclose, -⟩ := h
  have hs : c.settle.flush = { c.s with gangs := c.settle.flush.gangs } := by simp [Cx.flush, settle_state c]
  have hl' : c.settle.flush.hasLog c.G.fn = false := by rw [hs]; exact hlog
  have h1 : c.settle.flush.closing c.G.fn = c.settle.flush := by simp [State.closing, hl']
  have h2 : c.settle.flush.mark c.G.fn = c.settle.flush := by simp [State.mark, hl']
  have h3 : c.s.closeWaits c.G.fn = false := by simp [State.closeWaits, hlog]
  rw [Cx.commit]
  simp only [hclose, h3, Bool.false_eq_true, if_false, h1, h2]
  rw [Cx.perform, ← Cx.settled', (settle_place c).2.2, State.remark, hk, State.closed, if_neg hp]

/-- In an exit routine an instruction that is not allowed there raises code 0 (09 R224). -/
theorem outsideExit_exiting (c : Cx) (k : State) (h : c.P.rstate = 1) : c.outsideExit k = c.fault 0x00 := if_pos h

theorem outsideExit_here (c : Cx) (k : State) (h : c.P.rstate ≠ 1) : c.outsideExit k = k := if_neg h

/-- A wait that is over, with no split running nor another clause on its quarter, leaves its split running. -/
theorem wake_over {s : State} {c : Cx} {g sp : Nat} {w : Wait} (h : s.cx? g sp = some c) (hc : s.cur = none)
    (hcl : c.P.clause.isSome = true) (hp : c.P.parked = none) (hw : c.P.wait = some w) (hq : s.quarterFree c.g = true)
    (hst : s.stopped c.G.fn = false) (p : Wait → Bool) (past : Cx → Bool)
    (h1 : p w = true) (h2 : past c = true) : s.wake g sp p past = .next c.resumed := by
  obtain ⟨hs, rfl, rfl⟩ := cx?_s h
  simp only [State.wake, h, hp, hw, h1, h2, hc, hcl, hq, hst, Option.any_some, Option.isNone_none, Bool.and_self, Bool.not_false,
    Bool.not_true, if_true, Cx.resumed]

/-- One that is not past changes nothing. -/
theorem wake_waiting {s : State} {c : Cx} {g sp : Nat} (h : s.cx? g sp = some c) (p : Wait → Bool) (past : Cx → Bool)
    (h2 : past c = false) : s.wake g sp p past = .next s := by
  simp only [State.wake, h, h2, Bool.and_false, Bool.false_eq_true, if_false]

end Sys2Proof.Machine
end

