-- ==== Sys2Proof/Laws/Log.lean ====
section
/-! SUPPORT. What the log entries of a step change, and the steps that are taken as they are (19 R306 to R308). -/

namespace Sys2Proof.Machine

theorem logItem_keeps (s : State) (f : Nat) (view later : Ckpt) (i : LogItem) : Keeps s (s.logItem f view later i) := by
  unfold State.logItem
  split
  · exact .refl s
  · rename_i k _
    have h := (logEntry_stores s f k i.kind i.number (view.who later i) false 0 (view.payload s.tick i)).keeps
    exact ⟨h.wf, h.fuse, h.counter⟩

theorem logStep_keeps (s t : State) (f : Nat) : Keeps t (s.logStep t f) := by
  unfold State.logStep
  split
  · exact .refl t
  · simp only
    exact (Keeps.foldl _ _ (fun t i => (logCommit_writes t f _ _ _ _).keeps) t).trans
      (Keeps.foldl _ _ (fun t i => logItem_keeps t f _ _ i) _)

/-- A step that is taken adds its log entries. -/
theorem lands_keeps {s t u : State} (h : s.lands t = some u) : Keeps t u := by
  unfold State.lands at h
  simp only at h
  split at h
  · cases h
  · cases h
    exact Keeps.foldl _ _ (fun t f => logStep_keeps s t f) t

/-- Without checkpoints, a step that writes nothing held is taken as it is. -/
theorem lands_plain {s t : State} (h1 : t.logged = []) (h2 : s.writesHeld t = false) : s.lands t = some t := by
  simp [State.lands, h1, h2]

theorem landed_plain {s t : State} (h1 : t.logged = []) (h2 : s.writesHeld t = false) : s.landed t = t := by
  simp [State.landed, lands_plain h1 h2]

end Sys2Proof.Machine
end

