-- ==== Sys2Proof/Laws/PerInstr.lean ====
section
/-! SUPPORT. Facts of each instruction as syntax: that its word carries its opcode in bits 63:54 (02 R47), which holds of every
instruction that has a word; an event has none. -/

namespace Sys2Proof.Laws

theorem code_lt_ty (t : ETy) : t.code < 32 := by cases t <;> decide

theorem code_lt_special (c : Special) : c.code < 256 := by
  cases c with
  | int n => simp only [Special.code]; omega
  | _ => decide

theorem code_lt (o : Operand) : o.code < 256 := by
  cases o with
  | v n => simp only [Operand.code]; omega
  | s n => simp only [Operand.code]; omega
  | x c => exact code_lt_special c

/-- The guard and the lookahead count lie in bits 53:45. -/
theorem ctl_le (c : Ctl) : c.bits ≤ 511 * 2 ^ 45 := by
  have h1 := c.la.isLt
  have h2 := c.gp.isLt
  have h3 : c.ge.toNat ≤ 1 := by cases c.ge <;> decide
  have h4 : c.gn.toNat ≤ 1 := by cases c.gn <;> decide
  simp only [Ctl.bits]
  omega

theorem bits_lt_tri (f : Tri) : f.bits < 2 ^ 54 := by
  have hc := ctl_le f.ctl
  have h1 := code_lt_ty f.ty
  have h2 := code_lt f.dst
  have h3 := code_lt f.a
  have h4 := code_lt f.b
  have h5 := code_lt f.c
  have h6 := f.mod.isLt
  simp only [Tri.bits]
  omega

theorem bits_lt_imm (f : Imm) : f.bits < 2 ^ 54 := by
  have hc := ctl_le f.ctl
  have h1 := code_lt_ty f.ty
  have h2 := code_lt f.dst
  have h3 := code_lt f.a
  have h4 := f.mod.isLt
  have h5 := f.imm.isLt
  simp only [Imm.bits]
  omega

theorem bits_lt_mem (f : Mem) : f.bits < 2 ^ 54 := by
  have hc := ctl_le f.ctl
  have h1 := code_lt_ty f.ty
  have h2 := code_lt f.data
  have h3 := code_lt f.base
  have h4 := f.space.isLt
  have h5 := f.scope.isLt
  have h6 := f.kind.isLt
  have h7 := f.offs.isLt
  simp only [Mem.bits]
  omega

theorem bits_lt_br (f : Br) : f.bits < 2 ^ 54 := by
  have hc := ctl_le f.ctl
  have h1 := code_lt f.cond
  have h2 := f.sub.isLt
  have h3 := f.disp.isLt
  simp only [Br.bits]
  omega

theorem bits_lt_mat (f : Mat) : f.bits < 2 ^ 54 := by
  have hc := ctl_le f.ctl
  have h1 := code_lt_ty f.ta
  have h2 := code_lt_ty f.tb
  have h3 := code_lt f.a
  have h4 := code_lt f.b
  have h5 := f.tile.isLt
  have h6 := f.sprs.isLt
  have h7 := f.scl.isLt
  have h8 := f.mod.isLt
  simp only [Mat.bits]
  omega

theorem bits_lt_cpy (f : Cpy) : f.bits < 2 ^ 54 := by
  have hc := ctl_le f.ctl
  have h1 := code_lt f.layout
  have h2 := code_lt f.dst
  have h3 := code_lt f.a
  have h4 := f.point.isLt
  have h5 := f.ring.isLt
  have h6 := f.mod.isLt
  simp only [Cpy.bits]
  omega

theorem bits_lt_sys (f : Sys) : f.bits < 2 ^ 54 := by
  have hc := ctl_le f.ctl
  have h1 := code_lt f.dst
  have h2 := code_lt f.a
  have h3 := f.sub.isLt
  have h4 := f.imm.isLt
  simp only [Sys.bits]
  omega

/-- The opcode of an assembled word. -/
theorem asm_opcode {op fields : Nat} (h : fields < 2 ^ 54) (ho : op < 1024) : Word.field (asm op fields) 63 54 = op := by
  simp only [Word.field, asm, bitsN, BitVec.toNat_ofNat]
  omega

/-- The instruction's word carries its opcode. -/
def F.Statement (i : Instr) : Prop := ∀ op, i.opcode? = some op → Word.field (encode i) 63 54 = op

namespace F

theorem clauseFetch (g sp : Nat) : Statement (.clauseFetch g sp) := fun _ h => nomatch h

theorem headerWaitSatisfied (g sp : Nat) : Statement (.headerWaitSatisfied g sp) := fun _ h => nomatch h

theorem issueOpportunity (q : Nat) : Statement (.issueOpportunity q) := fun _ h => nomatch h

theorem splitStarvationBound (g sp : Nat) : Statement (.splitStarvationBound g sp) := fun _ h => nomatch h

theorem counterStallRelease (g sp : Nat) : Statement (.counterStallRelease g sp) := fun _ h => nomatch h

theorem loadDataReturn (g sp : Nat) (lanes : BitVec 96) : Statement (.loadDataReturn g sp lanes) := fun _ h => nomatch h

theorem unassignedOpcode (w : BitVec 64) : Statement (.unassignedOpcode w) := fun _ h => nomatch h

theorem br (f : Br) : Statement (.br f) := by
  intro op h
  cases h
  exact asm_opcode (bits_lt_br f) (by decide)

theorem brs (f : Br) : Statement (.brs f) := by
  intro op h
  cases h
  exact asm_opcode (bits_lt_br f) (by decide)

theorem brz (f : Br) : Statement (.brz f) := by
  intro op h
  cases h
  exact asm_opcode (bits_lt_br f) (by decide)

theorem bra (f : Br) : Statement (.bra f) := by
  intro op h
  cases h
  exact asm_opcode (bits_lt_br f) (by decide)

theorem brl (f : Br) : Statement (.brl f) := by
  intro op h
  cases h
  exact asm_opcode (bits_lt_br f) (by decide)

theorem brd (f : Br) : Statement (.brd f) := by
  intro op h
  cases h
  exact asm_opcode (bits_lt_br f) (by decide)

theorem brsp (f : Br) : Statement (.brsp f) := by
  intro op h
  cases h
  exact asm_opcode (bits_lt_br f) (by decide)

theorem brx (f : Br) : Statement (.brx f) := by
  intro op h
  cases h
  exact asm_opcode (bits_lt_br f) (by decide)

theorem brxd (f : Br) : Statement (.brxd f) := by
  intro op h
  cases h
  exact asm_opcode (bits_lt_br f) (by decide)

theorem call (f : Br) : Statement (.call f) := by
  intro op h
  cases h
  exact asm_opcode (bits_lt_br f) (by decide)

theorem callx (f : Br) : Statement (.callx f) := by
  intro op h
  cases h
  exact asm_opcode (bits_lt_br f) (by decide)

theorem ret (f : Br) : Statement (.ret f) := by
  intro op h
  cases h
  exact asm_opcode (bits_lt_br f) (by decide)

theorem meet (f : Sys) : Statement (.meet f) := by
  intro op h
  cases h
  exact asm_opcode (bits_lt_sys f) (by decide)

theorem meetHoldEnd (g sp : Nat) : Statement (.meetHoldEnd g sp) := fun _ h => nomatch h

theorem endLanes (f : Sys) : Statement (.endLanes f) := by
  intro op h
  cases h
  exact asm_opcode (bits_lt_sys f) (by decide)

theorem nop (f : Sys) : Statement (.nop f) := by
  intro op h
  cases h
  exact asm_opcode (bits_lt_sys f) (by decide)

theorem yield (f : Sys) : Statement (.yield f) := by
  intro op h
  cases h
  exact asm_opcode (bits_lt_sys f) (by decide)

theorem gwidth (f : Sys) : Statement (.gwidth f) := by
  intro op h
  cases h
  exact asm_opcode (bits_lt_sys f) (by decide)

theorem gsplits (f : Sys) : Statement (.gsplits f) := by
  intro op h
  cases h
  exact asm_opcode (bits_lt_sys f) (by decide)

theorem gmember (f : Sys) : Statement (.gmember f) := by
  intro op h
  cases h
  exact asm_opcode (bits_lt_sys f) (by decide)

theorem gactive (f : Sys) : Statement (.gactive f) := by
  intro op h
  cases h
  exact asm_opcode (bits_lt_sys f) (by decide)

theorem lrank (f : Sys) : Statement (.lrank f) := by
  intro op h
  cases h
  exact asm_opcode (bits_lt_sys f) (by decide)

theorem lfirst (f : Sys) : Statement (.lfirst f) := by
  intro op h
  cases h
  exact asm_opcode (bits_lt_sys f) (by decide)

theorem pand (f : Tri) : Statement (.pand f) := by
  intro op h
  cases h
  exact asm_opcode (bits_lt_tri f) (by decide)

theorem por (f : Tri) : Statement (.por f) := by
  intro op h
  cases h
  exact asm_opcode (bits_lt_tri f) (by decide)

theorem pxor (f : Tri) : Statement (.pxor f) := by
  intro op h
  cases h
  exact asm_opcode (bits_lt_tri f) (by decide)

theorem pandn (f : Tri) : Statement (.pandn f) := by
  intro op h
  cases h
  exact asm_opcode (bits_lt_tri f) (by decide)

theorem pmov (f : Tri) : Statement (.pmov f) := by
  intro op h
  cases h
  exact asm_opcode (bits_lt_tri f) (by decide)

theorem pfroms (f : Tri) : Statement (.pfroms f) := by
  intro op h
  cases h
  exact asm_opcode (bits_lt_tri f) (by decide)

theorem ptos (f : Tri) : Statement (.ptos f) := by
  intro op h
  cases h
  exact asm_opcode (bits_lt_tri f) (by decide)

theorem vany (f : Tri) : Statement (.vany f) := by
  intro op h
  cases h
  exact asm_opcode (bits_lt_tri f) (by decide)

theorem vall (f : Tri) : Statement (.vall f) := by
  intro op h
  cases h
  exact asm_opcode (bits_lt_tri f) (by decide)

theorem ballot (f : Tri) : Statement (.ballot f) := by
  intro op h
  cases h
  exact asm_opcode (bits_lt_tri f) (by decide)

theorem pcount (f : Tri) : Statement (.pcount f) := by
  intro op h
  cases h
  exact asm_opcode (bits_lt_tri f) (by decide)

theorem pfind (f : Tri) : Statement (.pfind f) := by
  intro op h
  cases h
  exact asm_opcode (bits_lt_tri f) (by decide)

theorem sadd (f : Tri) : Statement (.sadd f) := by
  intro op h
  cases h
  exact asm_opcode (bits_lt_tri f) (by decide)

theorem ssub (f : Tri) : Statement (.ssub f) := by
  intro op h
  cases h
  exact asm_opcode (bits_lt_tri f) (by decide)

theorem smul (f : Tri) : Statement (.smul f) := by
  intro op h
  cases h
  exact asm_opcode (bits_lt_tri f) (by decide)

theorem smulh (f : Tri) : Statement (.smulh f) := by
  intro op h
  cases h
  exact asm_opcode (bits_lt_tri f) (by decide)

theorem sdiv (f : Tri) : Statement (.sdiv f) := by
  intro op h
  cases h
  exact asm_opcode (bits_lt_tri f) (by decide)

theorem srem (f : Tri) : Statement (.srem f) := by
  intro op h
  cases h
  exact asm_opcode (bits_lt_tri f) (by decide)

theorem sand (f : Tri) : Statement (.sand f) := by
  intro op h
  cases h
  exact asm_opcode (bits_lt_tri f) (by decide)

theorem sor (f : Tri) : Statement (.sor f) := by
  intro op h
  cases h
  exact asm_opcode (bits_lt_tri f) (by decide)

theorem sxor (f : Tri) : Statement (.sxor f) := by
  intro op h
  cases h
  exact asm_opcode (bits_lt_tri f) (by decide)

theorem sandn (f : Tri) : Statement (.sandn f) := by
  intro op h
  cases h
  exact asm_opcode (bits_lt_tri f) (by decide)

theorem sshl (f : Tri) : Statement (.sshl f) := by
  intro op h
  cases h
  exact asm_opcode (bits_lt_tri f) (by decide)

theorem sshr (f : Tri) : Statement (.sshr f) := by
  intro op h
  cases h
  exact asm_opcode (bits_lt_tri f) (by decide)

theorem ssra (f : Tri) : Statement (.ssra f) := by
  intro op h
  cases h
  exact asm_opcode (bits_lt_tri f) (by decide)

theorem smin (f : Tri) : Statement (.smin f) := by
  intro op h
  cases h
  exact asm_opcode (bits_lt_tri f) (by decide)

theorem smax (f : Tri) : Statement (.smax f) := by
  intro op h
  cases h
  exact asm_opcode (bits_lt_tri f) (by decide)

theorem scmp (f : Tri) : Statement (.scmp f) := by
  intro op h
  cases h
  exact asm_opcode (bits_lt_tri f) (by decide)

theorem ssel (f : Tri) : Statement (.ssel f) := by
  intro op h
  cases h
  exact asm_opcode (bits_lt_tri f) (by decide)

theorem smad (f : Tri) : Statement (.smad f) := by
  intro op h
  cases h
  exact asm_opcode (bits_lt_tri f) (by decide)

theorem sclz (f : Tri) : Statement (.sclz f) := by
  intro op h
  cases h
  exact asm_opcode (bits_lt_tri f) (by decide)

theorem spopc (f : Tri) : Statement (.spopc f) := by
  intro op h
  cases h
  exact asm_opcode (bits_lt_tri f) (by decide)

theorem sbfx (f : Tri) : Statement (.sbfx f) := by
  intro op h
  cases h
  exact asm_opcode (bits_lt_tri f) (by decide)

theorem sbfi (f : Tri) : Statement (.sbfi f) := by
  intro op h
  cases h
  exact asm_opcode (bits_lt_tri f) (by decide)

theorem saddi (f : Imm) : Statement (.saddi f) := by
  intro op h
  cases h
  exact asm_opcode (bits_lt_imm f) (by decide)

theorem sandi (f : Imm) : Statement (.sandi f) := by
  intro op h
  cases h
  exact asm_opcode (bits_lt_imm f) (by decide)

theorem sori (f : Imm) : Statement (.sori f) := by
  intro op h
  cases h
  exact asm_opcode (bits_lt_imm f) (by decide)

theorem sxori (f : Imm) : Statement (.sxori f) := by
  intro op h
  cases h
  exact asm_opcode (bits_lt_imm f) (by decide)

theorem smovi (f : Imm) : Statement (.smovi f) := by
  intro op h
  cases h
  exact asm_opcode (bits_lt_imm f) (by decide)

theorem smovhi (f : Imm) : Statement (.smovhi f) := by
  intro op h
  cases h
  exact asm_opcode (bits_lt_imm f) (by decide)

theorem saddpc (f : Imm) : Statement (.saddpc f) := by
  intro op h
  cases h
  exact asm_opcode (bits_lt_imm f) (by decide)

theorem scmpi (f : Imm) : Statement (.scmpi f) := by
  intro op h
  cases h
  exact asm_opcode (bits_lt_imm f) (by decide)

theorem vadd (f : Tri) : Statement (.vadd f) := by
  intro op h
  cases h
  exact asm_opcode (bits_lt_tri f) (by decide)

theorem vsub (f : Tri) : Statement (.vsub f) := by
  intro op h
  cases h
  exact asm_opcode (bits_lt_tri f) (by decide)

theorem vmul (f : Tri) : Statement (.vmul f) := by
  intro op h
  cases h
  exact asm_opcode (bits_lt_tri f) (by decide)

theorem vmulh (f : Tri) : Statement (.vmulh f) := by
  intro op h
  cases h
  exact asm_opcode (bits_lt_tri f) (by decide)

theorem vmad (f : Tri) : Statement (.vmad f) := by
  intro op h
  cases h
  exact asm_opcode (bits_lt_tri f) (by decide)

theorem vaddsat (f : Tri) : Statement (.vaddsat f) := by
  intro op h
  cases h
  exact asm_opcode (bits_lt_tri f) (by decide)

theorem vsubsat (f : Tri) : Statement (.vsubsat f) := by
  intro op h
  cases h
  exact asm_opcode (bits_lt_tri f) (by decide)

theorem vand (f : Tri) : Statement (.vand f) := by
  intro op h
  cases h
  exact asm_opcode (bits_lt_tri f) (by decide)

theorem vor (f : Tri) : Statement (.vor f) := by
  intro op h
  cases h
  exact asm_opcode (bits_lt_tri f) (by decide)

theorem vxor (f : Tri) : Statement (.vxor f) := by
  intro op h
  cases h
  exact asm_opcode (bits_lt_tri f) (by decide)

theorem vandn (f : Tri) : Statement (.vandn f) := by
  intro op h
  cases h
  exact asm_opcode (bits_lt_tri f) (by decide)

theorem vshl (f : Tri) : Statement (.vshl f) := by
  intro op h
  cases h
  exact asm_opcode (bits_lt_tri f) (by decide)

theorem vshr (f : Tri) : Statement (.vshr f) := by
  intro op h
  cases h
  exact asm_opcode (bits_lt_tri f) (by decide)

theorem vsra (f : Tri) : Statement (.vsra f) := by
  intro op h
  cases h
  exact asm_opcode (bits_lt_tri f) (by decide)

theorem vmin (f : Tri) : Statement (.vmin f) := by
  intro op h
  cases h
  exact asm_opcode (bits_lt_tri f) (by decide)

theorem vmax (f : Tri) : Statement (.vmax f) := by
  intro op h
  cases h
  exact asm_opcode (bits_lt_tri f) (by decide)

theorem vabs (f : Tri) : Statement (.vabs f) := by
  intro op h
  cases h
  exact asm_opcode (bits_lt_tri f) (by decide)

theorem vneg (f : Tri) : Statement (.vneg f) := by
  intro op h
  cases h
  exact asm_opcode (bits_lt_tri f) (by decide)

theorem vcmp (f : Tri) : Statement (.vcmp f) := by
  intro op h
  cases h
  exact asm_opcode (bits_lt_tri f) (by decide)

theorem vsel (f : Tri) : Statement (.vsel f) := by
  intro op h
  cases h
  exact asm_opcode (bits_lt_tri f) (by decide)

theorem vclz (f : Tri) : Statement (.vclz f) := by
  intro op h
  cases h
  exact asm_opcode (bits_lt_tri f) (by decide)

theorem vpopc (f : Tri) : Statement (.vpopc f) := by
  intro op h
  cases h
  exact asm_opcode (bits_lt_tri f) (by decide)

theorem vbfx (f : Tri) : Statement (.vbfx f) := by
  intro op h
  cases h
  exact asm_opcode (bits_lt_tri f) (by decide)

theorem vbfi (f : Tri) : Statement (.vbfi f) := by
  intro op h
  cases h
  exact asm_opcode (bits_lt_tri f) (by decide)

theorem vcvti (f : Tri) : Statement (.vcvti f) := by
  intro op h
  cases h
  exact asm_opcode (bits_lt_tri f) (by decide)

theorem vmovi (f : Imm) : Statement (.vmovi f) := by
  intro op h
  cases h
  exact asm_opcode (bits_lt_imm f) (by decide)

theorem vaddi (f : Imm) : Statement (.vaddi f) := by
  intro op h
  cases h
  exact asm_opcode (bits_lt_imm f) (by decide)

theorem vandi (f : Imm) : Statement (.vandi f) := by
  intro op h
  cases h
  exact asm_opcode (bits_lt_imm f) (by decide)

theorem vori (f : Imm) : Statement (.vori f) := by
  intro op h
  cases h
  exact asm_opcode (bits_lt_imm f) (by decide)

theorem fadd (f : Tri) : Statement (.fadd f) := by
  intro op h
  cases h
  exact asm_opcode (bits_lt_tri f) (by decide)

theorem fsub (f : Tri) : Statement (.fsub f) := by
  intro op h
  cases h
  exact asm_opcode (bits_lt_tri f) (by decide)

theorem fmul (f : Tri) : Statement (.fmul f) := by
  intro op h
  cases h
  exact asm_opcode (bits_lt_tri f) (by decide)

theorem fma (f : Tri) : Statement (.fma f) := by
  intro op h
  cases h
  exact asm_opcode (bits_lt_tri f) (by decide)

theorem fms (f : Tri) : Statement (.fms f) := by
  intro op h
  cases h
  exact asm_opcode (bits_lt_tri f) (by decide)

theorem fnma (f : Tri) : Statement (.fnma f) := by
  intro op h
  cases h
  exact asm_opcode (bits_lt_tri f) (by decide)

theorem fnms (f : Tri) : Statement (.fnms f) := by
  intro op h
  cases h
  exact asm_opcode (bits_lt_tri f) (by decide)

theorem fmin (f : Tri) : Statement (.fmin f) := by
  intro op h
  cases h
  exact asm_opcode (bits_lt_tri f) (by decide)

theorem fmax (f : Tri) : Statement (.fmax f) := by
  intro op h
  cases h
  exact asm_opcode (bits_lt_tri f) (by decide)

theorem fabs (f : Tri) : Statement (.fabs f) := by
  intro op h
  cases h
  exact asm_opcode (bits_lt_tri f) (by decide)

theorem fneg (f : Tri) : Statement (.fneg f) := by
  intro op h
  cases h
  exact asm_opcode (bits_lt_tri f) (by decide)

theorem fcmp (f : Tri) : Statement (.fcmp f) := by
  intro op h
  cases h
  exact asm_opcode (bits_lt_tri f) (by decide)

theorem fsel (f : Tri) : Statement (.fsel f) := by
  intro op h
  cases h
  exact asm_opcode (bits_lt_tri f) (by decide)

theorem fclass (f : Tri) : Statement (.fclass f) := by
  intro op h
  cases h
  exact asm_opcode (bits_lt_tri f) (by decide)

theorem fcvt (f : Tri) : Statement (.fcvt f) := by
  intro op h
  cases h
  exact asm_opcode (bits_lt_tri f) (by decide)

theorem fcvti (f : Tri) : Statement (.fcvti f) := by
  intro op h
  cases h
  exact asm_opcode (bits_lt_tri f) (by decide)

theorem icvtf (f : Tri) : Statement (.icvtf f) := by
  intro op h
  cases h
  exact asm_opcode (bits_lt_tri f) (by decide)

theorem fscale (f : Tri) : Statement (.fscale f) := by
  intro op h
  cases h
  exact asm_opcode (bits_lt_tri f) (by decide)

theorem frnd (f : Tri) : Statement (.frnd f) := by
  intro op h
  cases h
  exact asm_opcode (bits_lt_tri f) (by decide)

theorem fdot2 (f : Tri) : Statement (.fdot2 f) := by
  intro op h
  cases h
  exact asm_opcode (bits_lt_tri f) (by decide)

theorem fdot4 (f : Tri) : Statement (.fdot4 f) := by
  intro op h
  cases h
  exact asm_opcode (bits_lt_tri f) (by decide)

theorem fpack (f : Tri) : Statement (.fpack f) := by
  intro op h
  cases h
  exact asm_opcode (bits_lt_tri f) (by decide)

theorem funpack (f : Tri) : Statement (.funpack f) := by
  intro op h
  cases h
  exact asm_opcode (bits_lt_tri f) (by decide)

theorem fregime (f : Tri) : Statement (.fregime f) := by
  intro op h
  cases h
  exact asm_opcode (bits_lt_tri f) (by decide)

theorem ftwin (f : Tri) : Statement (.ftwin f) := by
  intro op h
  cases h
  exact asm_opcode (bits_lt_tri f) (by decide)

theorem faddi (f : Imm) : Statement (.faddi f) := by
  intro op h
  cases h
  exact asm_opcode (bits_lt_imm f) (by decide)

theorem fmuli (f : Imm) : Statement (.fmuli f) := by
  intro op h
  cases h
  exact asm_opcode (bits_lt_imm f) (by decide)

theorem fmai (f : Imm) : Statement (.fmai f) := by
  intro op h
  cases h
  exact asm_opcode (bits_lt_imm f) (by decide)

theorem fcmpi (f : Imm) : Statement (.fcmpi f) := by
  intro op h
  cases h
  exact asm_opcode (bits_lt_imm f) (by decide)

theorem fmini (f : Imm) : Statement (.fmini f) := by
  intro op h
  cases h
  exact asm_opcode (bits_lt_imm f) (by decide)

theorem fmaxi (f : Imm) : Statement (.fmaxi f) := by
  intro op h
  cases h
  exact asm_opcode (bits_lt_imm f) (by decide)

theorem frcp (f : Tri) : Statement (.frcp f) := by
  intro op h
  cases h
  exact asm_opcode (bits_lt_tri f) (by decide)

theorem frsq (f : Tri) : Statement (.frsq f) := by
  intro op h
  cases h
  exact asm_opcode (bits_lt_tri f) (by decide)

theorem fsqrt (f : Tri) : Statement (.fsqrt f) := by
  intro op h
  cases h
  exact asm_opcode (bits_lt_tri f) (by decide)

theorem fexp2 (f : Tri) : Statement (.fexp2 f) := by
  intro op h
  cases h
  exact asm_opcode (bits_lt_tri f) (by decide)

theorem flog2 (f : Tri) : Statement (.flog2 f) := by
  intro op h
  cases h
  exact asm_opcode (bits_lt_tri f) (by decide)

theorem fsin (f : Tri) : Statement (.fsin f) := by
  intro op h
  cases h
  exact asm_opcode (bits_lt_tri f) (by decide)

theorem fcos (f : Tri) : Statement (.fcos f) := by
  intro op h
  cases h
  exact asm_opcode (bits_lt_tri f) (by decide)

theorem ftanh (f : Tri) : Statement (.ftanh f) := by
  intro op h
  cases h
  exact asm_opcode (bits_lt_tri f) (by decide)

theorem fsigm (f : Tri) : Statement (.fsigm f) := by
  intro op h
  cases h
  exact asm_opcode (bits_lt_tri f) (by decide)

theorem ferf (f : Tri) : Statement (.ferf f) := by
  intro op h
  cases h
  exact asm_opcode (bits_lt_tri f) (by decide)

theorem xshfl (f : Tri) : Statement (.xshfl f) := by
  intro op h
  cases h
  exact asm_opcode (bits_lt_tri f) (by decide)

theorem xbcast (f : Tri) : Statement (.xbcast f) := by
  intro op h
  cases h
  exact asm_opcode (bits_lt_tri f) (by decide)

theorem xup (f : Tri) : Statement (.xup f) := by
  intro op h
  cases h
  exact asm_opcode (bits_lt_tri f) (by decide)

theorem xdown (f : Tri) : Statement (.xdown f) := by
  intro op h
  cases h
  exact asm_opcode (bits_lt_tri f) (by decide)

theorem xxor (f : Tri) : Statement (.xxor f) := by
  intro op h
  cases h
  exact asm_opcode (bits_lt_tri f) (by decide)

theorem xscan (f : Tri) : Statement (.xscan f) := by
  intro op h
  cases h
  exact asm_opcode (bits_lt_tri f) (by decide)

theorem xscanx (f : Tri) : Statement (.xscanx f) := by
  intro op h
  cases h
  exact asm_opcode (bits_lt_tri f) (by decide)

theorem xred (f : Tri) : Statement (.xred f) := by
  intro op h
  cases h
  exact asm_opcode (bits_lt_tri f) (by decide)

theorem mma (f : Mat) : Statement (.mma f) := by
  intro op h
  cases h
  exact asm_opcode (bits_lt_mat f) (by decide)

theorem mmaz (f : Mat) : Statement (.mmaz f) := by
  intro op h
  cases h
  exact asm_opcode (bits_lt_mat f) (by decide)

theorem azero (f : Mat) : Statement (.azero f) := by
  intro op h
  cases h
  exact asm_opcode (bits_lt_mat f) (by decide)

theorem aload (f : Mem) : Statement (.aload f) := by
  intro op h
  cases h
  exact asm_opcode (bits_lt_mem f) (by decide)

theorem astore (f : Mem) : Statement (.astore f) := by
  intro op h
  cases h
  exact asm_opcode (bits_lt_mem f) (by decide)

theorem aread (f : Mat) : Statement (.aread f) := by
  intro op h
  cases h
  exact asm_opcode (bits_lt_mat f) (by decide)

theorem awrite (f : Mat) : Statement (.awrite f) := by
  intro op h
  cases h
  exact asm_opcode (bits_lt_mat f) (by decide)

theorem acvt (f : Mat) : Statement (.acvt f) := by
  intro op h
  cases h
  exact asm_opcode (bits_lt_mat f) (by decide)

theorem aadd (f : Mat) : Statement (.aadd f) := by
  intro op h
  cases h
  exact asm_opcode (bits_lt_mat f) (by decide)

theorem pairq (f : Sys) : Statement (.pairq f) := by
  intro op h
  cases h
  exact asm_opcode (bits_lt_sys f) (by decide)

theorem matrixQueueRoom (g sp : Nat) : Statement (.matrixQueueRoom g sp) := fun _ h => nomatch h

theorem matrixOpStart (id : Nat) : Statement (.matrixOpStart id) := fun _ h => nomatch h

theorem matrixOpRetire (id : Nat) : Statement (.matrixOpRetire id) := fun _ h => nomatch h

theorem ld (f : Mem) : Statement (.ld f) := by
  intro op h
  cases h
  exact asm_opcode (bits_lt_mem f) (by decide)

theorem st (f : Mem) : Statement (.st f) := by
  intro op h
  cases h
  exact asm_opcode (bits_lt_mem f) (by decide)

theorem ldro (f : Mem) : Statement (.ldro f) := by
  intro op h
  cases h
  exact asm_opcode (bits_lt_mem f) (by decide)

theorem ldg (f : Mem) : Statement (.ldg f) := by
  intro op h
  cases h
  exact asm_opcode (bits_lt_mem f) (by decide)

theorem stg (f : Mem) : Statement (.stg f) := by
  intro op h
  cases h
  exact asm_opcode (bits_lt_mem f) (by decide)

theorem gatherComplete (id : Nat) : Statement (.gatherComplete id) := fun _ h => nomatch h

theorem ldx (f : Mem) : Statement (.ldx f) := by
  intro op h
  cases h
  exact asm_opcode (bits_lt_mem f) (by decide)

theorem stc (f : Mem) : Statement (.stc f) := by
  intro op h
  cases h
  exact asm_opcode (bits_lt_mem f) (by decide)

theorem atadd (f : Mem) : Statement (.atadd f) := by
  intro op h
  cases h
  exact asm_opcode (bits_lt_mem f) (by decide)

theorem atmin (f : Mem) : Statement (.atmin f) := by
  intro op h
  cases h
  exact asm_opcode (bits_lt_mem f) (by decide)

theorem atmax (f : Mem) : Statement (.atmax f) := by
  intro op h
  cases h
  exact asm_opcode (bits_lt_mem f) (by decide)

theorem atand (f : Mem) : Statement (.atand f) := by
  intro op h
  cases h
  exact asm_opcode (bits_lt_mem f) (by decide)

theorem ator (f : Mem) : Statement (.ator f) := by
  intro op h
  cases h
  exact asm_opcode (bits_lt_mem f) (by decide)

theorem atxor (f : Mem) : Statement (.atxor f) := by
  intro op h
  cases h
  exact asm_opcode (bits_lt_mem f) (by decide)

theorem atswp (f : Mem) : Statement (.atswp f) := by
  intro op h
  cases h
  exact asm_opcode (bits_lt_mem f) (by decide)

theorem atcas (f : Mem) : Statement (.atcas f) := by
  intro op h
  cases h
  exact asm_opcode (bits_lt_mem f) (by decide)

theorem atomicopCompletion (id lane : Nat) (ans : HostAnswer) : Statement (.atomicopCompletion id lane ans) := fun _ h => nomatch h

theorem mwupd (f : Mem) : Statement (.mwupd f) := by
  intro op h
  cases h
  exact asm_opcode (bits_lt_mem f) (by decide)

theorem hsend (f : Mem) : Statement (.hsend f) := by
  intro op h
  cases h
  exact asm_opcode (bits_lt_mem f) (by decide)

theorem hodUpdateApply (id lane : Nat) : Statement (.hodUpdateApply id lane) := fun _ h => nomatch h

theorem pref (f : Mem) : Statement (.pref f) := by
  intro op h
  cases h
  exact asm_opcode (bits_lt_mem f) (by decide)

theorem resid (f : Mem) : Statement (.resid f) := by
  intro op h
  cases h
  exact asm_opcode (bits_lt_mem f) (by decide)

theorem fence (f : Mem) : Statement (.fence f) := by
  intro op h
  cases h
  exact asm_opcode (bits_lt_mem f) (by decide)

theorem fencero (f : Mem) : Statement (.fencero f) := by
  intro op h
  cases h
  exact asm_opcode (bits_lt_mem f) (by decide)

theorem bind (f : Mem) : Statement (.bind f) := by
  intro op h
  cases h
  exact asm_opcode (bits_lt_mem f) (by decide)

theorem unbind (f : Mem) : Statement (.unbind f) := by
  intro op h
  cases h
  exact asm_opcode (bits_lt_mem f) (by decide)

theorem acq (f : Mem) : Statement (.acq f) := by
  intro op h
  cases h
  exact asm_opcode (bits_lt_mem f) (by decide)

theorem rel (f : Mem) : Statement (.rel f) := by
  intro op h
  cases h
  exact asm_opcode (bits_lt_mem f) (by decide)

theorem cpy (f : Cpy) : Statement (.cpy f) := by
  intro op h
  cases h
  exact asm_opcode (bits_lt_cpy f) (by decide)

theorem cpyg (f : Cpy) : Statement (.cpyg f) := by
  intro op h
  cases h
  exact asm_opcode (bits_lt_cpy f) (by decide)

theorem cpys (f : Cpy) : Statement (.cpys f) := by
  intro op h
  cases h
  exact asm_opcode (bits_lt_cpy f) (by decide)

theorem cpyc (f : Cpy) : Statement (.cpyc f) := by
  intro op h
  cases h
  exact asm_opcode (bits_lt_cpy f) (by decide)

theorem cpyred (f : Cpy) : Statement (.cpyred f) := by
  intro op h
  cases h
  exact asm_opcode (bits_lt_cpy f) (by decide)

theorem copyQueueRoom (g sp : Nat) : Statement (.copyQueueRoom g sp) := fun _ h => nomatch h

theorem copyComplete (id : Nat) : Statement (.copyComplete id) := fun _ h => nomatch h

theorem lpinit (f : Cpy) : Statement (.lpinit f) := by
  intro op h
  cases h
  exact asm_opcode (bits_lt_cpy f) (by decide)

theorem lpstart (f : Cpy) : Statement (.lpstart f) := by
  intro op h
  cases h
  exact asm_opcode (bits_lt_cpy f) (by decide)

theorem lpnext (f : Cpy) : Statement (.lpnext f) := by
  intro op h
  cases h
  exact asm_opcode (bits_lt_cpy f) (by decide)

theorem lpnextRecordTaken (g sp : Nat) : Statement (.lpnextRecordTaken g sp) := fun _ h => nomatch h

theorem lpdone (f : Cpy) : Statement (.lpdone f) := by
  intro op h
  cases h
  exact asm_opcode (bits_lt_cpy f) (by decide)

theorem lpstop (f : Cpy) : Statement (.lpstop f) := by
  intro op h
  cases h
  exact asm_opcode (bits_lt_cpy f) (by decide)

theorem lpq (f : Cpy) : Statement (.lpq f) := by
  intro op h
  cases h
  exact asm_opcode (bits_lt_cpy f) (by decide)

theorem weevilPush (team : Nat) : Statement (.weevilPush team) := fun _ h => nomatch h

theorem jinit (f : Sys) : Statement (.jinit f) := by
  intro op h
  cases h
  exact asm_opcode (bits_lt_sys f) (by decide)

theorem jarrive (f : Sys) : Statement (.jarrive f) := by
  intro op h
  cases h
  exact asm_opcode (bits_lt_sys f) (by decide)

theorem jwait (f : Sys) : Statement (.jwait f) := by
  intro op h
  cases h
  exact asm_opcode (bits_lt_sys f) (by decide)

theorem jarwait (f : Sys) : Statement (.jarwait f) := by
  intro op h
  cases h
  exact asm_opcode (bits_lt_sys f) (by decide)

theorem rendezvousWaitSatisfied (g sp : Nat) : Statement (.rendezvousWaitSatisfied g sp) := fun _ h => nomatch h

theorem ringinit (f : Sys) : Statement (.ringinit f) := by
  intro op h
  cases h
  exact asm_opcode (bits_lt_sys f) (by decide)

theorem ringput (f : Sys) : Statement (.ringput f) := by
  intro op h
  cases h
  exact asm_opcode (bits_lt_sys f) (by decide)

theorem ringtake (f : Sys) : Statement (.ringtake f) := by
  intro op h
  cases h
  exact asm_opcode (bits_lt_sys f) (by decide)

theorem ringputProceeds (g sp : Nat) : Statement (.ringputProceeds g sp) := fun _ h => nomatch h

theorem ringtakeProceeds (g sp : Nat) : Statement (.ringtakeProceeds g sp) := fun _ h => nomatch h

theorem kwait (f : Sys) : Statement (.kwait f) := by
  intro op h
  cases h
  exact asm_opcode (bits_lt_sys f) (by decide)

theorem kwaitSatisfied (g sp : Nat) : Statement (.kwaitSatisfied g sp) := fun _ h => nomatch h

theorem region (f : Sys) : Statement (.region f) := by
  intro op h
  cases h
  exact asm_opcode (bits_lt_sys f) (by decide)

theorem xret (f : Sys) : Statement (.xret f) := by
  intro op h
  cases h
  exact asm_opcode (bits_lt_sys f) (by decide)

theorem eret (f : Sys) : Statement (.eret f) := by
  intro op h
  cases h
  exact asm_opcode (bits_lt_sys f) (by decide)

theorem trap (f : Sys) : Statement (.trap f) := by
  intro op h
  cases h
  exact asm_opcode (bits_lt_sys f) (by decide)

theorem brk (f : Sys) : Statement (.brk f) := by
  intro op h
  cases h
  exact asm_opcode (bits_lt_sys f) (by decide)

theorem scall (f : Sys) : Statement (.scall f) := by
  intro op h
  cases h
  exact asm_opcode (bits_lt_sys f) (by decide)

theorem scallRingRoom (g sp : Nat) : Statement (.scallRingRoom g sp) := fun _ h => nomatch h

theorem cpop (f : Sys) : Statement (.cpop f) := by
  intro op h
  cases h
  exact asm_opcode (bits_lt_sys f) (by decide)

theorem cpopRecordTaken (g sp : Nat) : Statement (.cpopRecordTaken g sp) := fun _ h => nomatch h

theorem cpush (f : Sys) : Statement (.cpush f) := by
  intro op h
  cases h
  exact asm_opcode (bits_lt_sys f) (by decide)

theorem cpushQueueRoom (g sp : Nat) : Statement (.cpushQueueRoom g sp) := fun _ h => nomatch h

theorem cjoin (f : Sys) : Statement (.cjoin f) := by
  intro op h
  cases h
  exact asm_opcode (bits_lt_sys f) (by decide)

theorem cjoinRetry (g sp : Nat) : Statement (.cjoinRetry g sp) := fun _ h => nomatch h

theorem mbsend (f : Sys) : Statement (.mbsend f) := by
  intro op h
  cases h
  exact asm_opcode (bits_lt_sys f) (by decide)

theorem mbsendRoom (g sp : Nat) : Statement (.mbsendRoom g sp) := fun _ h => nomatch h

theorem mbrecv (f : Sys) : Statement (.mbrecv f) := by
  intro op h
  cases h
  exact asm_opcode (bits_lt_sys f) (by decide)

theorem mbrecvMessageTaken (g sp : Nat) : Statement (.mbrecvMessageTaken g sp) := fun _ h => nomatch h

theorem quotaq (f : Sys) : Statement (.quotaq f) := by
  intro op h
  cases h
  exact asm_opcode (bits_lt_sys f) (by decide)

theorem cycq (f : Sys) : Statement (.cycq f) := by
  intro op h
  cases h
  exact asm_opcode (bits_lt_sys f) (by decide)

theorem capq (f : Sys) : Statement (.capq f) := by
  intro op h
  cases h
  exact asm_opcode (bits_lt_sys f) (by decide)

theorem netsend (f : Sys) : Statement (.netsend f) := by
  intro op h
  cases h
  exact asm_opcode (bits_lt_sys f) (by decide)

theorem netsendResponse (id : Nat) (ans : NetAnswer) : Statement (.netsendResponse id ans) := fun _ h => nomatch h

theorem spawnRecordAccept (g sp : Nat) : Statement (.spawnRecordAccept g sp) := fun _ h => nomatch h

theorem chaferFormGang (grp : Nat) (place : Place) : Statement (.chaferFormGang grp place) := fun _ h => nomatch h

theorem chaferIdleTimeout (grp : Nat) : Statement (.chaferIdleTimeout grp) := fun _ h => nomatch h

theorem gangEnd (g : Nat) : Statement (.gangEnd g) := fun _ h => nomatch h

theorem launchCompletion (l : Nat) : Statement (.launchCompletion l) := fun _ h => nomatch h

theorem preemptVectorExit (g sp : Nat) : Statement (.preemptVectorExit g sp) := fun _ h => nomatch h

theorem exitBoundOverrun (g : Nat) : Statement (.exitBoundOverrun g) := fun _ h => nomatch h

theorem checkpointClose (f : Nat) : Statement (.checkpointClose f) := fun _ h => nomatch h

theorem ckperiodExpiry (f : Nat) : Statement (.ckperiodExpiry f) := fun _ h => nomatch h

theorem preq (f : Nat) : Statement (.preq f) := fun _ h => nomatch h

theorem presume (f : Nat) (places : List Place) : Statement (.presume f places) := fun _ h => nomatch h

theorem rolldone (f : Nat) : Statement (.rolldone f) := fun _ h => nomatch h

theorem notify (f q : Nat) (v : BitVec 64) : Statement (.notify f q v) := fun _ h => nomatch h

theorem doorbellMissService (die : Nat) : Statement (.doorbellMissService die) := fun _ h => nomatch h

theorem cmdNop (f q : Nat) : Statement (.cmdNop f q) := fun _ h => nomatch h

theorem cmdLaunch (f q : Nat) : Statement (.cmdLaunch f q) := fun _ h => nomatch h

theorem cmdFeed (f q : Nat) : Statement (.cmdFeed f q) := fun _ h => nomatch h

theorem cmdDependence (f q : Nat) : Statement (.cmdDependence f q) := fun _ h => nomatch h

theorem cmdPush (f q : Nat) : Statement (.cmdPush f q) := fun _ h => nomatch h

theorem teamPlacement (l team : Nat) (place : Place) : Statement (.teamPlacement l team place) := fun _ h => nomatch h

theorem schedulerQuantum (die : Nat) : Statement (.schedulerQuantum die) := fun _ h => nomatch h

theorem stealRequest (die : Nat) : Statement (.stealRequest die) := fun _ h => nomatch h

theorem stealHandover (die : Nat) : Statement (.stealHandover die) := fun _ h => nomatch h

theorem labort (f : Nat) (lid : BitVec 64) : Statement (.labort f lid) := fun _ h => nomatch h

theorem drain (f : Nat) (v : BitVec 64) : Statement (.drain f v) := fun _ h => nomatch h

theorem qrestart (f q : Nat) : Statement (.qrestart f q) := fun _ h => nomatch h

theorem queueClose (f q : Nat) : Statement (.queueClose f q) := fun _ h => nomatch h

theorem queueReopen (f q : Nat) : Statement (.queueReopen f q) := fun _ h => nomatch h

theorem mapq (f q : Nat) : Statement (.mapq f q) := fun _ h => nomatch h

theorem timesliceTurnEnd (grp : Nat) : Statement (.timesliceTurnEnd grp) := fun _ h => nomatch h

theorem tflush (f tid : Nat) : Statement (.tflush f tid) := fun _ h => nomatch h

theorem tflushComplete (f : Nat) : Statement (.tflushComplete f) := fun _ h => nomatch h

theorem windowCommit (n : Nat) : Statement (.windowCommit n) := fun _ h => nomatch h

theorem windowRemove (n : Nat) : Statement (.windowRemove n) := fun _ h => nomatch h

theorem windowCommitComplete : Statement (.windowCommitComplete) := fun _ h => nomatch h

theorem pinRegionEnable (n : Nat) : Statement (.pinRegionEnable n) := fun _ h => nomatch h

theorem pinRegionDisable (n : Nat) : Statement (.pinRegionDisable n) := fun _ h => nomatch h

theorem brickFill (tag : BrickTag) : Statement (.brickFill tag) := fun _ h => nomatch h

theorem brickEvict (tag : BrickTag) : Statement (.brickEvict tag) := fun _ h => nomatch h

theorem rangeIdleReturn (n : Nat) : Statement (.rangeIdleReturn n) := fun _ h => nomatch h

theorem pcommit (f : Nat) : Statement (.pcommit f) := fun _ h => nomatch h

theorem frontEndWrite (fe : Nat) (v : BitVec 64) : Statement (.frontEndWrite fe v) := fun _ h => nomatch h

theorem functionDisable (f : Nat) : Statement (.functionDisable f) := fun _ h => nomatch h

theorem functionLevelReset (f : Nat) : Statement (.functionLevelReset f) := fun _ h => nomatch h

theorem vfEnableClear : Statement (.vfEnableClear) := fun _ h => nomatch h

theorem fresumeResume (f : Nat) (token : BitVec 32) : Statement (.fresumeResume f token) := fun _ h => nomatch h

theorem fresumeEndLaunch (f : Nat) (token : BitVec 32) : Statement (.fresumeEndLaunch f token) := fun _ h => nomatch h

theorem faultQueueRetry (f : Nat) : Statement (.faultQueueRetry f) := fun _ h => nomatch h

theorem demandZeroService (f : Nat) (token : BitVec 32) : Statement (.demandZeroService f token) := fun _ h => nomatch h

theorem atomnsDeviceCompletion (f : Nat) (token : BitVec 32) : Statement (.atomnsDeviceCompletion f token) := fun _ h => nomatch h

theorem spaceFreedResume (f : Nat) (token : BitVec 32) : Statement (.spaceFreedResume f token) := fun _ h => nomatch h

theorem invalidatePage (f : Nat) (va : BitVec 64) (size : BitVec 2) : Statement (.invalidatePage f va size) := fun _ h => nomatch h

theorem invalidateAll (f : Nat) : Statement (.invalidateAll f) := fun _ h => nomatch h

theorem invalidateComplete (f : Nat) : Statement (.invalidateComplete f) := fun _ h => nomatch h

theorem qrel (f : Nat) (n : BitVec 32) (agent : BitVec 16) : Statement (.qrel f n agent) := fun _ h => nomatch h

theorem scqpiWrite (f : Nat) (v : BitVec 32) : Statement (.scqpiWrite f v) := fun _ h => nomatch h

theorem scqSlotRetry (f : Nat) : Statement (.scqSlotRetry f) := fun _ h => nomatch h

theorem eccError (e : EccError) : Statement (.eccError e) := fun _ h => nomatch h

theorem hostLinkDown (port : Nat) : Statement (.hostLinkDown port) := fun _ h => nomatch h

theorem hostPortTrained (port : Nat) (mode : PortMode) : Statement (.hostPortTrained port mode) := fun _ h => nomatch h

theorem hostCxlMemAccess (a : AgentAccess) : Statement (.hostCxlMemAccess a) := fun _ h => nomatch h

theorem biasFlip (page : BitVec 36) (dev : Bool) : Statement (.biasFlip page dev) := fun _ h => nomatch h

theorem biasFlipComplete (page : Nat) : Statement (.biasFlipComplete page) := fun _ h => nomatch h

theorem umermashLinkUp (port : Nat) (peer : BitVec 8) : Statement (.umermashLinkUp port peer) := fun _ h => nomatch h

theorem umermashLinkDown (port : Nat) : Statement (.umermashLinkDown port) := fun _ h => nomatch h

theorem umMessage (p : Packet) : Statement (.umMessage p) := fun _ h => nomatch h

theorem umRead (p : Packet) : Statement (.umRead p) := fun _ h => nomatch h

theorem umWrite (p : Packet) : Statement (.umWrite p) := fun _ h => nomatch h

theorem umAtomic (p : Packet) : Statement (.umAtomic p) := fun _ h => nomatch h

theorem umReadData (p : Packet) : Statement (.umReadData p) := fun _ h => nomatch h

theorem umWriteDone (p : Packet) : Statement (.umWriteDone p) := fun _ h => nomatch h

theorem umRefuseDenied (p : Packet) : Statement (.umRefuseDenied p) := fun _ h => nomatch h

theorem umInvalidPacket (port : Nat) (p : Packet) : Statement (.umInvalidPacket port p) := fun _ h => nomatch h

theorem coldReset (hostpkgs : BitVec 3) (splithost : Bool) : Statement (.coldReset hostpkgs splithost) := fun _ h => nomatch h

theorem warmReset (hostpkgs : BitVec 3) (splithost : Bool) : Statement (.warmReset hostpkgs splithost) := fun _ h => nomatch h

theorem unitReady (bit : Nat) : Statement (.unitReady bit) := fun _ h => nomatch h

theorem powerWindowEnd (watts : BitVec 14) : Statement (.powerWindowEnd watts) := fun _ h => nomatch h

theorem currentLimitExceeded (amps : BitVec 15) : Statement (.currentLimitExceeded amps) := fun _ h => nomatch h

theorem plimWrite (v : BitVec 64) : Statement (.plimWrite v) := fun _ h => nomatch h

theorem ilimWrite (v : BitVec 64) : Statement (.ilimWrite v) := fun _ h => nomatch h

theorem dieOvertemp (u : Nat) (t : BitVec 16) : Statement (.dieOvertemp u t) := fun _ h => nomatch h

theorem hbmOvertemp (u : Nat) (t : BitVec 16) : Statement (.hbmOvertemp u t) := fun _ h => nomatch h

theorem thermalTrip (u : Nat) (t : BitVec 16) : Statement (.thermalTrip u t) := fun _ h => nomatch h

theorem twarnCrossed (u : Nat) (t : BitVec 16) : Statement (.twarnCrossed u t) := fun _ h => nomatch h

theorem measurementExtend (i : Nat) (d : BitVec 384) : Statement (.measurementExtend i d) := fun _ h => nomatch h

theorem attestGo (f : Nat) : Statement (.attestGo f) := fun _ h => nomatch h

theorem attestDone (f : Nat) : Statement (.attestDone f) := fun _ h => nomatch h

theorem registerWrite (f : Nat) (pf : Bool) (off : Nat) (v : BitVec 64) : Statement (.registerWrite f pf off v) := fun _ h => nomatch h

theorem atomicopCompletionTimeout (id lane : Nat) : Statement (.atomicopCompletionTimeout id lane) := fun _ h => nomatch h

theorem flitCrcFailure (port : Nat) : Statement (.flitCrcFailure port) := fun _ h => nomatch h

theorem chipletCoreAccess (a : AgentAccess) : Statement (.chipletCoreAccess a) := fun _ h => nomatch h

theorem cxlCacheSnoop (a : BitVec 48) (port : Nat) (kind : SnoopKind) : Statement (.cxlCacheSnoop a port kind) := fun _ h => nomatch h

theorem plimcapWrite (v : BitVec 14) : Statement (.plimcapWrite v) := fun _ h => nomatch h

theorem firmwareStaging (img : FwImage) : Statement (.firmwareStaging img) := fun _ h => nomatch h

theorem dieTemperatureRecovered (u : Nat) (t : BitVec 16) : Statement (.dieTemperatureRecovered u t) := fun _ h => nomatch h

theorem currentBelowIlim (amps : BitVec 15) : Statement (.currentBelowIlim amps) := fun _ h => nomatch h

theorem unitBringupFailure (unit : BitVec 8) (code : BitVec 8) : Statement (.unitBringupFailure unit code) := fun _ h => nomatch h

end F

end Sys2Proof.Laws
end

