-- ==== Sys2Proof/Tests/Slice0.lean ====
section
/-!
SUPPORT. Tests: terms that the well-formedness checks refuse; words decoded; worked examples of the spec, each on one step;
witnesses that the hypotheses of the obligations are met. Expected values are the spec's or worked out by hand from it.
-/

namespace Sys2Proof.Tests

open Sys2Proof Sys2Proof.Machine

set_option maxRecDepth 20000
set_option Elab.async false

/-! ### Well-formedness: one ill-formed term for each check -/

def c0 : Ctl := ⟨0, false, 0, false⟩
def refused (i : Instr) : Bool := !i.wf

/-- 02 R49, R52, R85: guards, unused fields, operand kinds of branches. -/
theorem test_wf_branches : [ Instr.br ⟨⟨0, true, 1, false⟩, .v 0, 0, 1⟩, .br ⟨⟨0, false, 1, false⟩, .v 0, 0, 1⟩, .br ⟨c0, .s 1, 0, 1⟩
  , .br ⟨c0, .v 0, 1, 1⟩, .brs ⟨c0, .v 3, 0, 1⟩, .brz ⟨c0, .x .lane, 0, 1⟩, .bra ⟨c0, .v 8, 0, 1⟩, .brl ⟨c0, .v 1, 2, 1⟩
  , .brd ⟨c0, .s 1, 0, 1⟩, .brsp ⟨c0, .v 1, 3, 1⟩, .brx ⟨c0, .s 1, 0, 1⟩, .ret ⟨c0, .v 1, 0, 0⟩, .brxd ⟨c0, .s 1, 0, 0⟩
  , .call ⟨c0, .s 0, 0, 1⟩, .callx ⟨c0, .s 60, 0, 5⟩, .callx ⟨c0, .s 60, 0, 0xC1⟩, .callx ⟨c0, .s 0, 0, 0x86⟩
  , .meet ⟨c0, .v 0, .v 0, 0, 1⟩, .nop ⟨⟨0, true, 0, false⟩, .v 0, .v 0, 0, 0⟩, .yield ⟨c0, .v 1, .v 0, 0, 0⟩
  , .endLanes ⟨c0, .v 0, .v 0, 1, 0⟩ ].all refused = true := by decide +kernel

/-- 04 R99 to R101: queries and predicate forms. -/
theorem test_wf_predicates : [ Instr.gwidth ⟨c0, .v 1, .v 0, 0, 0⟩, .gsplits ⟨c0, .s 1, .v 0, 0, 1⟩, .lfirst ⟨c0, .s 1, .s 1, 0, 0⟩
  , .gactive ⟨c0, .s 1, .v 0, 0, 3⟩, .gmember ⟨c0, .s 1, .v 1, 0, 0⟩, .gmember ⟨c0, .s 1, .s 1, 0, 3⟩, .lrank ⟨c0, .s 1, .v 0, 0, 0⟩
  , .pand ⟨c0, .t4, .v 8, .v 1, .v 2, .v 0, 0⟩, .por ⟨c0, .t6, .v 1, .v 1, .v 2, .v 0, 0⟩, .pxor ⟨c0, .t4, .v 1, .v 9, .v 2, .v 0, 0⟩
  , .pandn ⟨c0, .t4, .v 1, .v 1, .v 2, .v 1, 0⟩, .pmov ⟨c0, .t4, .v 1, .v 1, .v 2, .v 0, 0⟩, .vany ⟨c0, .t4, .v 1, .v 1, .v 0, .v 0, 1⟩
  , .vall ⟨c0, .t4, .s 1, .v 1, .v 0, .v 0, 0⟩, .pfroms ⟨c0, .t4, .v 1, .v 1, .s 1, .s 1, 0⟩, .ptos ⟨c0, .t4, .s 1, .v 1, .v 0, .v 0, 3⟩
  , .pcount ⟨c0, .t4, .s 1, .v 1, .v 0, .v 0, 1⟩, .pfind ⟨c0, .t4, .v 1, .v 1, .v 0, .v 0, 0⟩
  , .ballot ⟨c0, .t4, .s 1, .s 1, .v 0, .v 0, 0⟩ ].all refused = true := by decide +kernel

/-- 05 R109 to R115: scalar forms. -/
theorem test_wf_scalar : [ Instr.sadd ⟨c0, .t32, .s 1, .s 2, .s 3, .v 0, 0⟩, .sadd ⟨c0, .i16, .s 1, .s 2, .s 3, .v 0, 0⟩
  , .ssub ⟨c0, .i32, .v 1, .s 2, .s 3, .v 0, 0⟩, .smul ⟨c0, .i32, .s 1, .v 2, .s 3, .v 0, 0⟩, .sand ⟨c0, .i32, .s 1, .x .lane, .s 3, .v 0, 0⟩
  , .sor ⟨c0, .i32, .s 1, .s 2, .x .half, .v 0, 0⟩, .sxor ⟨c0, .i32, .s 1, .s 2, .s 3, .s 1, 0⟩, .sandn ⟨c0, .i32, .s 1, .s 2, .s 3, .v 0, 1⟩
  , .smulh ⟨c0, .b32, .s 1, .s 2, .s 3, .v 0, 0⟩, .sdiv ⟨c0, .b64, .s 1, .s 2, .s 3, .v 0, 0⟩, .smin ⟨c0, .b32, .s 1, .s 2, .s 3, .v 0, 0⟩
  , .scmp ⟨c0, .i32, .s 1, .s 2, .s 3, .v 0, 6⟩, .scmp ⟨c0, .b32, .s 1, .s 2, .s 3, .v 0, 2⟩, .scmp ⟨c0, .i32, .s 1, .s 2, .s 3, .v 0, 8⟩
  , .ssel ⟨c0, .i32, .s 1, .s 2, .s 3, .v 4, 0⟩, .smad ⟨c0, .fp32, .s 1, .s 2, .s 3, .s 4, 0⟩, .sclz ⟨c0, .i32, .s 1, .s 2, .s 3, .v 0, 0⟩
  , .saddi ⟨⟨0, true, 0, false⟩, .i32, .s 1, .s 2, 0, 5⟩, .sandi ⟨c0, .i8, .s 1, .s 2, 0, 5⟩, .smovi ⟨c0, .i32, .s 1, .s 2, 0, 5⟩
  , .smovhi ⟨c0, .n64, .s 1, .s 2, 0, 5⟩, .smovhi ⟨c0, .b64, .s 1, .s 2, 4, 5⟩, .saddpc ⟨c0, .b64, .s 1, .s 2, 0, 5⟩
  , .scmpi ⟨c0, .b64, .s 1, .s 2, 3, 5⟩ ].all refused = true := by decide +kernel

/-- 05 R116 to R129, 04 R103, R104: vector, float, conversion and lane forms; 02 R50 pairs, R54 immediates. -/
theorem test_wf_vector : [ Instr.vadd ⟨c0, .fp32, .v 1, .v 2, .v 3, .v 0, 0⟩, .vadd ⟨c0, .i64, .v 1, .v 2, .v 4, .v 0, 0⟩
  , .vadd ⟨c0, .i64, .v 2, .v 3, .v 4, .v 0, 0⟩, .vadd ⟨c0, .i32, .s 1, .v 2, .v 3, .v 0, 0⟩, .vmulh ⟨c0, .b32, .v 1, .v 2, .v 3, .v 0, 0⟩
  , .vmad ⟨c0, .i32, .v 1, .v 2, .v 3, .v 4, 1⟩, .vabs ⟨c0, .n32, .v 1, .v 2, .v 0, .v 0, 0⟩, .vneg ⟨c0, .b32, .v 1, .v 2, .v 0, .v 0, 0⟩
  , .vcmp ⟨c0, .i32, .v 8, .v 2, .v 3, .v 0, 0⟩, .vcmp ⟨c0, .i32, .v 1, .v 2, .v 3, .v 0, 7⟩, .vsel ⟨c0, .i32, .v 1, .v 2, .v 3, .v 0, 8⟩
  , .vcvti ⟨c0, .n8, .v 3, .v 7, .v 0, .v 0, 0x10⟩, .vcvti ⟨c0, .i32, .v 3, .v 7, .v 0, .v 0, 0x4A⟩, .vmovi ⟨c0, .i32, .v 1, .v 2, 0, 5⟩
  , .vmovi ⟨c0, .t6, .v 1, .v 0, 0, 0x40⟩, .vaddi ⟨c0, .t8, .v 1, .v 2, 0, 5⟩, .fadd ⟨c0, .i32, .v 1, .v 2, .v 3, .v 0, 0⟩
  , .fma ⟨c0, .fp32, .v 1, .v 2, .x .lane, .v 4, 0⟩, .fabs ⟨c0, .fp32, .v 1, .v 2, .v 3, .v 0, 0⟩, .fcmp ⟨c0, .t16, .v 1, .v 2, .v 3, .v 0, 6⟩
  , .fclass ⟨c0, .i32, .v 1, .v 2, .v 0, .v 0, 1⟩, .fcvt ⟨c0, .fp32, .v 1, .v 2, .v 0, .v 0, 0x27⟩, .fcvti ⟨c0, .b32, .v 1, .v 2, .v 0, .v 0, 7⟩
  , .icvtf ⟨c0, .fp32, .v 1, .v 2, .v 0, .v 0, 7⟩, .fscale ⟨c0, .fp32, .v 1, .v 2, .x .half, .v 0, 0⟩, .frnd ⟨c0, .fp32, .v 1, .v 2, .v 0, .v 0, 4⟩
  , .fdot2 ⟨c0, .t8, .v 1, .v 2, .v 3, .v 4, 0⟩, .fdot4 ⟨c0, .t8, .v 1, .v 2, .v 3, .v 4, 2⟩, .fpack ⟨c0, .t16, .v 1, .v 2, .v 3, .v 0, 3⟩
  , .funpack ⟨c0, .fp32, .v 1, .v 2, .v 0, .v 0, 3⟩, .fregime ⟨c0, .fp32, .v 1, .v 2, .v 0, .v 0, 0⟩, .ftwin ⟨c0, .t8, .v 1, .v 2, .v 3, .v 0, 4⟩
  , .faddi ⟨c0, .t6, .v 1, .v 2, 0, 0x8000⟩, .fcmpi ⟨c0, .fp32, .v 1, .v 2, 16, 0⟩, .frcp ⟨c0, .fp32, .v 1, .v 2, .v 3, .v 0, 0⟩
  , .xshfl ⟨c0, .i32, .v 1, .v 2, .v 3, .v 0, 1⟩, .xbcast ⟨c0, .b32, .v 1, .v 2, .v 3, .v 0, 1⟩, .xup ⟨c0, .b32, .v 1, .v 2, .s 3, .v 0, 8⟩
  , .xscan ⟨c0, .b32, .v 1, .v 2, .v 0, .v 0, 0⟩, .xred ⟨c0, .i32, .v 1, .v 2, .v 0, .v 0, 3⟩ ].all refused = true := by decide +kernel

/-- 06 R141 to R149: matrix forms. -/
theorem test_wf_matrix : [ Instr.mma ⟨c0, 1, .v 3, .s 4, .t8, .t6, 0, 0, 0⟩, .mma ⟨c0, 1, .s 3, .s 4, .t4, .t8, 0, 0, 0⟩
  , .mma ⟨c0, 1, .s 3, .s 4, .t16, .t16, 1, 0, 0⟩, .mma ⟨c0, 1, .s 3, .s 4, .t8, .t6, 4, 0, 0⟩, .mmaz ⟨c0, 1, .s 3, .s 4, .t8, .t6, 0, 0, 2⟩
  , .azero ⟨c0, 1, .v 0, .v 0, .t4, .t4, 0, 0, 128⟩, .azero ⟨c0, 1, .v 1, .v 0, .t4, .t4, 0, 0, 0⟩, .aload ⟨c0, .b32, .v 1, .s 2, 0, 0, 0, 0⟩
  , .aload ⟨c0, .fp32, .v 64, .s 2, 0, 0, 0, 0⟩, .astore ⟨c0, .b32, .v 1, .s 2, 1, 0, 0, 0⟩, .aread ⟨c0, 1, .s 1, .v 2, .t4, .t4, 0, 0, 0⟩
  , .awrite ⟨c0, 1, .v 1, .v 2, .t8, .t4, 0, 0, 0⟩, .acvt ⟨c0, 1, .v 64, .v 0, .t4, .t4, 0, 0, 0⟩, .aadd ⟨c0, 1, .v 2, .v 0, .t4, .t4, 0, 0, 1⟩
  , .pairq ⟨c0, .s 1, .v 0, 0, 4⟩ ].all refused = true := by decide +kernel

/-- 07 R157 to R184: memory forms. -/
theorem test_wf_memory : [ Instr.ld ⟨c0, .fp32, .v 1, .s 2, 0, 0, 0, 0⟩, .ld ⟨c0, .b64, .v 1, .s 2, 0, 0, 0, 0⟩, .ld ⟨c0, .b32, .s 1, .v 2, 0, 0, 0, 0⟩
  , .ld ⟨c0, .b32, .v 1, .s 2, 3, 0, 0, 0⟩, .ld ⟨c0, .b32, .v 1, .s 2, 0, 1, 0, 0⟩, .ld ⟨c0, .b32, .v 1, .s 2, 0, 0, 2, 0⟩
  , .ld ⟨c0, .b32, .v 1, .v 3, 0, 0, 2, 0⟩, .st ⟨c0, .b32, .x .lane, .s 2, 0, 0, 3, 0⟩, .ldro ⟨c0, .b32, .v 1, .s 2, 2, 0, 0, 0⟩
  , .ldg ⟨c0, .i8, .v 1, .s 2, 0, 0, 0, 3⟩, .stg ⟨c0, .b32, .v 1, .s 2, 0, 0, 0, 0x83⟩, .ldg ⟨c0, .b32, .v 1, .s 2, 0, 0, 0, 0x0C03⟩
  , .ldx ⟨c0, .b32, .v 1, .v 2, 0, 0, 0, 0⟩, .stc ⟨c0, .b32, .v 1, .s 2, 0, 0, 1, 0⟩, .atadd ⟨c0, .i8, .v 1, .s 2, 0, 0, 0, 0⟩
  , .atadd ⟨c0, .b32, .v 1, .s 2, 0, 6, 0, 0⟩, .atmin ⟨c0, .b32, .v 1, .s 2, 0, 0, 0, 0⟩, .atand ⟨c0, .fp32, .v 1, .s 2, 0, 0, 0, 0⟩
  , .atcas ⟨c0, .b32, .v 1, .s 2, 0, 0, 0, 0⟩, .atcas ⟨c0, .b64, .v 2, .s 2, 0, 0, 0, 0⟩, .mwupd ⟨c0, .i64, .v 2, .s 2, 2, 0, 0, 0⟩
  , .mwupd ⟨c0, .i32, .v 2, .s 2, 0, 0, 0, 0⟩, .hsend ⟨c0, .i8, .v 2, .s 2, 3, 0, 0, 0⟩, .hsend ⟨c0, .i32, .v 2, .s 2, 0, 0, 0, 0⟩
  , .pref ⟨c0, .t4, .v 1, .s 2, 0, 0, 0, 0⟩, .resid ⟨c0, .t4, .s 1, .s 2, 0, 0, 3, 0⟩, .fence ⟨c0, .t4, .v 0, .v 0, 0, 6, 0, 0⟩
  , .fencero ⟨c0, .t4, .v 0, .v 0, 0, 0, 1, 0⟩, .bind ⟨c0, .t4, .s 60, .s 2, 0, 0, 0, 0⟩, .unbind ⟨c0, .b64, .s 1, .s 2, 0, 0, 0, 0⟩
  , .acq ⟨c0, .b32, .s 1, .s 2, 0, 0, 0, 0⟩, .rel ⟨c0, .b64, .s 1, .s 2, 0, 0, 1, 0⟩ ].all refused = true := by decide +kernel

/-- 08 R190 to R215, 09: copies, loop control, rendezvous, rings and the system group. -/
theorem test_wf_system : [ Instr.cpy ⟨c0, .s 58, .s 4, .s 5, 31, 0, 0⟩, .cpy ⟨c0, .s 1, .s 4, .s 5, 24, 0, 0⟩, .cpy ⟨c0, .s 1, .s 4, .s 5, 31, 1, 0⟩
  , .cpy ⟨c0, .s 1, .s 4, .s 5, 31, 0, 2⟩, .cpy ⟨c0, .s 1, .s 4, .s 5, 31, 0, 4⟩, .cpyg ⟨c0, .s 1, .s 4, .s 59, 31, 0, 0⟩
  , .cpys ⟨c0, .s 1, .v 4, .s 5, 31, 0, 0⟩, .cpyc ⟨c0, .s 1, .s 4, .s 5, 31, 0, 1⟩, .cpyred ⟨c0, .s 1, .s 4, .s 5, 31, 0, 12⟩
  , .lpinit ⟨c0, .v 0, .s 4, .v 0, 31, 0, 512⟩, .lpstart ⟨c0, .v 0, .v 0, .v 0, 0, 0, 0⟩, .lpstop ⟨c0, .v 0, .s 1, .v 0, 31, 0, 0⟩
  , .lpnext ⟨c0, .v 0, .v 1, .v 0, 31, 0, 0⟩, .lpdone ⟨c0, .v 0, .v 0, .v 1, 31, 0, 0⟩, .lpq ⟨c0, .v 0, .s 1, .v 0, 31, 0, 5⟩
  , .jinit ⟨c0, .v 0, .v 0, 0, 3⟩, .jarrive ⟨c0, .v 0, .v 0, 0, 24⟩, .jarwait ⟨c0, .v 0, .s 1, 1, 0x20⟩, .jwait ⟨c0, .v 0, .v 0, 0, 0x20⟩
  , .ringinit ⟨c0, .v 0, .v 0, 0, 0⟩, .ringinit ⟨c0, .v 0, .v 0, 0, 0x110⟩, .ringput ⟨c0, .s 1, .s 2, 0, 0x10⟩, .ringtake ⟨c0, .s 1, .v 2, 0, 0⟩
  , .kwait ⟨c0, .v 0, .v 0, 0, 256⟩, .region ⟨c0, .v 0, .v 0, 1, 0⟩, .xret ⟨c0, .v 0, .v 0, 0, 1⟩, .eret ⟨c0, .v 1, .v 0, 0, 0⟩
  , .brk ⟨c0, .v 0, .v 0, 0, 1⟩, .trap ⟨c0, .v 0, .s 1, 0, 1⟩, .scall ⟨c0, .v 8, .s 1, 0, 0⟩, .scall ⟨c0, .v 8, .v 16, 0, 0⟩
  , .cpop ⟨c0, .s 58, .s 1, 0, 0⟩, .cpush ⟨c0, .s 1, .s 2, 1, 0⟩, .cjoin ⟨c0, .s 1, .s 60, 0, 0⟩, .mbsend ⟨c0, .s 1, .s 55, 0, 0⟩
  , .netsend ⟨c0, .s 1, .s 2, 2, 0⟩, .mbrecv ⟨c0, .s 54, .s 1, 0, 0⟩, .quotaq ⟨c0, .s 1, .v 0, 0, 4⟩, .cycq ⟨c0, .s 1, .v 0, 0, 3⟩
  , .capq ⟨c0, .s 1, .v 0, 0, 68⟩, .capq ⟨c0, .s 1, .v 0, 0, 192⟩ ].all refused = true := by decide +kernel

/-! ### Words written out bit by bit from the encoding of 02 R47, R48 -/

def readsAs (q : Nat × Instr) : Bool := decode (BitVec.ofNat 64 q.1) == some q.2

/-- 26 R384: the word the spec works out for `scmpi.n64 s60, %gang, 0, eq`. -/
theorem test_words_roles : readsAs (0x17400FBCC5000000, .scmpi ⟨c0, .n64, .s 60, .x .gang, 0, 0⟩) = true := by decide +kernel
theorem test_words_group01 : [(0x0400000000000005, .br ⟨c0, .v 0, 0, 5⟩),
    (0x04401060FFFFFFFE, .brs ⟨c0, .s 3, 0, 4294967294⟩),
    (0x0480108000000002, .brz ⟨c0, .s 4, 0, 2⟩),
    (0x04C0004000000003, .bra ⟨c0, .v 2, 0, 3⟩),
    (0x0500006100000004, .brl ⟨c0, .v 3, 1, 4⟩),
    (0x054000200000001F, .brd ⟨c0, .v 1, 0, 31⟩),
    (0x058000A100000006, .brsp ⟨c0, .v 5, 1, 6⟩),
    (0x05C0112000000000, .brx ⟨c0, .s 9, 0, 0⟩),
    (0x0600006000000000, .brxd ⟨c0, .v 3, 0, 0⟩),
    (0x064010A000000007, .call ⟨c0, .s 5, 0, 7⟩),
    (0x068010A000000086, .callx ⟨c0, .s 5, 0, 134⟩),
    (0x06C010A000000000, .ret ⟨c0, .s 5, 0, 0⟩),
    (0x0700000000000000, .meet ⟨c0, .v 0, .v 0, 0, 0⟩),
    (0x0742A00000000000, .endLanes ⟨⟨0, true, 2, true⟩, .v 0, .v 0, 0, 0⟩),
    (0x0780000000000000, .nop ⟨c0, .v 0, .v 0, 0, 0⟩),
    (0x07C0000000000000, .yield ⟨c0, .v 0, .v 0, 0, 0⟩)].all readsAs = true := by decide +kernel

theorem test_words_group02 : [(0x0800108000000000, .gwidth ⟨c0, .s 4, .v 0, 0, 0⟩),
    (0x084010A000000000, .gsplits ⟨c0, .s 5, .v 0, 0, 0⟩),
    (0x088010D0E0000002, .gmember ⟨c0, .s 6, .s 7, 0, 2⟩),
    (0x08C010C000000001, .gactive ⟨c0, .s 6, .v 0, 0, 1⟩),
    (0x0902C0E000000000, .lrank ⟨⟨0, true, 3, false⟩, .v 7, .v 0, 0, 0⟩),
    (0x0940110000000000, .lfirst ⟨c0, .s 8, .v 0, 0, 0⟩)].all readsAs = true := by decide +kernel

theorem test_words_group03 : [(0x0C00000301020000, .pand ⟨c0, .t4, .v 3, .v 1, .v 2, .v 0, 0⟩),
    (0x0C40000301020000, .por ⟨c0, .t4, .v 3, .v 1, .v 2, .v 0, 0⟩),
    (0x0C80000301020000, .pxor ⟨c0, .t4, .v 3, .v 1, .v 2, .v 0, 0⟩),
    (0x0CC0000301020000, .pandn ⟨c0, .t4, .v 3, .v 1, .v 2, .v 0, 0⟩),
    (0x0D00000405000000, .pmov ⟨c0, .t4, .v 4, .v 5, .v 0, .v 0, 0⟩),
    (0x0D42A0018A8B8C00, .pfroms ⟨⟨0, true, 2, true⟩, .t4, .v 1, .s 10, .s 11, .s 12, 0⟩),
    (0x0D80008702000002, .ptos ⟨c0, .t4, .s 7, .v 2, .v 0, .v 0, 2⟩),
    (0x0DC0000405000000, .vany ⟨c0, .t4, .v 4, .v 5, .v 0, .v 0, 0⟩),
    (0x0E00000405000000, .vall ⟨c0, .t4, .v 4, .v 5, .v 0, .v 0, 0⟩),
    (0x0E40008714000001, .ballot ⟨c0, .t4, .s 7, .v 20, .v 0, .v 0, 1⟩),
    (0x0E80008702000000, .pcount ⟨c0, .t4, .s 7, .v 2, .v 0, .v 0, 0⟩),
    (0x0EC0008803000000, .pfind ⟨c0, .t4, .s 8, .v 3, .v 0, .v 0, 0⟩)].all readsAs = true := by decide +kernel

theorem test_words_group04 : [(0x1000118384850000, .sadd ⟨c0, .b64, .s 3, .s 4, .s 5, .v 0, 0⟩),
    (0x1040118384850000, .ssub ⟨c0, .b64, .s 3, .s 4, .s 5, .v 0, 0⟩),
    (0x1080118384850000, .smul ⟨c0, .b64, .s 3, .s 4, .s 5, .v 0, 0⟩),
    (0x10C00A8384E10000, .smulh ⟨c0, .i32, .s 3, .s 4, .x .m1, .v 0, 0⟩),
    (0x11000A8384E10000, .sdiv ⟨c0, .i32, .s 3, .s 4, .x .m1, .v 0, 0⟩),
    (0x11400A8384E10000, .srem ⟨c0, .i32, .s 3, .s 4, .x .m1, .v 0, 0⟩),
    (0x1180118384850000, .sand ⟨c0, .b64, .s 3, .s 4, .s 5, .v 0, 0⟩),
    (0x11C0118384850000, .sor ⟨c0, .b64, .s 3, .s 4, .s 5, .v 0, 0⟩),
    (0x1200118384850000, .sxor ⟨c0, .b64, .s 3, .s 4, .s 5, .v 0, 0⟩),
    (0x1240118384850000, .sandn ⟨c0, .b64, .s 3, .s 4, .s 5, .v 0, 0⟩),
    (0x1280118384850000, .sshl ⟨c0, .b64, .s 3, .s 4, .s 5, .v 0, 0⟩),
    (0x12C0118384850000, .sshr ⟨c0, .b64, .s 3, .s 4, .s 5, .v 0, 0⟩),
    (0x1300118384850000, .ssra ⟨c0, .b64, .s 3, .s 4, .s 5, .v 0, 0⟩),
    (0x13400A8384E10000, .smin ⟨c0, .i32, .s 3, .s 4, .x .m1, .v 0, 0⟩),
    (0x13800A8384E10000, .smax ⟨c0, .i32, .s 3, .s 4, .x .m1, .v 0, 0⟩),
    (0x13C00F8384850005, .scmp ⟨c0, .n64, .s 3, .s 4, .s 5, .v 0, 5⟩)].all readsAs = true := by decide +kernel

theorem test_words_group05 : [(0x14000E8384858600, .ssel ⟨c0, .n32, .s 3, .s 4, .s 5, .s 6, 0⟩),
    (0x14400E8384858600, .smad ⟨c0, .n32, .s 3, .s 4, .s 5, .s 6, 0⟩),
    (0x1480108384000000, .sclz ⟨c0, .b32, .s 3, .s 4, .v 0, .v 0, 0⟩),
    (0x14C0108384000000, .spopc ⟨c0, .b32, .s 3, .s 4, .v 0, .v 0, 0⟩),
    (0x15000E8384858600, .sbfx ⟨c0, .n32, .s 3, .s 4, .s 5, .s 6, 0⟩),
    (0x15400E8384858600, .sbfi ⟨c0, .n32, .s 3, .s 4, .s 5, .s 6, 0⟩),
    (0x15800B8384008001, .saddi ⟨c0, .i64, .s 3, .s 4, 0, 32769⟩),
    (0x15C00B8384008001, .sandi ⟨c0, .i64, .s 3, .s 4, 0, 32769⟩),
    (0x16000B8384008001, .sori ⟨c0, .i64, .s 3, .s 4, 0, 32769⟩),
    (0x16400B8384008001, .sxori ⟨c0, .i64, .s 3, .s 4, 0, 32769⟩),
    (0x16800E8300001234, .smovi ⟨c0, .n32, .s 3, .v 0, 0, 4660⟩),
    (0x16C011838302BEEF, .smovhi ⟨c0, .b64, .s 3, .s 3, 2, 48879⟩),
    (0x1700118300000009, .saddpc ⟨c0, .b64, .s 3, .v 0, 0, 9⟩),
    (0x17400F8F8F050010, .scmpi ⟨c0, .n64, .s 15, .s 15, 5, 16⟩)].all readsAs = true := by decide +kernel

theorem test_words_group06 : [(0x1800100304050000, .vadd ⟨c0, .b32, .v 3, .v 4, .v 5, .v 0, 0⟩),
    (0x1840100304050000, .vsub ⟨c0, .b32, .v 3, .v 4, .v 5, .v 0, 0⟩),
    (0x1880100304050000, .vmul ⟨c0, .b32, .v 3, .v 4, .v 5, .v 0, 0⟩),
    (0x18C00C0304850000, .vmulh ⟨c0, .n8, .v 3, .v 4, .s 5, .v 0, 0⟩),
    (0x1900090304050600, .vmad ⟨c0, .i16, .v 3, .v 4, .v 5, .v 6, 0⟩),
    (0x19400C0304850000, .vaddsat ⟨c0, .n8, .v 3, .v 4, .s 5, .v 0, 0⟩),
    (0x19800C0304850000, .vsubsat ⟨c0, .n8, .v 3, .v 4, .s 5, .v 0, 0⟩),
    (0x19C0100304050000, .vand ⟨c0, .b32, .v 3, .v 4, .v 5, .v 0, 0⟩),
    (0x1A00100304050000, .vor ⟨c0, .b32, .v 3, .v 4, .v 5, .v 0, 0⟩),
    (0x1A40100304050000, .vxor ⟨c0, .b32, .v 3, .v 4, .v 5, .v 0, 0⟩),
    (0x1A80100304050000, .vandn ⟨c0, .b32, .v 3, .v 4, .v 5, .v 0, 0⟩),
    (0x1AC0100304050000, .vshl ⟨c0, .b32, .v 3, .v 4, .v 5, .v 0, 0⟩),
    (0x1B00100304050000, .vshr ⟨c0, .b32, .v 3, .v 4, .v 5, .v 0, 0⟩),
    (0x1B40100304050000, .vsra ⟨c0, .b32, .v 3, .v 4, .v 5, .v 0, 0⟩),
    (0x1B800C0304850000, .vmin ⟨c0, .n8, .v 3, .v 4, .s 5, .v 0, 0⟩),
    (0x1BC00C0304850000, .vmax ⟨c0, .n8, .v 3, .v 4, .s 5, .v 0, 0⟩)].all readsAs = true := by decide +kernel

theorem test_words_group07 : [(0x1C000B0204000000, .vabs ⟨c0, .i64, .v 2, .v 4, .v 0, .v 0, 0⟩),
    (0x1C424D0304000000, .vneg ⟨⟨0, true, 1, false⟩, .n16, .v 3, .v 4, .v 0, .v 0, 0⟩),
    (0x1C800A030405000A, .vcmp ⟨c0, .i32, .v 3, .v 4, .v 5, .v 0, 10⟩),
    (0x1CC0110204060003, .vsel ⟨c0, .b64, .v 2, .v 4, .v 6, .v 0, 3⟩),
    (0x1D000E03C1000000, .vclz ⟨c0, .n32, .v 3, .x .lane, .v 0, .v 0, 0⟩),
    (0x1D400E03C1000000, .vpopc ⟨c0, .n32, .v 3, .x .lane, .v 0, .v 0, 0⟩),
    (0x1D80090304050600, .vbfx ⟨c0, .i16, .v 3, .v 4, .v 5, .v 6, 0⟩),
    (0x1DC0090304050600, .vbfi ⟨c0, .i16, .v 3, .v 4, .v 5, .v 6, 0⟩),
    (0x1E00090304000028, .vcvti ⟨c0, .i16, .v 3, .v 4, .v 0, .v 0, 40⟩),
    (0x1E40030300004000, .vmovi ⟨c0, .t16, .v 3, .v 0, 0, 16384⟩),
    (0x1E828A0405000064, .vaddi ⟨⟨0, true, 2, false⟩, .i32, .v 4, .v 5, 0, 100⟩),
    (0x1EC01004050000FF, .vandi ⟨c0, .b32, .v 4, .v 5, 0, 255⟩),
    (0x1F000D0405000001, .vori ⟨c0, .n16, .v 4, .v 5, 0, 1⟩)].all readsAs = true := by decide +kernel

theorem test_words_group08 : [(0x2000030304E30000, .fadd ⟨c0, .t16, .v 3, .v 4, .x .half, .v 0, 0⟩),
    (0x2040030304E30000, .fsub ⟨c0, .t16, .v 3, .v 4, .x .half, .v 0, 0⟩),
    (0x2080030304E30000, .fmul ⟨c0, .t16, .v 3, .v 4, .x .half, .v 0, 0⟩),
    (0x20C0060304050600, .fma ⟨c0, .fp16, .v 3, .v 4, .v 5, .v 6, 0⟩),
    (0x2100060304050600, .fms ⟨c0, .fp16, .v 3, .v 4, .v 5, .v 6, 0⟩),
    (0x2140060304050600, .fnma ⟨c0, .fp16, .v 3, .v 4, .v 5, .v 6, 0⟩),
    (0x2180060304050600, .fnms ⟨c0, .fp16, .v 3, .v 4, .v 5, .v 6, 0⟩),
    (0x21C0030304E30000, .fmin ⟨c0, .t16, .v 3, .v 4, .x .half, .v 0, 0⟩),
    (0x2200030304E30000, .fmax ⟨c0, .t16, .v 3, .v 4, .x .half, .v 0, 0⟩),
    (0x2240050304000000, .fabs ⟨c0, .bf16, .v 3, .v 4, .v 0, .v 0, 0⟩),
    (0x2280050304000000, .fneg ⟨c0, .bf16, .v 3, .v 4, .v 0, .v 0, 0⟩),
    (0x22C0070304050007, .fcmp ⟨c0, .fp32, .v 3, .v 4, .v 5, .v 0, 7⟩),
    (0x2300040304050007, .fsel ⟨c0, .t32, .v 3, .v 4, .v 5, .v 0, 7⟩),
    (0x2340020304000081, .fclass ⟨c0, .t8, .v 3, .v 4, .v 0, .v 0, 129⟩),
    (0x2380060304000047, .fcvt ⟨c0, .fp16, .v 3, .v 4, .v 0, .v 0, 71⟩),
    (0x23C00D0304000067, .fcvti ⟨c0, .n16, .v 3, .v 4, .v 0, .v 0, 103⟩)].all readsAs = true := by decide +kernel

theorem test_words_group09 : [(0x240007030400000A, .icvtf ⟨c0, .fp32, .v 3, .v 4, .v 0, .v 0, 10⟩),
    (0x2440040304850000, .fscale ⟨c0, .t32, .v 3, .v 4, .s 5, .v 0, 0⟩),
    (0x2480070304000003, .frnd ⟨c0, .fp32, .v 3, .v 4, .v 0, .v 0, 3⟩),
    (0x24C0030304050601, .fdot2 ⟨c0, .t16, .v 3, .v 4, .v 5, .v 6, 1⟩),
    (0x2500020304050600, .fdot4 ⟨c0, .t8, .v 3, .v 4, .v 5, .v 6, 0⟩),
    (0x2540030304050004, .fpack ⟨c0, .t16, .v 3, .v 4, .v 5, .v 0, 4⟩),
    (0x2580030406000002, .funpack ⟨c0, .t16, .v 4, .v 6, .v 0, .v 0, 2⟩),
    (0x25C0020304000001, .fregime ⟨c0, .t8, .v 3, .v 4, .v 0, .v 0, 1⟩),
    (0x260001030405000B, .ftwin ⟨c0, .t6, .v 3, .v 4, .v 5, .v 0, 11⟩),
    (0x2640070304003F80, .faddi ⟨c0, .fp32, .v 3, .v 4, 0, 16256⟩),
    (0x2680070304003F80, .fmuli ⟨c0, .fp32, .v 3, .v 4, 0, 16256⟩),
    (0x26C0070304003F80, .fmai ⟨c0, .fp32, .v 3, .v 4, 0, 16256⟩),
    (0x2700030304044000, .fcmpi ⟨c0, .t16, .v 3, .v 4, 4, 16384⟩),
    (0x2740070304003F80, .fmini ⟨c0, .fp32, .v 3, .v 4, 0, 16256⟩),
    (0x2780070304003F80, .fmaxi ⟨c0, .fp32, .v 3, .v 4, 0, 16256⟩)].all readsAs = true := by decide +kernel

theorem test_words_group0A : [(0x2808040304000000, .frcp ⟨⟨2, false, 0, false⟩, .t32, .v 3, .v 4, .v 0, .v 0, 0⟩),
    (0x2848040304000000, .frsq ⟨⟨2, false, 0, false⟩, .t32, .v 3, .v 4, .v 0, .v 0, 0⟩),
    (0x2888040304000000, .fsqrt ⟨⟨2, false, 0, false⟩, .t32, .v 3, .v 4, .v 0, .v 0, 0⟩),
    (0x28C8040304000000, .fexp2 ⟨⟨2, false, 0, false⟩, .t32, .v 3, .v 4, .v 0, .v 0, 0⟩),
    (0x2908040304000000, .flog2 ⟨⟨2, false, 0, false⟩, .t32, .v 3, .v 4, .v 0, .v 0, 0⟩),
    (0x2948040304000000, .fsin ⟨⟨2, false, 0, false⟩, .t32, .v 3, .v 4, .v 0, .v 0, 0⟩),
    (0x2988040304000000, .fcos ⟨⟨2, false, 0, false⟩, .t32, .v 3, .v 4, .v 0, .v 0, 0⟩),
    (0x29C8040304000000, .ftanh ⟨⟨2, false, 0, false⟩, .t32, .v 3, .v 4, .v 0, .v 0, 0⟩),
    (0x2A08040304000000, .fsigm ⟨⟨2, false, 0, false⟩, .t32, .v 3, .v 4, .v 0, .v 0, 0⟩),
    (0x2A48040304000000, .ferf ⟨⟨2, false, 0, false⟩, .t32, .v 3, .v 4, .v 0, .v 0, 0⟩)].all readsAs = true := by decide +kernel

theorem test_words_group0B : [(0x2C00100304050002, .xshfl ⟨c0, .b32, .v 3, .v 4, .v 5, .v 0, 2⟩),
    (0x2C40110204850004, .xbcast ⟨c0, .b64, .v 2, .v 4, .s 5, .v 0, 4⟩),
    (0x2C80110204850004, .xup ⟨c0, .b64, .v 2, .v 4, .s 5, .v 0, 4⟩),
    (0x2CC0110204850004, .xdown ⟨c0, .b64, .v 2, .v 4, .s 5, .v 0, 4⟩),
    (0x2D00110204850004, .xxor ⟨c0, .b64, .v 2, .v 4, .s 5, .v 0, 4⟩),
    (0x2D44070304000002, .xscan ⟨⟨1, false, 0, false⟩, .fp32, .v 3, .v 4, .v 0, .v 0, 2⟩),
    (0x2D84070304000002, .xscanx ⟨⟨1, false, 0, false⟩, .fp32, .v 3, .v 4, .v 0, .v 0, 2⟩),
    (0x2DC4070304000002, .xred ⟨⟨1, false, 0, false⟩, .fp32, .v 3, .v 4, .v 0, .v 0, 2⟩)].all readsAs = true := by decide +kernel

theorem test_words_group0C : [(0x300002C1C2082600, .mma ⟨c0, 5, .s 3, .s 4, .t8, .t6, 1, 2, 0⟩),
    (0x304002C1C2044301, .mmaz ⟨c0, 5, .s 3, .s 4, .t6, .t8, 0, 3, 1⟩),
    (0x3080028000000045, .azero ⟨c0, 5, .v 0, .v 0, .t4, .t4, 0, 0, 69⟩),
    (0x30C0040586400040, .aload ⟨c0, .t32, .v 5, .s 6, 2, 0, 0, 64⟩),
    (0x3100100586000080, .astore ⟨c0, .b32, .v 5, .s 6, 0, 0, 0, 128⟩),
    (0x314C028404800001, .aread ⟨⟨3, false, 0, false⟩, 5, .v 8, .v 9, .t4, .t4, 0, 0, 1⟩),
    (0x3180028444800000, .awrite ⟨c0, 5, .v 8, .s 9, .t4, .t4, 0, 0, 0⟩),
    (0x31C0028300000001, .acvt ⟨c0, 5, .v 6, .v 0, .t4, .t4, 0, 0, 1⟩),
    (0x3200028300000000, .aadd ⟨c0, 5, .v 6, .v 0, .t4, .t4, 0, 0, 0⟩),
    (0x3240106000000003, .pairq ⟨c0, .s 3, .v 0, 0, 3⟩)].all readsAs = true := by decide +kernel

theorem test_words_group0D : [(0x3404100608000010, .ld ⟨⟨1, false, 0, false⟩, .b32, .v 6, .v 8, 0, 0, 0, 16⟩),
    (0x34400C868820FFFF, .st ⟨c0, .n8, .s 6, .s 8, 1, 0, 0, 65535⟩),
    (0x3480090688010000, .ldro ⟨c0, .i16, .v 6, .s 8, 0, 0, 1, 0⟩),
    (0x34C0100688010320, .ldg ⟨c0, .b32, .v 6, .s 8, 0, 0, 1, 800⟩),
    (0x35000F0688400000, .stg ⟨c0, .n64, .v 6, .s 8, 2, 0, 0, 0⟩),
    (0x35430E0688000000, .ldx ⟨⟨0, true, 4, false⟩, .n32, .v 6, .s 8, 0, 0, 0, 0⟩),
    (0x3580110688000000, .stc ⟨c0, .b64, .v 6, .s 8, 0, 0, 0, 0⟩),
    (0x35C0070688170000, .atadd ⟨c0, .fp32, .v 6, .s 8, 0, 5, 3, 0⟩),
    (0x36000A0608110000, .atmin ⟨c0, .i32, .v 6, .v 8, 0, 4, 1, 0⟩),
    (0x36400A0608110000, .atmax ⟨c0, .i32, .v 6, .v 8, 0, 4, 1, 0⟩),
    (0x36801186880A0000, .atand ⟨c0, .b64, .s 6, .s 8, 0, 2, 2, 0⟩),
    (0x36C01186880A0000, .ator ⟨c0, .b64, .s 6, .s 8, 0, 2, 2, 0⟩),
    (0x37001186880A0000, .atxor ⟨c0, .b64, .s 6, .s 8, 0, 2, 2, 0⟩),
    (0x37401186880A0000, .atswp ⟨c0, .b64, .s 6, .s 8, 0, 2, 2, 0⟩),
    (0x37801006880C0000, .atcas ⟨c0, .b32, .v 6, .s 8, 0, 3, 0, 0⟩),
    (0x37C0050688400008, .mwupd ⟨c0, .bf16, .v 6, .s 8, 2, 0, 0, 8⟩)].all readsAs = true := by decide +kernel

theorem test_words_group0E : [(0x3800070688620000, .hsend ⟨c0, .fp32, .v 6, .s 8, 3, 0, 2, 0⟩),
    (0x3840000088010000, .pref ⟨c0, .t4, .v 0, .s 8, 0, 0, 1, 0⟩),
    (0x3880008688020000, .resid ⟨c0, .t4, .s 6, .s 8, 0, 0, 2, 0⟩),
    (0x38C0000000100000, .fence ⟨c0, .t4, .v 0, .v 0, 0, 4, 0, 0⟩),
    (0x3900000000040000, .fencero ⟨c0, .t4, .v 0, .v 0, 0, 1, 0, 0⟩),
    (0x3940008588000000, .bind ⟨c0, .t4, .s 5, .s 8, 0, 0, 0, 0⟩),
    (0x3980008588000000, .unbind ⟨c0, .t4, .s 5, .s 8, 0, 0, 0, 0⟩),
    (0x39C0118588100000, .acq ⟨c0, .b64, .s 5, .s 8, 0, 4, 0, 0⟩),
    (0x3A00118588140008, .rel ⟨c0, .b64, .s 5, .s 8, 0, 5, 0, 8⟩)].all readsAs = true := by decide +kernel

theorem test_words_group0F : [(0x3C00129313632011, .cpy ⟨c0, .s 20, .s 24, .s 27, 3, 2, 17⟩),
    (0x3C401293137F0000, .cpyg ⟨c0, .s 20, .s 24, .s 27, 31, 0, 0⟩),
    (0x3C801293137F0000, .cpys ⟨c0, .s 20, .s 24, .s 27, 31, 0, 0⟩),
    (0x3CC0129313770000, .cpyc ⟨c0, .s 20, .s 24, .s 27, 23, 0, 0⟩),
    (0x3D001293137F0008, .cpyred ⟨c0, .s 20, .s 24, .s 27, 31, 0, 8⟩),
    (0x3D400010601F0005, .lpinit ⟨c0, .v 0, .s 3, .v 0, 31, 0, 5⟩),
    (0x3D800000001F0000, .lpstart ⟨c0, .v 0, .v 0, .v 0, 31, 0, 0⟩),
    (0x3DC00010601F0000, .lpnext ⟨c0, .v 0, .s 3, .v 0, 31, 0, 0⟩),
    (0x3E000000107F0000, .lpdone ⟨c0, .v 0, .v 0, .s 3, 31, 0, 0⟩),
    (0x3E400000001F0000, .lpstop ⟨c0, .v 0, .v 0, .v 0, 31, 0, 0⟩),
    (0x3E800010601F0004, .lpq ⟨c0, .v 0, .s 3, .v 0, 31, 0, 4⟩)].all readsAs = true := by decide +kernel

theorem test_words_group10 : [(0x4000000000000083, .jinit ⟨c0, .v 0, .v 0, 0, 131⟩),
    (0x4040001060200007, .jarrive ⟨c0, .v 0, .s 3, 1, 7⟩),
    (0x4080000000200027, .jwait ⟨c0, .v 0, .v 0, 1, 39⟩),
    (0x40C0000000000045, .jarwait ⟨c0, .v 0, .v 0, 0, 69⟩),
    (0x4100000000000103, .ringinit ⟨c0, .v 0, .v 0, 0, 259⟩),
    (0x4140107080000005, .ringput ⟨c0, .s 3, .s 4, 0, 5⟩),
    (0x4180106000000015, .ringtake ⟨c0, .s 3, .v 0, 0, 21⟩),
    (0x41C0000000000042, .kwait ⟨c0, .v 0, .v 0, 0, 66⟩)].all readsAs = true := by decide +kernel

theorem test_words_group11 : [(0x4400000000000200, .region ⟨c0, .v 0, .v 0, 0, 512⟩),
    (0x4440000000000000, .xret ⟨c0, .v 0, .v 0, 0, 0⟩),
    (0x4480000000000000, .eret ⟨c0, .v 0, .v 0, 0, 0⟩),
    (0x44C000000000004D, .trap ⟨c0, .v 0, .v 0, 0, 77⟩),
    (0x4500010200611021, .scall ⟨c0, .v 8, .v 16, 3, 69665⟩),
    (0x4540107080200000, .cpop ⟨c0, .s 3, .s 4, 1, 0⟩),
    (0x4580107080000000, .cpush ⟨c0, .s 3, .s 4, 0, 0⟩),
    (0x45C0107080000000, .cjoin ⟨c0, .s 3, .s 4, 0, 0⟩),
    (0x4600107080200000, .mbsend ⟨c0, .s 3, .s 4, 1, 0⟩),
    (0x4640107080000000, .mbrecv ⟨c0, .s 3, .s 4, 0, 0⟩),
    (0x4680106000000003, .quotaq ⟨c0, .s 3, .v 0, 0, 3⟩),
    (0x46C0106000000002, .cycq ⟨c0, .s 3, .v 0, 0, 2⟩),
    (0x4700107080200000, .netsend ⟨c0, .s 3, .s 4, 1, 0⟩),
    (0x4740106000000080, .capq ⟨c0, .s 3, .v 0, 0, 128⟩),
    (0x4780000000000000, .brk ⟨c0, .v 0, .v 0, 0, 0⟩)].all readsAs = true := by decide +kernel


/-! ### Small states: one gang of one split in the midst of a clause of two words -/

def clause2 : Clause :=
  { hdr := 0x1000, header := 0, words := [0, 0], pos := 0, stop := 2, waited := true, begun := true, desc := [] }

/-- A split of lane 0 alone. -/
def lane0 : Split := { pc := 0x1008, region := 0x1000, member := 1, active := 1, clause := some clause2 }

def gang : Gang := { vregs := 128, live := allLanes, fresh := false }

def team : Team := { tiles := 8, window := 0x2000 }

/-- After reset, with every unit ready and addresses below 1 GiB mapped to themselves: one table below the root, one leaf. The
device holds the range of them at each slice. -/
def paged : State := { State.reset with
  mem := [(0x1000, 1), (0x1001, 0x20), (0x2000, 0xF)]
  ranges := (List.range 12).map fun i => ⟨i, false, 0, 18⟩
  mmio := [(0xC00, 0x1000), (0x70000, BitVec.allOnes 64)] }

/-- The same, with the function's fault queue at 0x5_0000. -/
def served : State := { paged with mmio := [(0xC00, 0x1000), (0xC08, 0x50000), (0xC10, 0x100), (0x70000, BitVec.allOnes 64)] }

/-- Gang 0 of team 0 of launch 0 runs its split 0 in `s`. -/
def run (s : State) (P : Split) (G : Gang := gang) (T : Team := team) (l : Launch := {}) : State :=
  { s with cur := some (0, 0), gangs := [(0, { G with splits := [(0, P)] })], teams := [(0, T)], launches := [(0, l)] }

def ctx (s : State) (P : Split) (G : Gang := gang) (T : Team := team) (l : Launch := {}) : Cx :=
  ⟨run s P G T l, 0, 0, { G with splits := [(0, P)] }, P⟩

/-- Its state and its context, for the hypothesis that most statements have. -/
theorem runs_ctx (s : State) (P : Split) (G : Gang) (T : Team) (l : Launch) : Runs (run s P G T l) (ctx s P G T l) := ⟨rfl, rfl⟩

theorem steady_ctx (s : State) (G : Gang) (T : Team) (l : Launch) : Steady (ctx s lane0 G T l) := ⟨rfl, clause2, rfl, by decide⟩

/-- What an instruction leaves its split with. -/
def after (i : Instr) (s : State) : Option Cx :=
  match exec i s with
  | .next t => t.cx? 0 0
  | _ => none

def nextOf (i : Instr) (s : State) : State :=
  match exec i s with
  | .next t => t
  | _ => s

/-- A split of lane 0 with scalar registers, a gang with lane 0 of vector registers. -/
def scalars (rs : List (Nat × Nat)) : Split := { lane0 with s := rs.map fun q => (q.1, BitVec.ofNat 64 q.2) }
def vectors (rs : List (Nat × Nat)) : Gang := { gang with v := rs.map fun q => (96 * q.1, BitVec.ofNat 32 q.2) }

/-- Lane 0 of a register after an instruction on such a gang. -/
def lane (i : Instr) (rs : List (Nat × Nat)) (r : Nat) : Option Nat :=
  (after i (run State.reset lane0 (vectors rs))).map fun c => (c.vreg r 0).toNat

def scalar (i : Instr) (rs : List (Nat × Nat)) (r : Nat) : Option Nat :=
  (after i (run State.reset (scalars rs))).map fun c => (c.sreg r).toNat

/-! ### Worked examples of the spec -/

/-- 05 R115: smovhi puts 0x1234 above 0x5678. -/
theorem test_smovhi : scalar (.smovhi ⟨c0, .b64, .s 9, .s 9, 1, 0x1234⟩) [(9, 0x5678)] 9 = some 0x12345678 := by decide +kernel

/-- 05 R109, R115: smovi extends its immediate, and s0 discards the write. -/
theorem test_smovi : scalar (.smovi ⟨c0, .i32, .s 9, .v 0, 0, 0xFFFE⟩) [] 9 = some 0xFFFFFFFFFFFFFFFE ∧
    scalar (.smovi ⟨c0, .n32, .s 0, .v 0, 0, 7⟩) [] 0 = some 0 := by decide +kernel

/-- 05 R113: division by 0, and of the most negative number by -1. -/
theorem test_sdiv : scalar (.sdiv ⟨c0, .n32, .s 1, .s 2, .s 3, .v 0, 0⟩) [(2, 7)] 1 = some 0xFFFFFFFF ∧
    scalar (.sdiv ⟨c0, .i32, .s 1, .s 2, .x .m1, .v 0, 0⟩) [(2, 0x80000000)] 1 = some 0xFFFFFFFF80000000 := by decide +kernel

/-- 05 R113: the remainder has the sign of a. -/
theorem test_srem : scalar (.srem ⟨c0, .i64, .s 1, .s 2, .s 3, .v 0, 0⟩) [(2, 2 ^ 64 - 7), (3, 2)] 1 = some (2 ^ 64 - 1) := by
  decide +kernel

/-- 05 R113: shifts of the width or more. -/
theorem test_shifts : scalar (.sshl ⟨c0, .n32, .s 1, .s 2, .s 3, .v 0, 0⟩) [(2, 1), (3, 32)] 1 = some 0 ∧
    scalar (.ssra ⟨c0, .i32, .s 1, .s 2, .s 3, .v 0, 0⟩) [(2, 0x80000000), (3, 40)] 1 = some (2 ^ 64 - 1) := by decide +kernel

/-- 05 R114: a field at the top of the word, cut short. -/
theorem test_sbfx : scalar (.sbfx ⟨c0, .n32, .s 1, .s 2, .s 3, .s 4, 0⟩) [(2, 0xA0000000), (3, 28), (4, 9)] 1 = some 0xA := by
  decide +kernel

/-- 05 R117: the value clamped to 0 to 255 goes into byte 2 of v3 and leaves the others unchanged. -/
theorem test_vcvti : lane (.vcvti ⟨c0, .n8, .v 3, .v 7, .v 0, .v 0, 0xAA⟩) [(3, 0x01020304), (7, 300)] 3 = some 0x01FF0304 := by
  decide +kernel

/-- 05 R122: fclass with 0x42 and any finds a NaR element. -/
theorem test_fclass : (after (.fclass ⟨c0, .t8, .v 4, .v 2, .v 0, .v 0, 0xC2⟩) (run State.reset lane0 (vectors [(2, 0x00008000)]))).map
    (fun c => (c.G.pred 4).getLsbD 0) = some true := by decide +kernel

/-- 05, the worked example: four t8 elements through one fused multiply-add. -/
theorem test_fma : lane (.fma ⟨c0, .t8, .v 10, .v 4, .v 5, .v 6, 0⟩) [(4, 0x80017F6B), (5, 0x00017F44), (6, 0x000000C0)] 10 =
    some 0x80017F6D := by decide +kernel

/-- 05, the same example: fregime gives each element's scale. -/
theorem test_fregime : lane (.fregime ⟨c0, .t8, .v 11, .v 10, .v 0, .v 0, 0⟩) [(10, 0x80017F6D)] 11 = some 0x80F40C03 := by
  decide +kernel

/-- 03 R64: t8 0x6B narrowed to t6 is 0x1B. -/
theorem test_narrow : lane (.fcvt ⟨c0, .t6, .v 1, .v 2, .v 0, .v 0, 2⟩) [(2, 0x6B)] 1 = some 0x1B := by decide +kernel

/-- 03 R67: the largest fp32 saturates in t32; the smallest does not become 0. -/
theorem test_fp32_to_t32 : lane (.fcvt ⟨c0, .t32, .v 1, .v 2, .v 0, .v 0, 7⟩) [(2, 0x7F7FFFFF)] 1 = some 0x7FFFFFFF ∧
    lane (.fcvt ⟨c0, .t32, .v 1, .v 2, .v 0, .v 0, 7⟩) [(2, 1)] 1 = some 1 := by decide +kernel

/-- 03 R68: t32 maxpos is 2^120 in fp32 and infinity in fp16. -/
theorem test_t32_to_ieee : lane (.fcvt ⟨c0, .fp32, .v 1, .v 2, .v 0, .v 0, 4⟩) [(2, 0x7FFFFFFF)] 1 = some 0x7B800000 ∧
    lane (.fcvt ⟨c0, .fp16, .v 1, .v 2, .v 0, .v 0, 4⟩) [(2, 0x7FFFFFFF)] 1 = some 0x7C00 := by decide +kernel

/-- 03, the table near maxpos: 2048 rounds to 1024 and 3000 to 4096 in t8. -/
theorem test_t8_near_maxpos : lane (.icvtf ⟨c0, .t8, .v 1, .v 2, .v 0, .v 0, 10⟩) [(2, 2048)] 1 = some 0x7E ∧
    lane (.icvtf ⟨c0, .t8, .v 1, .v 2, .v 0, .v 0, 10⟩) [(2, 3000)] 1 = some 0x7F := by decide +kernel

/-- 03, one exact sum: 1 + 4096 + 2^-5 - 4096 + 2^-10 in t32. -/
theorem test_fdot4 : lane (.fdot4 ⟨c0, .t8, .v 1, .v 2, .v 3, .v 4, 1⟩) [(2, 0x0C810C7F), (3, 0x0C404040), (4, 0x40000000)] 1 =
    some 0x40420000 := by decide +kernel

/-- 06, the race of two writers: in t32, 2 + 4 is 0x5400_0000 and 1 + 2 is 0x4C00_0000. -/
theorem test_fadd_t32 : lane (.fadd ⟨c0, .t32, .v 1, .v 2, .v 3, .v 0, 0⟩) [(2, 0x48000000), (3, 0x50000000)] 1 = some 0x54000000 ∧
    lane (.fadd ⟨c0, .t32, .v 1, .v 2, .v 3, .v 0, 0⟩) [(2, 0x40000000), (3, 0x48000000)] 1 = some 0x4C000000 := by decide +kernel

/-- 06 and 10: 48, 160 and 2^8 in t32, and 2^8 narrowed to t16. -/
theorem test_t32_values : lane (.icvtf ⟨c0, .t32, .v 1, .v 2, .v 0, .v 0, 10⟩) [(2, 48)] 1 = some 0x66000000 ∧
    lane (.icvtf ⟨c0, .t32, .v 1, .v 2, .v 0, .v 0, 10⟩) [(2, 160)] 1 = some 0x6D000000 ∧
    lane (.fcvt ⟨c0, .t16, .v 1, .v 2, .v 0, .v 0, 4⟩) [(2, 0x70000000)] 1 = some 0x7000 := by decide +kernel

/-- 05 R130, R131: exact and special results. -/
theorem test_special : lane (.frcp ⟨c0, .t8, .v 1, .v 2, .v 0, .v 0, 0⟩) [(2, 0x00400050)] 1 = some 0x80408030 ∧
    lane (.flog2 ⟨c0, .fp32, .v 1, .v 2, .v 0, .v 0, 0⟩) [(2, 0x41000000)] 1 = some 0x40400000 ∧
    lane (.fsigm ⟨c0, .fp16, .v 1, .v 2, .v 0, .v 0, 0⟩) [] 1 = some 0x38003800 ∧
    lane (.fexp2 ⟨c0, .bf16, .v 1, .v 2, .v 0, .v 0, 0⟩) [(2, 0xFF807F80)] 1 = some 0x00007F80 := by decide +kernel

/-- 03 R54, R70: an fp32 immediate is a bf16 value; a t6 one gives its elements in turn. -/
theorem test_immediates : lane (.vmovi ⟨c0, .fp32, .v 1, .v 0, 0, 0x3F80⟩) [] 1 = some 0x3F800000 ∧
    lane (.vmovi ⟨c0, .t6, .v 1, .v 0, 0, 0x2015⟩) [] 1 = some 0x20152015 := by decide +kernel

/-- Sixteen lanes and the predicate of the kept ones, 0x4D66 (11, following the value 40). -/
def kept : Gang := { gang with
  v := (List.range 16).filterMap fun l => if BitVec.getLsbD 0x4D66#16 l then some (96 * 8 + l, 1) else none
  p := [(2, 0x4D66)] }
def lanes16 : Split := { lane0 with member := 0xFFFF, active := 0xFFFF }

/-- 11: ballot reads 0x4D66, pcount counts 8. -/
theorem test_ballot : (after (.ballot ⟨c0, .t4, .s 6, .v 8, .v 0, .v 0, 0⟩) (run State.reset lanes16 kept)).map (·.sreg 6) = some 0x4D66 ∧
    (after (.pcount ⟨c0, .t4, .s 7, .v 2, .v 0, .v 0, 0⟩) (run State.reset lanes16 kept)).map (·.sreg 7) = some 8 := by decide +kernel

/-- 11: the guarded lrank gives lane 10 five and leaves lane 3 at 0. -/
theorem test_lrank : (after (.lrank ⟨⟨0, true, 2, false⟩, .v 5, .v 0, 0, 0⟩) (run State.reset lanes16 kept)).map
    (fun c => (c.vreg 5 10, c.vreg 5 3)) = some (5, 0) := by decide +kernel

/-- 11: lanes 1, 4, 6, 9, 11 and 15 take the branch; the ten others keep INDEX 0 and go on at the next clause. -/
theorem test_brd : ((nextOf (.brd ⟨c0, .v 1, 0, 6⟩) (run State.reset { lanes16 with pc := 0x8038 }
      { gang with p := [(1, 0x8A52)] })).gangs.find? 0).map (fun G => G.splits.map fun q => (q.1, q.2.pc, q.2.member, q.2.active)) =
    some [(0, 0x1018, 0x75AD, 0x75AD), (1, 0x8068, 0x8A52, 0x8A52)] := by decide +kernel

def lanes40 : Split := { lane0 with member := BitVec.ofNat 96 (2 ^ 40 - 1), active := BitVec.ofNat 96 (2 ^ 40 - 1) }

/-- 04, four paths: the four groups of brxd, the larger first and the lower address first on a tie. -/
theorem test_brxd : ((nextOf (.brxd ⟨c0, .v 3, 0, 0⟩) (run State.reset lanes40
      { gang with v := (List.range 40).map fun l => (288 + l, if l < 16 then 1 else if l < 32 then 2 else if l < 36 then 3 else 4) })).gangs.find? 0).map (fun G => G.splits.map fun q => (q.1, q.2.pc, q.2.member)) =
    some [(0, 0x1010, 0xFFFF), (1, 0x1018, 0xFFFF0000), (2, 0x1020, 0xF00000000), (3, 0x1028, 0xF000000000)] := by decide +kernel

/-- 04, the same example: two records of a region with v3 and v7 live in take 128 bytes. -/
theorem test_spawn_bytes : recsBytes [⟨0, 0, 0, [(3, 0), (7, 0)]⟩, ⟨0, 0, 0, [(3, 0), (7, 0)]⟩] = 128 := by decide

/-- 04 R103: one lane down; lane 3 has no source within the split. -/
theorem test_xdown : (after (.xdown ⟨c0, .b32, .v 4, .v 4, .x .one, .v 0, 1⟩) (run State.reset { lane0 with member := 0xF, active := 0xF }
      { gang with v := (List.range 4).map fun l => (384 + l, BitVec.ofNat 32 (10 + l)) })).map
      (fun c => ((List.range 4).map (c.vreg 4), c.G.pred 1)) = some ([11, 12, 13, 13], 7) := by decide +kernel

/-- 03 R79: an exclusive scan starts with the empty value. -/
theorem test_xscanx : (after (.xscanx ⟨c0, .i32, .v 5, .v 4, .v 0, .v 0, 0⟩) (run State.reset { lane0 with member := 0xF, active := 0xF }
      { gang with v := (List.range 4).map fun l => (384 + l, BitVec.ofNat 32 (10 + l)) })).map
      (fun c => (List.range 4).map (c.vreg 5)) = some [0, 10, 21, 33] := by decide +kernel

/-- Word `w` of 4 bytes at an address, as cells. -/
def word32 (a w : Nat) : List Host.Cell := ((List.range 4).map fun i => (a + i, BitVec.ofNat 8 (w / 2 ^ (8 * i)))).filter (·.2 != 0)

/-- 07 R163: n8 loads zero-extend and i8 loads sign-extend, little-endian words. -/
theorem test_ld : (after (.ld ⟨c0, .i8, .s 5, .s 6, 0, 0, 0, 3⟩) (run { paged with mem := paged.mem ++ word32 0x40000 0x80010203 }
      (scalars [(6, 0x40000)]))).map (·.sreg 5) = some 0xFFFFFFFFFFFFFF80 ∧
    (after (.ld ⟨c0, .b32, .v 5, .s 6, 0, 0, 0, 0⟩) (run { paged with mem := paged.mem ++ word32 0x40000 0x80010203 }
      (scalars [(6, 0x40000)]))).map (fun c => c.vreg 5 0) = some 0x80010203 := by decide +kernel

/-- 07 R163: a store writes its bytes, low byte first. -/
theorem test_st : ((nextOf (.st ⟨c0, .n16, .v 5, .s 6, 0, 0, 0, 2⟩) (run paged (scalars [(6, 0x40000)]) (vectors [(5, 0x11223344)]))).mem.drop 3) =
    [(0x40002, 0x44), (0x40003, 0x33)] := by decide +kernel

/-- 07, the value 0xAA: the page from 0x4_1000 is not mapped: elements 0 to 2 of the stc are written, and element 3 faults with
PGF at 0x4_1000 (the function has no fault queue, so the split waits for one). One leaf maps the page from 0x4_0000. -/
theorem test_stc : let s : State := { paged with mem := [(0x1000, 1), (0x1001, 0x20), (0x2000, 1), (0x2001, 0x30), (0x3000, 1), (0x3001, 0x40)
                                                 , (0x4200, 0xF), (0x4202, 4)] }
    let t := nextOf (.stc ⟨c0, .b32, .v 12, .s 20, 0, 0, 0, 0⟩) (run s { lane0 with member := 0x1F, active := 0x1F, s := [(20, 0x40FF4)] }
      { gang with v := (List.range 5).map fun l => (96 * 12 + l, if l = 2 then 0xAA else 0x11) })
    List.filter (fun q : Nat × Byte => q.1 / 0x1000 == 0x40) t.mem = [(0x40FF4, 0x11), (0x40FF8, 0x11), (0x40FFC, 0xAA)] ∧
      (t.cx? 0 0).map (fun c => match c.P.wait with
        | some (.faultQueue i) => (i.code, i.addr, c.P.stcFrom)
        | _ => (0, 0, 0)) = some (5, 0x41000, 3) := by decide +kernel

/-- 07 R168: an atomic add returns the old value. -/
theorem test_atadd : let t := nextOf (.atadd ⟨c0, .i32, .v 5, .s 6, 0, 0, 0, 0⟩) (run { paged with mem := paged.mem ++ word32 0x40000 7 }
      (scalars [(6, 0x40000)]) (vectors [(5, 0xFFFFFFFE)]))
    t.mem.drop 3 = [(0x40000, 5)] ∧ (t.cx? 0 0).map (fun c => c.vreg 5 0) = some 7 := by decide +kernel

/-- 07 R161; 09 R230: a misaligned word raises ALIGN, which is not resumable: the launch ends with status 3 and the code. -/
theorem test_align : let t := nextOf (.ld ⟨c0, .b32, .v 5, .s 6, 0, 0, 0, 2⟩) (run paged (scalars [(6, 0x40000)]))
    t.gangs = [] ∧ t.launches.map (fun q => q.2.ended) = [some (3, 3, 0)] := by decide +kernel

/-- 08, one brick to the Mortar window: the copy of rows 32 to 63 moves the element at 0x20_0E12 to window offset 0x1232. -/
theorem test_cpy : let s := { paged with mem := paged.mem ++ [(0x200E12, 0x6B), (0x300004, 0x11), (0x300008, 0x60)] }
    let t := nextOf (.cpy ⟨c0, .s 12, .s 30, .s 20, 1, 0, 0⟩) (run s (scalars [(12, 0x300000), (13, 0x200000), (14, 0x2800000060)
      , (20, 0x200000), (21, 0x200060), (30, 0x1000)]) { gang with role := .copy }
      { team with points := [(1, { expect := 2, pending := 2 })] })
    let u := nextOf (.copyComplete 1) t
    t.copies.length = 1 ∧ u.byte ((ctx State.reset lane0).windowKey 0x1232) = 0x6B ∧
      u.teams.map (fun q => (q.2.point 1).pending) = [1] := by decide +kernel

/-- 08 R201: two arrivals complete a phase of two. -/
theorem test_jarrive : (nextOf (.jarrive ⟨c0, .v 0, .v 0, 0, 0x41⟩) (run State.reset lane0 gang
      { team with points := [(1, { expect := 2, pending := 2 })] })).teams.map (fun q => q.2.point 1) =
    [{ phase := true, expect := 2, pending := 2 }] := by decide +kernel

/-- 08 R206 to R208: a put into a ring of depth 1 fills it and flips its phase bit. -/
theorem test_ringput : (nextOf (.ringput ⟨c0, .s 1, .s 2, 0, 0⟩) (run State.reset lane0 gang
      { team with rings := [(0, { depth := 1 })] })).teams.map (fun q => q.2.ring 0) =
    [{ pb := 1, full := true, depth := 1 }] := by decide +kernel

/-- 08 R213: iteration 5 of trips 3 and 4 has SEQ 5 and indices 2 and 1. -/
theorem test_weevil_record : ({ trips := [3, 4] } : Nest).record 5 = BitVec.ofNat 64 (5 * 2 ^ 48 + 1 * 2 ^ 12 + 2) := by decide +kernel

/-- 16 R266: CAP1 read by capq s5, 1 (its word is decoded above): a full part's. -/
theorem test_capq : scalar (.capq ⟨c0, .s 5, .v 0, 0, 64⟩) [] 5 = some 0 := by decide +kernel

/-- 09 R232: trap parks its split with code 0x20 and its immediate. -/
theorem test_trap : ((nextOf (.trap ⟨c0, .v 0, .v 0, 0, 77⟩) (run served lane0)).cx? 0 0).map (fun c => match c.P.parked with
      | some (.fault p) => (p.info.code, p.info.elem)
      | _ => (0, 0)) = some (0x20, 77) := by decide +kernel

/-- 04 R86: a call leaves its fall-through address and goes to its label. -/
theorem test_call : ((nextOf (.call ⟨c0, .s 5, 0, 7⟩) (run State.reset lane0)).cx? 0 0).map (fun c => (c.sreg 5, c.P.pc)) =
    some (0x1018, 0x1040) := by decide +kernel

/-! ### Witnesses: the hypotheses of the obligations are met, clause by clause -/

/-- The state and the context that most of them use: any instruction of registers runs there, in the midst of its clause. -/
def cA : Cx := ctx State.reset lane0
theorem witness_runs : Runs (run State.reset lane0) cA ∧ Steady cA := ⟨runs_ctx _ _ _ _ _, steady_ctx _ _ _ _⟩

theorem witness_register_numbers : (0 : Nat) < 64 ∧ (63 : Nat) < 64 := by decide

/-- The split at the last word of its clause. -/
def atEnd : Split := { lane0 with clause := some { clause2 with pos := 1 } }

theorem witness_clause_sequence :
    (Runs cA.s cA ∧ cA.P.late = [] ∧ cA.P.clause = some clause2 ∧ clause2.pos + 1 < clause2.stop) ∧
    Runs (run State.reset atEnd) (ctx State.reset atEnd) ∧ atEnd.late = [] ∧ atEnd.clause = some { clause2 with pos := 1 } ∧ 2 ≤ 1 + 1 ∧
      (ctx State.reset atEnd).G.splits = [] ++ (0, atEnd) :: [] := by
  refine ⟨⟨witness_runs.1, rfl, rfl, by decide⟩, runs_ctx _ _ _ _ _, rfl, rfl, by decide, rfl⟩

theorem witness_late : cA.window c0 = 0 ∧ 0 < cA.window ⟨1, false, 0, false⟩ ∧
    ({ cA with P := { lane0 with late := [{ left := 2, vs := [(5, 1)], ss := [(3, 4)], ps := [] }] } } : Cx).P.late =
      [{ left := 2, vs := [(5, 1)], ss := [(3, 4)], ps := [] }] ∧ 2 ≤ 2 := by decide +kernel

theorem witness_scalar_words : (⟨c0, .n64, .s 3, .s 4, .s 5, .v 0, 0⟩ : Tri).ty = .n64 ∧ Operand.s 63 = .s 63 := by decide

/-- Queries: fitting and unfitting registers, splits there and not, every item of cycq in and out of an exit routine. -/
def exiting : Split := { lane0 with rstate := 1 }
theorem witness_queries : cA.fits (.v 127) .b32 = true ∧ (ctx State.reset lane0 { gang with vregs := 8 }).fits (.v 8) .b32 = false ∧
    cA.G.splits.find? 0 = some lane0 ∧ cA.G.splits.find? 1 = none ∧ 2 ≤ (2#21).toNat ∧ cA.P.rstate ≠ 1 ∧
    (ctx State.reset exiting).P.rstate = 1 ∧ Runs (run State.reset exiting) (ctx State.reset exiting) := by
  refine ⟨by decide, by decide, rfl, rfl, by decide, by decide, rfl, runs_ctx _ _ _ _ _⟩

/-- Vector forms: registers within and beyond V, pairs, special sources. -/
theorem witness_vector_forms : (∀ o ∈ [Operand.v 1, .v 2, .s 3, .x .half], cA.fits o .fp32 = true) ∧
    (∀ o ∈ [Operand.v 126], cA.fits o .i64 = true) ∧
    (∃ o ∈ [Operand.v 1, .v 8], (ctx State.reset lane0 { gang with vregs := 8 }).fits o .fp32 = false) := by decide

theorem witness_conversion : ETy.ofCode? (bitsN (0xAA#8).toNat 4 0) = some .i32 ∧ cA.fits (.v 3) .n8 = true ∧ cA.fits (.v 7) .i32 = true := by
  decide

theorem witness_mixed : (∀ o ∈ [Operand.v 1, .v 2, .v 3, .v 4], cA.fits o .t16 = true ∧ cA.fits o .i32 = true ∧ cA.fits o .fp32 = true) ∧
    cA.fits (.v 1) (dotFmt ⟨c0, .t16, .v 1, .v 2, .v 3, .v 4, 1⟩) = true ∧ ETy.ofCode? (2#8).toNat = some ((ETy.ofCode? (2#8).toNat).getD .t8) ∧
    cA.fits (.v 2) .t8 = true ∧ cA.fitsN (.v 126) 2 = true := by decide

theorem witness_special_function : cA.fits (.v 1) .t32 = true ∧ cA.window c0 = 0 ∧ 0 < cA.window ⟨15, false, 0, false⟩ := by decide +kernel

/-- A branch on the gang's only split. -/
theorem witness_branch : cA.G.splits = [(cA.sp, cA.P)] ∧ cA.P.late = [] := ⟨rfl, rfl⟩

theorem witness_targets : (ctx State.reset (scalars [(5, 0x2000)])).ssrc (.s 5) .n64 % 8 = 0 ∧
    (ctx State.reset (scalars [(5, 0x2004)])).ssrc (.s 5) .n64 % 8 ≠ 0 := by decide +kernel

theorem witness_division : cA.G.splits = [(cA.sp, cA.P)] ∧ cA.sp < 4 ∧ cA.P.late = [] ∧ (⟨0x1018, 1⟩ : Path).dest ≠ (⟨0x1020, 2⟩ : Path).dest := by
  refine ⟨rfl, by decide, rfl, by decide⟩

theorem witness_divergent : cA.P.rstate ≠ 1 ∧ cA.fits (.v 127) .b32 = true ∧ (ctx State.reset exiting).P.rstate = 1 ∧
    (0x1010 : Nat) ∈ [0x1010] := by decide

/-- A region of v3 and v7 at 0x4000: a system clause of one marker, whose descriptor at 0x4040 names them and routines. -/
def spawnable : State := { paged with mem := paged.mem ++ [(0x4005, 0xFF), (0x4006, 0xFF), (0x4007, 0x40), (0x4008, 8), (0x400F, 0x44)
  , (0x4058, 0x88)] }
def spawner : Cx := ctx spawnable { lane0 with member := 3 } { gang with p := [(1, 1)] }
theorem witness_spawn : (cA.P.rstate ≠ 1 ∧ cA.P.active &&& cA.G.pred 1 = 0 ∧ cA.P.member ≠ 0) ∧
    spawner.P.active &&& spawner.G.pred 1 ≠ 0 ∧ spawner.P.member &&& ~~~(spawner.P.active &&& spawner.G.pred 1) ≠ 0 ∧
    0 + recsBytes [spawner.spawnRec 0x4000 [3, 7] 0] ≤ 4 * 2 ^ 20 ∧
    4 * 2 ^ 20 < Store.get 0 (run { spawnable with spawnUsed := [(0, 4 * 2 ^ 20)] } spawner.P).spawnUsed spawner.G.die + recsBytes [spawner.spawnRec 0x4000 [3, 7] 0] := by decide +kernel
theorem witness_spawn_target : spawner.fetchHeld 0x4000 = false ∧ spawner.spawnTarget 0x4000 = .ok [3, 7] := by decide +kernel

theorem witness_end : let c := ctx State.reset { lane0 with member := 3 }
    Runs c.s c ∧ c.P.rstate ≠ 1 ∧ c.P.member &&& ~~~(c.included c0) ≠ 0 ∧ cA.P.member &&& ~~~(cA.included c0) = 0 ∧ cA.P.spawning = [] ∧ cA.P.late = [] := by
  refine ⟨runs_ctx _ _ _ _ _, ?_⟩; decide +kernel

theorem witness_meet : cA.P.rstate ≠ 1 ∧ (∀ cl ∈ cA.P.clause, cl.pos = 0) ∧ (∃ cl ∈ atEnd.clause, cl.pos ≠ 0) := by
  refine ⟨by decide, by decide, _, rfl, by decide⟩

/-! Memory forms: one lane whose s6 holds 0x4_0000, in a mapped page. -/

def at6 : Split := scalars [(6, 0x40000)]
def cM : Cx := ctx paged at6
def ldF : Mem := ⟨c0, .b32, .v 5, .s 6, 0, 0, 0, 0⟩
def ld8 : Mem := ⟨c0, .b64, .s 7, .s 6, 0, 0, 0, 0⟩
def hit (n : Nat) : Admitted := ⟨0, 0x40000 + n, some (0x40000 + n), none, 0x40000 + n⟩

/-- The state in which its access has been made. -/
def tM : State := cM.s.touchAll 0 [hit 0]

/-- The access of the one lane reaches its four bytes, for a read, a write and an atomic. -/
theorem reaches_lane (acc : Acc) (h : cM.s.admitAll 0 0 acc [(⟨0, 0x40000⟩, .virt 0x40000 none)] = .inr (cM.s, [hit 0])) :
    Reaches cM 0 4 acc [⟨0, 0x40000⟩] tM [hit 0] :=
  ⟨by decide, by decide +kernel, ⟨cM.s, by exact h, rfl⟩, by decide +kernel, by decide +kernel⟩

theorem reads : Reaches cM 0 4 .read [⟨0, 0x40000⟩] tM [hit 0] := reaches_lane _ (by decide +kernel)
theorem writes : Reaches cM 0 4 .write [⟨0, 0x40000⟩] tM [hit 0] := reaches_lane _ (by decide +kernel)
theorem atomics : Reaches cM 0 4 .atomic [⟨0, 0x40000⟩] tM [hit 0] := reaches_lane _ (by decide +kernel)

theorem lane_accesses : cM.accesses ldF true 0 4 (cM.included c0) = [⟨0, 0x40000⟩] ∧ cM.packed ldF (cM.included c0) = [⟨0, 0x40000⟩] ∧
    cM.accesses ldF (Mem.vectorData ldF) 0 4 (cM.included c0) = [⟨0, 0x40000⟩] := by decide +kernel

theorem no_log : NoLog tM cM.G.fn ∧ PlainMemory tM ∧ OffAperture 0x40000 4 ∧ OffQueues tM cM.G.fn 0x40000 4 := by
  refine ⟨⟨by decide +kernel, by decide +kernel, by decide +kernel, by decide +kernel⟩, ⟨by decide +kernel, by decide +kernel⟩,
    Or.inl (by decide), Or.inl rfl⟩

theorem witness_memory_checks : (ctx paged { at6 with active := 0 }).included c0 = 0 ∧ cM.included c0 ≠ 0 ∧
    (ctx paged at6 { gang with vregs := 8 }).memFits { ldF with data := .v 8 } (Mem.wideBase ldF) = false ∧
    cM.memFits ldF (Mem.wideBase ldF) = true ∧
    ((cM.accesses { ldF with offs := 2 } true 0 4 (cM.included c0)).filter fun x => x.addr % 4 != 0) ≠ [] ∧
    ((ctx paged at6).accesses { ldF with space := 2, offs := 0x7FFC } true 0 4 (cM.included c0)).filter
      (fun x => (cM.target 2 x.addr 4).isNone) ≠ [] := by decide +kernel

/-- No other thread has written the bytes; a store of another gang would not do. -/
theorem alone : Alone tM cM 4 [hit 0] ∧ Alone tM cM 8 [hit 0] := by
  constructor <;> (intro q h; obtain rfl := List.mem_singleton.mp h; decide +kernel)
theorem test_not_alone : ({ cM.s with acts := [({ g := 1 }, .wrote 0 0x40002 1 0 1 none none)] } : State).contended cM.home 0 0x40000 4 = true := by
  decide +kernel

theorem witness_load : Runs cM.s cM ∧ Steady cM ∧ cM.included c0 ≠ 0 ∧ cM.window c0 = 0 ∧
    Reaches cM ldF.space.toNat ldF.ty.size .read (cM.accesses ldF ldF.data.isV ldF.kind.toNat ldF.ty.size (cM.included c0)) tM [hit 0] ∧
    (∀ q ∈ [hit 0], tM.poisoned q.key 4 = false) ∧ ldF.data = .v 5 ∧
    (cM.accesses ldF ldF.data.isV ldF.kind.toNat ldF.ty.size (cM.included c0)).map (·.lane) = lanesOf (cM.included c0) ∧
    Reaches cM ldF.space.toNat ldF.ty.size .read (cM.packed ldF (cM.included c0)) tM [hit 0] := by
  refine ⟨runs_ctx _ _ _ _ _, steady, by decide, by decide, ?_, by decide +kernel, rfl, by decide +kernel, ?_⟩
  · exact (lane_accesses.1 ▸ reads :)
  · exact (lane_accesses.2.1 ▸ reads :)
where steady : Steady cM := ⟨rfl, clause2, rfl, by decide⟩

theorem witness_scalar_load : Reaches cM 0 8 .read (cM.accesses ld8 ld8.data.isV 0 8 (cM.included c0)) tM [hit 0] ∧
    (cM.accesses ld8 ld8.data.isV 0 8 (cM.included c0)).length = 1 ∧ ld8.data = .s 7 :=
  ⟨⟨by decide +kernel, by decide +kernel, ⟨cM.s, by decide +kernel, rfl⟩, by decide +kernel, by decide +kernel⟩, by decide +kernel, rfl⟩

theorem witness_read_only : cM.memFits ldF (Mem.wideBase ldF) = true ∧ tM.order = [] ∧
    ([hit 0].filter fun p => p.lane == (hit 0).lane) = [hit 0] := by decide +kernel

theorem witness_store : Reaches cM ldF.space.toNat ldF.ty.size .write (cM.accesses ldF (Mem.vectorData ldF) ldF.kind.toNat ldF.ty.size
      (cM.included c0)) tM [hit 0] ∧ NoLog tM cM.G.fn ∧ PlainMemory tM ∧ ∀ q ∈ [hit 0], OffAperture q.key ldF.ty.size ∧
        OffQueues tM cM.G.fn q.key ldF.ty.size := by
  refine ⟨(lane_accesses.2.2 ▸ writes :), no_log.1, no_log.2.1, ?_⟩
  intro q hq; simp only [List.mem_singleton] at hq; subst hq; exact no_log.2.2

/-- A gather and a scatter through v5 (0 in the lane), and k2 full. -/
def ldgF : Mem := ⟨c0, .b32, .v 8, .s 6, 0, 0, 0, 5⟩
def full2 : Gang := { gang with ops := (List.range 63).map fun i => (2, i, i) }
theorem witness_gather : cM.memFits ldgF false = true ∧ cM.fits (.v (BitVec.ofNat 7 (ldgF.offs.toNat % 256))) .n32 = true ∧ cM.G.k 2 < 63 ∧
    (ctx paged at6 full2).G.k 2 = 63 ∧
    (lanesOf (cM.included c0)).map (fun l => (⟨l, ((cM.sreg 6).toNat + (cM.vreg 5 l).toNat * 2 ^ 0) % 2 ^ 64⟩ : LaneAcc)) = [⟨0, 0x40000⟩] ∧
    cM.P.stcFrom = 0 ∧ cM.P.rstate ≠ 1 ∧ (hit 0).brick = none := by decide +kernel

/-- The same at the last word of its clause, where an atomic stands; a 64-bit one of it. -/
def cL : Cx := ctx paged { at6 with clause := some { clause2 with pos := 1 } }
theorem witness_last : Runs cL.s cL ∧ AtLast cL ∧ cL.P.late = [] ∧ cL.G.splits.keys = [cL.sp] ∧
    Reaches cL 0 4 .atomic [⟨0, 0x40000⟩] (cL.s.touchAll 0 [hit 0]) [hit 0] ∧ Reaches cL 0 8 .atomic [⟨0, 0x40000⟩] (cL.s.touchAll 0 [hit 0]) [hit 0] ∧
    (∀ va, (hit 0).va = some va → ({ cL with s := cL.s.touchAll 0 [hit 0] } : Cx).wideWaits va = false) ∧
    (cL.s.touchAll 0 [hit 0]).answered cL.g cL.sp = true :=
  ⟨runs_ctx _ _ _ _ _, ⟨rfl, _, rfl, by decide⟩, rfl, rfl,
    ⟨by decide, by decide +kernel, ⟨cL.s, by decide +kernel, rfl⟩, by decide +kernel, by decide +kernel⟩,
    ⟨by decide, by decide +kernel, ⟨cL.s, by decide +kernel, rfl⟩, by decide +kernel, by decide +kernel⟩,
    fun va h => by obtain rfl := Option.some.inj h; decide +kernel, by decide +kernel⟩

def atF : Mem := ⟨c0, .i32, .v 5, .s 6, 0, 0, 0, 0⟩
def cX : Cx := ctx paged { at6 with rstate := 1 }
theorem witness_atomic : atF.ty.is64 = false ∧ atF.kind = 0 ∧ cM.memFits atF false = true ∧ cM.fitsN atF.data 2 = true ∧
    cM.accesses atF true 0 4 (cM.included c0) = [⟨0, 0x40000⟩] ∧ tM.hostAtomic 0x40000 = false ∧ cM.P.rstate ≠ 1 ∧ tM.answered cM.g cM.sp = true ∧
    tM.poisoned 0x40000 4 = false ∧ (hit 0).brick = none := by decide +kernel
theorem witness_atomic_in_routine : Runs cX.s cX ∧ cX.P.rstate = 1 ∧
    Reaches cX 0 4 .atomic (cX.accesses atF true 0 4 (cX.included c0)) (cX.s.touchAll 0 [hit 0]) [hit 0] :=
  ⟨runs_ctx _ _ _ _ _, rfl, ⟨by decide +kernel, by decide +kernel, ⟨cX.s, by decide +kernel, rfl⟩, by decide +kernel, by decide +kernel⟩⟩

/-- A word of the window, and a word of HBM for a send. -/
def cW : Cx := ctx paged (scalars [(6, 0x40)])
theorem witness_mortar : Reaches cW 2 4 .write (cW.accesses ⟨c0, .i32, .v 5, .s 6, 2, 0, 0, 0⟩ true 0 4 (cW.included c0))
    (cW.s.touchAll 0 [⟨0, 0x40, none, none, cW.windowKey 0x40⟩]) [⟨0, 0x40, none, none, cW.windowKey 0x40⟩] :=
  ⟨by decide +kernel, by decide +kernel, ⟨cW.s, by decide +kernel, rfl⟩, by decide +kernel, by decide +kernel⟩
theorem witness_hod : Reaches cM 0 4 .write ((lanesOf (cM.included c0)).map fun l =>
      ⟨l, (offset (cM.sreg 6).toNat 0 + 4 * l) % 2 ^ 64⟩) tM [hit 0] ∧ (∀ q ∈ [hit 0], q.key < aperture) ∧ cM.G.k 3 < 63 ∧
    cM.P.late = [] :=
  ⟨⟨by decide +kernel, by decide +kernel, ⟨cM.s, by decide +kernel, rfl⟩, by decide +kernel, by decide +kernel⟩, by decide +kernel, by decide, rfl⟩

theorem witness_hint_pages : cM.s.translate 0 (0x40000 / 4096 * 4096) .read = .ok ⟨0x40000, 0x2000, 0xF, 2 ^ 30⟩ ∧
    (ctx State.reset at6).s.translate 0 (0x40000 / 4096 * 4096) .read = .fault 0x05 ∧ 0x40000 % 4096 + 1 ≤ 4096 ∧ 0x40000 + 1 ≤ 2 ^ 48 ∧
    Steady cM ∧ PlainMemory cM.s :=
  ⟨by decide +kernel, by decide +kernel, by decide, by decide, witness_load.steady, rfl, rfl⟩
theorem witness_hints : cM.memFits ⟨c0, .t4, .v 0, .s 6, 0, 0, 0, 0⟩ false = true ∧ cM.hintByte 0 0x40000 = true ∧
    cM.hintByte 0 (2 ^ 47) = false ∧ cM.sreg 9 = 0 := by decide +kernel

/-- A gang with a Hod send of its own not yet applied. -/
def sending : State := { paged with hods := [(1, { g := 0, sp := 0, fn := 0, launch := 0, ty := .i32, op := 0, lanes := [(0, 0x40000, 1)] })] }
theorem witness_fences : cM.settled = true ∧ (ctx sending lane0).P.active ≠ 0 ∧ (0#2) ≠ 2 ∧ (ctx sending lane0).settled = false := by
  decide +kernel

/-- bind: an object at 0x4_0000 with no other, with one that meets the range, its ends at the limits. -/
def binding : Split := scalars [(6, 0x40000), (7, 0), (8, 128)]
def bound : Split := scalars [(6, 0x40000), (7, 2 ^ 48 - 128), (8, 128)]
theorem witness_bind : (let c := ctx paged binding
      c.P.active ≠ 0 ∧ offset (c.sreg 6).toNat 0 % 8 = 0 ∧ (c.sreg 7).toNat % 128 = 0 ∧ (c.sreg 8).toNat % 128 = 0 ∧ 128 ≤ (c.sreg 8).toNat ∧
        (c.sreg 7).toNat + (c.sreg 8).toNat ≤ 2 ^ 48 ∧ ∀ b ∈ (c.s.fn 0).bounds, b.obj = 0x40000) ∧
    (let c := ctx { paged with fns := [(0, { bounds := [⟨0x50000, 0, 128⟩] })] } binding
      ∃ b ∈ (c.s.fn 0).bounds, b.obj ≠ 0x40000 ∧ b.lo < 128 ∧ 0 < b.hi) ∧
    (let c := ctx paged bound; (c.sreg 7).toNat + (c.sreg 8).toNat ≤ 2 ^ 48) := by decide +kernel

theorem witness_acquire : (cM.s.fn cM.G.fn).wide = [] ∧ (tM.fn cM.G.fn).wide = [] ∧ tM.poisoned 0x40000 8 = false ∧ ETy.b64.size = 8 ∧
    [(⟨elected cM.P.active, offset (cM.sreg 6).toNat 0⟩ : LaneAcc)] = [⟨0, 0x40000⟩] := by decide +kernel
theorem witness_acquire_reaches : Reaches cM 0 8 .read [⟨0, 0x40000⟩] tM [hit 0] ∧ Reaches cM 0 8 .write [⟨0, 0x40000⟩] tM [hit 0] :=
  ⟨⟨by decide, by decide +kernel, ⟨cM.s, by decide +kernel, rfl⟩, by decide +kernel, by decide +kernel⟩,
    ⟨by decide, by decide +kernel, ⟨cM.s, by decide +kernel, rfl⟩, by decide +kernel, by decide +kernel⟩⟩

/-- acq and rel of an object at 0x4_0000: the word is reached and charged nowhere; no function keeps a log. -/
theorem witness_acquire_completes : Runs cM.s cM ∧ Steady cM ∧ cM.P.active ≠ 0 ∧ ld8.data = .s 7 ∧
    (let va := offset (cM.sreg 6).toNat 0
     va % 8 = 0 ∧ va < 2 ^ 48 ∧ cM.s.heldVa cM.G.fn va = false ∧ cM.s.contended cM.home (elected cM.P.active) 0x40000 8 = false ∧ isRemote 0x40000 = false ∧ (cM.s.fn cM.G.fn).wide = [] ∧
      cM.s.permit cM.G.fn (cM.s.launchOf cM.G).agent va .read = .inr (0x40000, cM.s) ∧
      cM.s.permit cM.G.fn (cM.s.launchOf cM.G).agent va .write = .inr (0x40000, cM.s) ∧ cM.s.poisoned 0x40000 8 = false) ∧
    PlainMemory cM.s ∧ NoLog cM.s cM.G.fn ∧ OffAperture 0x40000 8 ∧ OffQueues cM.s cM.G.fn 0x40000 8 := by
  refine ⟨runs_ctx _ _ _ _ _, witness_load.steady, by decide, rfl, by decide +kernel, ⟨rfl, rfl⟩,
    ⟨by decide +kernel, rfl, rfl, by decide +kernel⟩, Or.inl (by decide), Or.inl rfl⟩
theorem witness_bind_completes : (let c := ctx paged binding; Runs c.s c ∧ Steady c ∧ ∀ b ∈ (c.s.fn c.G.fn).bounds, b.obj = 0x40000 ∨ b.hi ≤ 0 ∨ 0 + 128 ≤ b.lo) ∧
    (let c := ctx paged bound; Runs c.s c ∧ Steady c ∧ ∀ b ∈ (c.s.fn c.G.fn).bounds, b.obj = 0x40000 ∨ b.hi ≤ 2 ^ 48 - 128 ∨ 2 ^ 48 ≤ b.lo) := by
  exact ⟨⟨runs_ctx _ _ _ _ _, ⟨rfl, clause2, rfl, by decide⟩, by decide +kernel⟩,
    ⟨runs_ctx _ _ _ _ _, ⟨rfl, clause2, rfl, by decide⟩, by decide +kernel⟩⟩

/-! What a load may still return: the places before now as of which it may read x, of which there is none where it must see the
store (the places are counts of stored bytes; x is stored first, then y, one byte each) -/

def hA : Home := { g := 0 }
def hB : Home := { g := 1 }
def storesXY (order : List Past) (acts : List (Home × Act)) : State := { State.reset with order := order, acts := acts }
def xy : List Past := [⟨0x200, 0, false⟩, ⟨0x100, 0, false⟩]

/-- 04, siblings running at once: lane 50 stores x and then y with no fence; lane 0, which has read the new y, may still read x as it
was. 01 R34: not where it has read the new x before. -/
theorem test_siblings : (storesXY xy [(hA, .read 0 0x200 1 2 none none), (hA, .wrote 50 0x200 1 1 2 none none)
      , (hA, .wrote 50 0x100 1 0 1 none none)]).placesOf hA 0 0x100 1 none = [0] ∧
    (storesXY xy [(hA, .read 0 0x100 1 2 none none), (hA, .wrote 50 0x100 1 0 1 none none)]).placesOf hA 0 0x100 1 none = [] := by
  decide +kernel

/-- 07 R180: with a fence between the stores and one between the loads the new x must be read; with one of them alone it need not. -/
theorem test_fenced : let st := (hB, Act.fence 1 1 1)
    let ld := (hA, Act.fence 2 1 1)
    let s := fun (b a : List (Home × Act)) => storesXY xy (a ++ [(hA, .read 0 0x200 1 2 none none), (hB, .wrote 0 0x200 1 1 2 none none)] ++ b ++
      [(hB, .wrote 0 0x100 1 0 1 none none)])
    (s [st] [ld]).placesOf hA 0 0x100 1 none = [] ∧ (s [] [ld]).placesOf hA 0 0x100 1 none = [0] ∧ (s [st] []).placesOf hA 0 0x100 1 none = [0] := by
  decide +kernel

/-- 25, a chain across a team and a mailbox: T's arrival carries its store to U, and U's message carries it on to V; with a plain
fence in place of the arrival it need not. -/
theorem test_chain : let V : Home := { g := 2, team := 1, cluster := 1, die := 1 }
    let pt := Link.point 0 0
    let s := fun (a : List (Home × Act)) => storesXY [⟨0x100, 0, false⟩] ([(V, .take (.message 0x300 0) 1), (hB, .pass (.message 0x300 0))
      , (hB, .give (.message 0x300 0) 1)] ++ a ++ [(hA, .wrote 0 0x100 1 0 1 none none)])
    (s [(hB, .take pt 1), (hA, .pass pt), (hA, .give pt 1)]).placesOf V 0 0x100 1 none = [] ∧
      (s [(hA, .fence 1 1 1)]).placesOf V 0 0x100 1 none = [0] := by decide +kernel

/-- 01 R36: a release of an object carries the ranges bound to it and no others. -/
theorem test_bound_ranges : let s := fun (r : List (Nat × Nat)) => storesXY [⟨0x100, 0, false⟩] (
      [(hA, .acquire 0x300 4 1 1 r), (hB, .release 0x300 4 1 1 r), (hB, .wrote 0 0x100 1 0 1 (some 0x100) none)])
    (s [(0x100, 0x180)]).placesOf hA 0 0x100 1 (some 0x100) = [] ∧ (s [(0x200, 0x280)]).placesOf hA 0 0x100 1 (some 0x100) = [0] := by
  decide +kernel
/-! Matrix operations, copies, loops, points and rings -/

/-- The operands of 06's example: A at 0x10_0000 and B at 0x10_0C00, dense, in linear memory; a tile's memory at s6. -/
def operands : Split := scalars [(6, 0x40000), (10, 0x100000), (11, 0x100C00)]
def cT : Cx := ctx paged operands { gang with role := .matrix }
def mmaF : Mat := ⟨c0, 7, .s 10, .s 11, .t8, .t8, 0, 0, 0⟩

theorem rows_here {rows : List MatRow} (h : rows.all (fun r => match r.src with
    | .key k => !isRemote k
    | _ => false) = true) : rowsHere rows := by
  intro r hr
  have h := List.all_eq_true.mp h r hr
  split at h
  · exact ⟨_, by assumption, by simpa using h⟩
  · cases h

theorem witness_matrix : Runs cT.s cT ∧ (cT.G.role = .matrix ∨ cT.G.role = .vector) ∧ cT.P.active ≠ 0 ∧ cT.G.k 1 < 63 ∧ cT.pairCount < 16 ∧
    (0#6).toNat + ((14#8).toNat / 2 % 64 + 1) ≤ cT.team.tiles ∧ (7#6).toNat < cT.team.tiles ∧ (Operand.v 7).vNum < cT.team.tiles ∧
    0x1000 % 128 = 0 ∧ 0x1000 + 4096 ≤ cT.team.window ∧ (0#3) ≠ 2 := by
  refine ⟨runs_ctx _ _ _ _ _, Or.inl rfl, ?_⟩; decide +kernel

theorem witness_tile_window : rowsHere ((tileVas 0x1000).map fun a => { src := .key (cT.windowKey a), va := 0, brick := none, pos := 0 }) :=
  rows_here (by decide +kernel)
theorem witness_tile_memory : cT.s.admitPages 0 0 .read (pageFirsts (tileVas 0x40000)) = .inr (cT.s, [(64, 0x40000)]) ∧
    cT.s.admitPages 0 0 .write (pageFirsts (tileVas 0x40000)) = .inr (cT.s, [(64, 0x40000)]) := by decide +kernel
theorem witness_tile_rows : rowsHere ((tileVas 0x40000).map fun a =>
    { src := .key (pageKey [(64, 0x40000)] a), va := a, brick := none, pos := 0 }) := rows_here (by decide +kernel)

def chunksA : List Chunk := (cT.s.operandChunks 0 (cT.sreg 10) 3 false).filterMap id
def chunksB : List Chunk := (cT.s.operandChunks 0 (cT.sreg 11) 3 false).filterMap id
theorem witness_operands : (∀ o ∈ [mmaF.a, mmaF.b], (cT.sreg o.sNum).field 63 48 = 0 → (cT.sreg o.sNum).field 6 0 = 0) ∧
    cT.s.operandChunks 0 (cT.sreg 10) 3 false = chunksA.map some ∧
    cT.s.operandChunks 0 (cT.sreg 11) (colsB mmaF.ta mmaF.sprs.toNat) false = chunksB.map some ∧
    cT.s.translatePages 0 (pageFirsts (chunksA.map (·.va))) = .inr [(256, 0x100000)] ∧
    cT.s.translatePages 0 (pageFirsts (chunksB.map (·.va))) = .inr [(256, 0x100000), (257, 0x101000)] := by decide +kernel
theorem witness_operand_rows : rowsHere (rowsOf chunksA [(256, 0x100000)] ++ rowsOf chunksB [(256, 0x100000), (257, 0x101000)]) :=
  rows_here (by decide +kernel)

theorem witness_roles : cA.G.role ≠ .matrix ∧ ¬(({ gang with role := .copy } : Gang).role = .matrix ∨ ({ gang with role := .copy } : Gang).role = .vector) ∧
    ({ operands with active := 0 } : Split).active = 0 := by decide

theorem witness_tile_elements : cT.fits (.v 4) .n32 = true ∧ (∀ q ∈ cT.s.mats, q.2.g = cT.g → q.2.kind = .astore) ∧ cT.window c0 = 0 ∧ Steady cT :=
  by
  refine ⟨by decide, ?_, by decide, rfl, clause2, rfl, by decide⟩
  intro q h; cases h

/-! The copy of 08's example: rows 32 to 63 of 40 valid rows of 96 t8 elements. -/

def layoutState : State := { paged with mem := paged.mem ++ [(0x200E12, 0x6B), (0x300004, 0x11), (0x300008, 0x60)] }
def copyRegs : Split :=
  scalars [(12, 0x300000), (13, 0x200000), (14, 0x2800000060), (20, 0x200000), (21, 0x200060), (30, 0x1000)]
def cC : Cx := ctx layoutState copyRegs { gang with role := .copy } { team with points := [(1, { expect := 2, pending := 2 })] }
def cpyF : Cpy := ⟨c0, .s 12, .s 30, .s 20, 1, 0, 0⟩
def layC : Layout := cC.layout cpyF ((List.range 4).map fun i => BitVec.ofNat 64 (cC.s.read 0 (0x300000 + 8 * i) 8))
def boxC : Box := cC.box cpyF layC.rank

theorem witness_copy : Runs cC.s cC ∧ (cC.team.point 1).expect ≠ 0 ∧ cpyF.slot = false ∧ cC.G.role = .copy ∧ cA.G.role ≠ .copy ∧
    0x300000 % 32 = 0 ∧ cC.s.translate 0 0x300000 .read = .ok ⟨0x300000, 0x2000, 0xF, 2 ^ 30⟩ ∧ cC.s.heldVa 0 0x300000 = false ∧ cC.s.poisoned 0x300000 32 = false ∧ isRemote 0x300000 = false ∧ cC.P.reads = [] ∧
    NoLog cC.s cC.G.fn ∧
    cC.s.admitPages 0 0 .read (pageFirsts (((segments layC boxC none).filter fun g => g.valid != 0).map (·.va))) =
      .inr (cC.s, [(512, 0x200000)]) ∧
    layC.wtag = 0 ∧ cC.G.k 0 < 63 ∧ (cC.s.copies.filter fun q => q.2.cluster == cC.G.cluster).length < 32 := by
  refine ⟨runs_ctx _ _ _ _ _, by decide +kernel, by decide, by decide, by decide, by decide, by decide +kernel, by decide +kernel,
    by decide +kernel, by decide, rfl, ⟨by decide +kernel, rfl, rfl, by decide +kernel⟩, ?_⟩
  decide +kernel

theorem witness_layout : LayoutPasses cC cpyF .g2m layC boxC where
  record := ⟨by decide +kernel, (by decide), fun _ _ h => by cases h⟩
  shape := fun h => by cases h
  based := ⟨by decide +kernel, fun i h0 h1 => by
    have h2 : i < 2 := by have e : layC.rank = 2 := by decide +kernel
                          omega
    have : i = 1 := by omega
    subst this; decide +kernel⟩
  boxed := by decide +kernel
  window := fun _ => ⟨by decide +kernel, Or.inr (by decide +kernel)⟩
  listed := fun h => by cases h
  mask := fun h => by cases h

theorem witness_copy_moves : (movesOf .g2m (segments layC boxC none) (pageKey [(512, 0x200000)]) (fun q => cC.windowKey (0x1000 + q)) 0).all
    (fun m => !isRemote m.dst && match m.src with
      | .key k => !isRemote k
      | _ => true) = true := by decide +kernel

/-! Weevil -/

def nested (n : Nest) (G : Gang := { gang with role := .copy }) (rs : List (Nat × Nat) := []) : Cx :=
  ctx State.reset (scalars rs) G { team with nest := n }

theorem witness_weevil_setup : (let c := nested {} { gang with role := .copy } [(4, 0x10001000)]
      c.G.role = .copy ∧ (∀ t ∈ [4096, 15], t ≤ 4096) ∧ [4096, 15].foldl (· * ·) 1 ≤ 65535 ∧ (7 : Nat) ≠ 0 ∧
        (c.nest.state = .idle ∨ c.nest.state = .finished)) ∧
    (nested { state := .configured, trips := [3] }).nest.state = .configured ∧ (nested { state := .running }).nest.state = .running ∧
    (nested { state := .finished }).nest.state = .finished ∧ cA.G.role ≠ .copy ∧ cA.nest.state = .idle := by decide

/-- A gang with a record; one with a record waiting; the end of a nest, and one that is not over. -/
def takes : Nest := { state := .running, trips := [3], permits := 2, roles := 1, next := 1, opened := [(0, 0)], queues := [(0, [0])] }
theorem witness_weevil_records : ({ gang with held := some 5 } : Gang).held = some 5 ∧ (nested takes).G.held = none ∧
    takes.state ≠ .idle ∧ takes.roles.testBit (nested takes).G.role.bit = true ∧ takes.queues.get [] (nested takes).G.role.bit = [0] ∧
    ({ takes with queues := [] } : Nest).queues.get [] 0 = [] ∧ ({ takes with next := 3 } : Nest).next = ({ takes with next := 3 } : Nest).total ∧
    takes.next ≠ takes.total ∧ (6 : Nat).testBit (nested takes).G.role.bit = false ∧
    (nested takes { gang with held := some (2 ^ 48) } [(3, 1)]).src64 (.s 3) = BitVec.ofNat 64 ((2 ^ 48 : Word).field 63 48) ∧
    (nested takes { gang with held := some (2 ^ 48) } [(3, 2)]).src64 (.s 3) ≠ BitVec.ofNat 64 ((2 ^ 48 : Word).field 63 48) := by decide +kernel

theorem witness_weevil_push : (nested takes).s.teams.find? 0 = some { team with nest := takes } ∧ takes.state = .running ∧ takes.next < takes.total ∧
    takes.next < takes.lowest + takes.permits ∧ (∀ r ∈ List.range 3, takes.roles.testBit r = true → (takes.queues.get [] r).length < 16) := by
  decide +kernel

theorem witness_weevil_indices : ([4096, 15] : List Nat).length ≤ 4 ∧ (∀ t ∈ [4096, 15], 0 < t ∧ t ≤ 4096) ∧
    61439 < [4096, 15].foldl (· * ·) 1 ∧ [4096, 15].foldl (· * ·) 1 ≤ 65535 := by decide

/-! Points, counters, rings -/

theorem witness_arrivals : 0 < ({ expect := 4095, pending := 1 } : Point).pending ∧ ({ expect := 4095, pending := 1 } : Point).pending ≤ 4095 ∧
    ({ expect := 2, pending := 2 } : Point).pending ≤ 2 := by decide

def atPoint (p : Point) (G : Gang := gang) : Cx := ctx State.reset lane0 G { team with points := [(1, p)] }
theorem witness_points : (1 ≤ 1 ∧ 4095 ≤ 4095 ∧ ((atPoint { expect := 2, pending := 2 }).team.point 1).pending = 2) ∧
    ((atPoint { expect := 2, pending := 1 }).team.point 1).pending ≠ ((atPoint { expect := 2, pending := 1 }).team.point 1).expect ∧
    ((atPoint {}).team.point 1).expect = 0 ∧ ((atPoint { expect := 2, pending := 1 }).team.point 1).expect ≠ 0 ∧
    Acts (atPoint { expect := 2, pending := 1 }).s (atPoint { expect := 2, pending := 1 }) ∧ lane0.wonly = false := by
  refine ⟨by decide, by decide, by decide, by decide, ⟨runs_ctx _ _ _ _ _, by decide, by decide +kernel, rfl, rfl, by decide +kernel⟩, rfl⟩

/-- The team's own point; one that another gang has set up, which a use may find as it was (10 R250). -/
theorem witness_found : Ours (atPoint { expect := 2, pending := 2 }) 1 ∧ Ours (atPoint {}) (24 + 3) ∧
    ∃ u b, (atPoint { expect := 2, pending := 2 }).s.finds (atPoint {}).home (atPoint {}).actor 1 = (u, b) :=
  ⟨by unfold Ours; decide +kernel, by unfold Ours; decide +kernel, _, _, rfl⟩
theorem test_may_find_before : let s : State := { (atPoint { expect := 2, pending := 2 }).s with
      order := [⟨initKey 0 1, 0, false⟩], acts := [({ g := 1 }, .wrote 0 (initKey 0 1) 1 0 1 none none)] }
    s.placesOf (atPoint {}).home 0 (initKey 0 1) 1 none = [0] := by decide +kernel

/-- An arrival at a point of one is over at once; at a point of two it is not; a flag that is clear is. -/
theorem witness_point_waits : (let d := (atPoint { expect := 1, pending := 1 }).settled'.arrive 1 1;
      (d.team.point 1).phase ≠ Store.get false d.G.ap 1) ∧
    (let d := (atPoint { expect := 2, pending := 2 }).settled'.arrive 1 1;
      Store.get false d.G.flags 1 = true ∧ (d.team.point 1).phase = Store.get false d.G.ap 1) ∧
    Store.get false cA.G.flags 1 = false := by decide +kernel

theorem witness_ring_order : RingAfter 16 17 1 { pb := 0xFFFE, full := true, depth := 16, ppos := 1, cpos := 1 } ∧
    RingAfter 1 0 0 { depth := 1 } :=
  ⟨⟨rfl, rfl, rfl, rfl, by decide⟩, ⟨rfl, rfl, rfl, rfl, by decide⟩⟩

def onRing (r : Ring) (rs : List (Nat × Nat) := []) : Cx := ctx State.reset (scalars rs) gang { team with rings := [(0, r)] }
theorem witness_rings : ((onRing {}).team.ring 0).depth = 0 ∧
    (let r := (onRing { depth := 2 }).team.ring 0;
      r.depth ≠ 0 ∧ 1 % r.depth ≠ r.ppos ∧ 1 % r.depth ≠ r.cpos ∧ 0 % r.depth = r.ppos ∧ r.isFull = false ∧ r.pb.getLsbD r.ppos = r.phaseOf 0 ∧
        r.isEmpty = true) ∧
    (let r := (onRing { depth := 1, full := true, pb := 1 }).team.ring 0;
      0 % r.depth = r.ppos ∧ r.isFull = true ∧ 0 % r.depth = r.cpos ∧ r.isEmpty = false ∧ r.pb.getLsbD r.cpos ≠ r.phaseOf 0) ∧
    (0x10#21).getLsbD 4 = true ∧ (0#21).getLsbD 4 ≠ true := by decide +kernel
theorem witness_acts : Acts cA.s cA := ⟨witness_runs.1, by decide, by decide +kernel, rfl, rfl, by decide +kernel⟩

/-! Regions, faults, queues, calls and messages -/

/-- A marker of the region at 0x4000; the split's clause holds its descriptor. -/
def marked (d : List Word) : Split := { lane0 with clause := some { clause2 with hdr := 0x4000, desc := d } }
theorem witness_region : (marked [0, 0, 0, 0x88, 0, 0, 0, 0]).rstate ≠ 1 ∧ descOk gang.vregs 0x4040 [0, 0, 0, 0x88, 0, 0, 0, 0] = true ∧
    descOk gang.vregs 0x4044 [0, 0, 0, 0x88, 0, 0, 0, 0] = false ∧ descOk 8 0x4040 [0, 0, 0, 0x100, 0, 0, 0, 0] = false ∧
    exiting.rstate = 1 ∧ lane0.rstate ≠ 1 ∧ lane0.rstate = 0 ∧ ({ lane0 with rstate := 2 } : Split).rstate = 2 := by decide

/-- An exit routine of a gang with a save block at 0x8_0000: with an operation outstanding, and with none, s1 live in, written and not. -/
def leaving (cov : List Nat) : Cx := ctx paged { lane0 with rstate := 1, covered := cov, exitDesc := [0, 0, 2, 0, 0, 0, 0, 0] } { gang with save := 0x80000 }
theorem witness_xret : ({ gang with ops := [(0, 0, 1)] } : Gang).ops ≠ [] ∧ (leaving []).P.rstate = 1 ∧ (leaving []).G.ops = [] ∧
    (leaving []).P.late = [] ∧ (leaving []).G.save ≠ 0 ∧ (leaving []).P.covers (leaving []).P.exitDesc = false ∧
    (leaving (List.range 8)).P.covers (leaving (List.range 8)).P.exitDesc = true := by decide +kernel
def covered : Cx := leaving (List.range 8)
theorem witness_xret_writes : ∃ u v w, covered.s.deviceWrite 0 0x80200 covered.P.coverage = some u ∧
    u.deviceWrite 0 0x80000 (covered.P.entryWords 0 0 2) = some v ∧
    v.deviceWrite 0 0x80100 ((List.range 8).map fun i => Config.freeValue (v.tick + i)) = some w := by
  have h : ((covered.s.deviceWrite 0 0x80200 covered.P.coverage).bind fun u =>
    (u.deviceWrite 0 0x80000 (covered.P.entryWords 0 0 2)).bind fun v =>
      v.deviceWrite 0 0x80100 ((List.range 8).map fun i => Config.freeValue (v.tick + i))).isSome = true := by decide +kernel
  obtain ⟨w, hw⟩ := Option.isSome_iff_exists.mp h
  simp only [Option.bind_eq_some_iff] at hw
  obtain ⟨u, hu, v, hv, hw⟩ := hw
  exact ⟨u, v, w, hu, hv, hw⟩

theorem witness_traps : lane0.rstate ≠ 1 ∧ exiting.rstate = 1 ∧ ({ paged with mmio := [(0xD80, 1)] } : State).ffield 0 0xD80 0 0 = 1 ∧
    cA.s.ffield 0 0xD80 0 0 ≠ 1 := by decide +kernel

/-- Faults: in an exit routine; a code that is not resumable; resumable ones that the device services (a spawn), that the host's
queue takes, and for which it has no room. -/
theorem witness_faults : exiting.late = [] ∧ (0x05 : Nat) ≠ 0x0C ∧ exiting.rstate = 1 ∧ (0x04 : Nat) ∉ [0x05, 0x06, 0x0A, 0x0B, 0x11, 0x20, 0x21] ∧
    (0x0A : Nat) ∈ [0x05, 0x06, 0x0A, 0x0B, 0x11, 0x20, 0x21] ∧ cA.s.serviced 0 0 (cA.faultAt 0x0A) = true ∧
    cA.s.serviced 0 0 (cA.faultAt 0x20) = false ∧ (run served lane0).serviced 0 0 (cA.faultAt 0x20) = false := by decide +kernel
theorem witness_fault_queue : (cA.s.queueFault 0 [[0, 0, 0, 0, 0, 0, 0, 0]] = none) ∧
    ∃ r, (run served lane0).queueFault 0 [[0, 0, 0, 0, 0, 0, 0, 0]] = some r :=
  ⟨by decide +kernel, Option.isSome_iff_exists.mp (by decide +kernel)⟩

/-- Queue 0 of function 0: its QCB at 0x6_1000, its ring of 16 entries at 0x6_2000, of KIND k (0 command, 1 continuation). -/
def queues (k : Nat) (x : List Slot) : State := { paged with
  mem := paged.mem ++ [(0x60000, 1), (0x60001, 0x10), (0x60002, 6), (0x61001, 0x20), (0x61002, 6)] ++ (if k = 0 then [] else [(0x6100D, 1)])
  mmio := [(0xA00, 0x60000), (0xA08, 2), (0xC00, 0x1000), (0x70000, BitVec.allOnes 64)]
  slots := x }
def slot (k head tail : Nat) (closed := false) : Slot :=
  { fn := 0, queue := 0, priv := [0x62000, BitVec.ofNat 64 (k * 2 ^ 40), 0, 0], head := head, tail := tail, closed := closed }
def cQ (x : Slot) (P : Split := lane0) : Cx := ctx (queues 1 [x]) P

theorem arrives (c : Cx) (va : Nat) (acc : Acc) (h : c.s.permit c.G.fn (c.s.launchOf c.G).agent va acc = .inr (va, c.s))
    (g : c.s.heldVa c.G.fn va = false) : Arrives c va acc va c.s := ⟨g, h⟩

theorem witness_queues_act : Acts (cQ (slot 1 0 1)).s (cQ (slot 1 0 1)) := ⟨runs_ctx _ _ _ _ _, by decide, by decide +kernel, rfl, rfl, by decide +kernel⟩
def word64 (t : State) (a : Nat) : Word := BitVec.ofNat 64 (t.read 0 a 8)

theorem witness_cpop : (cQ (slot 1 0 1)).s.isContinuation 0 0 = true ∧ (cQ (slot 1 0 1)).s.slot? 0 0 = some (slot 1 0 1) ∧ (slot 1 0 1).count ≠ 0 ∧
    (slot 1 5 5 true).count = 0 ∧ (slot 1 5 5 true).closed = true ∧ (slot 1 5 5).closed = false ∧ (1#8) = 1 ∧ (0#8) ≠ 1 ∧
    (ctx (queues 0 [slot 0 0 0]) lane0).s.isContinuation 0 0 = false ∧ 2 ^ 16 ≤ 2 ^ 16 := by decide +kernel
/-- A join of two bits: descriptor at 0x6_4000 with its bitmap at 0x6_4080, queue 0; bit 1 next. -/
def joining (count : Nat) (fired : Bool) (bits : Nat) (x : Slot) : Cx :=
  let m := queues 1 [x]
  ctx { m with mem := m.mem ++ ([(0x64000, 0x80), (0x64001, 0x40), (0x64002, 6), (0x64008, 2), (0x6400C, BitVec.ofNat 8 count)
    , (0x64017, if fired then 0x80 else 0), (0x64080, BitVec.ofNat 8 bits)]).filter (·.2 != 0) } (scalars [(4, 0x64000), (5, 1)])
theorem entry_at {s : State} {f va key : Nat} {acc : Acc}
    (h : (match s.translate f va acc with
      | .ok w => w.key == key
      | .fault _ => false) = true) (g : s.heldVa f va = false) : EntryAt s f va acc key := by
  refine ⟨g, ?_⟩
  split at h
  · exact ⟨_, by assumption, by simpa using h⟩
  · cases h
theorem witness_cpop_arrives : EntryAt (cQ (slot 1 0 1)).s 0 0x62000 .read 0x62000 ∧
    EntryAt (cQ (slot 1 0 15)).s 0 (0x62000 + 32 * 15) .write (0x62000 + 32 * 15) ∧
    EntryAt (joining 1 false 1 (slot 1 0 0)).s 0 0x62000 .write 0x62000 :=
  ⟨entry_at (by decide +kernel) (by decide +kernel), entry_at (by decide +kernel) (by decide +kernel),
    entry_at (by decide +kernel) (by decide +kernel)⟩
theorem witness_cpush : (scalars [(1, 2 ^ 64 - 3)]).sreg 1 < BitVec.ofNat 64 (2 ^ 64 - 2) ∧ (slot 1 0 3 true).closed = true ∧
    privSize (slot 1 0 16).priv ≤ (slot 1 0 16).count ∧ (slot 1 0 15).count < privSize (slot 1 0 15).priv := by decide +kernel

theorem witness_join : Arrives (joining 1 false 1 (slot 1 0 0)) 0x64000 .atomic 0x64000 (joining 1 false 1 (slot 1 0 0)).s ∧
    Arrives (joining 1 false 1 (slot 1 0 0)) (0x64080 + 8 * (1 / 64)) .atomic 0x64080 (joining 1 false 1 (slot 1 0 0)).s :=
  ⟨arrives _ _ _ (by decide +kernel) (by decide +kernel), arrives _ _ _ (by decide +kernel) (by decide +kernel)⟩
theorem witness_join_cases :
    (let t := (joining 1 false 1 (slot 1 0 0)).s;
      0x64080 < 2 ^ 48 ∧ 0x64080 % 8 = 0 ∧ 1 < (word64 t 0x64008).field 31 0 ∧
      (word64 t 0x64010).field 62 16 = 0 ∧ t.read 0 0x64018 8 = 0 ∧ t.isContinuation 0 0 = true ∧
      (word64 t 0x64080).getLsbD 1 = false ∧ (word64 t 0x64008).field 63 32 + 1 = 2 ∧
      (word64 t 0x64010).getLsbD 63 = false ∧ sentinel (word64 t 0x64020) = false ∧
      t.slot? 0 0 = some (slot 1 0 0) ∧ (slot 1 0 0).closed = false ∧ (slot 1 0 0).count < privSize (slot 1 0 0).priv) ∧
    (word64 (joining 1 false 3 (slot 1 0 0)).s 0x64080).getLsbD 1 = true ∧
    (word64 (joining 0 false 0 (slot 1 0 0)).s 0x64008).field 63 32 + 1 ≠ 2 ∧
    (word64 (joining 1 true 1 (slot 1 0 0)).s 0x64010).getLsbD 63 = true ∧
    privSize (slot 1 0 16).priv ≤ (slot 1 0 16).count := by decide +kernel

/-- Service calls: a request ring of 64 entries at 0x7_0000, on and off, with room and full; more lanes than entries. -/
def calling (on : Nat) (pi : Nat) : State := { paged with
  mmio := [(0x800, 0x70000), (0x810, BitVec.ofNat 64 (on * 256)), (0x818, BitVec.ofNat 64 pi), (0xC00, 0x1000), (0x70000, BitVec.allOnes 64)] }
theorem witness_calls : cA.fitsN (.v 120) (0x7000 / 2 ^ 12 % 8 + 1) = true ∧ cA.fitsN (.v 124) 4 = true ∧ (lane0.active ≠ 0) ∧
    (run (calling 1 0) lane0).ffield 0 0x810 8 8 ≠ 0 ∧ (run (calling 0 0) lane0).ffield 0 0x810 8 8 = 0 ∧
    (run (calling 1 0) lane0).unwritable 0 0x70000 4096 = none ∧ 64 < ringCount 64 0 + 1 ∧ ringCount 63 0 + 1 ≤ 64 ∧
    (run (calling 1 64) lane0).ffield 0 0x818 31 0 = 64 ∧ (run (calling 1 63) lane0).ffield 0 0x818 31 0 = 63 := by decide +kernel
theorem witness_calls_act : Acts (run (calling 1 63) lane0) (ctx (calling 1 63) lane0) := ⟨runs_ctx _ _ _ _ _, by decide, by decide +kernel, rfl, rfl, by decide +kernel⟩

/-- Mailbox 0 of function 0: descriptor at 0x6_6000, two slots at 0x6_7000; on; `n` messages in it. -/
def mailbox (n : Nat) : Cx := ctx { paged with
  mem := paged.mem ++ ([(0x66001, 0x70), (0x66002, 6), (0x66009, 1), (0x66014, BitVec.ofNat 8 n)]).filter (·.2 != 0)
  mmio := [(0xC00, 0x1000), (0xE00, 0x66000), (0x70000, BitVec.allOnes 64)] } (scalars [(4, 0x7F0000), (5, 2 ^ 23)])
theorem witness_mailbox : handleOk ((mailbox 0).sreg 4) = true ∧ receiver ((mailbox 0).sreg 4) 0 = 0 ∧ (mailbox 0).s.fnEnabled 0 = true ∧
    (mailbox 0).s.mailboxVa 0 0 = 0x66000 ∧ ((mailbox 0).s.mailboxAt 0 0x66000).on = true ∧
    ((mailbox 1).s.mailboxAt 0 0x66000).count < ((mailbox 1).s.mailboxAt 0 0x66000).depth ∧
    ((mailbox 2).s.mailboxAt 0 0x66000).depth ≤ ((mailbox 2).s.mailboxAt 0 0x66000).count ∧ ((mailbox 1).s.mailboxAt 0 0x66000).count ≠ 0 ∧
    ((mailbox 0).s.mailboxAt 0 0x66000).count = 0 ∧ (mailbox 0).G.k 3 < 63 ∧ handleOk ((mailbox 0).sreg 5) = false ∧
    receiver 0x10000 0 ≠ 0 := by decide +kernel
theorem witness_mailbox_arrives : Arrives (mailbox 1) 0x66000 .atomic 0x66000 (mailbox 1).s ∧
    Arrives (mailbox 1) (((mailbox 1).s.mailboxAt 0 0x66000).slotVa 1) .write 0x67040 (mailbox 1).s ∧
    Arrives (mailbox 1) (((mailbox 1).s.mailboxAt 0 0x66000).slotVa 0) .read 0x67000 (mailbox 1).s :=
  ⟨⟨by decide +kernel, by decide +kernel⟩, ⟨by decide +kernel, by decide +kernel⟩, ⟨by decide +kernel, by decide +kernel⟩⟩

/-- A network send to package 1, which port 0 reaches; and one that waits for its answer. -/
def linked : State := { paged with
  mmio := [(0xC00, 0x1000), (0x50100, 3), (0x51008, 1), (0x70000, BitVec.allOnes 64)] }
def sender : Cx := ctx linked (scalars [(4, 2 ^ 40)])
theorem witness_netsend : sender.sreg 4 = sender.settled'.sreg 4 ∧ (sender.sreg 4).field 63 48 = 0 ∧ (sender.sreg 4).field 39 23 = 0 ∧
    (sender.sreg 4).field 15 12 = 0 ∧ sender.G.k 3 < 63 ∧ (sender.sreg 4).field 47 40 ≠ sender.s.umid ∧
    sender.s.reachable ((sender.sreg 4).field 47 40) = true ∧ (sender.s.reg 0x70000).field 40 40 = 1 ∧
    (paged.reg 0x70000).field 37 37 = 1 ∧ (({ linked with mmio := [(0xC00, 0x1000), (0x50100, 3), (0x51008, 1)] } : State).reg 0x70000).field 40 40 = 0 := by
  decide +kernel
def noPacket : Packet :=
  { dpkg := 1, spkg := 0, kind := 0, sfunc := 0, dfunc := 0, len := 7, tag := 1, mbox := 0, addr := 0, payload := [] }
def awaiting : Split := { atEnd with wait := some (.net 1) }
def sentOne (w : Bool) : State := { run linked awaiting with cur := none, nets := [(1, { g := 0, sp := 0, fn := 0, wait := w, packet := noPacket })] }
theorem witness_net_answer : (sentOne true).nets.find? 1 = some { g := 0, sp := 0, fn := 0, wait := true, packet := noPacket } ∧
    (sentOne true).cx? 0 0 = some ⟨sentOne true, 0, 0, { gang with splits := [(0, awaiting)] }, awaiting⟩ ∧ (sentOne true).cur = none ∧
    AtLast ⟨sentOne true, 0, 0, { gang with splits := [(0, awaiting)] }, awaiting⟩ ∧ ((sentOne true).fn 0).ckpt = none ∧
    noPacket.dpkg.toNat ≠ (sentOne true).umid ∧ ({ gang with splits := [(0, awaiting)] } : Gang).splits.keys = [0] ∧
    (sentOne false).nets.find? 1 = some { g := 0, sp := 0, fn := 0, wait := false, packet := noPacket } :=
  ⟨rfl, rfl, rfl, ⟨rfl, _, rfl, by decide⟩, rfl, by decide, rfl, rfl⟩

/-! Waits, clauses, engines -/

/-- A split that waits in `w` at the instruction `i`, with nothing running. -/
def waiter (i : Instr) (w : Wait) (s : State) (P : Split := lane0) (G : Gang := gang) (T : Team := team) : Cx :=
  let P := { P with wait := some w, clause := some { clause2 with words := [encode i, 0] } }
  ⟨{ run s P G T with cur := none }, 0, 0, { G with splits := [(0, P)] }, P⟩

theorem witness_waits (i : Instr) (w : Wait) (s : State) (P : Split) (G : Gang) (T : Team) (h : P.parked = none) : let c := waiter i w s P G T
    c.s.cx? 0 0 = some c ∧ c.s.cur = none ∧ c.P.clause.isSome = true ∧ c.P.parked = none ∧ c.P.wait = some w := ⟨rfl, rfl, rfl, h, rfl⟩

def jwaitF : Sys := ⟨c0, .v 0, .v 0, 0, 1⟩
def ringF : Sys := ⟨c0, .s 1, .s 2, 0, 0⟩
theorem witness_sync_waits :
    (let c := waiter (.jwait jwaitF) (.rendezvous 1) State.reset lane0 gang { team with points := [(1, { expect := 2, pending := 1 })] };
      c.P.wonly = false ∧ c.instr? = some (.jwait jwaitF) ∧ c.jwaitHolds jwaitF = true) ∧
    (let c := waiter (.ringput ringF) .ringPut State.reset lane0 gang { team with rings := [(0, { depth := 1 })] };
      c.instr? = some (.ringput ringF) ∧ (c.team.ring 0).isFull = false) ∧
    (let c := waiter (.ringtake ringF) .ringTake State.reset lane0 gang { team with rings := [(0, { depth := 1, full := true })] };
      c.instr? = some (.ringtake ringF) ∧ (c.team.ring 0).isEmpty = false) ∧
    (let c := waiter (.kwait ⟨c0, .v 0, .v 0, 0, 3⟩) .kwait State.reset; c.instr? = some (.kwait ⟨c0, .v 0, .v 0, 0, 3⟩) ∧ c.G.kHolds 3 0 = true) := by
  decide +kernel

theorem witness_room_waits : (cA.s.copies.filter fun q => q.2.cluster == cA.G.cluster).length < 32 ∧
    (cA.s.mats.filter fun q => q.2.pair == cA.G.pair).length < 16 ∧ (run (calling 1 63) lane0).srqRoom 0 (lanesOf lane0.active).length = true ∧
    cA.G.k 2 < 63 := by decide +kernel

theorem witness_lpnext_wait : ∃ r d, (nested takes).nextRecord = some (r, d) := ⟨_, _, rfl⟩

def sendF : Sys := ⟨c0, .s 4, .s 10, 0, 0⟩
def recvF : Sys := ⟨c0, .s 10, .s 4, 0, 0⟩
theorem witness_mailbox_waits :
    (let c := waiter (.mbsend sendF) .mbsend (mailbox 1).s (scalars [(4, 0x7F0000)]);
      c.instr? = some (.mbsend sendF) ∧ c.peek (c.sreg 4) = some ((mailbox 1).s.mailboxAt 0 0x66000)) ∧
    (let c := waiter (.mbrecv recvF) .mbrecv (mailbox 1).s (scalars [(4, 0x7F0000)]);
      c.instr? = some (.mbrecv recvF) ∧ c.peek (c.sreg 4) = some ((mailbox 1).s.mailboxAt 0 0x66000)) := by decide +kernel

def popF : Sys := ⟨c0, .s 8, .s 3, 0, 0⟩
def pushF : Sys := ⟨c0, .s 3, .s 8, 0, 0⟩
def joinF : Sys := ⟨c0, .s 3, .s 4, 0, 0⟩
theorem witness_queue_waits :
    (let c := waiter (.cpush pushF) .cpush (queues 1 [slot 1 0 15]);
      c.instr? = some (.cpush pushF) ∧ c.s.slot? 0 ((c.sreg 3).field 15 0) = some (slot 1 0 15) ∧ (slot 1 0 15).count < privSize (slot 1 0 15).priv) ∧
    (let c := waiter (.cpop popF) .cpop (queues 1 [slot 1 0 1]);
      c.instr? = some (.cpop popF) ∧ c.s.isContinuation 0 ((c.src64 (.s 3)).field 15 0) = true ∧ c.s.slot? 0 0 = some (slot 1 0 1)) ∧
    (let c := waiter (.cjoin joinF) .cjoin (joining 1 false 1 (slot 1 0 0)).s (scalars [(4, 0x64000)]);
      c.instr? = some (.cjoin joinF) ∧ c.s.translate 0 (c.sreg 4).toNat .atomic = .ok ⟨0x64000, 0x2000, 0xF, 2 ^ 30⟩ ∧
        c.s.slot? 0 (c.s.read 0 (0x64000 + 16) 2) = some (slot 1 0 0)) := by decide +kernel

/-- One that goes on at once; one whose partition's checkpoint closes. -/
theorem witness_wait_ends : (let c := waiter (.kwait ⟨c0, .v 0, .v 0, 0, 3⟩) .kwait State.reset
      c.s.quarterFree 0 = true ∧ c.s.stopped c.G.fn = false) ∧
    (let c := waiter (.kwait ⟨c0, .v 0, .v 0, 0, 3⟩) .kwait { State.reset with fns := [(0, { close := .waiting })] };
      c.s.stopped c.G.fn = true) := by decide +kernel

/-! A clause to be fetched at 0x4000: one nop, well formed and with a reserved bit set; to be waited for and selected. -/

def standing : Split := { pc := 0x4000, region := 0x4000, member := 1, active := 1 }
def codeBytes (low : Nat) : List Host.Cell :=
  (if low = 0 then [] else [(0x4000, BitVec.ofNat 8 low)]) ++ [(0x4005, 0xFF), (0x4006, 0xFF), (0x400E, 0x80), (0x400F, 0x07)]
def code (low : Nat) : State := { paged with mem := paged.mem ++ codeBytes low }
def fetcher (low : Nat) (pc : Nat := 0x4000) : Cx :=
  let P := { standing with pc := pc }
  ⟨{ run (code low) P { gang with fresh := false } with cur := none }, 0, 0, { gang with fresh := false, splits := [(0, P)] }, P⟩
theorem witness_fetch : (fetcher 0).s.cx? 0 0 = some (fetcher 0) ∧ (fetcher 0).s.cur = none ∧ standing.clause = none ∧ standing.wait = none ∧
    standing.saved = false ∧ standing.member ≠ 0 ∧ (fetcher 0).G.splits = [(0, (fetcher 0).P)] ∧ standing.parked = none ∧
    standing.wonly = false ∧ (fetcher 0).G.fresh = false ∧ standing.closed = false ∧ (fetcher 0).fetchHeld 0x4000 = false ∧
    (fetcher 1).fetchHeld 0x4000 = false ∧ (fetcher 0 (2 ^ 40)).fetchHeld (2 ^ 40) = false :=
  ⟨rfl, rfl, rfl, rfl, rfl, by decide, rfl, rfl, rfl, rfl, rfl, by decide +kernel, by decide +kernel, by decide +kernel⟩
theorem witness_fetched : (fetcher 0).fetch 0x4000 = .ok ⟨0x00FFFF0000000000, [0x0780000000000000], []⟩ ∧
    clauseDefect 0x00FFFF0000000000 [0x0780000000000000] = false ∧ (fetcher 1).fetch 0x4000 = .ok ⟨0x00FFFF0000000001, [0x0780000000000000], []⟩ ∧
    clauseDefect 0x00FFFF0000000001 [0x0780000000000000] = true ∧
    (fetcher 0 (2 ^ 40)).fetch (fetcher 0 (2 ^ 40)).P.pc = .fault 0x05 (2 ^ 40) 2 := by decide +kernel
theorem witness_fetch_fault : (fetcher 0 (2 ^ 40)).s.cx? 0 0 = some (fetcher 0 (2 ^ 40)) ∧
    (fetcher 0 (2 ^ 40)).G.splits = [(0, (fetcher 0 (2 ^ 40)).P)] := ⟨rfl, rfl⟩

def fetched : Clause := { clause2 with header := 0x00FFFF0000020000, waited := false, begun := false }
def held : Split := { lane0 with clause := some fetched }
theorem witness_header_wait : (let c := ctx State.reset held gang { team with points := [(1, { expect := 2, pending := 1 })] };
      fetched.waited = false ∧ c.headerHolds fetched.header = true ∧ headerPoints fetched.header = [1] ∧ (c.team.point 1).expect ≠ 0 ∧
        c.s.contended c.home c.actor (initKey c.G.team 1) 1 = false) ∧
    ({ gang with splits := [(0, { lane0 with wait := some .held })] } : Gang).holdEnds 0 = true := by decide +kernel

def selectable : Split := { lane0 with clause := some { clause2 with begun := false }, passed := 1024 }
theorem witness_halved : ({ State.reset with halved := true } : State).running 0 = false ∧ State.unsettled { State.reset with halved := true } 0 = false ∧
    State.reset.skipped.contains 0 = false := by decide +kernel
theorem witness_select : selectable.readyAt = true ∧ (run State.reset selectable).halved = false ∧
    (run State.reset selectable).hasLog 0 = false ∧ (run State.reset selectable).pstat 0 ≠ 2 ∧ 1024 ≤ selectable.passed ∧
    ({ gang with splits := [(0, selectable)] } : Gang).quarterNo = 0 ∧ selectable.yieldTo = [] ∧
    (run State.reset selectable).stopped 0 = false ∧ (run State.reset selectable).gangs = [(0, { gang with splits := [(0, selectable)] })] :=
  by decide +kernel
theorem witness_choose : let P := { selectable with passed := 1023 }
    Store.find? [(1, P)] 1 = some P ∧ Store.rising [(1, P)] = true ∧ P.readyAt = true ∧ P.yieldTo = [] ∧ (∀ q ∈ [(1, P)], q.2.passed < 1024) ∧
    ∀ q ∈ [((1 : Nat), P)], q.1 < 1 → q.2.readyAt = false := by decide +kernel

/-! Engines -/

theorem witness_load_returns : let P := { lane0 with late := [{ left := 2, vs := [(5 * 96, 1)], ss := [], ps := [] }] }
    ({ run State.reset P with cur := none } : State).cx? 0 0 = some ⟨{ run State.reset P with cur := none }, 0, 0, { gang with splits := [(0, P)] }, P⟩ ∧
      P.late = [{ left := 2, vs := [(5 * 96, 1)], ss := [], ps := [] }] := ⟨rfl, rfl⟩

def gathering : State := { run paged lane0 with gathers := [(3, ⟨0, 0, 0⟩)] }
def move1 : Move := { src := .key 0x40000, dst := 300 * 2 ^ 48 + 64, len := 32, valid := 256, srcVa := 0x40000, dstVa := 0 }
def copying (pt : Nat) : State := { run paged lane0 gang { team with points := [(1, { expect := 2, pending := 2 })] } with copies :=
  [(3, { g := 0, fn := 0, team := 0, launch := 0, cluster := 0, class_ := 0, kind := .move true, ty := .t8, twin := false, moves := [move1], fills := []
         point := pt, committed := false })] }
theorem witness_copy_done : (gathering.gathers.find? 3 = some ⟨0, 0, 0⟩ ∧ (∀ r ∈ gathering.remotes, r.op ≠ some 3) ∧
      (gathering.cx? 0 0).isSome = true ∧ lane0.wait ≠ some .remote) ∧
    (copying 31).copies.keys = [3] ∧ (copying 31).remotes = [] ∧ move1.valid = 8 * move1.len ∧ (copying 31).moveHeld move1 = false ∧
    isRemote move1.dst = false ∧ isRemote 0x40000 = false ∧ (copying 31).poisoned 0x40000 32 = false ∧ (copying 31).hasLog 0 = false ∧
    ((copying 31).fn 0).ckpt = none ∧ 32 + 0x40000 ≤ aperture ∧ 2 ^ 48 ≤ move1.dst ∧
    (∀ o ∈ (copying 31).copies, (copying 31).savedOffset o.2 0x40000 = none ∧ (copying 31).savedOffset o.2 move1.dst = none) := by
  decide +kernel
theorem witness_copy_quiet : NoLog (copying 31) 0 ∧ OffAperture move1.dst move1.len ∧ OffAperture 0x40000 32 ∧
    OffQueues (copying 31) 0 move1.dst move1.len ∧ PlainMemory (copying 31) :=
  ⟨⟨by decide +kernel, rfl, rfl, by decide +kernel⟩, Or.inr (by decide), Or.inl (by decide), Or.inl rfl, ⟨rfl, rfl⟩⟩
theorem witness_engine_arrives : (1 : Nat) < 24 ∧ ∃ T, (copying 1).teams.find? 0 = some T ∧ (T.point 1).expect ≠ 0 := ⟨by decide, _, rfl, by decide⟩

def matOp (k : MatKind) (ra : List MatRow) (st : Bool) : MatOp :=
  { g := 0, fn := 0, team := 0, launch := 0, pair := 0, kind := k, tile := 3, rowsA := ra, rowsB := [], started := st }
def matting (k : MatKind) (ra : List MatRow) (st : Bool) : State := { run paged lane0 with mats := [(3, matOp k ra st)] }
theorem witness_matrix_op : (matting (.azero 1 true) [] false).mats.find? 3 = some (matOp (.azero 1 true) [] false) ∧
    (∀ q ∈ (matting (.azero 1 true) [] false).mats, ¬q.1 < 3) ∧ (matOp (.azero 1 true) [] true).started = true ∧
    (∀ t ∈ (matOp (.azero 1 true) [] true).tiles, t < 64) ∧ (matOp (.azero 1 true) [] true).pair < 512 := by decide +kernel
def loadRows : List MatRow := (List.range 128).map fun i => { src := .key (0x40000 + 32 * i), va := 0x40000 + 32 * i, brick := none, pos := 0 }
theorem witness_aload_op : loadRows.length = 128 ∧ (matting (.aload true) loadRows true).badTiles = [] ∧
    (∀ r ∈ loadRows, (matting (.aload true) loadRows true).rowHeld r = false ∧
    (matting (.aload true) loadRows true).rowPoisoned r = none) ∧
    loadRows.all (fun r => match r.src with
      | .key k => !isRemote k
      | _ => false) = true := by decide +kernel
theorem witness_mma_op : ((matting (.mma true true .t8 .t8 0 0) [] true).products (matOp (.mma true true .t8 .t8 0 0) [] true) .t32 true .t8 .t8 0 0
    fun _ => 0).length = 1024 := by decide +kernel

theorem witness_hod_update : (run sending lane0).hods.find? 1 = some { g := 0, sp := 0, fn := 0, launch := 0, ty := .i32, op := 0, lanes := [(0, 0x40000, 1)] } ∧
    (List.find? (fun (q : Nat × Nat × Nat) => q.1 == 0) [(0, 0x40000, 1)]) = some (0, 0x40000, 1) ∧
    (List.filter (fun (q : Nat × Nat × Nat) => q.1 != 0) [(0, 0x40000, 1)]) = [] ∧
    (List.filter (fun (q : Nat × Nat × Nat) => q.1 != 0) [(0, 0x40000, 1), (1, 0x40004, 1)]) ≠ [] := by decide +kernel
theorem witness_hod_quiet : PlainMemory (run sending lane0) ∧ NoLog (run sending lane0) 0 ∧ OffAperture 0x40000 4 ∧
    OffQueues (run sending lane0) 0 0x40000 4 :=
  ⟨⟨rfl, rfl⟩, ⟨by decide +kernel, rfl, rfl, by decide +kernel⟩, Or.inl (by decide), Or.inl rfl⟩

/-- One lane of an atomic on host memory whose answer is outstanding. -/
def request (a : AtOp) : HostOp := { g := 0, sp := 0, fn := 0, ty := .i32, opcode := a.code, acq := false, dst := .v 5
                                     open_ := [⟨0, 2 ^ 48 + 0x40, 0x40, 0, 0, 7⟩], failed := [] }
def waitingHost (a : AtOp) : State :=
  { run paged { atEnd with wait := some (.hostAtomic 3) } with cur := none, hostOps := [(3, request a)] }
theorem witness_host_atomic : (waitingHost .add).hostOps.find? 3 = some (request .add) ∧ (waitingHost .add).cur = none ∧
    (request .add).failed = [] ∧ ((waitingHost .add).fn 0).ckpt = none ∧ (0 : Nat) < 96 ∧ (waitingHost .add).bricks = [] ∧ (waitingHost .add).windows = [] ∧
    2 ^ 48 ≤ 2 ^ 48 + 0x40 ∧ (request .add).dst = .v 5 ∧ (request .add).ty.is64 = false ∧ (∀ q ∈ (waitingHost .add).remotes, q.g ≠ 0) ∧
    (request .cas).at_ = .cas ∧ (waitingHost .cas).read 0 (2 ^ 48 + 0x40) 4 = 0 := by decide +kernel
theorem witness_host_split : (waitingHost .add).cx? 0 0 = some ⟨waitingHost .add, 0, 0, { gang with splits := [(0, { atEnd with wait := some (.hostAtomic 3) })] }
    , { atEnd with wait := some (.hostAtomic 3) }⟩ ∧
    AtLast ⟨waitingHost .add, 0, 0, gang, { atEnd with wait := some (.hostAtomic 3) }⟩ ∧ NoLog (waitingHost .add) 0 ∧
    OffAperture (2 ^ 48 + 0x40) 4 ∧ OffQueues (waitingHost .add) 0 (2 ^ 48 + 0x40) 4 :=
  ⟨rfl, ⟨rfl, _, rfl, by decide⟩, ⟨by decide +kernel, rfl, rfl, by decide +kernel⟩, .inr (by decide), .inl rfl⟩


/-! Gangs, teams and launches: front end 0 of function 0 with clusters 0 to 31 -/

def fronted (s : State) : State := { s with
  mmio := s.mmio ++ [(0x90000, BitVec.ofNat 64 (2 ^ 49 + 31 * 2 ^ 17))]
  parts := [(0, [BitVec.ofNat 64 (2 ^ 63 + 0xFFFF), 0x100000001, 0, 0, 0, 0, 0, 0])] }

/-- A launch of one team of 100 threads, at 0x4000 with ARGS 7; its completion record's address. -/
def entryOf (cpl : Nat) : List Word :=
  [BitVec.ofNat 64 (2 ^ 56 + 9), 0x4000, 7, BitVec.ofNat 64 (2 ^ 48 + 2 ^ 32 + 2 ^ 16 + 100), BitVec.ofNat 64 (16 * 2 ^ 56), 0, BitVec.ofNat 64 cpl, 5]
def launch (cpl : Nat := 0) : Launch := { entry := entryOf cpl, todo := [0] }

def spawnRec : SpawnRec := { dest := 0x4000, launch := 0, preds := 1, regs := [(3, 9)] }
def splitSpawning : Split := { lane0 with spawning := [spawnRec] }
def group (f : Bool) : Group := { launch := 0, dest := 0x4000, recs := [spawnRec], formed := f }
def grouping (x : Store Group) : Cx :=
  ⟨{ run paged splitSpawning with cur := none, groups := x }, 0, 0, { gang with splits := [(0, splitSpawning)] }, splitSpawning⟩
theorem witness_grouping : (grouping []).s.cx? 0 0 = some (grouping []) ∧ (grouping []).s.cur = none ∧ splitSpawning.member ≠ 0 ∧
    Store.get 0 (grouping []).s.spawnUsed 0 < 3 * 2 ^ 20 ∧
    List.find? (fun (q : Nat × Group) => q.2.die == 0 && q.2.launch == 0 && q.2.dest == 0x4000 && !q.2.formed) (grouping [(5, group false)]).s.groups =
      some (5, group false) ∧ (grouping []).G.die ∉ (grouping []).s.draining := ⟨rfl, rfl, by decide, by decide +kernel, rfl, by decide⟩

def placing (s : State) : State := { fronted s with launches := [(0, launch)], groups := [(5, group true)] }
def seat0 : Place := { cluster := 0, seats := [⟨0, 0, 0⟩], colour := 0, line := 0 }
def seats2 : Place := { cluster := 0, seats := [⟨0, 0, 0⟩, ⟨1, 0, 0⟩], colour := 0, line := 0 }
theorem witness_chafer : (placing paged).groups.find? 5 = some (group true) ∧ (placing paged).launches.find? 0 = some launch ∧
    (placing paged).groupOpen (group true) launch = true ∧ (placing paged).placeOk launch.chaferWant seat0 = true ∧
    (placing paged).fuse.dieOf 0 = 0 ∧ (group true).recs.length ≤ 96 ∧ ∀ r ∈ (group true).recs, (r.regs.map (·.1)).Nodup := by decide +kernel

/-- The launch depends on bit 0 at 0x9_0000 and sets bit 0 at 0x9_0008; that bit is clear. -/
def depRec : List Word := [0x90008, 0, 0, 0x90000, 0, 0x10000, BitVec.ofNat 64 (2 ^ 32 + 1), 0]
def depending : Launch := { launch with dep := some depRec }
theorem witness_team : (placing paged).launchOpen 0 launch = true ∧ 0 ∈ launch.todo ∧ (placing paged).placeOk launch.want seats2 = true ∧
    ((placing paged).consumer launch 0).1 = true ∧ (∀ x, (placing paged).listed? launch.fn launch.queue = some x → (placing paged).served x = true) ∧
    ({ placing paged with launches := [(0, depending)] } : State).launchOpen 0 depending = true ∧
    ({ placing paged with launches := [(0, depending)] } : State).placeOk depending.want seats2 = true ∧
    (({ placing paged with launches := [(0, depending)] } : State).consumer depending 0).1 = false := by
  refine ⟨by decide +kernel, by decide, by decide +kernel, by decide +kernel, ?_, by decide +kernel, by decide +kernel, by decide +kernel⟩
  intro x h
  simp [placing, fronted, paged, State.listed?, State.runList, State.reset] at h
theorem witness_producer : PlainMemory paged ∧ depending.dep = some depRec ∧ (depW depRec 0).field 47 0 ≠ 0 ∧
    depending.linear (depW depRec 1) ((depW depRec 2).field 63 32) 0 < (depW depRec 6).field 63 32 ∧
    paged.translate 0 0x90008 .write = .ok ⟨0x90008, 0x2000, 0xF, 2 ^ 30⟩ ∧ OffAperture 0x90008 8 ∧ (paged.fn 0).ckpt = none :=
  ⟨⟨rfl, rfl⟩, rfl, by decide +kernel, by decide +kernel, by decide +kernel, .inl (by decide), rfl⟩

/-- Two gangs of a team, one without live lanes. -/
def ending : State := { run paged lane0 with cur := none, gangs := [(0, { gang with live := 0, splits := [] }), (1, { gang with splits := [(0, lane0)] })] }
theorem witness_gangEnd : ending.gangs.find? 0 = some { gang with live := 0, splits := [] } ∧ NoLog ending 0 ∧ ending.pstat 0 ≠ 2 ∧ ending.remotes = [] ∧
    (∃ q ∈ ending.gangs, q.1 ≠ 0 ∧ q.2.team = gang.team) ∧ LastOf { ending with gangs := [(0, gang)] } 0 0 0 :=
  ⟨rfl, ⟨by decide +kernel, rfl, rfl, by decide +kernel⟩, by decide +kernel, rfl, ⟨(1, { gang with splits := [(0, lane0)] }), by decide, by decide, rfl⟩, by unfold LastOf; decide⟩

def completing (cpl : Nat) : State := { fronted paged with launches := [(0, { launch cpl with todo := [] })] }
theorem witness_completion : (completing 0).launchOver 0 { launch with todo := [] } = true ∧ (launch 0).wantsDep = false ∧ (launch 0).cplAddr = 0 ∧
    (completing 0x70000).launchOver 0 { launch 0x70000 with todo := [] } = true ∧ (launch 0x70000).cplAddr = 0x70000 ∧
    (launch 0x70000).cplVal.getLsbD 63 = false ∧ (queues 0 [slot 0 0 0]).slot? 0 0 = some (slot 0 0 0) ∧
    paged.translate 0 0x70000 .write = .ok ⟨0x70000, 0x2000, 0xF, 2 ^ 30⟩ := by decide +kernel
theorem witness_completion_page : PlainMemory paged ∧ OffAperture 0x70000 (8 * 4) := ⟨⟨rfl, rfl⟩, .inl (by decide)⟩
theorem witness_completion_record : ∃ u, (completing 0x70000).deviceWrite 0 0x70000 [5, 9, 0, 0] = some u :=
  Option.isSome_iff_exists.mp (by decide +kernel)

/-! Queues: command queue 0 with an entry of these words at HEAD, and continuation queue 1 with its ring at 0x6_8000 -/

def cells (a : Nat) (ws : List Word) : List Host.Cell :=
  (ws.zipIdx.flatMap fun q => (List.range 8).map fun i => (a + 8 * q.2 + i, BitVec.ofNat 8 (q.1.toNat / 2 ^ (8 * i)))).filter (·.2 != 0)
def slot1 (head tail : Nat) (closed := false) : Slot :=
  { fn := 0, queue := 1, priv := [0x68000, BitVec.ofNat 64 (2 ^ 40), 0, 0], head := head, tail := tail, closed := closed }
def commands (ws : List Word) (x : List Slot) : State := fronted { paged with
  mem := paged.mem ++ cells 0x60000 [0x61001, 0x63001] ++ cells 0x61000 [0x62000] ++ cells 0x62000 ws ++ cells 0x63000 [0x68000, BitVec.ofNat 64 (2 ^ 40)]
  mmio := [(0xA00, 0x60000), (0xA08, 2), (0xC00, 0x1000), (0x70000, BitVec.allOnes 64)]
  slots := slot 0 0 1 :: x }
def noopE : List Word := List.replicate 8 0
def feedE (n : Nat) : List Word := [BitVec.ofNat 64 (2 * 2 ^ 56 + n * 2 ^ 48 + 3 * 2 ^ 40), 5, 6, 0, 0, 0, 0, 0]
def pushE : List Word := [BitVec.ofNat 64 (4 * 2 ^ 56 + 1), 7, 0, 0, 0, 0, 0, 0]
def depE : List Word := [BitVec.ofNat 64 (3 * 2 ^ 56 + 0x90008), 0, 0, 0x90000, 0, 0x10000, BitVec.ofNat 64 (2 ^ 32 + 1), 0]

theorem at_entry (s : State) (ws : List Word) (h : (s.slot? 0 0, s.takes (slot 0 0 1), s.heldVa 0 0x62000, s.translate 0 0x62000 .read) =
      (some (slot 0 0 1), true, false, .ok ⟨0x62000, 0x2000, 0xF, 2 ^ 30⟩))
    (g : ws = s.entryWords (slot 0 0 1) 0x62000) : AtEntry s 0 0 (slot 0 0 1) ws := by
  simp only [Prod.mk.injEq] at h
  exact ⟨h.1, h.2.1, h.2.2.1, _, h.2.2.2, g⟩

theorem witness_entries : AtEntry (commands noopE []) 0 0 (slot 0 0 1) noopE ∧ AtEntry (commands (feedE 2) []) 0 0 (slot 0 0 1) (feedE 2) ∧
    AtEntry (commands (feedE 0) []) 0 0 (slot 0 0 1) (feedE 0) ∧ AtEntry (commands pushE [slot1 0 15]) 0 0 (slot 0 0 1) pushE ∧
    AtEntry (commands (entryOf 0) []) 0 0 (slot 0 0 1) (entryOf 0) :=
  ⟨at_entry _ _ (by decide +kernel) (by decide +kernel), at_entry _ _ (by decide +kernel) (by decide +kernel),
    at_entry _ _ (by decide +kernel) (by decide +kernel), at_entry _ _ (by decide +kernel) (by decide +kernel),
    at_entry _ _ (by decide +kernel) (by decide +kernel)⟩
theorem witness_entry_kinds : typeOf noopE = 0 ∧ typeOf (feedE 2) = 2 ∧ typeOf pushE = 4 ∧ typeOf (entryOf 0) = 1 ∧ typeOf depE = 3 ∧
    (commands noopE []).depWaiter 0 0 = none ∧ 3 + 2 ≤ 64 ∧ ((feedE 2).drop 3).any (· != 0) = false ∧
    (commands pushE [slot1 0 15]).isContinuation 0 1 = true ∧ sentinel (pushE.getD 1 0) = false ∧
    (commands pushE [slot1 0 15]).slot? 0 1 = some (slot1 0 15) ∧ (slot1 0 15).count < privSize (slot1 0 15).priv ∧
    privSize (slot1 0 16).priv ≤ (slot1 0 16).count ∧ (slot1 0 15 true).closed = true ∧
    (commands pushE [slot1 0 15]).translate 0 ((slot1 0 15).entryAt 32 15) .write = .ok ⟨0x681E0, 0x2000, 0xF, 2 ^ 30⟩ := by decide +kernel

/-- The queue's launch waits for the record at HEAD. -/
def awaitingDep : State := { commands depE [] with launches := [(0, { launch with wantsDep := true })] }
theorem witness_dependence : AtEntry awaitingDep 0 0 (slot 0 0 1) depE ∧ awaitingDep.depWaiter 0 0 = some (0, { launch with wantsDep := true }) ∧
    depBad depE = false ∧ depBad (depE.set 7 1) = true :=
  ⟨at_entry _ _ (by decide +kernel) (by decide +kernel), by decide +kernel, by decide +kernel, by decide +kernel⟩

/-- A launch that fits, one whose fields are bad, and a drain that covers it. -/
theorem witness_launch_entry : (entryOf 0).head?.any (fun w => w.getLsbD 50) = false ∧
    (commands (entryOf 0) []).drained 0 0 launch.tag 0 = false ∧ (commands (entryOf 0) []).refusal launch = 0 ∧ launch.snaps = false ∧
    (commands (entryOf 0) []).refusal { launch with entry := (entryOf 0).set 4 0 } = 1 ∧
    ({ commands (entryOf 0) [] with fns := [(0, { drains := [⟨0, 0, 1, 1, false⟩] })] } : State).drained 0 0 launch.tag 0 = true ∧
    ({ commands (entryOf 0) [] with fns := [(0, { drains := [⟨0, 0, 1, 1, true⟩] })] } : State).drained 0 0 launch.tag 0 = false := by decide +kernel

theorem witness_notify : (commands noopE []).barOpen 0 = true ∧ (commands noopE []).unmapping = [] ∧
    ({ commands noopE [] with unmapping := [(0, 1)] } : State).unmapping.contains (0, 1) = true ∧
    ({ commands noopE [] with unmapping := [(0, 1)] } : State).slot? 0 1 = none ∧ (commands noopE []).qcbAt 0 1 = some 0x63000 ∧
    (commands noopE []).fnEnabled 0 = true ∧ (commands noopE []).qcbAt 0 5 = none ∧ ((commands noopE []).qcbAt 0 0).isSome = true ∧
    (commands noopE []).hostQueues 0 = false ∧ ringCount 16 (slot 0 0 1).head ≤ privSize (slot 0 0 1).priv ∧
    privSize (slot 0 0 1).priv < ringCount 17 (slot 0 0 1).head ∧ (commands noopE []).slot? 0 1 = none ∧ (commands noopE []).misses.length < 512 ∧
    ({ commands noopE [] with fns := [(0, { mode := 2 })] } : State).hostQueues 0 = true := by decide +kernel

/-- The entry's word 0 written before the notify that covers it, and since (23 R360). -/
theorem test_entry_covers : let s := fun p => ({ commands noopE [] with order := [⟨0x62003, 7, false⟩], covers := [⟨0, 0, 0, 0⟩, ⟨0, 0, 1, p⟩, ⟨0, 0, 2, 1⟩] } : State)
    (s 0).coverPlace (slot 0 0 1) = 0 ∧ (s 1).coverPlace (slot 0 0 1) = 1 ∧ changesOf 0x62000 8 0 (s 0).order = [0] ∧
    changesOf 0x62000 8 1 (s 1).order = [] ∧ heldAt 0x62003 0 (s 0).order = some 7 ∧
    ((s 0).consume (slot 0 0 1)).covers = [⟨0, 0, 0, 0⟩, ⟨0, 0, 2, 1⟩] := by decide +kernel

/-- Queue 1 is not mapped: with its shadow's table where its QCB is not, so that they differ, and over its QCB itself. -/
def unmapped (shadow : Nat) : State := { commands noopE [] with
  mmio := [(0xA00, 0x60000), (0xA08, 2), (0xC00, 0x1000), (0x93000, BitVec.ofNat 64 shadow)], misses := [⟨3, 0, 1, 9⟩] }
theorem witness_misses : (unmapped 0).misses.find? (fun m => m.die == 3) = some ⟨3, 0, 1, 9⟩ ∧ (unmapped 0).misses.find? (fun m => m.die == 0) = none ∧
    (unmapped 0).overflow = [] ∧ (unmapped 0).slot? 0 1 = none ∧ (unmapped 0).qcbAt 0 1 = some 0x63000 ∧
    ((unmapped 0).qcbWord 0x63000 5).field 1 1 = 0 ∧
    (unmapped 0).qcbPriv 0x63000 ≠ (List.range 4).map ((unmapped 0).qcbWord (((unmapped 0).reg 0x93000).field 47 0 + 32)) ∧
    (unmapped 0x62FE0).qcbPriv 0x63000 = (List.range 4).map ((unmapped 0x62FE0).qcbWord (((unmapped 0x62FE0).reg 0x93000).field 47 0 + 32)) ∧
    ((unmapped 0x62FE0).slots.filter fun x => x.die == 0).length < 256 := by decide +kernel
/-- A miss of a queue mapped meanwhile, and one of a queue that may start on a die whose slots are all taken. -/
def fullDie : State := { unmapped 0 with misses := [⟨0, 0, 1, 9⟩], slots := List.replicate 256 (slot 0 0 1) }
theorem witness_misses_wait : ({ commands noopE [] with misses := [⟨0, 0, 0, 1⟩] } : State).slot? 0 0 = some (slot 0 0 1) ∧
    privSize (slot 0 0 1).priv < ringCount 17 (slot 0 0 1).head ∧ ringCount 1 (slot 0 0 1).head ≤ privSize (slot 0 0 1).priv ∧
    (unmapped 0).startable 0 5 = false ∧ ((unmapped 0).freeSlot 3).isSome = true ∧
    (let u := (fullDie.tailInMemory 0 1 9); u.startable 0 1 = true ∧ u.freeSlot 0 = none) := by decide +kernel
theorem witness_no_work : State.reset.misses.find? (fun m => m.die == 3) = none ∧ State.reset.overflow = [] ∧
    ∀ f q a, State.reset.qcbAt f q = some a → (State.reset.qcbWord a 5).field 0 0 = 0 :=
  ⟨rfl, rfl, fun f q a _ => by
    have z : ∀ k, State.reset.byte k = 0 := fun k => rfl
    rw [State.qcbWord, State.rawWord, State.rawRead, List.map_congr_left fun i _ => z _]
    decide⟩

/-- The ring: a request, one at its own die again, and a handover. -/
def ringed (m : Nat × RingMsg) : State := { commands noopE [] with ring := [m] }
theorem witness_steals : (commands noopE []).findsTeam 5 = false ∧ (commands noopE []).lapped = [] ∧ (∀ m ∈ (commands noopE []).ring, m.2.thief ≠ 5) ∧
    (ringed (3, .handover 3 0 1)).startable 0 1 = true ∧ (ringed (3, .handover 3 0 1)).slot? 0 1 = none ∧
    ((ringed (3, .handover 3 0 1)).freeSlot 3).isSome = true ∧
    (∀ x ∈ (commands noopE []).slots, x.die = 5 → (commands noopE []).slotReady x = false) ∧
    (commands noopE []).linkRoom 6 = true ∧ (ringed (0, .steal 3 0)).ring.find? (fun m => m.1 == 0) = some (0, .steal 3 0) ∧
    (ringed (0, .steal 3 0)).linkRoom 1 = true ∧ (ringed (0, .steal 3 0)).victim 0 3 = none ∧
    (ringed (0, .steal 0 0)).victim 0 0 = some (slot 0 0 1) ∧ (3 : Nat) ≠ 0 := by decide +kernel
def wide (s : State) : State := { s with mmio := (s.mmio.filter fun q => q.1 != 0x90000) ++ [(0x90000, BitVec.ofNat 64 (2 ^ 49 + 255 * 2 ^ 17))] }
theorem witness_handover : (wide (ringed (0, .steal 3 0))).victim 0 3 = some (slot 0 0 1) ∧
    (ringed (0, .handover 0 0 1)).ring.find? (fun m => m.1 == 0) = some (0, .handover 0 0 1) ∧
    (ringed (0, .handover 3 0 1)).ring.find? (fun m => m.1 == 0) = some (0, .handover 3 0 1) := by decide +kernel

/-- A die whose one queue has a team to place, in its first quantum; two such queues. -/
def twoQueues : State := { placing (commands noopE [slot1 0 1]) with launches := [(0, launch), (1, { launch with queue := 1 })] }
/-- One queue is mapped, and there is no table of queues. -/
def mapped : State := { placing paged with slots := [slot 0 0 1] }
theorem witness_quantum : (∀ q ∈ mapped.launches, q.2.dep = none) ∧ mapped.qcbWaiting = [] ∧
    (mapped.slot? launch.fn launch.queue).any (fun x => x.die == 0) = true ∧ mapped.launchOpen 0 launch = true ∧
    (mapped.findPlace launch.want).isSome = true := by decide +kernel
theorem not_listed {α : Type} : ∀ {m : Store α} {n : Nat}, (∀ q ∈ m, q.1 ≠ n) → m.find? n = none
  | [], _, _ => rfl
  | q :: r, n, h => by
    rw [Store.find?, if_neg fun e => h q (by simp) e.symm]
    exact not_listed fun x m => h x (by simp [m])
theorem no_table (f : Nat) : mapped.ffield f 0xA08 12 0 = 0 := by
  have h : ∀ q ∈ mapped.mmio, q.1 ≠ fnBase f + 0xA08 := by
    have : ∀ q ∈ mapped.mmio, q.1 ≠ 0xA08 ∧ q.1 < 0x1000000 := by decide +kernel
    intro q m
    have := this q m
    unfold fnBase
    split <;> omega
  have h : mapped.freg f 0xA08 = resetWord (fnBase f + 0xA08) := by
    rw [State.freg, State.reg, not_listed h]; rfl
  rw [State.ffield, h, resetWord]
  unfold fnBase
  by_cases e : f = 0
  · subst e; decide
  · rw [if_neg e, if_pos (by omega), show (0x1000000 + 0x40000 * f + 0xA08) % 0x40000 = 0xA08 by omega]; decide
theorem witness_aborted (f q : Nat) : mapped.aborted f q = false := by
  simp [State.aborted, State.qcbAt, no_table]
theorem witness_weights : twoQueues.served (slot 0 0 1) = true ∧ slot1 0 1 ∈ twoQueues.runList ∧ (slot1 0 1).die = (slot 0 0 1).die ∧
    (slot1 0 1).is 0 0 = false ∧ twoQueues.slotReady (slot1 0 1) = true ∧ twoQueues.slots[1]? = some (slot1 0 1) := by decide +kernel

theorem witness_controls : (commands noopE []).barOpen 0 = true ∧ (completing 0).pstat 0 ≠ 2 ∧ (completing 0).launches.find? 0 = some { launch with todo := [] } ∧ launch.ended = none ∧
    (commands noopE []).slot? 0 (bitsN (BitVec.toNat (0#64)) 15 0) = some (slot 0 0 1) ∧
    ((commands noopE []).qcbAt 0 (bitsN (BitVec.toNat (0#64)) 15 0)).isSome = true ∧ (commands noopE []).qcbAt 0 1 = some 0x63000 ∧
    (commands noopE []).isContinuation 0 0 = false ∧ (commands noopE [slot1 0 0]).isContinuation 0 1 = true ∧
    (commands noopE [slot1 0 0]).slot? 0 1 = some (slot1 0 0) := by decide +kernel

/-! Partitions: a marker at 0x4000 whose descriptor is at 0x4040; function 0 is being pre-empted -/

def exitDesc1 : List Word := [0x8000, 0x9000, 2, 0, 0, 0, 0, 0]
def preempting (P : Split) (more : Store Gang := []) : Cx :=
  let s : State := { paged with
    mem := paged.mem ++ cells 0x4000 [BitVec.ofNat 64 (4 * 2 ^ 60 + 0x00FFFF0000000000), encode (.region ⟨c0, .v 0, .v 0, 0, 8⟩)] ++ cells 0x4040 exitDesc1
    mmio := [(0xB38, 2), (0xC00, 0x1000), (0x70000, BitVec.allOnes 64)] }
  ⟨{ run s P with cur := none, gangs := (0, { gang with splits := [(0, P)] }) :: more }, 0, 0, { gang with splits := [(0, P)] }, P⟩
theorem witness_vectoring : let c := preempting standing
    c.s.cx? 0 0 = some c ∧ c.s.cur = none ∧ c.s.pstat c.G.fn = 2 ∧ c.P.saved = false ∧ c.P.rstate = 0 ∧ c.G.ops = [] ∧ c.P.member ≠ 0 ∧
      c.P.late = [] ∧ c.P.wonly = false ∧ c.P.parked = none ∧ c.P.reachable = true ∧
      c.fetch c.regionHeader = .ok ⟨BitVec.ofNat 64 (4 * 2 ^ 60 + 0x00FFFF0000000000), [encode (.region ⟨c0, .v 0, .v 0, 0, 8⟩)], exitDesc1⟩ ∧
      c.fetchHeld c.P.pc = false ∧ c.fetchHeld c.P.region = false ∧ c.P.closed = false ∧
      isMarker (encode (.region ⟨c0, .v 0, .v 0, 0, 8⟩)) = true ∧
      descOk c.G.vregs (descAddr c.regionHeader (encode (.region ⟨c0, .v 0, .v 0, 0, 8⟩))) exitDesc1 = true :=
  ⟨rfl, rfl, by decide +kernel, rfl, rfl, rfl, by decide, rfl, rfl, rfl, rfl, by decide +kernel, by decide +kernel, by decide +kernel,
    rfl, by decide +kernel, by decide +kernel⟩
/-- Its region closed, and at a clause that is no marker. -/
def closedSplit : Split := { standing with pc := 0x4100, region := 0x4000, closed := true }
theorem witness_closed : let P := closedSplit
    let s : State := { (preempting P).s with mem := (preempting P).s.mem ++ cells 0x4100 [0x00FFFF0000000000, 0x0780000000000000] }
    let c : Cx := ⟨s, 0, 0, { gang with splits := [(0, P)] }, P⟩
    c.s.cx? 0 0 = some c ∧ c.P.closed = true ∧ c.fetchHeld c.P.pc = false ∧ c.fetchHeld c.P.region = false ∧ c.P.rstate = 0 ∧ c.P.reachable = true ∧
      c.fetch c.P.pc = .ok ⟨0x00FFFF0000000000, [0x0780000000000000], []⟩ ∧ isMarker 0x0780000000000000 = false :=
  ⟨rfl, rfl, by decide +kernel, by decide +kernel, rfl, rfl, by decide +kernel, by decide +kernel⟩
def waitOnly : Split := { standing with wonly := true }
theorem witness_wait_only : let c := preempting waitOnly [(1, { gang with splits := [(0, standing)] })]
    c.s.cx? 0 0 = some c ∧ c.s.pstat 0 = 2 ∧ ∃ r ∈ c.s.gangsOf c.G.fn, r.1 ≠ c.g ∧ ∃ q ∈ r.2.splits, q.2.saved = false :=
  ⟨rfl, by decide +kernel, (1, { gang with splits := [(0, standing)] }), by decide, by decide, (0, standing), by decide, rfl⟩
def overrunning : Cx := preempting { standing with rstate := 1 }
theorem witness_overrun : overrunning.s.cx? 0 0 = some overrunning ∧ overrunning.P.rstate = 1 ∧
    (∀ q ∈ overrunning.G.splits, q.1 ≠ 0 → q.2.rstate ≠ 1) ∧ (overrunning.G.splits.map (·.1)).Nodup ∧
    overrunning.s.hasLog overrunning.G.fn = false ∧ overrunning.s.stopped overrunning.G.fn = false ∧ overrunning.s.pstat overrunning.G.fn = 2 ∧ overrunning.s.launches.find? 0 = some {} :=
  ⟨rfl, rfl, by decide, by decide, by decide +kernel, by decide +kernel, by decide +kernel, rfl⟩

/-- Function 0 keeps a log of 1 MiB at 0x10_0000, with CKPERIOD; a running gang, in its exit routine or not. -/
def logging (P : Split) (ck : Option Ckpt := none) (close : Close := .none) : State := { run paged P with
  mmio := [(0xB00, 0x100000), (0xB08, 1), (0xB20, 1000), (0xC00, 0x1000)]
  cur := none, fns := [(0, { ckpt := ck, close := close })] }
theorem witness_close : (logging lane0).hasLog 0 = true ∧ (logging lane0).closable 0 = true ∧ (logging lane0).closeDue 0 = true ∧
    (logging lane0 (some {})).closeDue 0 = false ∧ (logging lane0).ffield 0 0xB20 31 0 ≠ 0 ∧ (logging exiting).closable 0 = false ∧
    ({ logging lane0 with mmio := [(0xB08, 1)] } : State).ffield 0 0xB20 31 0 = 0 ∧ ({ logging lane0 with mmio := [(0xB08, 1)] } : State).hasLog 0 = true := by
  decide +kernel
/-- A close with nothing in progress, one that waits on a cpyred, and one whose operation is not over. -/
def busyLog : State := { logging lane0 with copies := (copying 1).copies.map fun q => (q.1, { q.2 with kind := .reduce 0 false }) }
def askingLog : State := logging { lane0 with wait := some .checkpoint } none .performing
theorem witness_close_states : ((logging lane0).fn 0).close = .none ∧ (logging lane0).closeWaits 0 = false ∧ (logging lane0).pstat 0 = 0 ∧
    busyLog.hasLog 0 = true ∧ (busyLog.fn 0).close = .none ∧ busyLog.closable 0 = true ∧ busyLog.closeDue 0 = true ∧ busyLog.closeWaits 0 = true ∧
    ((busyLog.startClose 0).fn 0).close = .waiting ∧ (busyLog.startClose 0).closeWaits 0 = true ∧
    (logging lane0 none .waiting).closeWaits 0 = false ∧ ((logging lane0 none .waiting).fn 0).close = .waiting ∧
    askingLog.joined 0 = true ∧ (logging lane0 none .performing).joined 0 = false ∧
    (logging exiting).stopped 0 = false ∧ (logging lane0 none .waiting).stopped 0 = true := by decide +kernel
theorem witness_close_late : ∀ g sp c, (logging lane0).cx? g sp = some c → c.P.late = [] := by
  intro g sp c h
  rw [State.cx?, logging, run] at h
  by_cases hg : g = 0
  · by_cases hs : sp = 0
    · subst hg; subst hs
      exact (Option.some.inj h) ▸ rfl
    · simp [Store.find?, hg, hs] at h
  · simp [Store.find?, hg] at h

/-- PREQ: gangs with save blocks, no gang; PSTAT 3 with a checkpoint; PSTAT 4 with a saved team of one gang. -/
def asked (G : Store Gang) : State := { paged with gangs := G }
theorem witness_preq : (asked [(0, { gang with save := 0x80000 })]).tsGroup 0 = 0 ∧ (asked [(0, { gang with save := 0x80000 })]).pstat 0 = 0 ∧
    (asked [(0, { gang with save := 0x80000 })]).stopped 0 = false ∧ (asked []).stopped 0 = false ∧ (asked []).tsGroup 0 = 0 ∧
    (asked [(0, { gang with save := 0x80000 })]).gangsOf 0 ≠ [] ∧ (∀ q ∈ (asked [(0, { gang with save := 0x80000 })]).gangsOf 0, q.2.save ≠ 0) ∧
    (asked [(0, { gang with save := 0x80000 })]).ffield 0 0xB28 32 32 = 0 ∧ (asked []).gangsOf 0 = [] ∧ (asked []).pstat 0 = 0 ∧
    ({ paged with mmio := [(0x3E038, 0)] } : State).masked 0 3 = false ∧
    (∃ q ∈ (asked [(0, { gang with save := 0x80000, splits := [(0, lane0)] })]).gangsOf 0, ∃ r ∈ q.2.splits, r.2.saved = false) ∧
    (∃ q ∈ (asked [(0, gang)]).gangsOf 0, q.2.save = 0) ∧ (asked [(0, gang)]).hasLog 0 = false := by
  refine ⟨by decide +kernel, by decide +kernel, by decide +kernel, by decide +kernel, by decide +kernel, by decide +kernel, by decide +kernel,
    by decide +kernel, by decide +kernel, by decide +kernel, by decide +kernel, ⟨_, .head _, _, .head _, rfl⟩, ⟨_, .head _, rfl⟩, by decide +kernel⟩
/-- PMODE 1: with a checkpoint, and without. -/
theorem witness_preq_pmode : let s := fun (k : Option Ckpt) => ({ logging lane0 k with
      mmio := [(0xB00, 0x100000), (0xB08, 1), (0xB28, 2 ^ 32), (0xC00, 0x1000)] } : State)
    (s none).ffield 0 0xB28 32 32 = 1 ∧ (s none).pstat 0 = 0 ∧ (s none).stopped 0 = false ∧ (s (some {})).hasLog 0 = true ∧
    ((s (some {})).fn 0).ckpt.isSome = true ∧ ((s none).fn 0).ckpt = none := by decide +kernel
def markOf : Ckpt := { gangs := [(0, gang)] }
def rolledBack : State := { run paged lane0 with cur := none, mmio := [(0xB38, 3)], fns := [(0, { ckpt := some markOf, rolling := true })] }
theorem witness_rolldone : (rolledBack.fn 0).ckpt = some markOf ∧ (rolledBack.fn 0).rolling = true ∧ rolledBack.pstat 0 = 3 ∧
    ∀ q ∈ markOf.gangs, ∃ l, rolledBack.launches.find? q.2.launch = some l ∧ l.completed = false :=
  ⟨by decide +kernel, by decide +kernel, by decide +kernel, fun q h => by
    obtain rfl : q = (0, gang) := by simpa [markOf] using h
    exact ⟨{}, rfl, rfl⟩⟩
def savedOne : Saved := { hardware := true, gangs := [(0, { gang with splits := [(0, lane0)] })], teams := [(0, { team with window := 0 })] }
def savedState (s : State) : State := { s with
  mmio := [(0xB38, 4), (0xC00, 0x1000)] ++ s.mmio.filter fun q => 0x1000 < q.1, fns := [(0, { saved := some savedOne })] }
theorem witness_presume : (savedState (placing paged)).pstat 0 = 4 ∧ (savedState (placing paged)).offTurn 0 = false ∧
    (let x := (savedState (placing paged)).loadSaved 0; (savedState (placing paged)).restoreTeams 0 x x.teams [] ≠ none) ∧
    (let x := (savedState { paged with mmio := [] }).loadSaved 0; (savedState { paged with mmio := [] }).restoreTeams 0 x x.teams [] = none) := by
  decide +kernel
theorem witness_restore : (placing paged).launches.find? 0 = some launch ∧
    (placing paged).placeOk (savedOne.want launch.fe 0 0 { team with window := 0 }) seat0 = true ∧ savedOne.hardware = true ∧
    (savedOne.gangs.filter fun q => q.2.team == 0) = [(0, { gang with splits := [(0, lane0)] })] := by decide +kernel

/-- Time-slice group 1 with functions 0 and 1, whose launches wait; the holder, 0, runs, is saved, is no member. -/
def sharing (st : Nat) (hold : Nat) (G : Store Gang := []) : State := { paged with
  parts := [(0, [BitVec.ofNat 64 (2 ^ 63 + 2 ^ 48), 0, 0, 0, 0, 0, 0, 0]), (1, [BitVec.ofNat 64 (2 ^ 63 + 2 ^ 48), 0, 0, 0, 0, 0, 0, 0])]
  vfEnable := true, numVFs := 1, gangs := G
  launches := [(0, { launch with fn := 1 })]
  mmio := [(0xB38, BitVec.ofNat 64 st), (0xC00, 0x1000), (0x42008, BitVec.ofNat 64 (hold * 2 ^ 24)), (0x70000, BitVec.allOnes 64)
          , (0x90000, BitVec.ofNat 64 (2 ^ 50 + 2 ^ 49 + 31 * 2 ^ 17))] }
def G80 : Store Gang := [(0, { gang with save := 0x80000 })]
/-- The same, its holder's turn of one quantum spent. -/
def spent (s : State) : State := { s with turnsUsed := [(1, 1)] }
theorem witness_turns : (sharing 0 1).nextMember 1 ((sharing 0 1).holder 1) = none ∧ (sharing 0 0 G80).nextMember 1 ((sharing 0 0 G80).holder 1) = some 1 ∧
    0 ∈ (sharing 0 0 G80).members 1 ∧ (sharing 0 0 G80).pstat 0 = 0 ∧ ((sharing 0 0 G80).preempt 0).pstat 0 ≠ 4 ∧
    (sharing 4 0).nextMember 1 ((sharing 4 0).holder 1) = some 1 ∧ (sharing 4 0).pstat 0 = 4 ∧ (sharing 4 0).pstat 1 ≠ 4 ∧
    (sharing 0 9).nextMember 1 ((sharing 0 9).holder 1) = some 1 ∧ 9 ∉ (sharing 0 9).members 1 ∧
    (spent (sharing 0 0 G80)).nextMember 1 0 = some 1 ∧ (spent (sharing 0 0 G80)).holder 1 = 0 ∧
    max 1 (((spent (sharing 0 0 G80)).reg (0x42100 + 8 * 0)).field 15 0) ≤ Store.get 0 (spent (sharing 0 0 G80)).turnsUsed 1 ∧
    (sharing 0 0 G80).turnsUsed = [] ∧ (((sharing 0 0 G80).fn 0).turnedOut = false) := by decide +kernel
/-- The holder, or a member that does not hold, is switched out; no other member waits. -/
def switched (st hold : Nat) : State := { sharing st hold with launches := [], fns := [(0, { turnedOut := true })] }
theorem witness_switched : (switched 4 0).nextMember 1 0 = none ∧ (switched 4 0).pstat 0 = 4 ∧ (switched 2 0).pstat 0 ≠ 4 ∧
    (switched 2 0).nextMember 1 0 = none ∧ ((switched 4 0).fn 0).turnedOut = true ∧ 0 ∈ (switched 4 0).members 1 ∧
    (switched 4 1).pstat 0 = 4 ∧ (switched 4 1).offTurn 0 = true := by decide +kernel

def recorded (w0 : Nat) (f : Nat) : State := { paged with mmio := [(0x40000 + 64 * f, BitVec.ofNat 64 w0)] }
theorem witness_commit : (recorded (2 ^ 63) 0).commitError 0 ((recorded (2 ^ 63) 0).recordRegs 0) = 0 ∧ recEn ((recorded (2 ^ 63) 0).recordRegs 0) = true ∧
    (recorded (2 ^ 63 + 2 ^ 62) 0).commitError 0 ((recorded (2 ^ 63 + 2 ^ 62) 0).recordRegs 0) ≠ 0 ∧
    (recorded 0 3).commitError 3 ((recorded 0 3).recordRegs 3) = 0 ∧ recEn ((recorded 0 3).recordRegs 3) = false ∧
    (recorded 0 0).commitError 0 ((recorded 0 0).recordRegs 0) = 0 ∧ recEn ((recorded 0 0).recordRegs 0) = false ∧
    recEn ((recorded 0 0).partRecord 0) = false ∧ recEn (({ recorded 0 0 with parts := [(0, [BitVec.ofNat 64 (2 ^ 63)])] } : State).partRecord 0) = true ∧
    (let s := { sharing 0 0 with mmio := [(0x40000, BitVec.ofNat 64 (2 ^ 63)), (0x42008, 0)] }
     recGroup (s.recordRegs 0) ≠ s.tsGroup 0 ∧ s.tsGroup 0 ≠ 0 ∧ s.holder (s.tsGroup 0) = 0) := by decide +kernel
def feOnW : BitVec 64 := BitVec.ofNat 64 (2 ^ 49 + 31 * 2 ^ 17)
theorem witness_front_end : feOnW.getLsbD 49 = true ∧ State.reset.frontEndBad 0 feOnW = true ∧ (fronted paged).frontEndBad 1 feOnW = false ∧
    (fronted paged).feOn 1 = false ∧ (fronted paged).feOn 0 = true ∧ (0#64).getLsbD 49 = false := by decide +kernel
theorem witness_disable : State.reset.vfEnable = false ∧ ({ State.reset with vfEnable := true, numVFs := 1 } : State).numVFs = 1 := by decide
theorem witness_registers : State.reset.barOpen 0 = true ∧ State.reset.barOpen 5 = false ∧ 0xC00 ∉ [0xA28, 0xB00, 0xB08, 0xB10, 0xB18] ∧ State.reset.launches = [] ∧ 0xC00 < 0x3E000 := by
  decide +kernel

/-! A register written with what it holds is an item of the log all the same (19 R306). -/
theorem test_log_rewritten : (let i : Instr := .smovi ⟨c0, .b32, .s 5, .v 0, 0, 0⟩
    let x := State.reset.withFetchWord 64 (encode i).toNat
    let t := nextOf i x
    t.gangs.map (fun q => q.2.splits.map fun r => r.2.sreg 5) = [[0]] ∧ x.rewritten t 0 = [.sreg 0 0 5]) := by decide +kernel

/-! Caches, windows, pinned regions, agents -/

def flushing (b : Nat) : State := { State.reset with mmio := [(0x908, BitVec.ofNat 64 (b * 2 ^ 16))], fns := if b = 0 then [] else [(0, { flush := some 3 })] }
theorem witness_flush : (flushing 0).barOpen 0 = true ∧ (flushing 1).ffield 0 0x908 16 16 = 1 ∧ (flushing 0).ffield 0 0x908 16 16 ≠ 1 ∧ ((flushing 0).fn 0).flush = none ∧
    ((flushing 1).fn 0).flush = some 3 ∧ (3 % 2 ^ 16 ≠ 0) ∧ ((flushing 1).bricks.map (·.tag)).Nodup := by decide +kernel

/-- Window 0's registers: a view of `size` bytes at 0x1_0000 of format `f`, sparse or not. -/
def windowWords (base size f sp : Nat) : List Word := [BitVec.ofNat 64 (2 ^ 63 + base), BitVec.ofNat 64 (sp * 2 ^ 54 + f * 2 ^ 48 + size), 0, 0]
def settingOf (ws : List Word) : State := { State.reset with mmio := ws.zipIdx.map fun q => (0x80000 + 8 * q.2, q.1) }
def windowOf (base size f : Nat) : Window :=
  { base := base, size := size, owner := 0, wtag := 0, fmt := f, twin := false, sparse := false, scale := 0, store := 0 }
theorem witness_windows : (settingOf (windowWords 0x10000 0x1000 0 0)).wcommit = none ∧
    Window.ofWords ((settingOf (windowWords 0x10000 0x1000 0 0)).windowRegs 0) = some (windowOf 0x10000 0x1000 0) ∧
    Window.ofWords ((settingOf (windowWords 0x10001 0x1000 0 0)).windowRegs 0) = some (windowOf 0x10001 0x1000 0) ∧ 0x10001 % 4096 ≠ 0 ∧
    Window.ofWords ((settingOf (windowWords 0x10000 0x1000 18 0)).windowRegs 0) = some (windowOf 0x10000 0x1000 18) ∧ 17 < 18 ∧
    (settingOf (windowWords 0x10000 0x1000 0 0)).windowError 0 (windowOf 0x10000 0x1000 0) = 0 ∧
    (settingOf (windowWords 0x10000 0x1000 1 0)).windowError 0 (windowOf 0x10000 0x1000 1) ≠ 0 ∧
    Window.ofWords (State.reset.windowRegs 0) = none ∧
    (let s : State := { State.reset with wcommit := some (0, windowWords 0x10000 0x1000 0 0) }
     s.wcommit = some (0, windowWords 0x10000 0x1000 0 0) ∧ s.hostWaits = [] ∧ s.coreWaits = [] ∧ s.umWaits = []) := by
  decide +kernel

/-- Pinned region 0: 4096 bytes at 0x1_0000, too large, and over region 1; none is enabled, or region 1. -/
def pins (size : Nat) (other : Bool) : State := { State.reset with
  mmio := [(0x89000, 0x10000), (0x89008, BitVec.ofNat 64 size)] ++ if other then [(0x89010, BitVec.ofNat 64 (2 ^ 63 + 0x10000)), (0x89018, 0x1000)] else [] }
theorem witness_pins : ((pins 0x1000 false).pinRegion 0).1 = false ∧ (pins 0x1000 false).otherPins 0 = [] ∧
    (∀ i, i < 12 → Fuse.full.sliceBytes i 0x10000 0x1000 ≤ 32 * 2 ^ 20) ∧ ¬ (∀ i, i < 12 → Fuse.full.sliceBytes i 0x10000 (2 ^ 30) ≤ 32 * 2 ^ 20) ∧
    (pins 0x1000 true).otherPins 0 = [(0x10000, 0x1000)] ∧ rangesMeet (0x10000, 0x1000) (0x10000, 0x1000) = true := by decide +kernel

def sparseTag : BrickTag := ⟨0, 0, 0, 512⟩
def sparseLine : State := { State.reset with mem := [(0x10000, 1)], windows := [(0, windowWords 0x10000 0x1000 0 1)] }
theorem witness_fill : State.reset.windows = [] ∧ sparseTag.tid = 0 ∧ sparseLine.bricks = [] ∧
    sparseLine.windowIndex (brickAddr sparseTag) = some (0, { windowOf 0x10000 0x1000 0 with sparse := true }) ∧
    sparseLine.rowKeys sparseTag = 0x10000 :: (sparseLine.rowKeys sparseTag).tail ∧ keySpace 0x10000 = 0 ∧
    keptCount 0 ((List.range 32).map fun i => sparseLine.byte (0x10000 + i)) = 63 ∧
    keptCount 0 ((List.range 32).map fun i => State.reset.byte (0x10000 + i)) = 0 := by decide +kernel
def cached (m : Bool) : Brick := { tag := sparseTag, key := 0x10000, data := List.replicate 128 7, oob := [], modified := m }
def caching (m pin : Bool) : State := { State.reset with bricks := [cached m], mmio := if pin then [(0x89000, BitVec.ofNat 64 (2 ^ 63 + 0x10000)), (0x89008, 0x1000)] else [] }
theorem witness_evict : (caching true false).brickAt sparseTag = some (cached true) ∧ (caching true false).pinned sparseTag = false ∧
    (caching true true).pinned sparseTag = true ∧ (caching false false).brickAt sparseTag = some (cached false) ∧ (caching true false).inUse (cached true) = false ∧
    (let w := { windowOf 0x10000 0x1000 1 with store := 0x80000 }
     let ws := [BitVec.ofNat 64 (2 ^ 63 + 0x10000), BitVec.ofNat 64 (2 ^ 48 + 0x1000), 0, 0x80000]
     ({ caching true false with windows := [(0, ws)] } : State).windowAt (cached true).key = some w) := by decide +kernel
/-- The last-level cache takes a line; its function's share of a slice; a brick it holds that no byte of differs from memory. -/
theorem witness_allocate : let here := fun (t : State) => (t.llc.filter fun q => t.homeSlice q.2 == t.homeSlice 0x10000).length
    here sparseLine ≤ llcBricks ∧ (sparseLine.llc.any fun q => q.1 == sparseTag) = false ∧ here sparseLine < min llcBricks (sparseLine.llcShare 0).2 ∧
    (let s : State := { State.reset with llc := [(sparseTag, 0x10000)] }
     s.brickAt sparseTag = none ∧ (s.llc.find? fun q => q.1 == sparseTag) = some (sparseTag, 0x10000) ∧ s.pinned sparseTag = false ∧
       s.inUse { tag := sparseTag, key := 0x10000 } = false) ∧
    (∀ q ∈ (caching true false).llc, q.1 = sparseTag → q.2 = 0x10000) := by decide +kernel
/-- A flush of tensor 3 with one brick of it that a store modified. -/
def storedBrick : Brick := { cached true with tag := { sparseTag with tid := 3 } }
theorem witness_flush_brick : (let s : State := { flushing 1 with bricks := [storedBrick] }
     (s.bricks.map (·.tag)).Nodup ∧ s.bricks.filter (fun b => b.tag.func == 0 && (b.tag.tid == 3 || b.tids.contains 3)) = [storedBrick] ∧
       storedBrick.modified = true) := by decide +kernel

theorem witness_colours : 16 < Fuse.full.banks.getD 7 0 ∧ 5 < Fuse.full.colourLines 7 ∧ Fuse.full.colourBank 7 500 = 11 := by decide +kernel

def agentAt (op : AgentOp) : AgentAccess := { op := op, addr := 0x40000, size := 8, data := 5 }
theorem witness_chiplet : paged.agentOk (agentAt .load) = true ∧ paged.agentOk (agentAt (.cas 0)) = true ∧ (paged.reg 0x70000).field 37 37 = 1 ∧
    paged.heldKey 0x40000 = false ∧ (paged.reg 0x60000).field 31 0 ≠ 0 ∧ ({ State.reset with mmio := [(0x60000, 0)] } : State).reg 0x60000 = 0 ∧
    0x40000 < State.reset.fuse.hbmBytes ∧ State.reset.ranges = [] ∧ State.reset.contested = [] := by decide +kernel
theorem witness_chiplet_plain : PlainMemory paged ∧ OffAperture 0x40000 8 := ⟨⟨rfl, rfl⟩, .inl (by decide)⟩

/-! The service of faults: a split of function 0 parked under token 77 with a fault of a code -/

def faultOf (code addr : Nat) (exts : List (List Word) := []) : FaultInfo :=
  { code := code, orig := code, addr := addr, acc := 1, elem := 0, fmask := 1, lane := 0, pc := 0x1008, hdr := 0x1000, left := 1, exts := exts }
def parkOf (code : Nat) (hw : Bool) (exts : List (List Word) := []) : FaultPark :=
  { token := 77, info := faultOf code 0x40123000 exts, logAt := 0x8000, queued := none, hardware := hw, extAt := some 0x50000 }
def parkedC (s : State) (p : FaultPark) (i : Instr := .nop ⟨c0, .v 0, .v 0, 0, 0⟩) (more : Nat := 1) : Cx :=
  let P : Split := { lane0 with parked := some (.fault p), clause := some { clause2 with words := encode i :: List.replicate more 0, stop := more + 1 } }
  ⟨{ run s P with cur := none }, 0, 0, { gang with splits := [(0, P)] }, P⟩
theorem parked_here (s : State) (p : FaultPark) (i : Instr) (h : p.token = 77) (g : s.fns = []) :
    ParkedHere (parkedC s p i).s (parkedC s p i) 0 77 p := by
  refine ⟨?_, rfl, rfl, h, rfl, ?_⟩
  · simp [State.parkedAt, parkedIn, parkedC, run, gang, h]
  · simp [State.fn, parkedC, run, g]; rfl
theorem witness_parked : (parkedC served (parkOf 0x05 false)).s.parkedAt 0 77 = some (0, 0, parkOf 0x05 false) ∧ (0x05 : Nat) ∉ [0x20, 0x21, 0x0C] ∧
    (parkOf 0x20 false).info.code = 0x20 ∧ paged.parkedAt 0 77 = none := by decide +kernel
theorem witness_parked_steady : Steady (parkedC served (parkOf 0x20 false)) ∧ served.barOpen 0 = true ∧
    (let c := parkedC served (parkOf 0x20 false) (.trap ⟨c0, .v 0, .v 0, 0, 7⟩) 0; AtLast c ∧ c.G.splits.keys = [c.sp]) :=
  ⟨⟨rfl, _, rfl, by decide⟩, rfl, ⟨rfl, _, rfl, by decide⟩, rfl⟩
def extRec : List Word := [BitVec.ofNat 64 (3 * 2 ^ 32), 0x40000, 5, 0, 0, 0, 0, 0]
def atomicI : Instr := .atadd ⟨c0, .i32, .v 5, .s 6, 0, 0, 0, 0⟩
theorem witness_atomns_last : let c := parkedC served (parkOf 0x0C true [extRec]) atomicI 0
    AtLast c ∧ c.G.splits.keys = [c.sp] ∧ c.atomicForm? = some ⟨c0, .i32, .v 5, .s 6, 0, 0, 0, 0⟩ ∧
      c.s.extOlds 0 (parkOf 0x0C true [extRec]) = [(3, 0)] := ⟨⟨rfl, _, rfl, by decide⟩, rfl, by decide +kernel, by decide +kernel⟩
theorem witness_atomns : (parkedC served (parkOf 0x0C true [extRec]) atomicI).atomicForm? = some ⟨c0, .i32, .v 5, .s 6, 0, 0, 0, 0⟩ ∧
    (parkedC served (parkOf 0x0C true [extRec]) atomicI).s.extOlds 0 (parkOf 0x0C true [extRec]) = [(3, 0)] ∧ ETy.i32.is64 = false ∧
    served.translate 0 (extRec.getD 1 0).toNat .atomic = .ok ⟨0x40000, 0x2000, 0xF, 2 ^ 30⟩ ∧ (extRec.getD 0 0).field 63 56 ≤ 1 := by decide +kernel

def waitingRecord : Split := { lane0 with wait := some (.faultQueue (faultOf 0x05 0)) }
def retrying : Cx := ⟨{ run paged waitingRecord { gang with fn := 1 } with cur := none }, 0, 0, { gang with fn := 1, splits := [(0, waitingRecord)] }, waitingRecord⟩
theorem witness_retry : retrying.G.fn = 1 ∧ retrying.s.cur = none ∧ retrying.s.gangs = [(0, retrying.G)] ∧ retrying.G.splits = [(0, retrying.P)] ∧
    retrying.s.cx? 0 0 = some retrying ∧ retrying.P.wait = some (.faultQueue (faultOf 0x05 0)) ∧ retrying.P.parked = none := ⟨rfl, rfl, rfl, rfl, rfl, rfl, rfl⟩

/-- A demand-zero page at 0x4012_3000: its entry at 0x5_0918, the pool's one page 0x9_0000. -/
def zeroing : State := { paged with
  mem := [(0x1000, 1), (0x1001, 0x20), (0x2000, 0xF), (0x2008, 1), (0x2009, 0x30), (0x3000, 1), (0x3002, 5), (0x50918, 0x80), (0x60002, 9)]
  mmio := [(0xC00, 0x1000), (0xC60, 0x60000), (0xC68, 1), (0x70000, BitVec.allOnes 64)] }
theorem witness_demand_zero : (parkedC zeroing (parkOf 0x05 true)).s.demandZero 0 (parkOf 0x05 true).info.addr = some 0x50918 ∧
    zeroing.ffield 0 0xC68 31 0 = 1 ∧ (zeroing.rawWord 0x60000).toNat / 4096 * 4096 % 2 ^ 48 = 0x90000 ∧ 0x50918 + 8 ≤ 0x90000 ∧
    0x90000 + 4096 ≤ aperture := by decide +kernel
theorem witness_space : (parkedC served (parkOf 0x0A true)).spaceFreed 0x0A = true ∧
    (parkedC { served with spawnUsed := [(0, 0x400000)] } (parkOf 0x0A true)).spaceFreed 0x0A = false := by decide +kernel

def invalidating (n : Nat) : State := { State.reset with mmio := [(0xC40, 1)], fns := [(0, { inval := some 5 })], gathers := [(n, ⟨0, 0, 0⟩)] }
theorem witness_invalidations : State.reset.barOpen 0 = true ∧ (invalidating 9).ffield 0 0xC40 0 0 = 1 ∧ State.reset.ffield 0 0xC40 0 0 ≠ 1 ∧ ((invalidating 9).fn 0).inval = some 5 ∧
    (invalidating 9).performedBefore 0 5 = true ∧ (invalidating 3).performedBefore 0 5 = false := by decide +kernel

/-- A call of lane 0 with tag 0, CALLID 9; its completion record at 0x7_0000, result words 3 and 0. -/
def callOf : CallPark := { callid := 9, tags := [(0, 0)], dst := 8, results := 2, pred := 1, waiting := maskOf (· == 0), answers := [] }
def called : Split := { atEnd with parked := some (.call callOf) }
def answering (P : Split) : Cx :=
  let s : State := { paged with
    mem := paged.mem ++ [(0x70000, 9), (0x70010, 3)]
    mmio := [(0x808, 0x70000), (0x820, 1), (0xC00, 0x1000), (0x70000, BitVec.allOnes 64)] }
  ⟨{ run s P with cur := none }, 0, 0, { gang with splits := [(0, P)] }, P⟩
theorem witness_answer : let c := answering called
    c.s.gangs = [(0, c.G)] ∧ c.s.cur = none ∧ c.G.splits = [(0, c.P)] ∧ c.s.cx? 0 0 = some c ∧ AtLast c ∧ c.P.saved = false ∧
      (c.s.fn 0).saved = none ∧ (c.s.fn 0).ckpt = none ∧ c.P.parked = some (.call callOf) ∧ callOf.waiting = maskOf (· == 0) :=
  ⟨rfl, rfl, rfl, rfl, ⟨rfl, _, rfl, by decide⟩, rfl, rfl, rfl, rfl, rfl⟩
theorem witness_answer_record : (answering called).s.completions 0 = 1 ∧ (answering called).s.translate 0 0x70000 .read = .ok ⟨0x70000, 0x2000, 0xF, 2 ^ 30⟩ ∧
    (answering called).s.heldVa 0 0x70000 = false ∧ word64 (answering called).s 0x70000 = 9 ∧ word64 (answering called).s 0x70008 = 0 ∧
    (answering lane0).P.parked = none ∧ paged.completions 0 = 0 := by decide +kernel

/-! Host ports, bias, Umermash -/

theorem witness_ports : State.reset.failed.contains (38 + 1) = false ∧ (State.reset.reg 0x70008).field 1 1 = 0 ∧
    (∀ p ∈ ({ State.reset with ports := [some .cxl, none] } : State).ports.set 1 (some .absent), p.isSome = true) ∧
    ({ State.reset with mmio := [(0x70008, 2)] } : State).reg 0x70008 = 2 ∧ State.reset.onPort 0 = [] ∧ State.reset.hostOps = [] ∧
    some .absent ∈ State.reset.ports.set 1 (some .absent) ∧
    (none ∈ State.reset.ports.set 1 (some .cxl) ∧ some .absent ∉ State.reset.ports.set 1 (some .cxl)) := by decide +kernel
/-- A copy of launch 1 that reads the memory of host port 0. -/
def portCopy : CopyOp :=
  { g := 0, fn := 0, team := 0, launch := 1, cluster := 0, class_ := 0, kind := .move false, ty := .b32, twin := false
    moves := [{ move1 with src := .key (2 ^ 48) }], fills := [], point := 1, committed := false }
def portBusy : State := { paged with copies := [(3, portCopy)], launches := [(1, launch)] }
theorem witness_link_down : portBusy.onPort 0 = [1] ∧ portBusy.hostOps = [] ∧ portBusy.launches.find? 1 = some launch ∧ launch.ended = none := by decide +kernel

/-- Two HDM pages at 0x10_0000, the bias table at 0x4_0000: page 1 in device bias. -/
def hdm (fl : Option (Nat × Bool)) : State := { State.reset with
  mem := [(0x40000, 2)], flip := fl, ports := [some .cxl, none]
  mmio := [(0x3E058, 0), (0x58000, 0x40000), (0x58008, 0x100000), (0x58010, 0x20000), (0x70000, BitVec.allOnes 64)] }
theorem witness_bias : (hdm none).hdmPages = 2 ∧ (1#36).toNat < (hdm none).hdmPages ∧ ((hdm none).reg 0x58020).field 0 0 ≠ 1 ∧
    (hdm none).deviceBias 1 = true ∧ (hdm none).deviceBias 0 = false ∧ (hdm (some (1, false))).flip = some (1, false) ∧ (hdm none).bricks = [] ∧
    (hdm none).masked 0 5 = false ∧ (hdm none).hdmPage 0x100000 = some 0 ∧ (hdm none).hdmPage 0x110000 = some 1 ∧
    (hdm none).agentOk { op := .load, addr := 0x110000, size := 8, data := 0 } = true ∧
    (hdm none).ports.contains (some .cxl) = true ∧ (hdm none).hostWaits = [] ∧ (hdm none).coreWaits = [] ∧ (hdm none).umWaits = [] ∧
    (hdm none).heldKey 0x100000 = false ∧ (hdm none).flip = none ∧
    (let a : AgentAccess := { op := .load, addr := 0x110000, size := 8, data := 0 }
     ({ hdm (some (1, false)) with hostWaits := [a] } : State).hostWaits = [a]) := by decide +kernel

theorem witness_links : (linked.reg 0x50100).field 1 1 = 1 ∧ (State.reset.reg 0x50100).field 1 1 = 0 ∧ linked.remotes = [] ∧ linked.nets = [] ∧
    linked.umSeen = [] ∧ 16 < ({ noPacket with len := 17 } : Packet).len.toNat ∧
    9 ≤ ({ noPacket with kind := 9 } : Packet).kind.toNat := by decide +kernel

/-- Packets from package 1; an export window of function 0 for 64 KiB at 0x7_0000, and none. -/
def packetOf (k : BitVec 4) (mbox : BitVec 16) : Packet := { noPacket with dpkg := 0, spkg := 1, kind := k, mbox := mbox, addr := 0x70000, payload := [7] }
def exporting : State := { linked with
  parts := [(0, [BitVec.ofNat 64 (2 ^ 63), 0, BitVec.ofNat 64 (2 ^ 40), 0, 0, 0, 0, 0])]
  mmio := [(0x50100, 3), (0x51008, 1), (0x52000, BitVec.ofNat 64 (2 ^ 63 + 2 ^ 62 + 2 ^ 61 + 2 ^ 60)), (0x52008, BitVec.ofNat 64 (8 * 2 ^ 32 + 7)), (0x70000, BitVec.allOnes 64)] }
theorem witness_packets : (exporting.reg 0x70000).getLsbD 40 = true ∧ exporting.umid = 0 ∧ noPacket.dpkg.toNat ≠ exporting.umid ∧
    exporting.exported (packetOf 1 0) (packetBytes (packetOf 1 0) 8) true false = some 0 ∧
    linked.exported (packetOf 1 0) (packetBytes (packetOf 1 0) 8) true false = none ∧
    exporting.exported (packetOf 2 0) (packetBytes (packetOf 2 0) 8) false true = some 0 ∧
    linked.exported (packetOf 2 0) (packetBytes (packetOf 2 0) 8) false true = none ∧
    exporting.exported (packetOf 3 0xD712) 4 true true = some 0 ∧ exporting.heldKey 0x70000 = false ∧
    (packetOf 1 0).len.toNat ≤ 16 ∧ exporting.umSeen = [] ∧
    (let q := (packetOf 1 0, noPacket); List.find? (fun x => x.1 == packetOf 1 0) [q] = some q) ∧
    exporting.read 0 0x70000 4 = 0 ∧ (packetOf 3 0xD712).payload.getD 0 0 = 7 ∧ AtOp.ofCode ((packetOf 3 0xD712).mbox.toNat / 256) ≠ .cas ∧
    AtOp.ofCode ((packetOf 3 0xDE12).mbox.toNat / 256) = .cas ∧ exporting.exported (packetOf 3 0xDE12) 4 true true = some 0 := by decide +kernel
/-- One of two lanes of one location. -/
def partOf : Packet := { packetOf 3 0xD712 with payload := [7, 0, BitVec.ofNat 64 (2 * 2 ^ 8)] }
theorem witness_parts : exporting.exported partOf (2 ^ (partOf.mbox.toNat % 8)) true true = some 0 ∧ partCount partOf = 2 ∧
    (exporting.umParts.filter fun q => partGroup q == partGroup partOf).length + 1 < partCount partOf ∧ partCount (packetOf 3 0xD712) ≤ 1 ∧
    (exporting.umWaits ++ exporting.umParts).contains partOf = false ∧
    exporting.read 0 0x70000 4 ≠ ((packetOf 3 0xDE12).payload.getD 0 0).toNat % 2 ^ (8 * 4) := by decide +kernel
theorem witness_packets_plain : PlainMemory exporting ∧ OffAperture 0x70000 8 := ⟨⟨rfl, rfl⟩, .inl (by decide)⟩
/-- A message to a mailbox open to the network that has room, one that is full, and one to nobody. -/
def netMailbox (n : Nat) : State := { paged with
  mem := paged.mem ++ ([(0x66001, 0x70), (0x66002, 6), (0x66009, 3), (0x66014, BitVec.ofNat 8 n)]).filter (·.2 != 0)
  mmio := [(0xC00, 0x1000), (0xE00, 0x66000), (0xE18, 2), (0x70000, BitVec.allOnes 64)] }
theorem witness_messages : ((netMailbox 1).receiveNet 1 0 0 0 [7]).2 = .accept ∧ ((netMailbox 2).receiveNet 1 0 0 0 [7]).2 = .refuseFull ∧
    ((netMailbox 1).receiveNet 1 0 9 0 [7]).2 = .refuseDenied := by decide +kernel

/-- A load of lane 0 into v5 that package 1 has yet to answer; a write. -/
def asking : Remote :=
  { tag := 1, g := 0, sp := 0, vdst := [96 * 5], sdst := none, size := 4, signed := false, write := false, op := none, va := 0x40000, key := 0, packet := noPacket }
def remoteWait : Split := { lane0 with wait := some .remote }
def askingC (r : Remote) : Cx := ⟨{ run linked remoteWait gang team with cur := none, remotes := [r], launches := [(0, {})] }, 0, 0, { gang with splits := [(0, remoteWait)] }, remoteWait⟩
theorem witness_read_data : ((askingC asking).s.reg 0x70000).getLsbD 40 = true ∧ (packetOf 4 0).dpkg.toNat = (askingC asking).s.umid ∧
    (askingC asking).s.requestOf (packetOf 4 0) = some asking ∧ (askingC asking).s.remotes = [asking] ∧ (askingC asking).s.cur = none ∧
    asking.vdst = [96 * BitVec.toNat (5#7) + 0] ∧ ((askingC asking).s.fn 0).ckpt = none ∧ linked.requestOf (packetOf 4 0) = none := by decide +kernel
theorem witness_read_data_split : (askingC asking).s.cx? 0 0 = some (askingC asking) ∧ Steady (askingC asking) ∧ (askingC asking).P.wait = some .remote :=
  ⟨rfl, ⟨rfl, clause2, rfl, by decide⟩, rfl⟩
theorem witness_answers : (askingC asking).s.lineAsks = [] ∧ (packetOf 4 0).len.toNat ≤ 16 ∧ linked.nets = [] ∧
    asking.tag ∉ ((askingC asking).s.fn 0).undoing ∧
    (let s : State := { askingC asking with }.s
     let t : State := { s with remotes := [{ asking with write := true }], fns := [(0, { undoing := [1], ckpt := some {} })] }
     t.requestOf (packetOf 8 0) = some { asking with write := true } ∧ (t.fn 0).undoing = [asking.tag] ∧ (t.fn 0).ckpt = some {}) ∧
    (let o : NetOp := { g := 0, sp := 0, fn := 0, wait := true, packet := { noPacket with dpkg := 1, tag := (packetOf 5 0).tag } }
     List.find? (fun (q : Nat × NetOp) => q.2.packet.tag == (packetOf 5 0).tag && q.2.packet.dpkg == (packetOf 5 0).spkg) [(4, o)] = some (4, o)) := by
  decide +kernel
theorem witness_write_done : (askingC { asking with write := true }).s.requestOf (packetOf 8 0) = some { asking with write := true } ∧
    ({ (askingC asking).s with gangs := [(0, { gang with launch := 1 })] } : State).launchKept 0 ≠ 0 := by decide +kernel

/-- The launch that a refused write ends, and a write that an exit routine issued. -/
theorem witness_refused : (askingC { asking with write := true }).s.exitIssuer { asking with write := true } = none ∧
    (let s : State := { (askingC asking).s with gangs := [(0, { gang with launch := 1, splits := [(0, { remoteWait with rstate := 1 })] })] }
     s.exitIssuer { asking with write := true } ≠ none ∧ s.launchKept 0 ≠ 0 ∧ asking.tag ∉ (s.fn 0).undoing) := by decide +kernel

/-! The platform; steps; encodings -/

theorem witness_bringup : State.reset.staged = [] ∧ State.reset.loaded = [] ∧ State.reset.failed.contains 12 = false ∧
    ({ State.reset with failed := [12] } : State).failed.contains 12 = true ∧ (State.reset.reg 0x70000).getLsbD 12 = false ∧
    (State.reset.reg 0x70010).field 7 0 = 0 ∧ ({ State.reset with mmio := [(0x70010, 7)] } : State).reg 0x70010 = 7 := by decide +kernel

theorem witness_temperatures : 8 * 105 ≤ (840#16).toInt ∧ (839#16).toInt < 8 * 105 ∧ (800#16).toInt ≤ 8 * 100 ∧ 8 * 115 ≤ (920#16).toInt ∧
    (919#16).toInt < 8 * 115 ∧ State.reset.hot.contains 3 = false ∧ 300 < State.reset.clock ∧
    (let s : State := { State.reset with tripped := some (1, false) }
     s.tripped = some (1, false) ∧ s.agenda = [] ∧ s.cur = none) := by decide
theorem witness_units : State.reset.hostWaits = [] ∧ State.reset.coreWaits = [] ∧ State.reset.umWaits = [] := ⟨rfl, rfl, rfl⟩

/-- A report for function 0 at 0x4_0000, and at a page that is not mapped. -/
def reporting (a : Nat) : State := { paged with
  mmio := [(0xC00, 0x1000), (0xF30, BitVec.ofNat 64 a), (0xF38, 1), (0x70000, BitVec.allOnes 64)], fns := [(0, { attesting := true })] }
theorem witness_reports : (reporting 0x40000).ffield 0 0xF38 0 0 = 1 ∧ paged.ffield 0 0xF38 0 0 ≠ 1 ∧ ((reporting 0x40000).fn 0).attesting = true ∧
    (({ paged with fns := [(0, { mode := 16 })] } : State).fn 0).mode / 16 % 2 = 1 ∧ (paged.fn 0).mode / 16 % 2 = 0 ∧
    ((reporting 0x40000).fn 0).extended = [] ∧ ((reporting 0x40000).fn 3).attesting = false ∧
    (Fn.meets 6 5 { attesting := true }).extended = [(6, 5)] ∧
    (reporting 0x40000).translate 0 ((reporting 0x40000).ffield 0 0xF30 47 10 * 1024) .write = .ok ⟨0x40000, 0x2000, 0xF, 2 ^ 30⟩ ∧
    (reporting (2 ^ 40)).translate 0 ((reporting (2 ^ 40)).ffield 0 0xF30 47 10 * 1024) .write = .fault 0x05 ∧
    (reporting 0x40000).heldVa 0 0x40000 = false ∧ (reporting (2 ^ 40)).heldVa 0 (2 ^ 40) = false ∧
    paged.barOpen 0 = true ∧ (paged.fn 0).attestAsked = false ∧ (({ attestAsked := true } : Fn).attestAsked = true) := by decide +kernel
theorem witness_report_quiet : PlainMemory (reporting 0x40000) ∧ NoLog (reporting 0x40000) 0 ∧ OffQueues (reporting 0x40000) 0 0x40000 608 ∧
    OffAperture 0x40000 608 := ⟨⟨rfl, rfl⟩, ⟨by decide +kernel, rfl, rfl, by decide +kernel⟩, .inl rfl, .inl (by decide)⟩
/-- RFC 6979 A.2.6, the signature of the message "sample" with SHA-384, and the digest of that public key. -/
def vendorKey : BitVec 384 := 0x794113F29EDD796B85DFAADE5D707BE345371383E7BAC485D62EDBCBD377BA1FDDF0A1954BF9AD189792AD0D87299E03
def signedImage (stage : Nat) : FwImage :=
  { stage := stage, version := 3
    digest := 0x9A9083505BC92276AEC4BE312696EF7BF3BF603F4BBD381196A029F340585312313BCA4A9B5B890EFEE42C77B1EE25FE
    key := BitVec.ofNat 768 (0xEC3A4E415B4E19A4568618029F427FA5DA9A8BC4AE92E02E06AAE5286B300C64DEF8F0EA9055866064A254515480BC13 * 2 ^ 384
      + 0x8015D9B72D7D57244EA8EF9AC0C621896708A59367F9DFB9F54CA84B3F1C9DB1288B231C3AE0D4FE7344FD2533264720)
    r := 0x94EDBB92A5ECB8AAD4736E56C691916B3F88140666CE9FA73D64C4EA95AD133C81A648152E44ACF96E36DD1E80FABE46
    s := 0x99EF4AEB15F178CEA1FE40DB2603138F130E740A19624526203B6351D0A3A94FA329C145786E679E7B82C71A38628AC8 }
def vended : State := { State.reset with fuse := { Fuse.full with vendor := vendorKey } }
/-- 24 R373: the published signature verifies; it does not of another digest, nor against another fused key. -/
theorem test_signature : imageSigned (signedImage 0) vendorKey = true ∧ imageSigned { signedImage 0 with digest := 0 } vendorKey = false ∧
    imageSigned (signedImage 0) 0 = false := by decide +kernel
theorem witness_images : vended.imageError (signedImage 0) = 0 ∧ vended.imageError (signedImage 5) = 0 ∧ vended.imageError (signedImage 2) = 0 ∧
    ({ vended with fwCounter := 4 } : State).imageError (signedImage 0) ≠ 0 ∧ (signedImage 0).stage = 0 ∧ (signedImage 2).stage = 2 := by decide +kernel
theorem witness_signature : let i := signedImage 0
    Ecdsa.valid (i.key.toNat / 2 ^ 384) (i.key.toNat % 2 ^ 384) i.digest.toNat i.r.toNat i.s.toNat = true := by decide +kernel

/-- Every step that has a premise: an event listed, a clause being run whose word decodes or does not, nothing running. -/
theorem witness_steps : (∃ i r, ({ State.reset with agenda := [.mapq 0 0] } : State).agenda = i :: r) ∧ State.reset.agenda = [] ∧ State.reset.cur = none ∧
    decode 0x0780000000000000 = some (.nop ⟨c0, .v 0, .v 0, 0, 0⟩) ∧ decode 0x0780000000000001 = none ∧ opcodeOf 0x0780000000000001 < 0x0D0 ∧
    Memory.wf State.reset.mem = true := ⟨⟨_, _, rfl⟩, rfl, rfl, by decide +kernel, by decide +kernel, by decide +kernel, by decide⟩
theorem witness_step_completes : (∃ t, step State.reset = .next t) ∧ ∃ t, step (State.reset.withFetchWord 64 0x0780000000000000) = .next t :=
  ⟨⟨_, rfl⟩, ⟨_, rfl⟩⟩
theorem witness_lands : State.reset.logged = [] ∧ State.reset.writesHeld State.reset = false ∧
    State.lands { State.reset with agenda := [] } State.reset = some State.reset := by decide +kernel
theorem witness_encodings : (Instr.nop ⟨c0, .v 0, .v 0, 0, 0⟩).opcode?.isSome = true ∧ (Instr.nop ⟨c0, .v 0, .v 0, 0, 0⟩).wf = true ∧
    opcodeClass (opcodeOf 0) = none := by decide +kernel

end Sys2Proof.Tests
end

section
/-! SUPPORT. Decoding and encoding (02 R47, R48, R49, R53, R55): each field of a word is read back as it was written, each format
round-trips, and the opcode map takes an opcode to the instruction that has it. -/

namespace Sys2Proof

/-! ### Fields -/

theorem ETy.ofCode?_code (t : ETy) : ETy.ofCode? t.code = some t := by cases t <;> rfl

theorem ETy.code_of_ofCode? {n : Nat} {t : ETy} (h : ETy.ofCode? n = some t) : t.code = n := by
  unfold ETy.ofCode? at h
  split at h <;> cases h <;> rfl

theorem Special.ofCode?_code (c : Special) : Special.ofCode? c.code = some c := by
  cases c with
  | int n => simp [Special.ofCode?, Special.code, show 0xD0 + n.toNat < 0xE0 by have := n.isLt; omega]
  | _ => rfl

theorem Special.code_of_ofCode? {n : Nat} {c : Special} (h : Special.ofCode? n = some c) : c.code = n := by
  unfold Special.ofCode? at h
  split at h
  · cases h
    simp only [Special.code, BitVec.toNat_ofNat]
    omega
  · split at h <;> cases h <;> rfl

theorem Special.le_code (c : Special) : 0xC0 ≤ c.code := by
  cases c with
  | int n => simp only [Special.code]; omega
  | _ => decide

theorem Operand.ofCode?_code (o : Operand) : Operand.ofCode? o.code = some o := by
  cases o with
  | v n => simp [Operand.ofCode?, Operand.code, show n.toNat < 0x80 from n.isLt]
  | s n => simp [Operand.ofCode?, Operand.code, show 0x80 + n.toNat < 0xC0 by have := n.isLt; omega]
  | x c =>
    have h := c.le_code
    rw [Operand.code, Operand.ofCode?, if_neg (by omega), if_neg (by omega), Special.ofCode?_code]
    rfl

theorem Operand.code_of_ofCode? {n : Nat} {o : Operand} (h : Operand.ofCode? n = some o) : o.code = n := by
  unfold Operand.ofCode? at h
  split at h
  · cases h
    simp only [Operand.code, BitVec.toNat_ofNat]
    omega
  · split at h
    · cases h
      simp only [Operand.code, BitVec.toNat_ofNat]
      omega
    · obtain ⟨c, hc, rfl⟩ := Option.map_eq_some_iff.1 h
      exact Special.code_of_ofCode? hc

/-- A field of `n` bits read from its place. -/
theorem ofNat_eq_field {n w : Nat} (x : BitVec n) (h : w % 2 ^ n = x.toNat) : BitVec.ofNat n w = x :=
  BitVec.eq_of_toNat_eq (by rw [BitVec.toNat_ofNat, h])

/-- The guard and the lookahead count lie above bit 44. -/
theorem Ctl.bits_aligned (c : Ctl) : c.bits % 2 ^ 45 = 0 ∧ c.bits < 2 ^ 54 := by
  have h := Laws.ctl_le c
  refine ⟨?_, by omega⟩
  simp only [Ctl.bits]
  omega

theorem Ctl.ofBits_eq {w : Nat} {c : Ctl} (h : w / 2 ^ 45 % 2 ^ 9 = c.bits / 2 ^ 45) : Ctl.ofBits w = c := by
  obtain ⟨la, ge, gp, gn⟩ := c
  have hla := la.isLt
  have hgp := gp.isLt
  have hge : ge.toNat ≤ 1 := Bool.toNat_le ge
  have hgn : gn.toNat ≤ 1 := Bool.toNat_le gn
  have bit : ∀ (b : Bool) (n : Nat), n = b.toNat → (n == 1) = b := by rintro (_ | _) _ rfl <;> rfl
  simp only [Ctl.bits] at h
  simp only [Ctl.ofBits, Ctl.mk.injEq]
  refine ⟨ofNat_eq_field la ?_, bit ge _ ?_, ofNat_eq_field gp ?_, bit gn _ ?_⟩ <;> omega

/-- The guard and the lookahead count are read from bits 53:45. -/
theorem Ctl.bits_ofBits (w : Nat) : (Ctl.ofBits w).bits = w % 2 ^ 54 - w % 2 ^ 45 := by
  have bit : ∀ n : Nat, (n % 2 == 1).toNat = n % 2 := fun n => by
    rcases Nat.mod_two_eq_zero_or_one n with h | h <;> simp [h]
  simp only [Ctl.ofBits, Ctl.bits, BitVec.toNat_ofNat, bit]
  omega

/-! ### Formats -/

/-- A format's fields are read back from any word that holds them, and hold every bit of the word they are read from. -/
structure RoundTrips {α : Type} (bits : α → Nat) (ofBits? : Nat → Option α) : Prop where
  lt : ∀ f, bits f < 2 ^ 54
  read : ∀ op f, ofBits? (op * 2 ^ 54 + bits f) = some f
  held : ∀ w f, ofBits? w = some f → bits f = w % 2 ^ 54

theorem Tri.roundTrips : RoundTrips Tri.bits Tri.ofBits? := by
  refine ⟨Laws.bits_lt_tri, fun op f => ?_, fun w f h => ?_⟩
  · have hctl := f.ctl.bits_aligned
    have h_ty := Laws.code_lt_ty f.ty
    have h_dst := Laws.code_lt f.dst
    have h_a := Laws.code_lt f.a
    have h_b := Laws.code_lt f.b
    have h_c := Laws.code_lt f.c
    have h_mod := f.mod.isLt
    have ctl : Ctl.ofBits (op * 2 ^ 54 + f.bits) = f.ctl := Ctl.ofBits_eq (by simp only [Tri.bits]; omega)
    have ty : bitsN (op * 2 ^ 54 + f.bits) 44 40 = f.ty.code := by simp only [bitsN, Tri.bits]; omega
    have dst : bitsN (op * 2 ^ 54 + f.bits) 39 32 = f.dst.code := by simp only [bitsN, Tri.bits]; omega
    have a : bitsN (op * 2 ^ 54 + f.bits) 31 24 = f.a.code := by simp only [bitsN, Tri.bits]; omega
    have b : bitsN (op * 2 ^ 54 + f.bits) 23 16 = f.b.code := by simp only [bitsN, Tri.bits]; omega
    have c : bitsN (op * 2 ^ 54 + f.bits) 15 8 = f.c.code := by simp only [bitsN, Tri.bits]; omega
    have mod : BitVec.ofNat 8 (op * 2 ^ 54 + f.bits) = f.mod := ofNat_eq_field _ (by simp only [Tri.bits]; omega)
    simp only [Tri.ofBits?, ctl, ty, dst, a, b, c, mod, ETy.ofCode?_code, Operand.ofCode?_code, Option.bind_some]
  · simp only [Tri.ofBits?, Option.bind_eq_some_iff, Option.some.injEq] at h
    obtain ⟨ty, h_ty, dst, h_dst, a, h_a, b, h_b, c, h_c, rfl⟩ := h
    simp only [Tri.bits, Ctl.bits_ofBits, bitsN, BitVec.toNat_ofNat, ETy.code_of_ofCode? h_ty, Operand.code_of_ofCode? h_dst, Operand.code_of_ofCode? h_a, Operand.code_of_ofCode? h_b, Operand.code_of_ofCode? h_c]
    omega

theorem Imm.roundTrips : RoundTrips Imm.bits Imm.ofBits? := by
  refine ⟨Laws.bits_lt_imm, fun op f => ?_, fun w f h => ?_⟩
  · have hctl := f.ctl.bits_aligned
    have h_ty := Laws.code_lt_ty f.ty
    have h_dst := Laws.code_lt f.dst
    have h_a := Laws.code_lt f.a
    have h_mod := f.mod.isLt
    have h_imm := f.imm.isLt
    have ctl : Ctl.ofBits (op * 2 ^ 54 + f.bits) = f.ctl := Ctl.ofBits_eq (by simp only [Imm.bits]; omega)
    have ty : bitsN (op * 2 ^ 54 + f.bits) 44 40 = f.ty.code := by simp only [bitsN, Imm.bits]; omega
    have dst : bitsN (op * 2 ^ 54 + f.bits) 39 32 = f.dst.code := by simp only [bitsN, Imm.bits]; omega
    have a : bitsN (op * 2 ^ 54 + f.bits) 31 24 = f.a.code := by simp only [bitsN, Imm.bits]; omega
    have mod : BitVec.ofNat 8 ((op * 2 ^ 54 + f.bits) / 2 ^ 16) = f.mod := ofNat_eq_field _ (by simp only [Imm.bits]; omega)
    have imm : BitVec.ofNat 16 (op * 2 ^ 54 + f.bits) = f.imm := ofNat_eq_field _ (by simp only [Imm.bits]; omega)
    simp only [Imm.ofBits?, ctl, ty, dst, a, mod, imm, ETy.ofCode?_code, Operand.ofCode?_code, Option.bind_some]
  · simp only [Imm.ofBits?, Option.bind_eq_some_iff, Option.some.injEq] at h
    obtain ⟨ty, h_ty, dst, h_dst, a, h_a, rfl⟩ := h
    simp only [Imm.bits, Ctl.bits_ofBits, bitsN, BitVec.toNat_ofNat, ETy.code_of_ofCode? h_ty, Operand.code_of_ofCode? h_dst, Operand.code_of_ofCode? h_a]
    omega

theorem Mem.roundTrips : RoundTrips Mem.bits Mem.ofBits? := by
  refine ⟨Laws.bits_lt_mem, fun op f => ?_, fun w f h => ?_⟩
  · have hctl := f.ctl.bits_aligned
    have h_ty := Laws.code_lt_ty f.ty
    have h_data := Laws.code_lt f.data
    have h_base := Laws.code_lt f.base
    have h_space := f.space.isLt
    have h_scope := f.scope.isLt
    have h_kind := f.kind.isLt
    have h_offs := f.offs.isLt
    have ctl : Ctl.ofBits (op * 2 ^ 54 + f.bits) = f.ctl := Ctl.ofBits_eq (by simp only [Mem.bits]; omega)
    have ty : bitsN (op * 2 ^ 54 + f.bits) 44 40 = f.ty.code := by simp only [bitsN, Mem.bits]; omega
    have data : bitsN (op * 2 ^ 54 + f.bits) 39 32 = f.data.code := by simp only [bitsN, Mem.bits]; omega
    have base : bitsN (op * 2 ^ 54 + f.bits) 31 24 = f.base.code := by simp only [bitsN, Mem.bits]; omega
    have space : BitVec.ofNat 3 ((op * 2 ^ 54 + f.bits) / 2 ^ 21) = f.space := ofNat_eq_field _ (by simp only [Mem.bits]; omega)
    have scope : BitVec.ofNat 3 ((op * 2 ^ 54 + f.bits) / 2 ^ 18) = f.scope := ofNat_eq_field _ (by simp only [Mem.bits]; omega)
    have kind : BitVec.ofNat 2 ((op * 2 ^ 54 + f.bits) / 2 ^ 16) = f.kind := ofNat_eq_field _ (by simp only [Mem.bits]; omega)
    have offs : BitVec.ofNat 16 (op * 2 ^ 54 + f.bits) = f.offs := ofNat_eq_field _ (by simp only [Mem.bits]; omega)
    simp only [Mem.ofBits?, ctl, ty, data, base, space, scope, kind, offs, ETy.ofCode?_code, Operand.ofCode?_code, Option.bind_some]
  · simp only [Mem.ofBits?, Option.bind_eq_some_iff, Option.some.injEq] at h
    obtain ⟨ty, h_ty, data, h_data, base, h_base, rfl⟩ := h
    simp only [Mem.bits, Ctl.bits_ofBits, bitsN, BitVec.toNat_ofNat, ETy.code_of_ofCode? h_ty, Operand.code_of_ofCode? h_data, Operand.code_of_ofCode? h_base]
    omega

theorem Br.roundTrips : RoundTrips Br.bits Br.ofBits? := by
  refine ⟨Laws.bits_lt_br, fun op f => ?_, fun w f h => ?_⟩
  · have hctl := f.ctl.bits_aligned
    have h_cond := Laws.code_lt f.cond
    have h_sub := f.sub.isLt
    have h_disp := f.disp.isLt
    have ctl : Ctl.ofBits (op * 2 ^ 54 + f.bits) = f.ctl := Ctl.ofBits_eq (by simp only [Br.bits]; omega)
    have cond : bitsN (op * 2 ^ 54 + f.bits) 44 37 = f.cond.code := by simp only [bitsN, Br.bits]; omega
    have sub : BitVec.ofNat 5 ((op * 2 ^ 54 + f.bits) / 2 ^ 32) = f.sub := ofNat_eq_field _ (by simp only [Br.bits]; omega)
    have disp : BitVec.ofNat 32 (op * 2 ^ 54 + f.bits) = f.disp := ofNat_eq_field _ (by simp only [Br.bits]; omega)
    simp only [Br.ofBits?, ctl, cond, sub, disp, Operand.ofCode?_code, Option.bind_some]
  · simp only [Br.ofBits?, Option.bind_eq_some_iff, Option.some.injEq] at h
    obtain ⟨cond, h_cond, rfl⟩ := h
    simp only [Br.bits, Ctl.bits_ofBits, bitsN, BitVec.toNat_ofNat, Operand.code_of_ofCode? h_cond]
    omega

theorem Mat.roundTrips : RoundTrips Mat.bits Mat.ofBits? := by
  refine ⟨Laws.bits_lt_mat, fun op f => ?_, fun w f h => ?_⟩
  · have hctl := f.ctl.bits_aligned
    have h_a := Laws.code_lt f.a
    have h_b := Laws.code_lt f.b
    have h_ta := Laws.code_lt_ty f.ta
    have h_tb := Laws.code_lt_ty f.tb
    have h_tile := f.tile.isLt
    have h_sprs := f.sprs.isLt
    have h_scl := f.scl.isLt
    have h_mod := f.mod.isLt
    have ctl : Ctl.ofBits (op * 2 ^ 54 + f.bits) = f.ctl := Ctl.ofBits_eq (by simp only [Mat.bits]; omega)
    have a : bitsN (op * 2 ^ 54 + f.bits) 38 31 = f.a.code := by simp only [bitsN, Mat.bits]; omega
    have b : bitsN (op * 2 ^ 54 + f.bits) 30 23 = f.b.code := by simp only [bitsN, Mat.bits]; omega
    have ta : bitsN (op * 2 ^ 54 + f.bits) 22 18 = f.ta.code := by simp only [bitsN, Mat.bits]; omega
    have tb : bitsN (op * 2 ^ 54 + f.bits) 17 13 = f.tb.code := by simp only [bitsN, Mat.bits]; omega
    have tile : BitVec.ofNat 6 ((op * 2 ^ 54 + f.bits) / 2 ^ 39) = f.tile := ofNat_eq_field _ (by simp only [Mat.bits]; omega)
    have sprs : BitVec.ofNat 3 ((op * 2 ^ 54 + f.bits) / 2 ^ 10) = f.sprs := ofNat_eq_field _ (by simp only [Mat.bits]; omega)
    have scl : BitVec.ofNat 2 ((op * 2 ^ 54 + f.bits) / 2 ^ 8) = f.scl := ofNat_eq_field _ (by simp only [Mat.bits]; omega)
    have mod : BitVec.ofNat 8 (op * 2 ^ 54 + f.bits) = f.mod := ofNat_eq_field _ (by simp only [Mat.bits]; omega)
    simp only [Mat.ofBits?, ctl, a, b, ta, tb, tile, sprs, scl, mod, ETy.ofCode?_code, Operand.ofCode?_code, Option.bind_some]
  · simp only [Mat.ofBits?, Option.bind_eq_some_iff, Option.some.injEq] at h
    obtain ⟨a, h_a, b, h_b, ta, h_ta, tb, h_tb, rfl⟩ := h
    simp only [Mat.bits, Ctl.bits_ofBits, bitsN, BitVec.toNat_ofNat, Operand.code_of_ofCode? h_a, Operand.code_of_ofCode? h_b, ETy.code_of_ofCode? h_ta, ETy.code_of_ofCode? h_tb]
    omega

theorem Cpy.roundTrips : RoundTrips Cpy.bits Cpy.ofBits? := by
  refine ⟨Laws.bits_lt_cpy, fun op f => ?_, fun w f h => ?_⟩
  · have hctl := f.ctl.bits_aligned
    have h_layout := Laws.code_lt f.layout
    have h_dst := Laws.code_lt f.dst
    have h_a := Laws.code_lt f.a
    have h_point := f.point.isLt
    have h_ring := f.ring.isLt
    have h_mod := f.mod.isLt
    have ctl : Ctl.ofBits (op * 2 ^ 54 + f.bits) = f.ctl := Ctl.ofBits_eq (by simp only [Cpy.bits]; omega)
    have layout : bitsN (op * 2 ^ 54 + f.bits) 44 37 = f.layout.code := by simp only [bitsN, Cpy.bits]; omega
    have dst : bitsN (op * 2 ^ 54 + f.bits) 36 29 = f.dst.code := by simp only [bitsN, Cpy.bits]; omega
    have a : bitsN (op * 2 ^ 54 + f.bits) 28 21 = f.a.code := by simp only [bitsN, Cpy.bits]; omega
    have point : BitVec.ofNat 5 ((op * 2 ^ 54 + f.bits) / 2 ^ 16) = f.point := ofNat_eq_field _ (by simp only [Cpy.bits]; omega)
    have ring : BitVec.ofNat 4 ((op * 2 ^ 54 + f.bits) / 2 ^ 12) = f.ring := ofNat_eq_field _ (by simp only [Cpy.bits]; omega)
    have mod : BitVec.ofNat 12 (op * 2 ^ 54 + f.bits) = f.mod := ofNat_eq_field _ (by simp only [Cpy.bits]; omega)
    simp only [Cpy.ofBits?, ctl, layout, dst, a, point, ring, mod, Operand.ofCode?_code, Option.bind_some]
  · simp only [Cpy.ofBits?, Option.bind_eq_some_iff, Option.some.injEq] at h
    obtain ⟨layout, h_layout, dst, h_dst, a, h_a, rfl⟩ := h
    simp only [Cpy.bits, Ctl.bits_ofBits, bitsN, BitVec.toNat_ofNat, Operand.code_of_ofCode? h_layout, Operand.code_of_ofCode? h_dst, Operand.code_of_ofCode? h_a]
    omega

theorem Sys.roundTrips : RoundTrips Sys.bits Sys.ofBits? := by
  refine ⟨Laws.bits_lt_sys, fun op f => ?_, fun w f h => ?_⟩
  · have hctl := f.ctl.bits_aligned
    have h_dst := Laws.code_lt f.dst
    have h_a := Laws.code_lt f.a
    have h_sub := f.sub.isLt
    have h_imm := f.imm.isLt
    have ctl : Ctl.ofBits (op * 2 ^ 54 + f.bits) = f.ctl := Ctl.ofBits_eq (by simp only [Sys.bits]; omega)
    have dst : bitsN (op * 2 ^ 54 + f.bits) 44 37 = f.dst.code := by simp only [bitsN, Sys.bits]; omega
    have a : bitsN (op * 2 ^ 54 + f.bits) 36 29 = f.a.code := by simp only [bitsN, Sys.bits]; omega
    have sub : BitVec.ofNat 8 ((op * 2 ^ 54 + f.bits) / 2 ^ 21) = f.sub := ofNat_eq_field _ (by simp only [Sys.bits]; omega)
    have imm : BitVec.ofNat 21 (op * 2 ^ 54 + f.bits) = f.imm := ofNat_eq_field _ (by simp only [Sys.bits]; omega)
    simp only [Sys.ofBits?, ctl, dst, a, sub, imm, Operand.ofCode?_code, Option.bind_some]
  · simp only [Sys.ofBits?, Option.bind_eq_some_iff, Option.some.injEq] at h
    obtain ⟨dst, h_dst, a, h_a, rfl⟩ := h
    simp only [Sys.bits, Ctl.bits_ofBits, bitsN, BitVec.toNat_ofNat, Operand.code_of_ofCode? h_dst, Operand.code_of_ofCode? h_a]
    omega


/-! ### The opcode map -/

theorem asm_toNat {op fields : Nat} (ho : op < 1024) (h : fields < 2 ^ 54) : (asm op fields).toNat = op * 2 ^ 54 + fields := by
  rw [asm, BitVec.toNat_ofNat, Nat.mod_eq_of_lt (by omega)]

/-- The word assembled from an opcode and a format's fields is decoded as the map says of the opcode. -/
theorem RoundTrips.decodeFields_asm {α : Type} {bits : α → Nat} {ofBits? : Nat → Option α} (F : RoundTrips bits ofBits?)
    {op : Nat} {mk : α → Instr} (ho : op < 1024)
    (hd : ∀ w : BitVec 64, bitsN w.toNat 63 54 = op → decodeFields w = (ofBits? w.toNat).map mk) (f : α) :
    decodeFields (asm op (bits f)) = some (mk f) := by
  rw [hd _ (Laws.asm_opcode (F.lt f) ho), asm_toNat ho (F.lt f), F.read, Option.map_some]

theorem decodeFields_encode (i : Instr) (h : i.opcode?.isSome = true) : decodeFields (encode i) = some i := by
  cases i with
  | br f | brs f | brz f | bra f | brl f | brd f | brsp f | brx f | brxd f | call f | callx f | ret f =>
    exact Br.roundTrips.decodeFields_asm (by decide) (fun word h => by simp only [decodeFields, h]; rfl) f
  | meet f | endLanes f | nop f | yield f | gwidth f | gsplits f | gmember f | gactive f | lrank f | lfirst f | pairq f
  | jinit f | jarrive f | jwait f | jarwait f | ringinit f | ringput f | ringtake f | kwait f | region f | xret f | eret f
  | trap f | brk f | scall f | cpop f | cpush f | cjoin f | mbsend f | mbrecv f | quotaq f | cycq f | capq f | netsend f =>
    exact Sys.roundTrips.decodeFields_asm (by decide) (fun word h => by simp only [decodeFields, h]; rfl) f
  | pand f | por f | pxor f | pandn f | pmov f | pfroms f | ptos f | vany f | vall f | ballot f | pcount f | pfind f
  | sadd f | ssub f | smul f | smulh f | sdiv f | srem f | sand f | sor f | sxor f | sandn f | sshl f | sshr f | ssra f
  | smin f | smax f | scmp f | ssel f | smad f | sclz f | spopc f | sbfx f | sbfi f | vadd f | vsub f | vmul f | vmulh f
  | vmad f | vaddsat f | vsubsat f | vand f | vor f | vxor f | vandn f | vshl f | vshr f | vsra f | vmin f | vmax f | vabs f
  | vneg f | vcmp f | vsel f | vclz f | vpopc f | vbfx f | vbfi f | vcvti f | fadd f | fsub f | fmul f | fma f | fms f
  | fnma f | fnms f | fmin f | fmax f | fabs f | fneg f | fcmp f | fsel f | fclass f | fcvt f | fcvti f | icvtf f | fscale f
  | frnd f | fdot2 f | fdot4 f | fpack f | funpack f | fregime f | ftwin f | frcp f | frsq f | fsqrt f | fexp2 f | flog2 f
  | fsin f | fcos f | ftanh f | fsigm f | ferf f | xshfl f | xbcast f | xup f | xdown f | xxor f | xscan f | xscanx f | xred f =>
    exact Tri.roundTrips.decodeFields_asm (by decide) (fun word h => by simp only [decodeFields, h]; rfl) f
  | saddi f | sandi f | sori f | sxori f | smovi f | smovhi f | saddpc f | scmpi f | vmovi f | vaddi f | vandi f | vori f
  | faddi f | fmuli f | fmai f | fcmpi f | fmini f | fmaxi f =>
    exact Imm.roundTrips.decodeFields_asm (by decide) (fun word h => by simp only [decodeFields, h]; rfl) f
  | aload f | astore f | ld f | st f | ldro f | ldg f | stg f | ldx f | stc f | atadd f | atmin f | atmax f | atand f
  | ator f | atxor f | atswp f | atcas f | mwupd f | hsend f | pref f | resid f | fence f | fencero f | bind f | unbind f
  | acq f | rel f =>
    exact Mem.roundTrips.decodeFields_asm (by decide) (fun word h => by simp only [decodeFields, h]; rfl) f
  | mma f | mmaz f | azero f | aread f | awrite f | acvt f | aadd f =>
    exact Mat.roundTrips.decodeFields_asm (by decide) (fun word h => by simp only [decodeFields, h]; rfl) f
  | cpy f | cpyg f | cpys f | cpyc f | cpyred f | lpinit f | lpstart f | lpnext f | lpdone f | lpstop f | lpq f =>
    exact Cpy.roundTrips.decodeFields_asm (by decide) (fun word h => by simp only [decodeFields, h]; rfl) f
  | _ => exact nomatch h

/-- What the opcode map may answer to a word: that its opcode is unassigned, or, at an assigned one, only an instruction that the
word encodes. -/
def Reads (w : BitVec 64) (o : Option Instr) : Prop :=
  o = some (.unassignedOpcode w) ∨ (Machine.opcodeClass (Machine.opcodeOf w)).isSome = true ∧ ∀ i, o = some i → encode i = w

theorem RoundTrips.reads {α : Type} {bits : α → Nat} {ofBits? : Nat → Option α} (F : RoundTrips bits ofBits?) {op : Nat}
    {mk : α → Instr} {w : BitVec 64} (hop : bitsN w.toNat 63 54 = op) (he : ∀ f, encode (mk f) = asm op (bits f))
    (hc : (Machine.opcodeClass op).isSome = true) : Reads w ((ofBits? w.toNat).map mk) := by
  refine .inr ⟨by rw [Machine.opcodeOf, Word.field, hop]; exact hc, fun i h => ?_⟩
  obtain ⟨f, hf, rfl⟩ := Option.map_eq_some_iff.1 h
  have hw := w.isLt
  rw [he, asm, F.held _ _ hf]
  refine ofNat_eq_field w ?_
  simp only [bitsN] at hop
  omega

theorem reads_unassigned (w : BitVec 64) : Reads w (some (.unassignedOpcode w)) := .inl rfl

theorem decodeFields_reads (w : BitVec 64) : Reads w (decodeFields w) := by
  unfold decodeFields
  simp only
  split
  case h_18 => exact reads_unassigned w
  all_goals
    rename_i hgroup
    clear hgroup
    simp only [decodeGroup01, decodeGroup02, decodeGroup03, decodeGroup04, decodeGroup05, decodeGroup06, decodeGroup07,
      decodeGroup08, decodeGroup09, decodeGroup0A, decodeGroup0B, decodeGroup0C, decodeGroup0D, decodeGroup0E, decodeGroup0F,
      decodeGroup10, decodeGroup11]
    split
  any_goals with_reducible apply Tri.roundTrips.reads
  any_goals with_reducible apply Imm.roundTrips.reads
  any_goals with_reducible apply Mem.roundTrips.reads
  any_goals with_reducible apply Br.roundTrips.reads
  any_goals with_reducible apply Mat.roundTrips.reads
  any_goals with_reducible apply Cpy.roundTrips.reads
  any_goals with_reducible apply Sys.roundTrips.reads
  any_goals assumption
  any_goals exact reads_unassigned w
  any_goals exact fun _ => rfl
  all_goals decide

theorem decodeFields_unassigned {w : BitVec 64} (h : Machine.opcodeClass (Machine.opcodeOf w) = none) :
    decodeFields w = some (.unassignedOpcode w) := by
  rcases decodeFields_reads w with hu | ⟨hc, -⟩
  · exact hu
  · rw [h] at hc
    exact nomatch hc

theorem encode_of_decodeFields {w : BitVec 64} {i : Instr} (h : decodeFields w = some i) : encode i = w := by
  rcases decodeFields_reads w with hu | ⟨-, he⟩
  · rw [hu] at h
    cases h
    rfl
  · exact he i h

/-- Settles O59: the map and the formats round-trip, and what decodes is filtered by well-formedness alone. -/
theorem decodeAndEncodeAgree : Obligations.DecodeAndEncodeAgree := by
  refine ⟨fun i hop hwf => ?_, fun w i h => ?_, fun w h => ?_⟩
  · rw [decode, decodeFields_encode i hop, Option.filter_some, if_pos hwf]
  · obtain ⟨hd, hwf⟩ := Option.filter_eq_some_iff.1 h
    exact ⟨hwf, encode_of_decodeFields hd⟩
  · rw [decode, decodeFields_unassigned h]
    rfl

/-- Settles O60: each word is decoded by computation. -/
theorem wordsDecode : Obligations.WordsDecode := by
  unfold Obligations.WordsDecode
  decide +kernel

end Sys2Proof
end

section
/-! SUPPORT. Results of long-latency forms (02 R51), one step of the machine (02 R44, R49; 19 R306 to R308) and the special functions
(05 R130, R131). -/

namespace Sys2Proof.Machine

/-! ### Results of long-latency forms (02 R51) -/

theorem results_here {c : Cx} {k : Ctl} (r : Late) (h : c.window k = 0) : c.results k r = c.deliver r := by
  simp [Cx.results, h]

theorem results_owed {c : Cx} {k : Ctl} (r : Late) (h : 0 < c.window k) :
    c.results k r = { c with P := { c.P with late := c.P.late ++ [{ r with left := c.window k + 1 }] } } := by
  simp [Cx.results, Nat.ne_of_gt h]

theorem ageLate_counts {c : Cx} {r : Late} (h : c.P.late = [r]) (hr : 2 ≤ r.left) :
    c.ageLate = { c with P := { c.P with late := [{ r with left := r.left - 1 }] } } := by
  have hl : r.left - 1 ≠ 0 := by omega
  simp [Cx.ageLate, h, hl]

theorem ageLate_delivers {c : Cx} {r : Late} (h : c.P.late = [r]) (hr : r.left = 1) :
    c.ageLate = { c.deliver r with P := { (c.deliver r).P with late := [] } } := by
  simp [Cx.ageLate, h, hr, Cx.deliver]

/-- Settles O3: a form's results are given or owed by `Cx.results`, and counted by `Cx.ageLate`. -/
theorem lateResultsArriveAtWindowEnd : Obligations.LateResultsArriveAtWindowEnd := by
  refine ⟨fun c k r h => results_here r h, fun c k r h => results_owed r h, fun c r h hr => ageLate_counts h hr,
    fun c r h hr => ?_⟩
  rw [ageLate_delivers h hr]
  exact ⟨rfl, rfl, rfl⟩

/-! ### One step -/

theorem step_run {s : State} (h : s.agenda = []) : step s = s.run := by simp [step, h]

theorem step_listed {s t u : State} {i : Instr} {r : List Instr} (ha : s.agenda = i :: r)
    (he : exec i { s with agenda := r } = .next t) (hl : State.lands { s with agenda := r } t = some u) : step s = .next u := by
  simp [step, ha, he, hl]

theorem fetched_of_runs {s : State} {c : Cx} {cl : Clause} (h : Runs s c) (hc : c.P.clause = some cl) :
    s.fetched = some (cl.words.getD cl.pos 0) := by
  simp [State.fetched, h.1, h.2, Cx.word?, hc]

theorem run_decoded {s : State} {w : Word} {i : Instr} (hf : s.fetched = some w) (hd : decode w = some i) :
    s.run = s.after (exec i s) := by
  simp [State.run, hf, hd]

/-- Outside the memory forms a word that does not decode raises ILLOP (02 R49). -/
theorem run_illegal {s : State} {c : Cx} {w : Word} (h : Runs s c) (hw : c.word? = some w) (hd : decode w = none)
    (ho : opcodeOf w < 0x0D0 ∨ 0x0E8 < opcodeOf w) : s.run = s.after (.next c.illop) := by
  have hf : s.fetched = some w := by simp [State.fetched, h.1, h.2, hw]
  have hi : s.illegalWord = .next c.illop := by
    rw [State.illegalWord, issue_of_runs h]
    simp only [hw]
    rw [if_neg (by omega)]
  simp [State.run, hf, hd, hi]

/-- A placed word is what gang 0 runs. -/
theorem fetched_withFetchWord (s : State) (w : BitVec 64) : (s.withFetchWord 64 w.toNat).fetched = some w := by
  have hw : BitVec.ofNat 64 (w.toNat % 2 ^ min 64 64) = w := by
    rw [Nat.min_self, Nat.mod_eq_of_lt w.isLt, BitVec.ofNat_toNat, BitVec.setWidth_eq]
  simp only [State.withFetchWord, State.placeWord, hw, State.fetched, State.cx?, Option.bind_some, Store.find?_put, if_true]
  rfl

/-- Settles O58: the step is the listed event's, the running word's or the default order's, as the lemmas above say case by case. -/
theorem stepRunsTheDecodedInstruction : Obligations.StepRunsTheDecodedInstruction := by
  refine ⟨fun s t u i r ha he hl => step_listed ha he hl, fun s c cl ha hr hc => ⟨fun i hd => ?_, fun hd ho => ?_⟩,
    fun s ha hc => ?_, fun s w i hd => ?_, fun s t h1 h2 => ⟨lands_plain h1 h2, ?_⟩⟩
  · rw [step_run ha, run_decoded (fetched_of_runs hr hc) hd]
  · rw [step_run ha, run_illegal hr (by simp [Cx.word?, hc]) hd ho]
  · have hf : s.fetched = none := by simp [State.fetched, hc]
    simp [step_run ha, State.run, hf]
  · exact (step_run rfl).trans (run_decoded (fetched_withFetchWord s w) hd)
  · rw [State.after, landed_plain h1 h2]

/-! ### Special functions (05 R130, R131) -/

/-- Each special function is its code applied to each element. -/
theorem exec_special : ∀ p ∈ specialForms, ∀ (f : Tri) (s : State), exec (p.1 f) s = s.issue fun c => c.special f (p.2 f.ty) := by
  simp only [specialForms, List.forall_mem_cons]
  exact ⟨fun _ _ => rfl, fun _ _ => rfl, fun _ _ => rfl, fun _ _ => rfl, fun _ _ => rfl, fun _ _ => rfl, fun _ _ => rfl,
    fun _ _ => rfl, fun _ _ => rfl, fun _ _ => rfl, List.forall_mem_nil _⟩

/-- A long-latency form whose registers lie below V gives or owes its lane writes. -/
theorem vectorL_fits {c : Cx} {k : Ctl} {t : ETy} {dst a : Operand} {ta : ETy} (hd : c.fits dst t = true)
    (ha : c.fits a ta = true) (f : Nat → Nat) : c.vectorL k t dst [(a, ta)] f =
      (c.results k { left := 0, vs := laneWrites (c.included k) dst.vNum t.is64 f, ss := [], ps := [] }).retire := by
  simp [Cx.vectorL, hd, ha]

/-- Settles O9: the ten forms are one long-latency form, whose window decides when its lane writes arrive. -/
theorem specialFunctionResult : Obligations.SpecialFunctionResult := by
  intro p hp s c f hr hd ha value
  have he : exec (p.1 f) s = .next
      (c.results f.ctl { left := 0, vs := laneWrites (c.included f.ctl) f.dst.vNum f.ty.is64 value, ss := [], ps := [] }).retire := by
    rw [exec_special p hp, issue_of_runs hr, Cx.special, vectorL_fits hd ha]
  refine ⟨fun h => givesLanes hr ?_, fun h => ?_⟩
  · rw [he, results_here _ h]
    rfl
  · rw [he, results_owed _ h]

end Sys2Proof.Machine
end

section
/-! SUPPORT. The end of a clause (02 R40; 04 R83): what ending it leaves where no other split of the gang stands at the boundary that
follows. -/

namespace Sys2Proof.Machine

/-! ### Tables with a known place of a key -/

theorem Store.put_between {α : Type} {below above : Store α} {n : Nat} (x y : α) (h : ∀ q ∈ below, q.1 < n) :
    Store.put (below ++ (n, x) :: above) n y = below ++ (n, y) :: above := by
  induction below with
  | nil => simp [Store.put]
  | cons q r ih =>
    have hq := h q List.mem_cons_self
    have hr := ih fun p hp => h p (List.mem_cons_of_mem _ hp)
    simp [Store.put, Nat.ne_of_gt hq, Nat.not_lt_of_gt hq, hr]

theorem Store.find?_between {α : Type} {below above : Store α} {n : Nat} (x : α) (h : ∀ q ∈ below, q.1 < n) :
    Store.find? (below ++ (n, x) :: above) n = some x := by
  rw [← Store.put_between x x h, Store.find?_put, if_pos rfl]

/-! ### Re-ganging -/

theorem not_mergeable {P Q : Split} (h : Q.pc ≠ P.pc) : P.mergeable Q = false := by
  simp [Split.mergeable, Ne.symm h]

/-- The split `sp` is an entry of the table, and none of its siblings stands at `target`. -/
def AloneAt (splits : Store Split) (sp target : Nat) : Prop :=
  ∃ below P above, splits = below ++ (sp, P) :: above ∧ (∀ q ∈ below, q.1 < sp) ∧ (∀ q ∈ above, sp < q.1) ∧
    ∀ q ∈ below ++ above, q.2.pc ≠ target

theorem AloneAt.of_keys {splits : Store Split} {sp : Nat} (h : splits.keys = [sp]) (target : Nat) : AloneAt splits sp target := by
  obtain ⟨⟨k, P⟩, rfl, rfl⟩ := List.map_eq_singleton_iff.1 h
  exact ⟨[], P, [], by simp⟩

theorem AloneAt.put {splits : Store Split} {sp target : Nat} (h : AloneAt splits sp target) (P : Split) :
    AloneAt (splits.put sp P) sp target := by
  obtain ⟨below, Q, above, rfl, hb, ha, hn⟩ := h
  exact ⟨below, P, above, Store.put_between Q P hb, hb, ha, hn⟩

/-- A split that no sibling stands with re-gangs with none. -/
theorem regang_alone {G : Gang} {sp : Nat} {P : Split} (hP : G.splits.find? sp = some P) (h : AloneAt G.splits sp P.pc) :
    G.regang sp = G := by
  obtain ⟨below, Q, above, hs, hb, ha, hn⟩ := h
  have other : ∀ q ∈ below ++ above, (q.1 == sp || P.mergeable q.2) = false := by
    intro q hq
    have hk : q.1 ≠ sp := (List.mem_append.1 hq).elim (fun h => Nat.ne_of_lt (hb q h)) fun h => Nat.ne_of_gt (ha q h)
    simp [hk, not_mergeable (hn q hq)]
  have group : G.splits.filter (fun q => q.1 == sp || P.mergeable q.2) = [(sp, Q)] := by
    have nil : ∀ l : Store Split, (∀ q ∈ l, q ∈ below ++ above) → l.filter (fun q => q.1 == sp || P.mergeable q.2) = [] :=
      fun l hl => List.filter_eq_nil_iff.2 fun q hq => by simp [other q (hl q hq)]
    rw [hs, List.filter_append, List.filter_cons, nil below fun q => List.mem_append_left _,
      nil above fun q => List.mem_append_right _]
    simp
  unfold Gang.regang
  simp only [hP, group]

/-! ### Ending a clause -/

/-- The split as it stands at the boundary `target`. -/
def Cx.atBoundary (c : Cx) (target : Nat) : Split :=
  { c.P with
    pc := target, clause := none, wait := none, stalled := false, passed := 0, stcFrom := 0, reads := []
    yieldTo := if c.P.yielding then (Store.keep c.G.splits fun i Q => i != c.sp && Q.ready).keys else [], yielding := false }

theorem endClause_alone {c : Cx} {target : Nat} (hl : c.P.late = []) (h : AloneAt c.G.splits c.sp target) :
    c.endClause target = { ({ c with P := c.atBoundary target } : Cx).flush with cur := none } := by
  have hr : Gang.regang { c.G with splits := c.G.splits.put c.sp (c.atBoundary target) } c.sp =
      { c.G with splits := c.G.splits.put c.sp (c.atBoundary target) } :=
    regang_alone (P := c.atBoundary target) (by simp) (h.put _)
  rw [Cx.endClause, settle_of_none hl]
  exact congrArg (fun G => ({ c.s with cur := none, gangs := c.s.gangs.put c.g G } : State)) hr

/-- A split whose clause ends where no sibling stands is there, with its registers and memory as they were. -/
theorem endClause_stands {c : Cx} {target : Nat} (hl : c.P.late = []) (h : AloneAt c.G.splits c.sp target) :
    ∃ d, Stands c (c.endClause target) d target ∧ d.G.ops = c.G.ops := by
  rw [endClause_alone hl h]
  refine ⟨{ c with
    s := { ({ c with P := c.atBoundary target } : Cx).flush with cur := none }
    G := { c.G with splits := c.G.splits.put c.sp (c.atBoundary target) }
    P := c.atBoundary target }, ⟨rfl, ?_, rfl, ⟨rfl, rfl⟩, ⟨rfl, rfl, rfl⟩, ⟨rfl, rfl⟩, ⟨rfl, rfl⟩, rfl, fun _ _ => rfl, ?_⟩, rfl⟩
  · simp [State.cx?, Cx.flush]
  · intro g hg
    simp [Cx.flush, hg]

/-- The running context with its region marked closed where its instruction is irrevocable (09 R220). -/
def Cx.closing (c : Cx) (cl : Clause) : Cx :=
  { c with P := { c.P with closed := c.P.closed || isIrrevocable (cl.words.getD cl.pos 0) } }

theorem retire_last {c : Cx} {cl : Clause} (hl : c.P.late = []) (hc : c.P.clause = some cl) (hp : cl.stop ≤ cl.pos + 1) :
    c.retire = (c.closing cl).endClause cl.after := by
  simp [Cx.retire, ageLate_of_none hl, hc, Nat.not_lt.2 hp, Cx.closing]

/-- After the last instruction of its clause a split stands at the clause that follows, where no sibling stands there. -/
theorem retire_stands {c : Cx} (h : AtLast c) (ha : AloneAt c.G.splits c.sp (following c)) :
    ∃ d, Stands c c.retire d (following c) ∧ d.G.ops = c.G.ops := by
  obtain ⟨hl, cl, hc, hp⟩ := h
  have hf : following c = cl.after := by simp [following, hc, Clause.after]
  rw [hf] at ha ⊢
  rw [retire_last hl hc hp]
  obtain ⟨d, hd, ho⟩ := endClause_stands (c := c.closing cl) hl ha
  exact ⟨d, ⟨hd.cur, hd.there, hd.pc, hd.idle, hd.split, hd.scalars, hd.lanes, hd.world, hd.bytes, hd.gangs⟩, ho⟩

/-- In the midst of its clause a split goes on at the next word. -/
theorem clauseGoesOnAtNextWord : ClauseGoesOnAtNextWord := by
  intro s c cl hr hl hc hp
  obtain ⟨e, he, hs, ha, hv, hpr⟩ := onlyRegisters_retire (d := c) hr ⟨hl, cl, hc, hp⟩ rfl rfl rfl rfl rfl
  refine ⟨e, he, ⟨hs, ha⟩, ⟨hv, hpr⟩, { cl with pos := cl.pos + 1, begun := true }, ?_, rfl, rfl, rfl, rfl⟩
  rw [he.split]
  simp [Cx.advance, hc]

theorem clauseEndsAtNextHeader : ClauseEndsAtNextHeader := by
  rintro s c cl hr hl hc hp ⟨below, above, hs, hb, ha, hn⟩
  have hf : following c = cl.hdr + 8 * (cl.words.length + 1) := by simp [following, hc]
  obtain ⟨d, hd, -⟩ := retire_stands ⟨hl, cl, hc, hp⟩ ⟨below, c.P, above, hs, hb, ha, by rwa [hf]⟩
  obtain ⟨hcl, hw⟩ := hd.idle
  exact ⟨hd.cur, d, hd.there, hd.pc.trans hf, hcl, hw, hd.split.1, hd.scalars, hd.lanes, hr.state ▸ hd.bytes, hr.state ▸ hd.gangs⟩

/-- Settles O2, by the two cases of `Cx.retire`. -/
theorem clauseSequence : Obligations.ClauseSequence := ⟨clauseGoesOnAtNextWord, clauseEndsAtNextHeader⟩

end Sys2Proof.Machine
end

section
/-! SUPPORT. What writes of memory that no checkpoint logs leave of functions and registers, and irrevocable effects that touch
neither (09 R220; 19 R305 to R307). -/

namespace Sys2Proof.Machine

/-! ### Where a function keeps no checkpoint -/

theorem Stores.fns {s t : State} (h : Stores s t) : t.fns = s.fns := by rw [h.rest]

theorem Stores.mmio {s t : State} (h : Stores s t) : t.mmio = s.mmio := by rw [h.rest]

theorem Stores.ckpt {s t : State} {f : Nat} (h : Stores s t) (hk : (s.fn f).ckpt = none) : (t.fn f).ckpt = none := by
  rw [State.fn, h.fns]
  exact hk

theorem plainStore_stores {s : State} {f : Nat} (h : (s.fn f).ckpt = none) (k : Nat) (bs : List Byte) :
    Stores s (s.plainStore f k bs) := by
  have ho := overwrite_stores s f k bs
  have e : s.plainStore f k bs = s.overwrite f k bs := by simp only [State.plainStore, State.patchLog, ho.ckpt h]
  rw [e]
  exact ho

/-- A committed store marks no line in a log that is not kept. -/
theorem commitStore_stores {s : State} {f : Nat} (h : (s.fn f).ckpt = none) (k : Nat) (bs : List Byte) :
    Stores s (s.store f k bs true) := by
  have mark : ∀ ls : List Nat, ls.foldl (fun s line => s.logCommit f 1 0 0 (128 * line)) s = s := by
    intro ls
    induction ls with
    | nil => rfl
    | cons l r ih =>
      have hl : s.logCommit f 1 0 0 (128 * l) = s := by simp only [State.logCommit, h]
      rw [List.foldl_cons, hl, ih]
  rw [State.store, if_pos rfl, mark]
  exact plainStore_stores h k _

theorem deviceWrite_stores {s t : State} {f va : Nat} {ws : List Word} (h : (s.fn f).ckpt = none)
    (hw : s.deviceWrite f va ws = some t) : Stores s t := by
  unfold State.deviceWrite at hw
  split at hw
  · cases hw
    have ht := track_stores s false
    exact (ht _).trans (plainStore_stores ((ht _).ckpt h) _ _)
  · cases hw

/-- Records of a function in its rings, one after another; one whose slot cannot be written is left out. -/
theorem foldl_deviceWrite_stores {β : Type} {f : Nat} (va : β → Nat) (ws : β → List Word) (l : List β) :
    ∀ s : State, (s.fn f).ckpt = none → Stores s (l.foldl (fun s q => (s.deviceWrite f (va q) (ws q)).getD s) s) := by
  induction l with
  | nil => exact fun s _ => .refl s
  | cons q r ih =>
    intro s h
    have one : Stores s ((s.deviceWrite f (va q) (ws q)).getD s) := by
      cases hd : s.deviceWrite f (va q) (ws q) with
      | none => exact .refl s
      | some t => exact deviceWrite_stores h hd
    exact one.trans (ih _ (one.ckpt h))

theorem deliverMessage_stores {s : State} {b : Mailbox} (h : (s.fn b.fn).ckpt = none) (slot header : Nat) (ws : List Word) :
    Stores s (s.deliverMessage b slot header ws) := by
  have h1 := commitStore_stores h slot
    ((BitVec.ofNat 64 (header + b.tail % 65536 * 2 ^ 32) :: ws).flatMap fun w => bytesOf 8 w.toNat)
  exact h1.trans (plainStore_stores (h1.ckpt h) _ _)

/-! ### What going on leaves -/

/-- Going on changes the gang and the running split alone. -/
theorem retire_world (c : Cx) : c.retire = { c.s with cur := c.retire.cur, gangs := c.retire.gangs } := by
  have ended : ∀ (P : Split) (n : Nat), let t := ({ c.ageLate with P := P } : Cx).endClause n
      t = { c.s with cur := t.cur, gangs := t.gangs } := by
    intro P n
    simp only [Cx.endClause, settle_state, ageLate_state]
  unfold Cx.retire
  simp only
  split
  · split
    · simp only [Cx.flush, ageLate_state]
    · exact ended _ _
  · exact ended c.ageLate.P _

/-! ### Irrevocable effects -/

theorem settled'_fns (c : Cx) : c.settled'.s.fns = c.s.fns := by rw [settled'_s]

theorem settled'_reg (c : Cx) (off : Nat) : c.settled'.s.reg off = c.s.reg off := by rw [settled'_s]; rfl

theorem settled'_freg (c : Cx) (f off : Nat) : c.settled'.s.freg f off = c.s.freg f off := settled'_reg c _

theorem settled'_fnState (c : Cx) (f : Nat) : c.settled'.s.fn f = c.s.fn f := by rw [State.fn, settled'_fns]; rfl

theorem settled'_ckpt {c : Cx} (h : NoLog c.s c.G.fn) : (c.settled'.s.fn c.settled'.G.fn).ckpt = none := by
  rw [settled'_fn, settled'_fnState]
  exact h.2.1

/-- An irrevocable effect that touches neither functions nor registers is just done where no checkpoint is kept. -/
theorem commit_silent {c : Cx} {k : Cx → State} (h : NoLog c.s c.G.fn)
    (hk : (k c.settled').fns = c.settled'.s.fns ∧ (k c.settled').mmio = c.settled'.s.mmio) : c.commit k = k c.settled' := by
  obtain ⟨hf, hm⟩ := hk
  have ⟨_, hck, _, hp⟩ := h
  refine commit_here c k h ?_ ?_
  · rw [State.fn, hf, settled'_fns]
    exact hck
  · have e : (k c.settled').pstat c.G.fn = c.s.pstat c.G.fn := by
      simp only [State.pstat, State.ffield, State.freg, State.reg, hm]
      rw [settled'_s]
    rwa [e]

theorem retire_fns (c : Cx) : c.retire.fns = c.s.fns := by rw [retire_world]

theorem retire_mmio (c : Cx) : c.retire.mmio = c.s.mmio := by rw [retire_world]

theorem setSs_s (ws : List Word) : ∀ (c : Cx) (n : Nat), (c.setSs n ws).s = c.s := by
  induction ws with
  | nil => exact fun _ _ => rfl
  | cons w r ih => exact fun c n => (ih (c.setS n w) (n + 1)).trans rfl

theorem Acts.outside {s : State} {c : Cx} (h : Acts s c) (k : State) : c.outsideExit k = k := outsideExit_here c k h.2.1

/-! ### Service calls (09 R233, R234; 15 R255) -/

theorem mapVals_find? {α : Type} (m : Store α) (k : Nat → α → α) (n : Nat) :
    (m.mapVals k).find? n = (m.find? n).map (k n) := by
  induction m with
  | nil => rfl
  | cons q r ih =>
    by_cases h : n = q.1
    · subst h
      simp [Store.mapVals, Store.find?]
    · simpa [Store.mapVals, Store.find?, h] using ih

theorem maskOfList_lanesOf (m : Mask) : maskOfList (lanesOf m) = m := by
  refine BitVec.eq_of_getLsbD_eq fun l hl => ?_
  rw [maskOfList, maskOf_lane, decide_eq_true hl, Bool.true_and, Bool.eq_iff_iff, List.contains_iff_mem, mem_lanesOf]

theorem field_put_low (w : Word) (v : Nat) : (w.put 31 0 v).field 31 0 = v % 2 ^ 32 := by
  have hw := w.isLt
  simp only [Word.put, Word.field, bitsN, BitVec.toNat_ofNat]
  omega

/-- A split that is parked is where it was, parked, and waits for nothing. -/
theorem park_split (c : Cx) (s : State) (p : Park) : ∃ G P, (c.park s p).gangs.find? c.g = some G ∧
    G.splits.find? c.sp = some P ∧ P.parked = some p ∧ P.active = c.P.active := by
  let P : Split := { c.P with parked := some p, wait := none, stalled := true, late := [] }
  refine ⟨({ c.G with splits := c.G.splits.put c.sp P } : Gang).unyield c.sp, { P with yieldTo := P.yieldTo.filter (· != c.sp) },
    ?_, ?_, rfl, rfl⟩
  · simp [Cx.park, P]
  · simp [Gang.unyield, mapVals_find?]

theorem raiseVector_fns (s : State) (f v : Nat) : (s.raiseVector f v).fns = s.fns := by
  unfold State.raiseVector
  split
  · exact State.setFreg_fns ..
  · rfl

theorem raiseVector_freg (s : State) (f v off : Nat) (h : off ≠ 0x3F000) : (s.raiseVector f v).freg f off = s.freg f off := by
  unfold State.raiseVector
  split
  · rw [State.setFreg_freg, if_neg h]
  · rfl

/-- What a service call parks its split with. -/
def Cx.callPark (c : Cx) (f : Sys) (lanes : List Nat) : CallPark where
  callid := (c.s.fn c.G.fn).callid
  tags := lanes.zipIdx.map fun q => (q.1, Config.freeValue (c.s.tick + q.2))
  dst := f.dst.vNum
  results := Sys.nres f
  pred := f.sub.toNat
  waiting := maskOfList lanes
  answers := []

/-- A call, where no checkpoint is kept, writes memory, advances SRQPI and the CALLID, raises vector 1 and parks its split. -/
theorem call_eq {c : Cx} (h : (c.s.fn c.G.fn).ckpt = none) (f : Sys) (lanes : List Nat) : ∃ u, Stores c.s u ∧ c.call f lanes =
    let pi := c.s.ffield c.G.fn 0x818 31 0
    let v := u.setFreg c.G.fn 0x818 ((c.s.freg c.G.fn 0x818).put 31 0 ((pi + lanes.length) % 2 ^ 32))
    c.park (({ v.modFn c.G.fn fun x => { x with callid := ((c.s.fn c.G.fn).callid + 1) % 2 ^ 32 } with
      tick := v.tick + lanes.length } : State).raiseVector c.G.fn 1) (.call (c.callPark f lanes)) := by
  have hs := foldl_deviceWrite_stores (f := c.G.fn)
    (fun q : (Nat × Word) × Nat => (c.s.freg c.G.fn 0x800).toNat + 64 * ((c.s.ffield c.G.fn 0x818 31 0 + q.2) % c.s.srqSize c.G.fn))
    (fun q => c.requestEntry f (c.s.fn c.G.fn).callid lanes.length q.1.2 q.1.1)
    (lanes.zipIdx.map fun q => (q.1, Config.freeValue (c.s.tick + q.2))).zipIdx c.s h
  refine ⟨_, hs, ?_⟩
  have hr : ∀ {u}, Stores c.s u → u.freg c.G.fn 0x818 = c.s.freg c.G.fn 0x818 := fun hu => by
    simp only [State.freg, State.reg, hu.mmio]
  simp only [Cx.call, hr hs]
  rfl

theorem call_ckpt {c : Cx} (h : (c.s.fn c.G.fn).ckpt = none) (f : Sys) (lanes : List Nat) :
    ((c.call f lanes).fn c.G.fn).ckpt = none := by
  obtain ⟨u, hu, he⟩ := call_eq h f lanes
  have hp : ∀ s p, (c.park s p).fns = s.fns := fun _ _ => rfl
  have hm : ∀ (v : State) n, (({ v with tick := n } : State).raiseVector c.G.fn 1).fns = v.fns := fun v n => raiseVector_fns _ _ _
  rw [State.fn, he, hp, hm]
  show ((State.modFn _ _ _).fn _).ckpt = none
  rw [State.modFn_fn, if_pos rfl]
  show (State.fn _ _).ckpt = none
  rw [State.fn, State.setFreg_fns]
  exact hu.ckpt h

/-- Of the function's registers a call changes SRQPI, and pending bits. -/
theorem call_freg {c : Cx} (h : (c.s.fn c.G.fn).ckpt = none) (f : Sys) (lanes : List Nat) {off : Nat} (ho : off ≠ 0x3F000) :
    (c.call f lanes).freg c.G.fn off = if off = 0x818 then
      (c.s.freg c.G.fn 0x818).put 31 0 ((c.s.ffield c.G.fn 0x818 31 0 + lanes.length) % 2 ^ 32) else c.s.freg c.G.fn off := by
  obtain ⟨u, hu, he⟩ := call_eq h f lanes
  have hp : ∀ s p, (c.park s p).freg c.G.fn off = s.freg c.G.fn off := fun _ _ => rfl
  have hm : ∀ (v : State) k n, ({ v.modFn c.G.fn k with tick := n } : State).freg c.G.fn off = v.freg c.G.fn off := fun _ _ _ => rfl
  have hr : u.freg c.G.fn off = c.s.freg c.G.fn off := by simp only [State.freg, State.reg, hu.mmio]
  simp only [he, hp, raiseVector_freg _ _ _ _ ho, hm, State.setFreg_freg, hr]

theorem call_pstat {c : Cx} (h : (c.s.fn c.G.fn).ckpt = none) (f : Sys) (lanes : List Nat) :
    (c.call f lanes).pstat c.G.fn = c.s.pstat c.G.fn := by
  simp only [State.pstat, State.ffield, call_freg h f lanes (show 0xB38 ≠ 0x3F000 by decide)]
  rfl

theorem call_srqpi {c : Cx} (h : (c.s.fn c.G.fn).ckpt = none) (f : Sys) (lanes : List Nat) :
    (c.call f lanes).ffield c.G.fn 0x818 31 0 = (c.s.ffield c.G.fn 0x818 31 0 + lanes.length) % 2 ^ 32 := by
  rw [State.ffield, call_freg h f lanes (by decide), if_pos rfl, field_put_low, Nat.mod_mod]

theorem serviceCalls : ServiceCalls := by
  intro s c f ha hfa hfd fn lanes size pi ci on
  obtain ⟨hr, -, hn⟩ := id ha
  obtain rfl := hr.state
  have fits : (c.fitsN f.a (Sys.nargs f + 1) && (Sys.nres f == 0 || c.fitsN f.dst (Sys.nres f))) = true := by
    rw [Bool.and_eq_true, Bool.or_eq_true, beq_iff_eq]
    exact ⟨hfa, hfd⟩
  have he : exec (.scall f) c.s = .next (
      if c.P.active = 0 then c.retire
      else if c.s.ffield fn 0x810 8 8 = 0 ∨ size < lanes.length then c.fault 0x04
      else match c.s.unwritable fn (c.s.freg fn 0x800).toNat (64 * size) with
        | some (code, va) => c.sysFault code va .write (walkUnit code)
        | none => if c.s.srqRoom fn lanes.length then c.commit fun c => c.call f lanes else c.waitFor .scallRoom) := by
    show c.s.issue _ = _
    rw [issue_of_runs hr, ha.outside, fits]
    rfl
  refine ⟨fun h0 => ?_, fun h0 hno => ?_, fun h0 ⟨hon, hfit⟩ hw => ⟨fun hfull => ?_, fun hroom => ?_⟩⟩
  · rw [he, if_pos h0]
  · have off : c.s.ffield fn 0x810 8 8 = 0 ∨ size < lanes.length := by
      rcases Decidable.em (c.s.ffield fn 0x810 8 8 = 0) with h | h
      · exact .inl h
      · exact .inr (Nat.lt_of_not_le fun hle => hno ⟨h, hle⟩)
    rw [he, if_neg h0, if_pos off]
  all_goals
    have open_ : ¬(c.s.ffield fn 0x810 8 8 = 0 ∨ size < lanes.length) := fun h => h.elim hon (Nat.not_lt.2 hfit)
    rw [if_neg h0, if_neg open_, hw] at he
  · have hq : c.s.srqRoom fn lanes.length = false := decide_eq_false (Nat.not_le.2 hfull)
    rw [he, hq]
    rfl
  · have hq : c.s.srqRoom fn lanes.length = true := decide_eq_true hroom
    have hk := settled'_ckpt hn
    have hfn := settled'_fn c
    have hps : c.s.pstat c.G.fn ≠ 1 := hn.2.2.2
    have hc : c.commit (fun c => c.call f lanes) = c.settled'.call f lanes := by
      refine commit_here c _ hn ?_ ?_
      · rw [← hfn]
        exact call_ckpt hk f lanes
      · rw [← hfn, call_pstat hk, hfn, State.pstat, State.ffield, settled'_freg]
        exact hps
    refine ⟨by rw [he, hq, ← hc]; rfl, ?_⟩
    obtain ⟨u, -, hu⟩ := call_eq hk f lanes
    have hplace : c.settled'.g = c.g ∧ c.settled'.sp = c.sp ∧ c.settled'.P = c.settle.P := by
      rw [settled'_eq]
      exact ⟨(settle_place c).1, (settle_place c).2.1, rfl⟩
    obtain ⟨hg, hsp, hP⟩ := hplace
    obtain ⟨G, P, hG, hPs, hpark, hact⟩ := park_split c.settled' _ _
    rw [← hu, hg] at hG
    rw [hsp] at hPs
    refine ⟨G, P, _, hG, hPs, hpark, maskOfList_lanesOf _, ?_, hact.trans (by rw [hP]), ?_⟩
    · show (c.settled'.s.fn c.settled'.G.fn).callid = _
      rw [hfn, settled'_fnState]
    · show State.ffield _ c.G.fn _ _ _ = _
      rw [← hfn, call_srqpi hk, hfn, State.ffield, settled'_freg]
      rfl

/-! ### Mailboxes (09 R241 to R243) -/

theorem reach_arrives {c : Cx} {va key : Nat} {acc : Acc} {t : State} (h : Arrives c va acc key t) (k : Cx → Nat → State) :
    c.reach va acc k = k { c with s := t } key := by
  obtain ⟨hh, hp⟩ := h
  simp only [Cx.reach, hh, hp, Bool.false_eq_true, if_false]

/-- A send to an own mailbox that is on reaches its descriptor and its slot. -/
theorem sendTo_own {s t u : State} {c : Cx} {h : Word} {at_ slot : Nat} (hc : c.s = s) (ho : handleOk h = true)
    (hr : receiver h c.G.fn = c.G.fn) (h96 : c.G.fn ≤ 96) (hen : s.fnEnabled c.G.fn = true)
    (h1 : Arrives c (s.mailboxVa c.G.fn (h.field 11 0)) .atomic at_ t) (hon : (t.mailboxAt c.G.fn at_).on = true)
    (h2 : Arrives { c with s := t } ((t.mailboxAt c.G.fn at_).slotVa (t.mailboxAt c.G.fn at_).tail) .write slot u)
    (k : Cx → Mailbox → Nat → State) : c.sendTo h k = k { c with s := u } (t.mailboxAt c.G.fn at_) slot := by
  subst hc
  simp only [Cx.sendTo, ho, hr, hen, Nat.not_lt.2 h96, Bool.not_true, decide_false, Bool.or_self, Bool.false_eq_true, if_false,
    if_true, reach_arrives h1, hon, bne_self_eq_false, Bool.false_and, reach_arrives h2]

theorem sendTo_badHandle {c : Cx} {h : Word} (ho : handleOk h = false) (k : Cx → Mailbox → Nat → State) :
    c.sendTo h k = c.fault 0x04 := by
  simp [Cx.sendTo, ho]

/-- What an mbsend does once its checks have passed. -/
def Cx.sent (c : Cx) (f : Sys) (b : Mailbox) (slot : Nat) : State :=
  (({ c with
    s := { c.s.deliverMessage b slot (c.G.fn * 2 ^ 56) (sevenWords c f) with handle := c.s.handle + 1 }
    G := (c.G.addOp 3 c.s.handle).endOp c.s.handle } : Cx).hand (.message b.key b.tail) c.P.active).retire

/-- What an mbrecv does once it has reached the message at HEAD of its mailbox. -/
def Cx.taken (c : Cx) (f : Sys) (b : Mailbox) (slot : Nat) : State :=
  ((({ c with s := c.s.plainStore b.fn (b.key + 16) (bytesOf 8 ((b.w 2).put 31 0 (b.head + 1)).toNat) } : Cx).did
    (.take (.message b.key b.head) c.P.member)).setSs f.dst.sNum
      ((List.range 8).map fun j => BitVec.ofNat 64 (c.s.read b.fn (slot + 8 * j) 8))).retire

/-- What an mbrecv with NOWAIT gives from an empty mailbox. -/
def Cx.tookNone (c : Cx) (f : Sys) : State := (c.setSs f.dst.sNum (BitVec.allOnes 64 :: List.replicate 7 0)).retire

theorem sent_silent {c : Cx} {b : Mailbox} (h : (c.s.fn b.fn).ckpt = none) (f : Sys) (slot : Nat) :
    (c.sent f b slot).fns = c.s.fns ∧ (c.sent f b slot).mmio = c.s.mmio := by
  have hs := deliverMessage_stores h slot (c.G.fn * 2 ^ 56) (sevenWords c f)
  unfold Cx.sent
  generalize c.s.deliverMessage b slot (c.G.fn * 2 ^ 56) (sevenWords c f) = u at hs ⊢
  rw [retire_fns, retire_mmio]
  exact ⟨hs.fns, hs.mmio⟩

theorem taken_silent {c : Cx} {b : Mailbox} (h : (c.s.fn b.fn).ckpt = none) (f : Sys) (slot : Nat) :
    (c.taken f b slot).fns = c.s.fns ∧ (c.taken f b slot).mmio = c.s.mmio := by
  have hs := plainStore_stores h (b.key + 16) (bytesOf 8 ((b.w 2).put 31 0 (b.head + 1)).toNat)
  unfold Cx.taken
  generalize c.s.plainStore b.fn (b.key + 16) (bytesOf 8 ((b.w 2).put 31 0 (b.head + 1)).toNat) = u at hs ⊢
  rw [retire_fns, retire_mmio, setSs_s]
  exact ⟨hs.fns, hs.mmio⟩

theorem tookNone_silent (c : Cx) (f : Sys) : (c.tookNone f).fns = c.s.fns ∧ (c.tookNone f).mmio = c.s.mmio := by
  rw [Cx.tookNone, retire_fns, retire_mmio, setSs_s]
  exact ⟨rfl, rfl⟩

theorem settled'_mailbox {c : Cx} (h : NoLog c.s c.G.fn) {b : Mailbox} (hb : b.fn = c.G.fn) :
    (c.settled'.s.fn b.fn).ckpt = none := by
  rw [hb, ← settled'_fn]
  exact settled'_ckpt h

theorem commit_sent {c : Cx} (h : NoLog c.s c.G.fn) (f : Sys) (b : Mailbox) (hb : b.fn = c.G.fn) (slot : Nat) :
    c.commit (fun d => d.sent f b slot) = c.settled'.sent f b slot :=
  commit_silent h (sent_silent (settled'_mailbox h hb) f slot)

theorem commit_taken {c : Cx} (h : NoLog c.s c.G.fn) (f : Sys) (b : Mailbox) (hb : b.fn = c.G.fn) (slot : Nat) :
    c.commit (fun d => d.taken f b slot) = c.settled'.taken f b slot :=
  commit_silent h (taken_silent (settled'_mailbox h hb) f slot)

theorem commit_tookNone {c : Cx} (h : NoLog c.s c.G.fn) (f : Sys) : c.commit (fun d => d.tookNone f) = c.settled'.tookNone f :=
  commit_silent h (tookNone_silent _ f)

theorem exec_mbsend {s : State} {c : Cx} (ha : Acts s c) (f : Sys) : exec (.mbsend f) s = .next (c.sendTo (c.sreg f.dst.sNum)
    fun c b slot =>
      if b.depth ≤ b.count then (if f.sub = 1 then c.waitFor .mbsend else c.fault 0x0B)
      else if 63 ≤ c.G.k 3 then c.waitFor (.counter 3)
      else c.commit fun c => c.sent f b slot) := by
  show s.issue _ = _
  rw [issue_of_runs ha.1, ha.outside]
  rfl

/-- An mbrecv at an own mailbox that is on. -/
theorem exec_mbrecv {s t : State} {c : Cx} {at_ : Nat} (ha : Acts s c) (f : Sys) (ho : handleOk (c.sreg f.a.sNum) = true)
    (hr : receiver (c.sreg f.a.sNum) c.G.fn = c.G.fn)
    (h1 : Arrives c (s.mailboxVa c.G.fn ((c.sreg f.a.sNum).field 11 0)) .atomic at_ t)
    (hon : (t.mailboxAt c.G.fn at_).on = true) : exec (.mbrecv f) s = .next (
      if (t.mailboxAt c.G.fn at_).count = 0 then
        if f.sub = 1 then ({ c with s := t } : Cx).commit fun c => c.tookNone f else ({ c with s := t } : Cx).waitFor .mbrecv
      else ({ c with s := t } : Cx).reach ((t.mailboxAt c.G.fn at_).slotVa (t.mailboxAt c.G.fn at_).head) .read
        fun c' slot => c'.commit fun c' => c'.taken f (t.mailboxAt c.G.fn at_) slot) := by
  obtain rfl := ha.1.state
  show c.s.issue _ = _
  rw [issue_of_runs ha.1, ha.outside]
  simp only [ho, hr, Bool.not_true, bne_self_eq_false, Bool.or_self, Bool.false_eq_true, if_false, reach_arrives h1, hon]
  rfl

theorem mailboxes : Mailboxes := by
  intro s t u c f at_ slot ha ht hu fn h i b d e
  have hcs := ha.1.state
  refine ⟨fun ho hr h96 hen h1 hon h2 => ?_, fun ho => ?_, fun ho hr h1 hon => ?_, fun hr => ?_⟩
  · rw [exec_mbsend ha, sendTo_own hcs ho hr h96 hen h1 hon h2]
    refine ⟨fun hroom hk => ?_, fun hfull hw => ?_, fun hfull hw => ?_⟩
    · have hc := commit_sent (c := { c with s := u }) hu f (t.mailboxAt c.G.fn at_) rfl slot
      rw [if_neg (Nat.not_le.2 hroom), if_neg (Nat.not_le.2 hk), hc, Cx.sent, settled'_fn]
      rfl
    · rw [if_pos hfull, if_pos hw]
    · rw [if_pos hfull, if_neg hw]
  · rw [exec_mbsend ha, sendTo_badHandle ho]
  · rw [exec_mbrecv ha f ho hr h1 hon]
    refine ⟨fun hne h2 => ?_, fun h0 hw => ?_, fun h0 hw => ?_⟩
    · have hc := commit_taken (c := { c with s := u }) hu f (t.mailboxAt c.G.fn at_) rfl slot
      rw [if_neg hne]
      exact congrArg _ ((reach_arrives h2 _).trans hc)
    · rw [if_pos h0, if_pos hw, commit_tookNone (c := { c with s := t }) ht f]
      rfl
    · rw [if_pos h0, if_neg hw]
  · show s.issue _ = _
    have hb : (receiver (c.sreg f.a.sNum) c.G.fn != c.G.fn) = true := bne_iff_ne.2 hr
    rw [issue_of_runs ha.1, ha.outside]
    simp only [hb, Bool.or_true, if_true]

/-! ### Network sends (22 R355, R358) -/

theorem exec_netsend {s : State} {c : Cx} (ha : Acts s c) (f : Sys) (h1 : (c.sreg f.dst.sNum).field 63 48 = 0)
    (h2 : (c.sreg f.dst.sNum).field 39 23 = 0) (h3 : (c.sreg f.dst.sNum).field 15 12 = 0) (hk : c.G.k 3 < 63) :
    exec (.netsend f) s = .next (
      if (c.sreg f.dst.sNum).field 47 40 ≠ s.umid ∧ (s.reg 0x70000).field 40 40 = 0 then c.waitFor .memory
      else c.commit fun d => d.netSend f) := by
  obtain rfl := ha.1.state
  show c.s.issue _ = _
  rw [issue_of_runs ha.1, ha.outside]
  simp only [h1, h2, h3, Nat.not_le.2 hk, ne_eq, not_true_eq_false, or_self, if_false]

/-- What a send to another package leaves: its packet sent, and the split waiting for the response. -/
def Cx.netQueued (c : Cx) (f : Sys) : State :=
  ({ c with
    s := { c.s with
      handle := c.s.handle + 1
      nets := c.s.nets.put c.s.handle { g := c.g, sp := c.sp, fn := c.G.fn, wait := f.sub == 1, packet := c.netPacket f }
      outbox := c.s.outbox ++ [c.netPacket f] }
    G := c.G.addOp 3 c.s.handle } : Cx).waitFor (.net c.s.handle)

theorem netPacket_dpkg (c : Cx) (f : Sys) : (c.netPacket f).dpkg.toNat = (c.sreg f.dst.sNum).field 47 40 := by
  refine (BitVec.toNat_ofNat ..).trans (Nat.mod_eq_of_lt ?_)
  simp only [Word.field, bitsN]
  omega

theorem netSend_away {c : Cx} {f : Sys} (h : (c.sreg f.dst.sNum).field 47 40 ≠ c.s.umid)
    (hr : c.s.reachable ((c.sreg f.dst.sNum).field 47 40) = true) : c.netSend f = c.netQueued f := by
  rw [← netPacket_dpkg] at h hr
  simp only [Cx.netSend, if_neg h, hr, Bool.not_true, Bool.false_eq_true, if_false]
  rfl

theorem settled'_reachable (c : Cx) (d : Nat) : c.settled'.s.reachable d = c.s.reachable d := by
  simp only [State.reachable, settled'_reg]

theorem settled'_umid (c : Cx) : c.settled'.s.umid = c.s.umid := by simp only [State.umid, settled'_reg]

theorem commit_netSend {c : Cx} {f : Sys} (hn : NoLog c.s c.G.fn) (h : (c.settled'.sreg f.dst.sNum).field 47 40 ≠ c.s.umid)
    (hr : c.s.reachable ((c.settled'.sreg f.dst.sNum).field 47 40) = true) :
    c.commit (fun d => d.netSend f) = c.settled'.netQueued f := by
  have he : c.settled'.netSend f = c.settled'.netQueued f :=
    netSend_away (by rwa [settled'_umid]) (by rwa [settled'_reachable])
  refine (commit_silent hn ?_).trans he
  rw [he]
  exact ⟨rfl, rfl⟩

/-- A context found in a state is found in one with the same gangs. -/
theorem cx?_of_gangs {s : State} {c : Cx} {g sp : Nat} (h : s.cx? g sp = some c) (t : State) (hg : t.gangs = s.gangs) :
    t.cx? g sp = some { c with s := t } := by
  obtain ⟨hG, hP⟩ := cx?_found h
  obtain ⟨-, rfl, rfl⟩ := cx?_s h
  simp only [State.cx?, hg, hG, hP, Option.bind_some, Option.map_some]

/-- An effect on a split on its core, of a function that keeps no checkpoint. -/
theorem onKept_here {s : State} {c : Cx} {g sp : Nat} (h : s.cx? g sp = some c) (hc : s.cur = none) {k : Cx → State}
    (hf : (k c).fns = s.fns) (hk : (s.fn c.G.fn).ckpt = none) : s.onKept g sp k = { k c with cur := none } := by
  have hg := (cx?_found h).1
  have ho : s.onSplit g sp k = { k c with cur := none } := by simp only [State.onSplit, h, hc, Option.filter_none]
  have hn : (State.fn { k c with cur := none } c.G.fn).ckpt = none := by
    rw [State.fn, hf]
    exact hk
  simp only [State.onKept, hg, ho, State.onCkpt, hn]

/-- The response to a send for another package. -/
theorem exec_netsendResponse {s : State} {id : Nat} {o : NetOp} (h : s.nets.find? id = some o) (ho : o.packet.dpkg.toNat ≠ s.umid)
    (ans : NetAnswer) : exec (.netsendResponse id ans) s = .next (s.netAnswer id o ans) := by
  have hs : o.stays s = false := beq_false_of_ne ho
  show execNetsendResponse id ans s = _
  simp only [execNetsendResponse, h, hs, Bool.false_eq_true, if_false]

/-- The sending split as its send ends: counted no more, and waiting no more. -/
def Cx.netEnded (c : Cx) (id : Nat) : Cx :=
  { c with s := { c.s with nets := c.s.nets.erase id }, G := c.G.endOp id, P := { c.P with wait := none } }

theorem endSend_accept {s : State} {c : Cx} {id : Nat} {o : NetOp} (h : s.cx? o.g o.sp = some c) (hc : s.cur = none)
    (hw : c.P.wait = some (.net id)) (hk : (s.fn c.G.fn).ckpt = none) :
    s.endSend id o Cx.retire = { (c.netEnded id).retire with cur := none } := by
  obtain rfl := (cx?_s h).1
  have hx := cx?_of_gangs h { c.s with nets := c.s.nets.erase id } rfl
  rw [State.endSend, onKept_here hx hc]
  · simp only [hw, if_true]
    rfl
  · simp only [hw, if_true]
    exact retire_fns _
  · exact hk

theorem networkSends : NetworkSends := by
  refine ⟨fun s c f ha h1 h2 h3 hk hd hoff => ?_, fun s c f ha hset h1 h2 h3 hk hd hreach hon => ?_,
    fun s c id o hid hx hcur hd hw hl hkeys hck => ⟨?_, fun hw => ?_, ?_, fun hw => ?_⟩⟩
  · rw [exec_netsend ha f h1 h2 h3 hk, if_pos ⟨hd, hoff⟩]
  · have hs := ha.1.state
    have hc := commit_netSend (c := c) (f := f) (by rw [hs]; exact ha.2.2) (by rw [hs, ← hset]; exact hd)
      (by rw [hs, ← hset]; exact hreach)
    have hon' : ¬((c.sreg f.dst.sNum).field 47 40 ≠ s.umid ∧ (s.reg 0x70000).field 40 40 = 0) := fun hn => by
      rw [hon] at hn
      exact absurd hn.2 (by decide)
    rw [exec_netsend ha f h1 h2 h3 hk, if_neg hon', hc]
    simp only [Cx.netQueued, Cx.netPacket, ← hset]
    rfl
  · obtain ⟨rfl, -, hsp⟩ := cx?_s hx
    rw [← hsp] at hkeys
    obtain ⟨e, he, hops⟩ := retire_stands (c := c.netEnded id) hl (AloneAt.of_keys hkeys _)
    refine ⟨(c.netEnded id).retire, e, ?_, ?_, he, hops⟩
    · have hcn : { (c.netEnded id).retire with cur := none } = (c.netEnded id).retire := by rw [← he.cur]
      rw [exec_netsendResponse hid hd, State.netAnswer, endSend_accept hx hcur hw hck, hcn]
    · rw [he.world]
      exact (Store.find?_erase _ _ _).trans (if_pos rfl)
  · rw [exec_netsendResponse hid hd, State.netAnswer, if_pos hw]
  · exact exec_netsendResponse hid hd _
  · rw [exec_netsendResponse hid hd, State.netAnswer, if_neg (by simp [hw])]

/-- In an exit routine each of the four faults (09 R224). -/
theorem exec_exiting {s : State} {c : Cx} {f : Sys} (hr : Runs s c) (hx : c.P.rstate = 1) :
    ∀ i ∈ [Instr.scall f, .mbsend f, .mbrecv f, .netsend f], exec i s = .next (c.fault 0x00) := by
  have out : ∀ k : Cx → State, (s.issue fun c => c.outsideExit (k c)) = .next (c.fault 0x00) := fun k => by
    rw [issue_of_runs hr, outsideExit_exiting _ _ hx]
  simp only [List.forall_mem_cons]
  exact ⟨out _, out _, out _, out _, List.forall_mem_nil _⟩

/-- Settles O43: each instruction passes its checks, and where no checkpoint is kept its effect is done on the settled context. -/
theorem callsAndMessages : Obligations.CallsAndMessages :=
  ⟨serviceCalls, mailboxes, networkSends, fun _ _ _ hr hx => exec_exiting hr hx⟩

end Sys2Proof.Machine
end

section
/-! SUPPORT. How a clause is entered: its fetch, its header waits and holds, and its selection (02 R39 to R43; 04 R84, R89; 16 R261). -/

namespace Sys2Proof.Machine

/-- An effect of the machine on one split, while none runs. -/
theorem onSplit_idle {s : State} {c : Cx} {g sp : Nat} (h : s.cx? g sp = some c) (hc : s.cur = none) (k : Cx → State) :
    s.onSplit g sp k = { k c with cur := none } := by
  simp only [State.onSplit, h, hc, Option.filter_none]

theorem idle_eq {t : State} (h : t.cur = none) : { t with cur := none } = t := by rw [← h]

/-! ### The fetch of a clause -/

theorem Stores.cur {s t : State} (h : Stores s t) : t.cur = s.cur := by rw [h.rest]

theorem fetched_cur (c : Cx) : c.fetched.s.cur = c.s.cur := (Stores.foldl _ _ (fun s k => track_stores s false k) c.s).cur

theorem atHeader_of_idle {P : Split} (hc : P.clause = none) (hw : P.wait = none) (hp : P.parked = none) (hs : P.saved = false)
    (ho : P.wonly = false) (hm : P.member ≠ 0) : P.atHeader = true := by
  simpa [Split.atHeader, hc, hw, hp, hs, ho] using hm

/-- What a fetch leaves, whatever it gives. -/
theorem exec_clauseFetch {s : State} {c : Cx} {g sp : Nat} (h : s.cx? g sp = some c) (hc : s.cur = none)
    (hh : c.P.atHeader = true) (hf : c.fetchHeld c.P.pc = false) :
    exec (.clauseFetch g sp) s = .next { (match c.fetch c.P.pc with
      | .fault code a acc => c.fetched.headerFault code a acc
      | .ok k =>
        if clauseDefect k.header k.words then c.fetched.headerFault 0x02 0 0
        else if c.G.fresh && !k.words.head?.any isMarker then c.fetched.headerFault 0x01 0 0
        else if c.P.closed && !k.words.head?.any isMarker then c.fetched.headerFault 0x02 0 0
        else { c.fetched.enterClause k with
          gangs := Store.update (c.fetched.enterClause k).gangs g fun G => G.regang sp }) with cur := none } := by
  have free : ¬(!c.P.atHeader || c.fetchHeld c.P.pc) = true := by simp [hh, hf]
  refine congrArg Host.Outcome.next ((onSplit_idle h hc _).trans ?_)
  exact congrArg (fun t : State => { t with cur := none }) (if_neg free)

theorem Store.update_same {α : Type} {m : Store α} {n : Nat} {x : α} {f : α → α} (h : m.find? n = some x) (hf : f x = x)
    (hp : m.put n x = m) : m.update n f = m := by
  simp only [Store.update, h, hf, hp]

theorem Store.put_put {α : Type} (m : Store α) (n : Nat) (x y : α) : (m.put n x).put n y = m.put n y := by
  induction m with
  | nil => simp [Store.put]
  | cons q r ih =>
    obtain ⟨k, v⟩ := q
    by_cases hk : n = k
    · simp [Store.put, hk]
    · by_cases hl : n < k
      · simp [Store.put, hk, hl]
      · simp [Store.put, hk, hl, ih]

/-- Re-ganging a gang's only split, just stored back, merges nothing. -/
theorem regang_flush_only {c : Cx} (h : c.G.splits.keys = [c.sp]) :
    Store.update c.flush.gangs c.g (fun G => G.regang c.sp) = c.flush.gangs := by
  have found : c.flush.gangs.find? c.g = some { c.G with splits := c.G.splits.put c.sp c.P } := by rw [flush_gang, if_pos rfl]
  refine Store.update_same found (regang_alone (P := c.P) ?_ ((AloneAt.of_keys h c.P.pc).put c.P)) (Store.put_put ..)
  rw [Store.find?_put, if_pos rfl]

theorem enterClause_eq (c : Cx) (k : Code) :
    c.enterClause k = ({ c with P := { c.P with
      wait := if opcodeOf (k.words.headD 0) = 0x01C ∧ c.P.rstate ≠ 1 then some .held else none
      clause := some { hdr := c.P.pc, header := k.header, words := k.words, pos := 0, stop := k.words.length
                       waited := false, begun := false, desc := k.desc } } } : Cx).flush := by
  simp only [Cx.enterClause, Bool.and_eq_true, beq_iff_eq, bne_iff_ne]

/-! ### The waits of a header -/

/-- A split finds what no other gang has initialised as it stands. -/
theorem finds_ours {c : Cx} {n : Nat} (h : Ours c n) : c.s.finds c.home c.actor n = (c.s, true) := by
  have hp : c.s.placesOf c.home c.actor (initKey c.home.team n) 1 none = [] := by
    simp only [State.placesOf, show c.s.contended c.home c.actor (initKey c.home.team n) 1 = false from h, Bool.not_false, if_true]
  simp only [State.finds, hp]

theorem findPoints_ours {c : Cx} : ∀ {l : List Nat}, (∀ q ∈ l, Ours c q) → c.findPoints l = (c, true)
  | [], _ => rfl
  | q :: r, h => by
    have hr := findPoints_ours fun p hp => h p (List.mem_cons_of_mem _ hp)
    simp only [Cx.findPoints, finds_ours (h q List.mem_cons_self)]
    exact congrArg (fun x : Cx × Bool => (x.1, true && x.2)) hr

theorem met_cur (l : List Nat) : ∀ c : Cx, (l.foldl Cx.met c).s.cur = c.s.cur := by
  induction l with
  | nil => exact fun _ => rfl
  | cons q r ih => exact fun c => ih (c.met q)

theorem covers2_cur (c : Cx) (t : Nat) : (c.covers2 t).s.cur = c.s.cur := by
  unfold Cx.covers2
  split <;> rfl

/-! ### Selection -/

/-- The split is the only one of the only gang, at a header whose waits are over; nothing else runs or keeps it from being selected. -/
structure Selectable (s : State) (c : Cx) (cl : Clause) : Prop where
  there : s.cx? c.g c.sp = some c
  idle : s.cur = none
  gangs : s.gangs = [(c.g, c.G)]
  splits : c.G.splits = [(c.sp, c.P)]
  clause : c.P.clause = some cl
  waited : cl.waited = true
  begun : cl.begun = false
  wait : c.P.wait = none
  parked : c.P.parked = none
  saved : c.P.saved = false
  log : s.hasLog c.G.fn = false
  pstat : s.pstat c.G.fn ≠ 2
  open_ : s.stopped c.G.fn = false

namespace Selectable

variable {s : State} {c : Cx} {cl : Clause}

theorem readyAt (h : Selectable s c cl) : c.P.readyAt = true := by
  simp [Split.readyAt, h.parked, h.wait, h.saved, h.clause, h.waited, h.begun]

theorem onQuarter (h : Selectable s c cl) : s.onQuarter c.G.quarterNo = [(c.g, c.G)] := by
  simp [State.onQuarter, Store.keep, h.gangs]

theorem stalledOn_none (h : Selectable s c cl) {p : Close → Split → Bool} (hp : ∀ k, p k c.P = false) :
    s.stalledOn c.G.quarterNo p = none := by
  simp [State.stalledOn, h.onQuarter, h.splits, rotated, Nat.mod_one, hp]

theorem resumed_none (h : Selectable s c cl) : s.resumed c.G.quarterNo = none :=
  h.stalledOn_none fun k => by simp [Split.resumes, h.clause, h.begun]

theorem tried_none (h : Selectable s c cl) : s.tried c.G.quarterNo = none :=
  h.stalledOn_none fun k => by simp [Split.retries, h.wait]

theorem midClause_none (h : Selectable s c cl) : s.splitOn c.G.quarterNo Split.midClause = none := by
  simp [State.splitOn, h.onQuarter, h.splits, Split.midClause, h.clause, h.begun]

theorem not_running (h : Selectable s c cl) : s.running c.G.quarterNo = false := by
  simp [State.running, h.idle]

theorem not_unsettled (h : Selectable s c cl) : s.unsettled c.G.quarterNo = false := by
  simp [State.unsettled, h.onQuarter, h.splits, Split.atHeader, h.clause, h.wait, h.waited]

/-- The gang's opportunity goes to its only split, whether or not a yield holds it back. -/
theorem choose (h : Selectable s c cl) : c.G.choose false = some c.sp := by
  have pool : c.G.readySplits false = [(c.sp, c.P)] := by
    by_cases hy : c.P.ready = true
    · simp [Gang.readySplits, Gang.releases, Gang.may, Store.keep, h.splits, hy]
    · simp [Gang.readySplits, Gang.releases, Gang.may, Store.keep, h.splits, hy, h.readyAt]
  by_cases hp : 1024 ≤ c.P.passed
  · simp [Gang.choose, pool, hp]
  · simp [Gang.choose, pool, hp, Store.keys]

theorem chosen (h : Selectable s c cl) : s.chosen c.G = some c.sp := by
  have running : (s.pstat c.G.fn == 2) = false := beq_false_of_ne h.pstat
  simp [State.chosen, State.awaitsMark, h.log, h.open_, running, h.choose]

theorem selectGang (h : Selectable s c cl) : s.selectGang c.G.quarterNo = some c.g := by
  simp [State.selectGang, h.onQuarter, Store.keep, Gang.stalls, h.splits, h.clause, h.begun, h.chosen]

end Selectable

/-! ### The split begins to issue -/

theorem drain_bytes (s : State) (d : Nat) : SameBytes s (s.drain d) := by
  intro f k
  unfold State.drain
  split
  · rfl
  · split
    · rfl
    · split <;> rfl

theorem freeGroup_bytes (s : State) (G : Gang) : SameBytes s (s.freeGroup G) := by
  intro f k
  unfold State.freeGroup
  split
  · exact drain_bytes _ _ f k
  · rfl

theorem meets_bytes (h : Home) (l : List Mask) : ∀ s : State, SameBytes s (l.foldl (fun s m => s.did h (.meet m)) s) := by
  induction l with
  | nil => exact fun _ _ _ => rfl
  | cons m r ih => exact fun s => ih (s.did h (.meet m))

theorem begin_bytes (c : Cx) : SameBytes c.s c.begin := fun f k =>
  (meets_bytes c.home c.G.merged (c.s.freeGroup c.G) f k).trans (freeGroup_bytes c.s c.G f k)

/-- The split of `c` runs in `d`, its clause begun and its registers as they were. -/
structure Begins (c : Cx) (t : State) (d : Cx) : Prop where
  runs : Runs t d
  pc : d.P.pc = c.P.pc + 8
  clause : d.P.clause = c.P.clause.map fun cl => { cl with begun := true }
  passed : d.P.passed = 0
  scalars : SameScalars c d
  lanes : SameLanes c d
  bytes : SameBytes c.s t
  sels : d.G.sels = c.G.sels + 1
  lastSel : d.G.lastSel = c.s.turn

/-- The split as it begins its clause; `waits` are the splits that it has still yielded to. -/
def Split.begins (P : Split) (waits : List Nat) : Split :=
  { P with
    passed := 0, stalled := false, pc := P.pc + 8, yieldTo := waits, clause := P.clause.map fun cl => { cl with begun := true } }

theorem begin_split {c : Cx} (hP : c.G.splits.find? c.sp = some c.P) : ∃ G waits, c.begin.gangs.find? c.g = some G ∧
    G.splits.find? c.sp = some (c.P.begins waits) ∧ G.v = c.G.v ∧ G.p = c.G.p ∧ G.sels = c.G.sels + 1 ∧ G.lastSel = c.s.turn := by
  have found : (c.G.unyield c.sp).splits.find? c.sp = some { c.P with yieldTo := c.P.yieldTo.filter (· != c.sp) } := by
    simp only [Gang.unyield, mapVals_find?, hP, Option.map_some]
  unfold Cx.begin
  refine ⟨_, bif c.G.releases (c.s.pstat c.G.fn == 2) then [] else c.P.yieldTo.filter (· != c.sp),
    (Store.find?_put ..).trans (if_pos rfl), ?_, rfl, rfl, rfl, rfl⟩
  rw [mapVals_find?, found]
  cases c.G.releases (c.s.pstat c.G.fn == 2) <;> simp [Split.begins]

/-- What the selection of a split leaves, from the point at which its quarter has chosen it. -/
theorem begin_begins {c : Cx} (hP : c.G.splits.find? c.sp = some c.P) : ∃ d, Begins c c.begin d := by
  obtain ⟨G, waits, hG, hS, hv, hp, hsels, hlast⟩ := begin_split hP
  exact ⟨⟨c.begin, c.g, c.sp, G, c.P.begins waits⟩,
    { runs := ⟨rfl, by simp only [State.cx?, hG, hS, Option.bind_some, Option.map_some]⟩
      pc := rfl, clause := rfl, passed := rfl, scalars := ⟨rfl, rfl⟩, lanes := ⟨hv, hp⟩, bytes := begin_bytes c
      sels := hsels, lastSel := hlast }⟩

/-- The context as its quarter takes a turn. -/
def Cx.turned (c : Cx) : Cx := { c with s := { c.s with turn := c.s.turn + 1 } }

namespace Selectable

variable {s : State} {c : Cx} {cl : Clause}

theorem turned (h : Selectable s c cl) : Selectable { s with turn := s.turn + 1 } c.turned cl := by
  have hs := (cx?_s h.there).1
  refine { h with there := ?_ }
  exact (cx?_of_gangs h.there { s with turn := s.turn + 1 } rfl).trans (by rw [Cx.turned, hs])

/-- An issue opportunity of the quarter begins the clause. -/
theorem exec_issueOpportunity (h : Selectable s c cl) (hh : s.halved = false) :
    exec (.issueOpportunity c.G.quarterNo) s = .next c.turned.begin := by
  have whole : (s.halved && !s.skipped.contains c.G.quarterNo) = false := by simp [hh]
  have hG := (cx?_found h.there).1
  have chosen : State.chosen { s with turn := s.turn + 1 } c.G = some c.sp := h.turned.chosen
  have there : State.cx? { s with turn := s.turn + 1 } c.g c.sp = some c.turned := h.turned.there
  show execIssueOpportunity _ s = _
  simp only [execIssueOpportunity, h.not_running, h.not_unsettled, whole, h.midClause_none, h.resumed_none, h.tried_none,
    h.selectGang, hG, chosen, there, Bool.or_self, Bool.false_eq_true, if_false, Option.bind_some, Option.map_none, Option.none_or,
    Option.or_none, ite_self, Option.getD_some]

/-- So does the bound on how often it is passed over. -/
theorem exec_splitStarvationBound (h : Selectable s c cl) (hp : 1024 ≤ c.P.passed) :
    exec (.splitStarvationBound c.g c.sp) s = .next c.turned.begin := by
  have hs := (cx?_s h.there).1
  show execSplitStarvationBound _ _ s = _
  simp [execSplitStarvationBound, h.there, h.readyAt, hp, h.selectGang, h.chosen, h.not_running, h.midClause_none, h.resumed_none,
    h.not_unsettled, Cx.turned, hs]

theorem begins (h : Selectable s c cl) : ∃ d, Begins c.turned c.turned.begin d := begin_begins (c := c.turned) (cx?_found h.there).2

end Selectable

/-! ### The choice among the splits of a gang -/

theorem Store.between_of_find? {α : Type} {m : Store α} {n : Nat} {x : α} (h : m.find? n = some x) (hr : m.rising = true) :
    ∃ below above : Store α, m = below ++ (n, x) :: above ∧ ∀ q ∈ below, q.1 < n := by
  rw [Store.rising_iff_pairwise] at hr
  induction m with
  | nil => cases h
  | cons q r ih =>
    obtain ⟨k, v⟩ := q
    obtain ⟨hk, hr⟩ := List.pairwise_cons.1 hr
    by_cases hn : n = k
    · simp only [Store.find?, hn, if_true, Option.some.injEq] at h
      exact ⟨[], r, by rw [hn, h]; rfl, by simp⟩
    · simp only [Store.find?, hn, if_false] at h
      obtain ⟨below, above, rfl, hb⟩ := ih h hr
      refine ⟨(k, v) :: below, above, rfl, fun q hq => ?_⟩
      rcases List.mem_cons.1 hq with rfl | hq
      · exact hk (n, x) (by simp)
      · exact hb q hq

/-- The opportunity goes to the lowest ready split where none has been passed over too often. -/
theorem choose_lowest {G : Gang} {i : Nat} {P : Split} (h : G.splits.find? i = some P) (hr : G.splits.rising = true)
    (hP : P.readyAt = true) (hy : P.yieldTo = []) (hpass : ∀ q ∈ G.splits, q.2.passed < 1024)
    (hlow : ∀ q ∈ G.splits, q.1 < i → q.2.readyAt = false) : G.choose false = some i := by
  obtain ⟨below, above, hs, hb⟩ := Store.between_of_find? h hr
  have ready : P.ready = true := by simp [Split.ready, hP, hy]
  have none_below : below.filter (fun q => q.2.ready) = [] := by
    refine List.filter_eq_nil_iff.2 fun q hq => ?_
    simp [Split.ready, hlow q (by simp [hs, hq]) (hb q hq)]
  have may : G.may false Split.ready = (i, P) :: above.filter fun q => q.2.ready := by
    simp [Gang.may, Store.keep, hs, none_below, ready]
  have pool : G.readySplits false = (i, P) :: above.filter fun q => q.2.ready := by
    simp [Gang.readySplits, Gang.releases, may]
  have fresh : List.find? (fun q : Nat × Split => decide (1024 ≤ q.2.passed)) (G.readySplits false) = none := by
    refine List.find?_eq_none.2 fun q hq => ?_
    have hm : q ∈ G.may false Split.ready := by rw [may, ← pool]; exact hq
    have := hpass q (List.mem_filter.1 hm).1
    simp; omega
  rw [pool] at fresh
  simp only [Gang.choose, pool, fresh]
  rfl

/-! ### The obligation -/

theorem clause_fetched {s : State} {c : Cx} {g sp : Nat} {k : Code} (h : s.cx? g sp = some c) (hc : s.cur = none)
    (hs : c.G.splits = [(sp, c.P)]) (hh : c.P.atHeader = true) (hf : c.fetchHeld c.P.pc = false)
    (hk : c.fetch c.P.pc = .ok k) (hd : clauseDefect k.header k.words = false) (hfr : c.G.fresh = false) (hcl : c.P.closed = false) :
    exec (.clauseFetch g sp) s = .next (c.fetched.enterClause k) := by
  obtain ⟨hcs, rfl, rfl⟩ := cx?_s h
  have only : c.G.splits.keys = [c.sp] := by simp [hs, Store.keys]
  have alone : Store.update (c.fetched.enterClause k).gangs c.g (fun G => G.regang c.sp) = (c.fetched.enterClause k).gangs := by
    rw [enterClause_eq]
    exact regang_flush_only only
  have idle : (c.fetched.enterClause k).cur = none := by
    rw [enterClause_eq, flush_cur, fetched_cur, hcs, hc]
  rw [exec_clauseFetch h hc hh hf]
  simp only [hk, hd, hfr, hcl, Bool.false_and, Bool.false_eq_true, if_false, alone]
  exact congrArg Host.Outcome.next (idle_eq idle)

/-- The context once the waits of a header of its clause are over. -/
def Cx.headerMet (c : Cx) (cl : Clause) : State :=
  let d := (headerPoints cl.header).foldl Cx.met c
  let k := headerThreshold cl.header 2
  let e := if k = 15 then d else d.covers2 k
  ({ e with
    G := { e.G with flags := (headerPoints cl.header).foldl (fun m q => Store.set false m q false) c.G.flags }
    P := { e.P with clause := some { cl with waited := true } } } : Cx).flush

theorem headerMet_cur (c : Cx) (cl : Clause) : (c.headerMet cl).cur = c.s.cur := by
  refine Eq.trans ?_ (met_cur (headerPoints cl.header) c)
  unfold Cx.headerMet
  rw [flush_cur]
  show (Cx.s (if _ then _ else _)).cur = _
  split
  · rfl
  · exact covers2_cur _ _

theorem header_waited {s : State} {c : Cx} {g sp : Nat} {cl : Clause} (h : s.cx? g sp = some c) (hc : s.cur = none)
    (hcl : c.P.clause = some cl) (hw : cl.waited = false) (hp : c.P.parked = none) (hh : c.headerHolds cl.header = true)
    (hpt : ∀ q ∈ headerPoints cl.header, (((s.teams.find? c.G.team).getD {}).points.get {} q).expect ≠ 0 ∧ Ours c q) :
    exec (.headerWaitSatisfied g sp) s = .next (c.headerMet cl) := by
  obtain ⟨hcs, rfl, rfl⟩ := cx?_s h
  have found := findPoints_ours fun q hq => (hpt q hq).2
  have configured : ((headerPoints cl.header).any fun q => (((c.s.teams.find? c.G.team).getD {}).points.get {} q).expect == 0) = false := by
    rw [hcs]
    exact List.any_eq_false.2 fun q hq => by simpa using (hpt q hq).1
  have idle : (c.headerMet cl).cur = none := by rw [headerMet_cur, hcs, hc]
  refine congrArg Host.Outcome.next ((onSplit_idle h hc _).trans ?_)
  simp only [hcl, found, configured, hw, hp, hh, Option.isSome_none, Bool.or_self, Bool.not_true, Bool.false_eq_true, if_false, if_true]
  exact idle_eq idle

theorem meet_freed {s : State} {c : Cx} {g sp : Nat} (h : s.cx? g sp = some c) (hc : s.cur = none) (hw : c.P.wait = some .held)
    (he : c.G.holdEnds sp = true) : exec (.meetHoldEnd g sp) s = .next c.freed := by
  refine congrArg Host.Outcome.next ((onSplit_idle h hc _).trans ?_)
  simp only [hw, he, and_self, if_true]
  exact idle_eq (((cx?_s h).1 ▸ hc : c.s.cur = none))

theorem opportunity_skipped {s : State} {q : Nat} (hr : s.running q = false) (hu : s.unsettled q = false) (hh : s.halved = true)
    (hs : s.skipped.contains q = false) :
    exec (.issueOpportunity q) s = .next { s with turn := s.turn + 1, skipped := s.skipped ++ [q] } := by
  have half : (s.halved && !s.skipped.contains q) = true := by rw [hh, hs]; rfl
  show execIssueOpportunity _ s = _
  simp only [execIssueOpportunity, hr, hu, half, Bool.or_self, Bool.false_eq_true, if_false, if_true]

/-- Settles O45: a clause's fetch, the ends of its waits and holds, and the two events that select it, as the lemmas above say. -/
theorem clausesAreEnteredAndSelected : Obligations.ClausesAreEnteredAndSelected := by
  unfold Obligations.ClausesAreEnteredAndSelected
  refine ⟨?_, fun s c g sp cl h hc hcl hw hp hh hpt => header_waited h hc hcl hw hp hh hpt, fun s c g sp => meet_freed,
    fun s q => opportunity_skipped, ?_, fun G i P => choose_lowest⟩
  · intro s c g sp k h hc hs hcl hw hp hsv ho hm hf
    have hh := atHeader_of_idle hcl hw hp hsv ho hm
    refine ⟨fun code a x hk => ?_, fun hk hd => ?_, fun hk hd hfr hclosed => ?_⟩
    · rw [exec_clauseFetch h hc hh hf, hk]
    · rw [exec_clauseFetch h hc hh hf, hk]
      simp only [hd, if_true]
    · rw [clause_fetched h hc hs hh hf hk hd hfr hclosed, enterClause_eq]
      rfl
  · intro s c g sp q cl h hc hhalf hg hs hq hcl hwd hb hw hp hsv hlog hpstat hst
    obtain ⟨hcs, rfl, rfl⟩ := cx?_s h
    subst hq
    have sel : Selectable s c cl := ⟨h, hc, hg, hs, hcl, hwd, hb, hw, hp, hsv, hlog, hpstat, hst⟩
    obtain ⟨d, hd⟩ := sel.begins
    have begun : d.P.clause = some { cl with begun := true } := hd.clause.trans (by simp [Cx.turned, hcl])
    refine ⟨⟨_, d, sel.exec_issueOpportunity hhalf, hd.runs, hd.pc, begun, hd.scalars, hd.lanes, hcs ▸ hd.bytes, hd.sels, ?_⟩,
      fun hpass => ⟨_, d, sel.exec_splitStarvationBound hpass, hd.runs, hd.pc, begun, hd.passed⟩⟩
    exact hd.lastSel.trans (by rw [← hcs]; rfl)

end Sys2Proof.Machine
end

section
/-! SUPPORT. Ranks, scans and reductions over the included lanes (04 R102, R104; 03 R78 to R80): the one lane-register write each of
them is. -/

namespace Sys2Proof.Machine

/-- The per-position table of a lane computation holds no column beyond the type's elements. -/
theorem columns_getD {α : Type} (n : Nat) (col : Nat → List α) (e : Nat) :
    ((List.range n).map col).getD e [] = if e < n then col e else [] := by
  rw [List.getD_eq_getElem?_getD]
  by_cases h : e < n <;> simp [h]

/-- A scan or reduction whose registers lie below V, with an empty window, writes each included lane the elements `col` gives it. -/
theorem crossLane_here {c : Cx} {f : Tri} (col : List (Nat × Nat) → List (Nat × Nat)) (hd : c.fits f.dst f.ty = true)
    (ha : c.fits f.a f.ty = true) (hw : c.window f.ctl = 0) :
    c.crossLane f col = (c.withLanes (c.included f.ctl) f.dst.vNum f.ty.is64 fun l => ofElems f.ty fun e =>
      (Store.find? (if e < f.ty.count
        then col ((lanesOf (c.included f.ctl)).map fun k => (k, elem f.ty (c.vsrc f.a f.ty k) e)) else []) l).getD 0).retire := by
  simp only [Cx.crossLane, hd, ha, results_here _ hw, columns_getD]
  rfl

/-- A vector form without sources whose destination lies below V writes each included lane its value. -/
theorem vector_sourceless {c : Cx} {k : Ctl} {t : ETy} {dst : Operand} (hd : c.fits dst t = true) (f : Nat → Nat) :
    c.vector k t dst [] f = (c.withLanes (c.included k) dst.vNum t.is64 f).retire := by
  simp only [Cx.vector, hd]
  rfl

/-- The lanes of a mask that satisfy `p`, among all lane numbers. -/
theorem filter_lanesOf (m : Mask) (p : Nat → Bool) :
    (lanesOf m).filter p = (List.range 96).filter fun k => m.getLsbD k && p k := by
  simp only [lanesOf, List.filter_filter, Bool.and_comm]

/-- What a reduction gives each included lane: the root of the tree over the lane positions, or its empty value. -/
def reduceColumn (t : ETy) (op : Nat) (xs : List (Nat × Nat)) : List (Nat × Nat) :=
  xs.map fun q => (q.1, (treeOf t op ((List.range 96).map fun l => Store.find? xs l)).getD (emptyValue t op))

/-- The three forms are one lane computation, each with its own column. -/
def columnForms : List ((Tri → Instr) × (Tri → List (Nat × Nat) → List (Nat × Nat))) :=
  [ (.xscan, fun f => scanList f.ty f.mod.toNat true none), (.xscanx, fun f => scanList f.ty f.mod.toNat false none)
  , (.xred, fun f => reduceColumn f.ty f.mod.toNat) ]

theorem exec_column : ∀ p ∈ columnForms, ∀ (f : Tri) (s : State), exec (p.1 f) s = s.issue fun c => c.crossLane f (p.2 f) := by
  simp only [columnForms, List.forall_mem_cons]
  exact ⟨fun _ _ => rfl, fun _ _ => rfl, fun _ _ => rfl, List.forall_mem_nil _⟩

theorem exec_lrank (f : Sys) (s : State) : exec (.lrank f) s = s.issue fun c =>
    c.vector f.ctl .n32 f.dst [] fun l => ((lanesOf (c.included f.ctl)).filter fun k => decide (k < l)).length := rfl

/-- Settles O13: the scans and the reduction are one lane computation, and lrank counts the lanes of the mask below. -/
theorem crossLaneResult : Obligations.CrossLaneResult := by
  intro s c f y hr m column give
  refine ⟨fun hd ha hw => ?_, fun hd => givesLanes hr ?_⟩
  · have gives : ∀ p ∈ columnForms, GivesLanes s c (p.1 f) m f.dst.vNum f.ty.is64 (give (p.2 f)) := fun p hp =>
      givesLanes hr (by rw [exec_column p hp, issue_of_runs hr, crossLane_here _ hd ha hw])
    simp only [columnForms, List.forall_mem_cons] at gives
    obtain ⟨scan, scanx, red, -⟩ := gives
    exact ⟨scan, scanx, red⟩
  · rw [exec_lrank, issue_of_runs hr, vector_sourceless hd]
    simp only [filter_lanesOf]
    rfl

end Sys2Proof.Machine
end

section
/-! SUPPORT. Forms that write one register per issue (05 R108 to R129): the one scalar, lane or predicate write each of them is once its
registers lie below V, and the comparisons that are such a predicate write. -/

namespace Sys2Proof.Machine

/-! ### One write -/

theorem sNum_lt (o : Operand) : o.sNum < 64 := by
  cases o with
  | s n => exact n.isLt
  | v _ | x _ => exact Nat.zero_lt_succ 63

/-- A vector form whose registers lie below V writes each included lane its value. -/
theorem vector_fits {c : Cx} {k : Ctl} {t : ETy} {dst : Operand} {srcs : List (Operand × ETy)} (hd : c.fits dst t = true)
    (hs : ∀ q ∈ srcs, c.fits q.1 q.2 = true) (f : Nat → Nat) :
    c.vector k t dst srcs f = (c.withLanes (c.included k) dst.vNum t.is64 f).retire := by
  rw [Cx.vector, hd, List.all_eq_true.2 hs]
  rfl

/-- A predicate form whose sources lie below V writes its predicate in the included lanes. -/
theorem predicate_fits {c : Cx} {k : Ctl} {dst : Operand} {srcs : List (Operand × ETy)}
    (hs : ∀ q ∈ srcs, c.fits q.1 q.2 = true) (f : Nat → Bool) : c.predicate k dst srcs f =
      (c.setP dst.vNum (maskOf fun l => (c.included k).getLsbD l && f l) (c.included k)).retire := by
  rw [Cx.predicate, List.all_eq_true.2 hs]
  rfl

section
variable {s : State} {c : Cx} {i : Instr} {k : Ctl} {t : ETy} {dst : Operand} {srcs : List (Operand × ETy)}

/-- An instruction that issues as a scalar form gives its value extended to its register (05 R109). -/
theorem givesScalar_scalar {x : Nat} (hr : Runs s c) (he : exec i s = .next (c.scalar t dst x)) :
    GivesScalar s c i dst.sNum (extendS t x) := givesScalar hr (sNum_lt dst) he

/-- An instruction that issues as a vector form gives its lanes. -/
theorem givesLanes_vector {f : Nat → Nat} (hr : Runs s c) (he : exec i s = .next (c.vector k t dst srcs f)) (hd : c.fits dst t = true)
    (hs : ∀ q ∈ srcs, c.fits q.1 q.2 = true) : GivesLanes s c i (c.included k) dst.vNum t.is64 f :=
  givesLanes hr (by rw [he, vector_fits hd hs])

/-- An instruction that issues as a predicate form gives its predicate. -/
theorem givesPredicate_predicate {f : Nat → Bool} (hr : Runs s c) (he : exec i s = .next (c.predicate k dst srcs f))
    (hs : ∀ q ∈ srcs, c.fits q.1 q.2 = true) :
    GivesPredicate s c i dst.vNum (c.included k) fun l => (c.included k).getLsbD l && f l :=
  givesPredicate hr (by rw [he, predicate_fits hs])

end

/-! ### Fields of MOD -/

/-- A field of one bit is that bit. -/
theorem bitsN_bit (m : BitVec 8) (n : Nat) : (bitsN m.toNat n n == 1) = m.getLsbD n := by
  rw [BitVec.getLsbD, Nat.testBit_eq_decide_div_mod_eq, bitsN, Nat.add_sub_cancel_left, Nat.pow_one]
  exact Bool.eq_iff_iff.2 (by rw [beq_iff_eq, decide_eq_true_iff])

/-- Bits 2:0 and bits 6:0 are remainders. -/
theorem bitsN_two (x : Nat) : bitsN x 2 0 = x % 8 := congrArg (· % 8) (Nat.div_one x)
theorem bitsN_six (x : Nat) : bitsN x 6 0 = x % 128 := congrArg (· % 128) (Nat.div_one x)

/-! ### Comparisons (05 R111, R121, R122, R129) -/

section
variable {s : State} {c : Cx} (h : Runs s c) (f : Tri) (g : Imm)
include h

theorem exec_vcmp : exec (.vcmp f) s = .next (c.predicate f.ctl f.dst [(f.a, f.ty), (f.b, f.ty)] fun l =>
    overElems f.ty (f.mod.getLsbD 3) fun e =>
      condElem f.ty (f.mod.toNat % 8) (elem f.ty (c.vsrc f.a f.ty l) e) (elem f.ty (c.vsrc f.b f.ty l) e)) := by
  refine (issue_of_runs h _).trans ?_
  rw [bitsN_bit, bitsN_two]

theorem exec_fclass : exec (.fclass f) s = .next (c.predicate f.ctl f.dst [(f.a, f.ty)] fun l =>
    overElems f.ty (f.mod.getLsbD 7) fun e => classMask f.ty (elem f.ty (c.vsrc f.a f.ty l) e) &&& f.mod.toNat % 128 != 0) := by
  refine (issue_of_runs h _).trans ?_
  rw [bitsN_bit, bitsN_six]

theorem exec_fcmpi : exec (.fcmpi g) s = .next (c.predicate g.ctl g.dst [(g.a, g.ty)] fun l =>
    overElems g.ty (g.mod.getLsbD 3) fun e =>
      condElem g.ty (g.mod.toNat % 8) (elem g.ty (c.vsrc g.a g.ty l) e) (immElem g.ty g.imm e)) := by
  refine (issue_of_runs h _).trans ?_
  rw [bitsN_bit, bitsN_two]

end

/-- The float comparison is the integer one: what differs is in the condition of the type. -/
theorem exec_fcmp (f : Tri) (s : State) : exec (.fcmp f) s = exec (.vcmp f) s := rfl

/-- Settles O11: each comparison is a predicate form over the elements of its sources. -/
theorem compareResult : Obligations.CompareResult := by
  intro s c f g hr past holds
  refine ⟨fun ha hb => ?_, fun ha => ?_, fun ha => ?_⟩
  · have sources : ∀ q ∈ [(f.a, f.ty), (f.b, f.ty)], c.fits q.1 q.2 = true := by simp [ha, hb]
    exact ⟨givesPredicate_predicate hr (exec_vcmp hr f) sources,
      givesPredicate_predicate hr ((exec_fcmp f s).trans (exec_vcmp hr f)) sources⟩
  · exact givesPredicate_predicate hr (exec_fclass hr f) (List.forall_mem_singleton.2 ha)
  · exact givesPredicate_predicate hr (exec_fcmpi hr g) (List.forall_mem_singleton.2 ha)

end Sys2Proof.Machine
end

section
/-! SUPPORT. Conversions, selects, packing and twin elements (05 R116, R117, R122 to R128): each is one vector form over its sources. -/

namespace Sys2Proof.Machine

/-! ### Conversions (05 R117, R123) -/

theorem cvtInt_eq (dst src : ETy) (sat : Bool) (x : Nat) : cvtInt dst src sat x =
    ((if sat = true then max (intMin dst) (min (intMax dst) (valueOf src x)) else valueOf src x) %
      (2 ^ dst.width : Nat)).toNat := rfl

/-- Each conversion places its element code by the part rule. -/
theorem exec_conversion : ∀ p ∈ convertForms, ∀ (f : Tri) (s : State), exec (p.1 f) s = s.issue fun c => c.convert f (p.2 f) := by
  simp only [convertForms, List.forall_mem_cons]
  refine ⟨fun f s => ?_, fun _ _ => rfl, fun _ _ => rfl, fun _ _ => rfl, List.forall_mem_nil _⟩
  show s.issue (fun c => c.convert f fun src x => cvtInt f.ty src (bitsN f.mod.toNat 5 5 == 1) x) = _
  simp only [cvtInt_eq, beq_iff_eq]

/-- A conversion from a known source type is one vector form of that source. -/
theorem exec_conversion_vector {p : (Tri → Instr) × (Tri → ETy → Nat → Nat)} (hp : p ∈ convertForms) {s : State} {c : Cx}
    {f : Tri} {src : ETy} (hr : Runs s c) (h : ETy.ofCode? (bitsN f.mod.toNat 4 0) = some src) :
    exec (p.1 f) s = .next (c.vector f.ctl f.ty f.dst [(f.a, src)] fun l =>
      partPlace f.ty src (bitsN f.mod.toNat 7 6) (c.vsrc f.dst f.ty l) fun e => p.2 f src (elem src (c.vsrc f.a src l) e)) := by
  rw [exec_conversion p hp, issue_of_runs hr, Cx.convert, h]

/-- Settles O7: the four forms are one conversion, each with its own element code. -/
theorem conversionResult : Obligations.ConversionResult := fun _ hp _ _ _ _ hr hsrc hd ha =>
  givesLanes_vector hr (exec_conversion_vector hp hr hsrc) hd (List.forall_mem_singleton.2 ha)

/-! ### Selects, packing and twin elements (05 R116, R122, R124 to R128) -/

section
variable {s : State} {c : Cx} (h : Runs s c) (f : Tri)
include h

theorem exec_vsel : exec (.vsel f) s = .next (c.vector f.ctl f.ty f.dst [(f.a, f.ty), (f.b, f.ty)] fun l =>
    if (c.G.pred f.mod.toNat).getLsbD l then c.vsrc f.a f.ty l else c.vsrc f.b f.ty l) := issue_of_runs h _

/-- fsel picks a source, and so the source's value. -/
theorem exec_fsel : exec (.fsel f) s = .next (c.vector f.ctl f.ty f.dst [(f.a, f.ty), (f.b, f.ty)] fun l => ofElems f.ty
    (elem f.ty (if (c.G.pred f.mod.toNat).getLsbD l then c.vsrc f.a f.ty l else c.vsrc f.b f.ty l))) := by
  have value : ∀ l, c.vsrc (if (c.G.pred f.mod.toNat).getLsbD l then f.a else f.b) f.ty l =
      if (c.G.pred f.mod.toNat).getLsbD l then c.vsrc f.a f.ty l else c.vsrc f.b f.ty l :=
    fun l => apply_ite (c.vsrc · f.ty l) _ _ _
  refine (issue_of_runs h _).trans ?_
  simp only [value]

theorem exec_vbfi : exec (.vbfi f) s = .next (c.vector f.ctl f.ty f.dst [(f.a, f.ty), (f.b, f.ty), (f.c, f.ty)] fun l =>
    ofElems f.ty fun e => bfiW f.ty.width (elem f.ty (c.vsrc f.a f.ty l) e) (elem f.ty (c.vsrc f.b f.ty l) e)
      (elem f.ty (c.vsrc f.c f.ty l) e) (elem f.ty (c.vsrc f.dst f.ty l) e)) := issue_of_runs h _

theorem exec_fscale : exec (.fscale f) s = .next (c.vector f.ctl f.ty f.dst [(f.a, f.ty), (f.b, .i32)] fun l =>
    ofElems f.ty fun e => scaleCode f.ty (elem f.ty (c.vsrc f.a f.ty l) e) (signedOf 32 (c.vsrc f.b .i32 l))) := issue_of_runs h _

/-- fdot2 and fdot4 are one dot product, of as many terms as the type has elements. -/
theorem exec_fdot : exec (.fdot2 f) s = .next (c.dot f) ∧ exec (.fdot4 f) s = .next (c.dot f) :=
  ⟨issue_of_runs h _, issue_of_runs h _⟩

/-- fpack rounds the element it picks: of vA, then of vB. -/
theorem exec_fpack {src : ETy} (hs : ETy.ofCode? f.mod.toNat = some src) :
    exec (.fpack f) s = .next (c.vector f.ctl f.ty f.dst [(f.a, src), (f.b, src)] fun l => ofElems f.ty fun e =>
      roundNum f.ty (numOf src (if e < src.count then elem src (c.vsrc f.a src l) e
        else elem src (c.vsrc f.b src l) (e - src.count)))) := by
  refine (issue_of_runs h _).trans ?_
  simp only [hs, convCode, apply_ite (fun x => roundNum f.ty (numOf src x))]

/-- funpack, its registers below V, writes the pair of its destination in each included lane. -/
theorem exec_funpack {src : ETy} (hs : ETy.ofCode? f.mod.toNat = some src) (hd : c.fitsN f.dst 2 = true)
    (ha : c.fits f.a src = true) : exec (.funpack f) s = .next (c.withLanes (c.included f.ctl) f.dst.vNum true fun l =>
      ofElems f.ty (fun e => roundNum f.ty (numOf src (elem src (c.vsrc f.a src l) (0 + e)))) +
        2 ^ 32 * ofElems f.ty fun e => roundNum f.ty (numOf src (elem src (c.vsrc f.a src l) (f.ty.count + e)))).retire := by
  refine (issue_of_runs h _).trans ?_
  simp only [hs, hd, ha]
  rfl

theorem exec_ftwin : exec (.ftwin f) s = .next (c.vector f.ctl (if f.mod.getLsbD 3 then .fp32 else .t32) f.dst
    [(f.a, f.ty), (f.b, .i32)] fun l => roundNum (if f.mod.getLsbD 3 then .fp32 else .t32)
      (twinValue f.ty (elem f.ty (c.vsrc f.a f.ty l) (f.mod.toNat % 8))
        (if c.vsrc f.b .i32 l / 2 ^ (16 + f.mod.toNat % 8) % 2 = 1 then signedOf 8 (c.vsrc f.b .i32 l / 256)
          else signedOf 8 (c.vsrc f.b .i32 l)))) := by
  have format : (if bitsN f.mod.toNat 3 3 = 0 then ETy.t32 else .fp32) = if f.mod.getLsbD 3 then .fp32 else .t32 := by
    have bit : bitsN f.mod.toNat 3 3 = 0 ↔ f.mod.getLsbD 3 = false := by
      rw [← bitsN_bit, beq_eq_false_iff_ne, bitsN]
      omega
    simp only [bit]
    cases f.mod.getLsbD 3 <;> rfl
  refine (issue_of_runs h _).trans ?_
  rw [format, bitsN_two]

end

/-- The result formats of the dot products and of ftwin take one register. -/
theorem is64_ite (p : Prop) [Decidable p] : (if p then ETy.fp32 else .t32).is64 = false := by
  split <;> rfl

/-- Settles O8: each form is one vector form; funpack, which writes a pair from one register, is one write of lanes of its own. -/
theorem mixedElementResult : Obligations.MixedElementResult := by
  intro s c f hr m d dot pick src twinFmt
  refine ⟨fun hd ha hb => ?_, fun hd ha hb hc => ?_, fun hd ha hb => ?_, fun hd ha hb hc => ?_, fun hs hd ha hb => ?_,
    fun hs hd ha => ?_, fun hd ha hb => ?_⟩
  · have sources : ∀ q ∈ [(f.a, f.ty), (f.b, f.ty)], c.fits q.1 q.2 = true := by simp [ha, hb]
    exact ⟨givesLanes_vector hr (exec_vsel hr f) hd sources, givesLanes_vector hr (exec_fsel hr f) hd sources⟩
  · exact givesLanes_vector hr (exec_vbfi hr f) hd (by simp [ha, hb, hc])
  · exact givesLanes_vector hr (exec_fscale hr f) hd (by simp [ha, hb])
  · have sources : ∀ q ∈ [(f.a, f.ty), (f.b, f.ty), (f.c, dotFmt f)], c.fits q.1 q.2 = true := by simp [ha, hb, hc]
    obtain ⟨two, four⟩ := exec_fdot hr f
    rw [← show (dotFmt f).is64 = false from is64_ite _]
    exact ⟨givesLanes_vector hr two hd sources, givesLanes_vector hr four hd sources⟩
  · exact givesLanes_vector hr (exec_fpack hr f hs) hd (by simp [ha, hb])
  · exact givesLanes hr (exec_funpack hr f hs hd ha)
  · rw [← show twinFmt.is64 = false from is64_ite _]
    exact givesLanes_vector hr (exec_ftwin hr f) hd (by simp [ha, hb])

end Sys2Proof.Machine
end

section
/-! SUPPORT. The scalar forms (05 R109 to R115): each issues as one scalar write, and in .n64 as one operation of 64-bit words. -/

namespace Sys2Proof.Machine

/-! ### Each form is one scalar write -/

theorem exec_scalar : ∀ p ∈ scalarForms, ∀ (f : Tri) (s : State), exec (p.1 f) s = s.issue fun c => c.scalar f.ty f.dst
    (p.2 f (c.ssrc f.a f.ty) (c.ssrc f.b f.ty) (c.ssrc f.c f.ty) ((c.sreg f.dst.sNum).toNat % 2 ^ f.ty.width)) := by
  simp only [scalarForms, List.forall_mem_cons, List.not_mem_nil, false_implies, implies_true, and_true]
  and_intros
  all_goals exact fun _ _ => rfl

theorem exec_scalarImm : ∀ p ∈ scalarImmForms, ∀ (f : Imm) (s : State), exec (p.1 f) s = s.issue fun c =>
    c.scalar f.ty f.dst (p.2 f c (c.ssrc f.a f.ty) (immElem f.ty f.imm 0)) := by
  simp only [scalarImmForms, List.forall_mem_cons, List.not_mem_nil, false_implies, implies_true, and_true]
  and_intros
  all_goals exact fun _ _ => rfl

theorem scalarArithmeticResult : ScalarArithmeticResult := by
  intro p hp s c f hr
  refine givesScalar_scalar hr ?_
  rw [exec_scalar p hp, issue_of_runs hr]

theorem scalarImmediateResult : ScalarImmediateResult := by
  intro p hp s c f hr
  refine givesScalar_scalar hr ?_
  rw [exec_scalarImm p hp, issue_of_runs hr]

/-! ### Arithmetic of 64-bit words (05 R110, R112, R113) -/

/-- A word is the .n64 result whose value its number is. -/
theorem extendS_n64_eq {n : Nat} {w : Word} (h : n = w.toNat) : extendS .n64 n = w :=
  BitVec.eq_of_toNat_eq (by simp [extendS, ETy.width, h, w.isLt])

/-- A source register in .n64 is read whole. -/
theorem ssrc_n64 (c : Cx) (n : BitVec 6) : c.ssrc (.s n) .n64 = (c.sreg n.toNat).toNat :=
  Nat.mod_eq_of_lt (c.sreg n.toNat).isLt

/-- An element of an unsigned 64-bit type is the number of its word. -/
theorem valueOf_n64 (x : Word) : valueOf .n64 x.toNat = (x.toNat : Int) :=
  congrArg Int.ofNat (Nat.mod_eq_of_lt x.isLt)

/-- An integer that a natural number gives is wrapped as that number. -/
theorem wrap_natCast (n m : Nat) : ((n : Int) % (m : Int)).toNat = n % m := Int.toNat_natCast (n % m)

section
variable (x y : Word)

theorem sub_word : (((x.toNat : Int) - y.toNat) % (2 ^ 64 : Nat)).toNat = (x - y).toNat := by
  rw [BitVec.toNat_sub]
  have := x.isLt
  have := y.isLt
  omega

theorem andn_word : x.toNat &&& (2 ^ 64 - 1 - y.toNat % 2 ^ 64) = (x &&& ~~~y).toNat := by
  rw [BitVec.toNat_and, BitVec.toNat_not, Nat.mod_eq_of_lt y.isLt]

theorem div_word : (if y.toNat % 2 ^ 64 = 0 then 2 ^ 64 - 1
    else ((valueOf .n64 x.toNat).tdiv (valueOf .n64 y.toNat) % (2 ^ 64 : Nat)).toNat) =
      (if y = 0 then BitVec.allOnes 64 else x / y).toNat := by
  rw [Nat.mod_eq_of_lt y.isLt, valueOf_n64, valueOf_n64, ← Int.ofNat_tdiv, wrap_natCast]
  by_cases h : y = 0
  · simp [h]
  · have hy : y.toNat ≠ 0 := fun e => h (BitVec.eq_of_toNat_eq e)
    rw [if_neg hy, if_neg h, BitVec.toNat_udiv, Nat.mod_eq_of_lt (Nat.lt_of_le_of_lt (Nat.div_le_self _ _) x.isLt)]

theorem rem_word : (if y.toNat % 2 ^ 64 = 0 then x.toNat % 2 ^ 64
    else ((valueOf .n64 x.toNat).tmod (valueOf .n64 y.toNat) % (2 ^ 64 : Nat)).toNat) =
      (if y = 0 then x else x % y).toNat := by
  rw [Nat.mod_eq_of_lt y.isLt, Nat.mod_eq_of_lt x.isLt, valueOf_n64, valueOf_n64, ← Int.ofNat_tmod, wrap_natCast]
  by_cases h : y = 0
  · simp [h]
  · have hy : y.toNat ≠ 0 := fun e => h (BitVec.eq_of_toNat_eq e)
    rw [if_neg hy, if_neg h, BitVec.toNat_umod, Nat.mod_eq_of_lt (Nat.lt_of_le_of_lt (Nat.mod_le _ _) x.isLt)]

/-- A shift left by 64 or more leaves nothing, as the shift of words does. -/
theorem shl_word : (if 64 ≤ y.toNat then 0 else x.toNat * 2 ^ y.toNat % 2 ^ 64) = (x <<< y.toNat).toNat := by
  rw [BitVec.toNat_shiftLeft, Nat.shiftLeft_eq]
  split
  case isTrue h => exact (Nat.mod_eq_zero_of_dvd (Nat.dvd_mul_left_of_dvd (Nat.pow_dvd_pow 2 h) _)).symm
  case isFalse => rfl

theorem shr_word : (if 64 ≤ y.toNat then 0 else x.toNat % 2 ^ 64 / 2 ^ y.toNat) = (x >>> y.toNat).toNat := by
  rw [BitVec.toNat_ushiftRight, Nat.shiftRight_eq_div_pow, Nat.mod_eq_of_lt x.isLt]
  split
  case isTrue h => exact (Nat.div_eq_of_lt (Nat.lt_of_lt_of_le x.isLt (Nat.pow_le_pow_right (by decide) h))).symm
  case isFalse => rfl

end

/-- In .n64 the table's results are those of the word operations. -/
theorem scalarWordArithmetic : ScalarWordArithmetic := by
  intro s c f d a b hr ht hd ha hb x y
  have forms := fun p hp => scalarArithmeticResult p hp s c f hr
  simp only [ht, hd, ha, hb, ssrc_n64, scalarForms, List.forall_mem_cons] at forms
  obtain ⟨add, sub, mul, -, div, rem, and, or, xor, andn, shl, shr, -⟩ := forms
  have word : ∀ {i n w}, n = BitVec.toNat w → GivesScalar s c i d.toNat (extendS .n64 n) → GivesScalar s c i d.toNat w :=
    fun h g => extendS_n64_eq h ▸ g
  exact ⟨word (BitVec.toNat_add x y).symm add, word (sub_word x y) sub, word (BitVec.toNat_mul x y).symm mul,
    word (BitVec.toNat_and x y).symm and, word (BitVec.toNat_or x y).symm or, word (BitVec.toNat_xor x y).symm xor,
    word (andn_word x y) andn, word (div_word x y) div, word (rem_word x y) rem, word (shl_word x y) shl, word (shr_word x y) shr⟩

/-- Settles O4: every form is one scalar write of its table's value, which in .n64 is the word operation's. -/
theorem scalarFormResult : Obligations.ScalarFormResult := ⟨scalarArithmeticResult, scalarWordArithmetic, scalarImmediateResult⟩

end Sys2Proof.Machine
end

section
/-! SUPPORT. Matrix and accumulator operations (06 R143 to R147, R149): the checks they share, and their acceptance into the pair's
queue with the rows of memory they name. -/

namespace Sys2Proof.Machine

/-! ### Rows of this package (06 R145) -/

theorem rowsHere_nil : rowsHere [] := List.forall_mem_nil _

theorem rowsHere_append {ra rb : List MatRow} : rowsHere (ra ++ rb) ↔ rowsHere ra ∧ rowsHere rb := List.forall_mem_append

/-- Rows of this package need no requests. -/
theorem askRows_here (id : Nat) : ∀ (c : Cx) {rows : List MatRow}, rowsHere rows → c.askRows id rows = (c, rows)
  | _, [], _ => rfl
  | c, r :: rs, h => by
    obtain ⟨⟨k, hsrc, hk⟩, hrs⟩ := List.forall_mem_cons.1 h
    have asked : c.askMove id { src := r.src, dst := 0, len := 32, valid := 256, srcVa := r.va, dstVa := 0 } =
        (c, { src := r.src, dst := 0, len := 32, valid := 256, srcVa := r.va, dstVa := 0 }) := by
      simp [Cx.askMove, hsrc, hk]
    simp only [Cx.askRows, asked, askRows_here id c hrs]

theorem rowsReachable_here (c : Cx) {rows : List MatRow} (h : rowsHere rows) (k : State) : c.rowsReachable rows k = k := by
  rw [Cx.rowsReachable]
  split
  case h_1 r hr =>
    obtain ⟨q, hsrc, hq⟩ := h r (List.mem_of_find?_eq_some hr)
    have away := List.find?_some hr
    simp [hsrc, hq] at away
  case h_2 => rfl

/-! ### The checks of the role, the tiles and ACTIVE (06 R143, steps 2 to 4) -/

/-- The roles that may use accumulators (06 R135). -/
def Cx.tileRole (c : Cx) : Prop := c.G.role = .matrix ∨ c.G.role = .vector

theorem Cx.tileRole.allows {c : Cx} (h : c.tileRole) : c.G.role = .matrix ∨ false = false ∧ c.G.role = .vector :=
  h.imp_right fun hv => ⟨rfl, hv⟩

section
variable {c : Cx} {only : Bool} {tiles : List Nat} {k : State}

theorem matRole_passes (hr : c.G.role = .matrix ∨ only = false ∧ c.G.role = .vector) (ht : ∀ t ∈ tiles, t < c.team.tiles) :
    c.matRole only tiles k = k := by
  have role : (!(c.G.role == .matrix || (!only && c.G.role == .vector))) = false := by
    rcases hr with h | ⟨h, hv⟩ <;> simp [*]
  have below : (tiles.any fun t => decide (c.team.tiles ≤ t)) = false := by
    simpa using ht
  simp [Cx.matRole, role, below]

theorem matRole_faults (hm : c.G.role ≠ .matrix) (hv : only = true ∨ c.G.role ≠ .vector) :
    c.matRole only tiles k = c.fault 0x08 := by
  have role : (!(c.G.role == .matrix || (!only && c.G.role == .vector))) = true := by
    rcases hv with h | h <;> simp [*]
  rw [Cx.matRole, if_pos role]

theorem matChecks_passes (hr : c.G.role = .matrix ∨ only = false ∧ c.G.role = .vector) (ha : c.P.active ≠ 0)
    (ht : ∀ t ∈ tiles, t < c.team.tiles) : c.matChecks only tiles k = k := by
  rw [Cx.matChecks, matRole_passes hr ht, if_neg ha]

theorem matChecks_empty (hr : c.G.role = .matrix ∨ only = false ∧ c.G.role = .vector) (ha : c.P.active = 0)
    (ht : ∀ t ∈ tiles, t < c.team.tiles) : c.matChecks only tiles k = c.retire := by
  rw [Cx.matChecks, matRole_passes hr ht, if_pos ha]

end

/-! ### Acceptance into the pair's queue (06 R144) -/

/-- With room in k1 and in the queue, an operation on rows of this package is accepted. -/
theorem accept_queues {c : Cx} (kind : MatKind) (tile : Nat) {ra rb : List MatRow} (hk : c.G.k 1 < 63) (hp : c.pairCount < 16)
    (ha : rowsHere ra) (hb : rowsHere rb) : c.accept kind tile ra rb = (queuedOp c kind tile ra rb).retire := by
  rw [Cx.accept, if_neg (Nat.not_le.2 hk), if_neg (Nat.not_le.2 hp)]
  simp only [askRows_here _ _ ha, askRows_here _ _ hb, ite_self]
  rfl

/-- What an accumulator or matrix instruction needs besides its role and its tiles: lanes, and room for one operation. -/
def Cx.matReady (c : Cx) : Prop := c.P.active ≠ 0 ∧ c.G.k 1 < 63 ∧ c.pairCount < 16

/-- A form without memory operands, its checks passed, is queued. -/
theorem accumulator_queued {c : Cx} {tiles : List Nat} (kind : MatKind) (tile : Nat) (hr : c.tileRole) (hc : c.matReady)
    (ht : ∀ t ∈ tiles, t < c.team.tiles) :
    c.matChecks false tiles (c.accept kind tile [] []) = (queuedOp c kind tile [] []).retire := by
  obtain ⟨ha, hk, hp⟩ := hc
  rw [matChecks_passes hr.allows ha ht, accept_queues kind tile hk hp rowsHere_nil rowsHere_nil]

/-! ### azero, acvt and aadd (06 R146, R149) -/

section
variable {s : State} {c : Cx} (h : Runs s c) (f : Mat)
include h

/-- MOD bits 6:1 hold the count of azero less 1. -/
theorem exec_azero : exec (.azero f) s = .next (c.matChecks false ((List.range (f.mod.toNat / 2 % 64 + 1)).map (f.tile.toNat + ·))
    (c.accept (.azero (f.mod.toNat / 2 % 64 + 1) (f.mod.getLsbD 0)) f.tile.toNat [] [])) := issue_of_runs h _

theorem exec_acvt : exec (.acvt f) s = .next (c.matChecks false [f.tile.toNat, f.a.vNum]
    (c.accept (.acvt f.a.vNum (f.mod.getLsbD 0)) f.tile.toNat [] [])) := issue_of_runs h _

theorem exec_aadd : exec (.aadd f) s = .next (c.matChecks false [f.tile.toNat, f.a.vNum]
    (c.accept (.aadd f.a.vNum) f.tile.toNat [] [])) := issue_of_runs h _

end

/-- The tiles from `tile` on lie below the team's number. -/
theorem tileRange_below {tile n bound : Nat} (h : tile + n ≤ bound) : ∀ t ∈ (List.range n).map (tile + ·), t < bound := by
  simp only [List.forall_mem_map, List.mem_range]
  omega

/-! ### aload and astore (06 R147) -/

theorem exec_aload {s : State} {c : Cx} (h : Runs s c) (m : Mem) :
    exec (.aload m) s = .next (c.tileMove m .read (.aload (m.ty == .t32))) := issue_of_runs h _

theorem exec_astore {s : State} {c : Cx} (h : Runs s c) (m : Mem) :
    exec (.astore m) s = .next (c.tileMove m .write .astore) := issue_of_runs h _

/-- Where a tile's 4 KiB lie. -/
abbrev Cx.tileAt (c : Cx) (m : Mem) : Nat := offset (c.sreg m.base.sNum).toNat m.offs

/-- The rows of 4 KiB of the team's window. -/
def Cx.windowRows (c : Cx) (x : Nat) : List MatRow :=
  (tileVas x).map fun a => { src := .key (c.windowKey a), va := 0, brick := none, pos := 0 }

/-- The rows of 4 KiB of memory, by the pages they lie in. -/
def pageRows (pages : Store Nat) (x : Nat) : List MatRow :=
  (tileVas x).map fun a => { src := .key (pageKey pages a), va := a, brick := none, pos := 0 }

section
variable {c : Cx} {m : Mem} (acc : Acc) (kind : MatKind) (hr : c.tileRole) (hc : c.matReady) (ht : m.data.vNum < c.team.tiles)
  (ha : c.tileAt m % 128 = 0)
include hr hc ht ha

/-- A move between a tile and the team's window. -/
theorem tileMove_window (hs : m.space = 2) (hw : c.tileAt m + 4096 ≤ c.team.window)
    (hh : rowsHere (c.windowRows (c.tileAt m))) :
    c.tileMove m acc kind = (queuedOp c kind m.data.vNum (c.windowRows (c.tileAt m)) []).retire := by
  obtain ⟨hact, hk, hp⟩ := hc
  simp only [Cx.tileMove, matChecks_passes hr.allows hact (List.forall_mem_singleton.2 ht), ne_eq, ha, not_true_eq_false, if_false, hs,
    if_true, Nat.not_lt.2 hw]
  exact accept_queues kind _ hk hp hh rowsHere_nil

/-- A move between a tile and pages that are admitted, which leaves `t`. -/
theorem tileMove_memory {t : State} {pages : Store Nat} (hs : m.space ≠ 2)
    (hf : ∀ a ∈ tileVas (c.tileAt m), c.s.heldVa c.G.fn a = false) (hh : rowsHere (pageRows pages (c.tileAt m)))
    (hm : t.mats = c.s.mats)
    (hp : c.s.admitPages c.G.fn (c.s.launchOf c.G).agent acc (pageFirsts (tileVas (c.tileAt m))) = .inr (t, pages)) :
    c.tileMove m acc kind = (queuedOp { c with s := t } kind m.data.vNum (pageRows pages (c.tileAt m)) []).retire := by
  obtain ⟨hact, hk, hroom⟩ := hc
  have free : ¬(tileVas (c.tileAt m)).any (c.s.heldVa c.G.fn) = true := by simpa using hf
  have room : ({ c with s := t } : Cx).pairCount < 16 := by
    rw [Cx.pairCount, hm]
    exact hroom
  simp only [tileVas] at free hp
  simp only [Cx.tileMove, matChecks_passes hr.allows hact (List.forall_mem_singleton.2 ht), ne_eq, ha, not_true_eq_false, if_false, hs,
    free, hp]
  exact (rowsReachable_here _ hh _).trans (accept_queues kind _ hk room hh rowsHere_nil)

end

/-! ### mma and mmaz (06 R143) -/

/-- mma and mmaz are one multiplication; mmaz starts from zero. -/
theorem exec_multiply {s : State} {c : Cx} (h : Runs s c) (f : Mat) :
    ∀ p ∈ [(Instr.mma f, false), (Instr.mmaz f, true)], exec p.1 s = .next (c.multiply f p.2) := by
  simp only [List.forall_mem_cons]
  exact ⟨issue_of_runs h _, issue_of_runs h _, List.forall_mem_nil _⟩

/-- The operands of a multiplication pass its checks: aligned, whole, free, and translated to rows of this package (06 R143, steps 5
to 7). -/
structure OperandsTaken (c : Cx) (f : Mat) (as_ bs : List Chunk) (ma mb : Store Nat) : Prop where
  aligned : ∀ o ∈ [f.a, f.b], (c.sreg o.sNum).field 63 48 = 0 → (c.sreg o.sNum).field 6 0 = 0
  chunksA : c.s.operandChunks c.G.fn (c.sreg f.a.sNum) 3 (f.sprs != 0) = as_.map some
  chunksB : c.s.operandChunks c.G.fn (c.sreg f.b.sNum) (colsB f.ta f.sprs.toNat) false = bs.map some
  free : ∀ q ∈ as_ ++ bs, c.s.heldVa c.G.fn q.va = false
  pagesA : c.s.translatePages c.G.fn (pageFirsts (as_.map (·.va))) = .inr ma
  pagesB : c.s.translatePages c.G.fn (pageFirsts (bs.map (·.va))) = .inr mb
  here : rowsHere (rowsOf as_ ma ++ rowsOf bs mb)

theorem multiply_queued {c : Cx} {f : Mat} (zero : Bool) {as_ bs : List Chunk} {ma mb : Store Nat} (hr : c.G.role = .matrix)
    (hc : c.matReady) (ht : f.tile.toNat < c.team.tiles) (ho : OperandsTaken c f as_ bs ma mb) :
    c.multiply f zero = (queuedOp c (.mma zero (f.mod.getLsbD 0) f.ta f.tb (sparseN f.ta f.sprs.toNat) f.scl.toNat) f.tile.toNat
      (rowsOf as_ ma) (rowsOf bs mb)).retire := by
  obtain ⟨hact, hk, hp⟩ := hc
  obtain ⟨hra, hrb⟩ := rowsHere_append.1 ho.here
  have straight : ∀ o ∈ [f.a, f.b], ((c.sreg o.sNum).field 63 48 == 0 && (c.sreg o.sNum).field 6 0 != 0) = false :=
    fun o h => by simpa using ho.aligned o h
  simp only [List.forall_mem_cons] at straight
  obtain ⟨straightA, straightB, -⟩ := straight
  have whole (cs : List Chunk) : (cs.map some).any Option.isNone = false := by simp
  have chunks (cs : List Chunk) : (cs.map some).filterMap id = cs := by simp
  have free : (as_ ++ bs).any (fun q => c.s.heldVa c.G.fn q.va) = false :=
    List.any_eq_false.2 fun q hq => Bool.eq_false_iff.1 (ho.free q hq)
  simp only [Cx.multiply, matChecks_passes (.inl hr) hact (List.forall_mem_singleton.2 ht), straightA, straightB, ho.chunksA,
    ho.chunksB, whole, chunks, free, ho.pagesA, ho.pagesB, Bool.false_eq_true, if_false]
  exact (rowsReachable_here _ ho.here _).trans (accept_queues _ _ hk hp hra hrb)

/-! ### The statement -/

/-- A gang of another role takes the fault of code 8, whatever the form (06 R135; 06 R143 step 2). -/
theorem tileForms_fault {s : State} {c : Cx} (h : Runs s c) (hr : ¬c.tileRole) (f : Mat) (m : Mem) :
    ∀ i ∈ [Instr.azero f, .acvt f, .aadd f, .aload m, .astore m], exec i s = .next (c.fault 0x08) := by
  obtain ⟨hm, hv⟩ := not_or.1 hr
  have faults : ∀ tiles k, c.matChecks false tiles k = c.fault 0x08 := fun _ _ => matRole_faults hm (.inr hv)
  simp only [List.forall_mem_cons, exec_azero h, exec_acvt h, exec_aadd h, exec_aload h, exec_astore h, Cx.tileMove, faults, true_and]
  exact List.forall_mem_nil _

/-- Settles O30: each form's checks pass, and its operation is accepted with the rows they found. -/
theorem matrixOperationsAccepted : Obligations.MatrixOperationsAccepted := by
  intro s t c f m hr tag n x va role window memory
  have hs := hr.state
  refine ⟨fun hrole hact hk hp => ?_, fun hm hact hk hp ht as_ bs ma mb hd ha hb hf hma hmb hh p hp' => ?_, fun hrole hact ht => ?_,
    fun hm => ?_, fun hrole => tileForms_fault hr hrole f m⟩
  · have ready : c.matReady := ⟨hact, hk, hp⟩
    refine ⟨fun ht => ?_, fun ht hta => ?_, fun ht hva => ⟨fun hsp hw hh => ?_, fun pages hsp hf hh hmats => ?_⟩⟩
    · rw [exec_azero hr, accumulator_queued _ _ hrole ready (tileRange_below ht)]
    · have below : ∀ t ∈ [f.tile.toNat, f.a.vNum], t < c.team.tiles := by simp [ht, hta]
      rw [exec_acvt hr, exec_aadd hr, accumulator_queued _ _ hrole ready below, accumulator_queued _ _ hrole ready below]
      exact ⟨rfl, rfl⟩
    · rw [exec_aload hr, exec_astore hr]
      exact ⟨congrArg _ (tileMove_window .read _ hrole ready ht hva hsp hw hh),
        congrArg _ (tileMove_window .write _ hrole ready ht hva hsp hw hh)⟩
    · subst hs
      rw [exec_aload hr, exec_astore hr]
      exact ⟨fun hadm => congrArg _ (tileMove_memory .read _ hrole ready ht hva hsp hf hh hmats hadm),
        fun hadm => congrArg _ (tileMove_memory .write _ hrole ready ht hva hsp hf hh hmats hadm)⟩
  · subst hs
    rw [exec_multiply hr f p hp', multiply_queued p.2 hm ⟨hact, hk, hp⟩ ht ⟨hd, ha, hb, hf, hma, hmb, hh⟩]
  · rw [exec_azero hr, matChecks_empty (Cx.tileRole.allows hrole) hact (tileRange_below ht)]
  · have faults : ∀ p ∈ [(Instr.mma f, false), (Instr.mmaz f, true)], exec p.1 s = .next (c.fault 0x08) := fun p hp => by
      rw [exec_multiply hr f p hp, Cx.multiply, Cx.matChecks, matRole_faults hm (.inl rfl)]
    simp only [List.forall_mem_cons] at faults
    obtain ⟨mma, mmaz, -⟩ := faults
    exact ⟨mma, mmaz⟩

end Sys2Proof.Machine
end

section
/-! SUPPORT. Tile elements that lanes read and write (06 R148): which lanes name one, and what a row of writes leaves of each. -/

namespace Sys2Proof.Machine

/-! ### Rows of writes -/

/-- Of a row of writes to a table, the last one to a key stands. -/
theorem Store.find?_foldl_put {α β : Type} (key : β → Nat) (val : β → α) (k : Nat) : ∀ (l : List β) (m : Store α),
    (l.foldl (fun m b => m.put (key b) (val b)) m).find? k =
      (l.reverse.find? fun b => key b == k).elim (m.find? k) fun b => some (val b)
  | [], _ => rfl
  | b :: r, m => by
    rw [List.foldl_cons, find?_foldl_put key val k r, List.reverse_cons, List.find?_append]
    cases r.reverse.find? fun b => key b == k with
    | some a => rfl
    | none => by_cases h : key b = k <;> simp [h, Ne.symm]

/-- Writes of tile elements change only the table of the tiles. -/
theorem foldl_setTileElem {β : Type} (team pair tile : Nat) (e : β → Nat) (x : β → Lane32) (l : List β) (s : State) :
    l.foldl (fun s b => s.setTileElem team pair tile (e b) (x b)) s =
      { s with tiles := l.foldl (fun m b => m.put (tileKey team pair tile (e b)) (x b)) s.tiles } :=
  List.foldl_hom (fun m => { s with tiles := m }) fun _ _ => rfl

/-! ### Lanes that name an element -/

theorem lanesOf_maskOf (p : Nat → Bool) : lanesOf (maskOf p) = (List.range 96).filter p :=
  List.filter_congr fun l hl => by rw [maskOf_lane, decide_eq_true (List.mem_range.1 hl), Bool.true_and]

/-- The lanes of ACTIVE that name an element, as a mask. -/
def Cx.tileMask (c : Cx) (f : Mat) : Mask := maskOf fun l => c.P.active.getLsbD l && decide (c.tileIndex f l < 1024)

theorem tileLanes_eq (c : Cx) (f : Mat) : c.tileLanes f = lanesOf (c.tileMask f) := by
  simp only [Cx.tileLanes, Cx.tileMask, filter_lanesOf, lanesOf_maskOf, Nat.lt_succ_iff]

/-! ### The checks -/

/-- With the role, the tile and the registers, nothing of the gang's own that writes tiles being queued, the access is made. -/
theorem tileAccess_passes {c : Cx} {f : Mat} (hr : c.tileRole) (ht : f.tile.toNat < c.team.tiles)
    (ha : c.fits f.a .n32 = true) (hb : c.fits f.b .n32 = true) (ho : ∀ q ∈ c.s.mats, q.2.g = c.g → q.2.kind = .astore) (k : State) :
    c.tileAccess f k = k := by
  have idle : c.s.earlier c.s.handle c.G.team c.G.pair [f.tile.toNat] (fun o => o.g == c.g && o.kind != .astore) = false := by
    refine List.any_eq_false.2 fun q hq => ?_
    by_cases hg : q.2.g = c.g
    · simp [ho q hq hg]
    · simp [hg]
  simp only [Cx.tileAccess, ha, hb, idle, matRole_passes hr.allows (List.forall_mem_singleton.2 ht)]
  rfl

/-! ### aread and awrite -/

/-- The table of the tiles once the lanes have written. -/
def Cx.tilesWritten (c : Cx) (f : Mat) : Store Lane32 :=
  (c.tileLanes f).foldl (fun m l => m.put (tileKey c.G.team c.G.pair f.tile.toNat (c.tileIndex f l)) (c.vreg f.a.vNum l)) c.s.tiles

/-- The context once awrite's lanes have written. -/
def Cx.awritten (c : Cx) (f : Mat) : Cx := { c with s := { c.s with tiles := c.tilesWritten f } }

section
variable {s : State} {c : Cx} (h : Runs s c) (f : Mat) (hp : ∀ k, c.tileAccess f k = k)
include h hp

/-- With an empty window, aread gives each lane that names an element its bits. -/
theorem exec_aread (hw : c.window f.ctl = 0) : exec (.aread f) s = .next (c.withLanes (c.tileMask f) f.a.vNum false
    fun l => (c.s.tileElem c.G.team c.G.pair f.tile.toNat (c.tileIndex f l)).toNat).retire := by
  refine (issue_of_runs h _).trans ?_
  simp only [hp, results_here _ hw, tileLanes_eq, Cx.withLanes, laneWrites, BitVec.ofNat_toNat, BitVec.setWidth_eq, Bool.false_eq_true,
    if_false, List.map_eq_flatMap]
  rfl

theorem exec_awrite : exec (.awrite f) s = .next (c.awritten f).retire := by
  refine (issue_of_runs h _).trans ?_
  rw [hp, foldl_setTileElem]
  rfl

end

/-- Each element holds what the highest lane that names it wrote. -/
theorem tilesWritten_find? (c : Cx) (f : Mat) (k : Nat) : (c.tilesWritten f).find? k =
    ((List.range 96).reverse.find? fun l => (c.tileMask f).getLsbD l &&
      tileKey c.G.team c.G.pair f.tile.toNat (c.tileIndex f l) == k).elim (c.s.tiles.find? k) fun l => some (c.vreg f.a.vNum l) := by
  rw [Cx.tilesWritten, Store.find?_foldl_put, tileLanes_eq, lanesOf, ← List.filter_reverse, List.find?_filter]
  simp only [Bool.decide_and, Bool.decide_eq_true]

/-- The split runs on in the state that awrite leaves. -/
theorem awritten_runs {s : State} {c : Cx} (h : Runs s c) (f : Mat) : Runs (c.awritten f).s (c.awritten f) := by
  obtain rfl := h.state
  exact ⟨h.1, cx?_of_gangs h.2 (c.awritten f).s rfl⟩

/-- Settles O31: aread is one write of lane registers, awrite one row of writes to the tiles. -/
theorem tileElementAccess : Obligations.TileElementAccess := by
  intro s c f hr hrole ht ha hb ho index m place
  obtain rfl := hr.state
  have passes := tileAccess_passes hrole ht ha hb ho
  refine ⟨fun hw => givesLanes hr (exec_aread hr f passes hw), fun hc => ?_⟩
  obtain ⟨d, hd, scalars, active, lanes, predicates⟩ :=
    onlyRegisters_retire (d := c.awritten f) (awritten_runs hr f) hc rfl rfl rfl rfl rfl
  have tiles : (c.awritten f).retire.tiles = c.tilesWritten f := by rw [hd.world]; rfl
  refine ⟨_, d, exec_awrite hr f passes, hd.runs, hd.pc, ⟨scalars, active⟩, ⟨lanes, predicates⟩, hd.bytes, ?_, fun k => ?_⟩
  · rw [tiles]
    exact hd.world
  · rw [tiles]
    refine (tilesWritten_find? c f k).trans ?_
    split
    case h_1 l last => exact congrArg (Option.elim · _ _) last
    case h_2 unwritten => exact congrArg (Option.elim · _ _) unwritten

end Sys2Proof.Machine
end
